-- ==== Sys2Proof/Word.lean ====
section
/-! DEFINITION. The word types of the AZ9 and the shape of its keyed tables: bytes, 32-bit and 64-bit register
contents, 96-bit instruction words, and the canonical association list that every sparse table of the state uses. -/

namespace Sys2Proof

/-- One byte of memory or scratch (R190, R69). -/
abbrev Byte := BitVec 8

/-- One 32-bit register, scratch word or port word (R219). -/
abbrev Word := BitVec 32

/-- One 64-bit register pair or latch (R69, R219). -/
abbrev DWord := BitVec 64

/-- One instruction word (R189). -/
abbrev IWord := BitVec 96

/-- A sparse table: keys strictly rising; what an unlisted key reads as is given where it is read. -/
abbrev FMap (α : Type) := List (Nat × α)

end Sys2Proof
end

