-- ==== Sys2Proof/Machine/Map.lean ====
section
/-! DEFINITION. The sparse tables of the state: association lists with strictly rising keys, and the memory table in
its one canonical form (no byte equal to what an unlisted address reads as). -/

namespace Sys2Proof.Machine

/-- The value of key k. -/
def mget {α : Type} : FMap α → Nat → Option α
  | [], _ => none
  | (j, v) :: m, k => if j = k then some v else mget m k

/-- The value of key k, d where k is unlisted. -/
def mgetD {α : Type} (m : FMap α) (k : Nat) (d : α) : α := (mget m k).getD d

/-- Key k is listed. -/
def mhas {α : Type} (m : FMap α) (k : Nat) : Bool := (mget m k).isSome

/-- Set key k. -/
def mset {α : Type} : FMap α → Nat → α → FMap α
  | [], k, x => [(k, x)]
  | (j, v) :: m, k, x =>
    if k < j then (k, x) :: (j, v) :: m
    else if j = k then (k, x) :: m
    else (j, v) :: mset m k x

/-- Remove key k. -/
def mdel {α : Type} : FMap α → Nat → FMap α
  | [], _ => []
  | (j, v) :: m, k => if j = k then m else (j, v) :: mdel m k

/-- Change the value of key k, starting from d where it is unlisted. -/
def mupd {α : Type} (m : FMap α) (k : Nat) (d : α) (f : α → α) : FMap α := mset m k (f (mgetD m k d))

/-- Set or clear a flag. -/
def mflag (m : FMap Unit) (k : Nat) (b : Bool) : FMap Unit := if b then mset m k () else mdel m k

/-- What an address that no entry lists reads as: 0 (DESIGN CHOICE, see the assumption log). [DESIGN CHOICE: log 1] -/
def unlistedByte : Byte := 0

/-- One byte of memory. [DESIGN CHOICE: log 1] -/
def bget (m : List Host.Cell) (a : Nat) : Byte := mgetD m a unlistedByte

/-- Store one byte, keeping the canonical form. -/
def bset (m : List Host.Cell) (a : Nat) (b : Byte) : List Host.Cell :=
  if b = unlistedByte then mdel m a else mset m a b

/-- Every key is above k, and the keys rise strictly. -/
def keysRise {α : Type} : Nat → FMap α → Bool
  | _, [] => true
  | k, (j, _) :: m => decide (k ≤ j) && keysRise (j + 1) m

/-- The canonical form of memory: addresses strictly rising, no entry equal to what an unlisted address reads as. [DESIGN CHOICE: log 1] -/
def Memory.wf (m : List Host.Cell) : Bool :=
  keysRise 0 m && m.all fun c => !(c.2 = unlistedByte)

/-- n bytes from address a. -/
def bgetN (m : List Host.Cell) (a : Nat) : Nat → List Byte
  | 0 => []
  | n + 1 => bget m a :: bgetN m (a + 1) n

/-- Store bytes from address a upward. -/
def bsetL (m : List Host.Cell) : Nat → List Byte → List Host.Cell
  | _, [] => m
  | a, b :: bs => bsetL (bset m a b) (a + 1) bs

/-- Little-endian value of bytes (R69). -/
def leNat : List Byte → Nat
  | [] => 0
  | b :: bs => b.toNat + 256 * leNat bs

/-- The n low bytes of a value, little-endian (R69). -/
def natLe : Nat → Nat → List Byte
  | 0, _ => []
  | n + 1, v => BitVec.ofNat 8 v :: natLe n (v / 256)

/-- The field of n bytes at offset o of a record. -/
def leAt (bs : List Byte) (o n : Nat) : Nat := leNat ((bs.drop o).take n)

/-- Bits [lo + len - 1 : lo] of a number. -/
def nbits (v lo len : Nat) : Nat := (v >>> lo) % 2 ^ len

/-- Two's complement value of the low w bits. -/
def toSigned (w v : Nat) : Int :=
  let u := v % 2 ^ w
  if u < 2 ^ (w - 1) then (u : Int) else (u : Int) - (2 ^ w : Nat)

/-- The low w bits of an integer. -/
def ofSigned (w : Nat) (i : Int) : Nat := (i % ((2 ^ w : Nat) : Int)).toNat

/-- Replace element i of a list. -/
def lset {α : Type} : List α → Nat → α → List α
  | [], _, _ => []
  | _ :: xs, 0, y => y :: xs
  | x :: xs, n + 1, y => x :: lset xs n y

/-- The lanes 0 to n - 1 of a mask, ascending (R4). -/
def lanesOf (mask : BitVec 32) : List Nat := (List.range 32).filter fun l => mask.getLsbD l

/-- The mask of a list of lanes. -/
def maskOf (ls : List Nat) : BitVec 32 := ls.foldl (fun m l => m ||| (1#32 <<< l)) 0

/-- Quotient rounded up. -/
def ceilDiv (a b : Nat) : Nat := (a + b - 1) / b

/-- Add with saturation at 2^w - 1. -/
def satAdd (w a b : Nat) : Nat := min (a + b) (2 ^ w - 1)

end Sys2Proof.Machine
end

