-- ==== Sys2Proof/Machine/Flags.lean ====
section
/-! DEFINITION. Integer arithmetic on elements (R69, R70, R233 to R247), the SAT bit of every saturating form (R79), and
the conditions of ICMP. Elements are natural numbers below 2 to the element width. -/

namespace Sys2Proof.Machine

/-- Element width of MOD[5:4] (R233). -/
def elemW (k : Nat) : Nat := if k = 0 then 32 else if k = 1 then 64 else if k = 2 then 16 else 8
/-- Element count of MOD[5:4] (R233). -/
def elemE (k : Nat) : Nat := if k = 2 then 2 else if k = 3 then 4 else 1

/-- The elements of a value, element 0 first (R69). -/
def elems (w : Nat) : Nat → Nat → List Nat
  | 0, _ => []
  | n + 1, v => v % 2 ^ w :: elems w n (v / 2 ^ w)

/-- A value from its elements. -/
def joinEl (w : Nat) : List Nat → Nat
  | [] => 0
  | e :: es => e % 2 ^ w + 2 ^ w * joinEl w es

/-- Clamp an exact result, and whether it changed (R234). -/
def clampTo (w : Nat) (lo hi v : Int) : Nat × Bool :=
  if v < lo then (ofSigned w lo, true) else if hi < v then (ofSigned w hi, true) else (ofSigned w v, false)

/-- Smallest signed value of w bits. -/
def smin (w : Nat) : Int := -((2 ^ (w - 1) : Nat) : Int)
/-- Largest signed value of w bits. -/
def smax (w : Nat) : Int := ((2 ^ (w - 1) : Nat) : Int) - 1

/-- A sum or difference in one of the three forms: 0 wrap, 1 signed clamp, 2 unsigned clamp (R236). -/
def addSub (sub : Bool) (form w a b : Nat) : Nat × Bool :=
  if form = 1 then
    let x := toSigned w a
    let y := toSigned w b
    clampTo w (smin w) (smax w) (if sub then x - y else x + y)
  else if form = 2 then
    clampTo w 0 (((2 ^ w : Nat) : Int) - 1) (if sub then (a : Int) - b else (a : Int) + b)
  else (ofSigned w (if sub then (a : Int) - b else (a : Int) + b), false)

/-- IMUL: the low half of the product (R237). -/
def mulLow (w a b : Nat) : Nat := a * b % 2 ^ w
/-- IMULH: the high half of the signed product (R237). -/
def mulHigh (w a b : Nat) : Nat := ofSigned (2 * w) (toSigned w a * toSigned w b) / 2 ^ w
/-- IMULHN: the high half of the unsigned product (R237). -/
def mulHighN (w a b : Nat) : Nat := a * b / 2 ^ w

/-- Signed quotient and remainder with the corners of R70 (R238). -/
def divS (w a b : Nat) : Nat × Nat :=
  if b = 0 then (2 ^ w - 1, a)
  else
    let x := toSigned w a
    let y := toSigned w b
    (ofSigned w (Int.tdiv x y), ofSigned w (Int.tmod x y))

/-- Unsigned quotient and remainder (R238). -/
def divU (w a b : Nat) : Nat × Nat := if b = 0 then (2 ^ w - 1, a) else (a / b, a % b)

/-- INEG (R239). -/
def negEl (sat : Bool) (w a : Nat) : Nat × Bool :=
  if sat then clampTo w (smin w) (smax w) (-(toSigned w a)) else (ofSigned w (-(toSigned w a)), false)
/-- IABS (R239). -/
def absEl (sat : Bool) (w a : Nat) : Nat × Bool :=
  if sat then clampTo w (smin w) (smax w) (toSigned w a).natAbs else (ofSigned w (toSigned w a).natAbs, false)

/-- IMIN and IMAX (R240). -/
def minmaxS (mx : Bool) (w a b : Nat) : Nat :=
  if mx then (if toSigned w a ≤ toSigned w b then b else a) else (if toSigned w a ≤ toSigned w b then a else b)

/-- SHL (R242). -/
def shlEl (w a s : Nat) : Nat := if w ≤ s then 0 else a * 2 ^ s % 2 ^ w
/-- SHRL (R242). -/
def shrlEl (w a s : Nat) : Nat := if w ≤ s then 0 else a / 2 ^ s
/-- SHRA (R242). -/
def shraEl (w a s : Nat) : Nat := ofSigned w (toSigned w a >>> min s w)
/-- ROTL (R242). -/
def rotlEl (w a s : Nat) : Nat :=
  let t := s % w
  (a * 2 ^ t % 2 ^ w) + a / 2 ^ (w - t)

/-- Set bits below bit w. -/
def popEl (w a : Nat) : Nat := ((List.range w).filter fun i => a.testBit i).length
/-- CLZ (R243). -/
def clzEl (w a : Nat) : Nat := if a = 0 then w else w - 1 - Nat.log2 a
/-- CTZ (R243). -/
def ctzEl (w a : Nat) : Nat := ((List.range w).find? fun i => a.testBit i).getD w
/-- BREV (R243). -/
def brevEl (w a : Nat) : Nat := (List.range w).foldl (fun r i => if a.testBit i then r + 2 ^ (w - 1 - i) else r) 0

/-- BFX and BFXN (R244). -/
def bfxEl (sgn : Bool) (w a b : Nat) : Nat :=
  let pos := nbits b 0 8
  let len := min (nbits b 8 8) w
  if len = 0 then 0
  else
    let ext := if sgn then ofSigned 512 (toSigned w a) else a
    let f := nbits ext pos len
    if sgn then ofSigned w (toSigned len f) else f

/-- BFI (R245). -/
def bfiEl (w a b c : Nat) : Nat :=
  let pos := nbits b 0 8
  let len := min (nbits b 8 8) w
  (List.range w).foldl (fun r i =>
    let bit := if pos ≤ i ∧ i < pos + len then a.testBit (i - pos) else c.testBit i
    if bit then r + 2 ^ i else r) 0

/-- ISAT in the forms 0 ss, 1 su, 2 uu (R246). -/
def isatEl (form w a b : Nat) : Nat × Bool :=
  let n := min (b % 128) w
  let x : Int := if form = 2 then (a : Int) else toSigned w a
  let lo : Int := if form = 0 then (if n = 0 then 0 else smin n) else 0
  let hi : Int := if form = 0 then (if n = 0 then 0 else smax n) else ((2 ^ n : Nat) : Int) - 1
  clampTo w lo hi x

/-- The ten conditions of R247 on w-bit values. -/
def icmpCond (cond w a b : Nat) : Bool :=
  let x := toSigned w a
  let y := toSigned w b
  match cond with
  | 0 => a = b
  | 1 => !(a = b)
  | 2 => decide (x < y)
  | 3 => decide (x ≤ y)
  | 4 => decide (y < x)
  | 5 => decide (y ≤ x)
  | 6 => decide (a < b)
  | 7 => decide (a ≤ b)
  | 8 => decide (b < a)
  | _ => decide (b ≤ a)

/-- The combining operations of REDUX and SCAN (R256). -/
def combOp (op w a b : Nat) : Nat :=
  match op with
  | 0 => (a + b) % 2 ^ w
  | 1 => minmaxS false w a b
  | 2 => minmaxS true w a b
  | 3 => min a b
  | 4 => max a b
  | 5 => Nat.land a b
  | 6 => Nat.lor a b
  | _ => Nat.xor a b

/-- Their identities (R256). -/
def combId (op w : Nat) : Nat :=
  match op with
  | 1 => 2 ^ (w - 1) - 1
  | 2 => 2 ^ (w - 1)
  | 3 => 2 ^ w - 1
  | 5 => 2 ^ w - 1
  | _ => 0

end Sys2Proof.Machine
end

