-- ==== Sys2Proof/Config.lean ====
section
/-! DEFINITION. What the spec leaves to one implementation, as constants with no body: nothing in Lean can prove
a value of one. Each is named in the assumption log. -/

namespace Sys2Proof.Config

/-- The six approximate functions of R268: which value inside the bounds of R75 the device delivers.
Arguments: function (0 FRCP, 1 FRSQ, 2 FEXP2, 3 FLOG2, 4 FSIN, 5 FCOS), type code of R262, FTZ, input bits. [DESIGN CHOICE: log 4] -/
opaque approx : Nat → Nat → Bool → Word → Word

/-- A fresh unconstrained bit for the n-th open choice of a run (which of two allowed values is seen). [DESIGN CHOICE: log 3] -/
opaque freeBit : Nat → Bool

/-- A fresh unconstrained number for the n-th open choice of a run (a duration, a row, a place). [DESIGN CHOICE: log 3] -/
opaque freeNat : Nat → Nat

/-- SHA-256 (R438 names it; its definition is outside the spec). [PRESUMED: log 5] -/
opaque sha256 : List Byte → List Byte

/-- HSS signature check against the vendor key in ROM (R438, R439): message, signature. [PRESUMED: log 5] -/
opaque hssVerify : List Byte → List Byte → Bool

/-- The HSS signature of the package's identity key with the given leaf (R441, R442): leaf, message. [PRESUMED: log 5] -/
opaque hssSign : Nat → List Byte → List Byte

/-- The 60-byte identity public key (R435, R441). [PRESUMED: log 5] -/
opaque idPub : List Byte

/-- The 16-byte serial of the package (R442). [PRESUMED: log 5] -/
opaque serial : List Byte

end Sys2Proof.Config
end

