-- ==== Sys2Proof/Syntax.lean ====
section
/-! DEFINITION. The operations and events of spec/opcode_table.json as ONE inductive: one constructor per row.
The 149 rows of the instruction set carry the fields of their 96-bit word (R189); the rows of the other agents
carry what names the event. An event is no word: it reaches the machine through the agenda of the state. -/

namespace Sys2Proof

/-- SPACE of an operand field (07, "Operand fields"). -/
inductive Space where
  | main      -- 00 main file
  | cache     -- 01 operand cache
  | latch     -- 10 latch
  | special   -- 11 immediate or special
  deriving DecidableEq, Repr

/-- A 14-bit operand field: SPACE, INDEX, FLAGS (R191, R192). -/
structure Opnd where
  space : Space
  index : BitVec 8
  flags : BitVec 4
  deriving DecidableEq, Repr

/-- The field 0x0000, which an unused field holds (R194). -/
def Opnd.zero : Opnd := { space := .main, index := 0, flags := 0 }

/-- The fields of an instruction word other than OPC and the reserved bit 0 (R189). -/
structure Form where
  /-- MOD [85:80]. -/
  mod : BitVec 6
  /-- GN [79]. -/
  gn : Bool
  /-- GP [78:76]. -/
  gp : BitVec 3
  /-- D [75:62]. -/
  d : Opnd
  /-- A [61:48]. -/
  a : Opnd
  /-- B [47:34]. -/
  b : Opnd
  /-- IMM [33:6]. -/
  imm : BitVec 28
  /-- STALL [5:3]. -/
  stall : BitVec 3
  /-- YLD [2]. -/
  yld : Bool
  /-- WB [1]. -/
  wb : Bool
  deriving DecidableEq, Repr

/-- The stream an instruction runs in (R203). -/
inductive Stream where
  | wattle
  | fe
  deriving DecidableEq, Repr

/-- One row of spec/opcode_table.json. The rows without arguments stand last. -/
inductive Instr where
  /-- IADD (R236): Adds A and B per element, wrapping or saturating. -/
  | iadd (x : Form)
  /-- ISUB (R236): Subtracts B from A per element, wrapping or saturating. -/
  | isub (x : Form)
  /-- IMUL (R237): Writes the low w bits of the product per element. -/
  | imul (x : Form)
  /-- IMULH (R237): Writes the high half of the signed product per element. -/
  | imulh (x : Form)
  /-- IMULHN (R237): Writes the high half of the unsigned product per element. -/
  | imulhn (x : Form)
  /-- IMAD (R237): Writes the low w bits of A times B plus C per element. -/
  | imad (x : Form)
  /-- IDIV (R238): Signed division truncating toward zero, marking the destination empty until the quotient fills. -/
  | idiv (x : Form)
  /-- IDIVN (R238): Unsigned division, marking the destination empty until the quotient fills. -/
  | idivn (x : Form)
  /-- IREM (R238): Signed remainder, marking the destination empty until the result fills. -/
  | irem (x : Form)
  /-- IREMN (R238): Unsigned remainder, marking the destination empty until the result fills. -/
  | iremn (x : Form)
  /-- INEG (R239): Negates A per element, optionally saturating. -/
  | ineg (x : Form)
  /-- IABS (R239): Takes the absolute value of A per element, optionally saturating. -/
  | iabs (x : Form)
  /-- IMIN (R240): Writes the signed minimum per element. -/
  | imin (x : Form)
  /-- IMAX (R240): Writes the signed maximum per element. -/
  | imax (x : Form)
  /-- IMINN (R240): Writes the unsigned minimum per element. -/
  | iminn (x : Form)
  /-- IMAXN (R240): Writes the unsigned maximum per element. -/
  | imaxn (x : Form)
  /-- AND (R241): Writes the bitwise AND of A and B. -/
  | and (x : Form)
  /-- OR (R241): Writes the bitwise OR of A and B. -/
  | or (x : Form)
  /-- XOR (R241): Writes the bitwise XOR of A and B. -/
  | xor (x : Form)
  /-- ANDN (R241): Writes A AND NOT B. -/
  | andn (x : Form)
  /-- SHL (R242): Shifts A left by an unreduced amount, zeros entering. -/
  | shl (x : Form)
  /-- SHRL (R242): Shifts A right logically by an unreduced amount. -/
  | shrl (x : Form)
  /-- SHRA (R242): Shifts A right arithmetically by an unreduced amount. -/
  | shra (x : Form)
  /-- ROTL (R242): Rotates A left by the amount modulo the width. -/
  | rotl (x : Form)
  /-- POPC (R243): Counts set bits per element. -/
  | popc (x : Form)
  /-- CLZ (R243): Counts leading zero bits per element. -/
  | clz (x : Form)
  /-- CTZ (R243): Counts trailing zero bits per element. -/
  | ctz (x : Form)
  /-- BREV (R243): Reverses the bit order within each element. -/
  | brev (x : Form)
  /-- BFX (R244): Extracts a sign-extended bit field of A described by B. -/
  | bfx (x : Form)
  /-- BFXN (R244): Extracts a zero-extended bit field of A described by B. -/
  | bfxn (x : Form)
  /-- BFI (R245): Inserts the low bits of A into C at the field described by B. -/
  | bfi (x : Form)
  /-- ISAT (R246): Clamps each element of A to an n-bit range and sets SAT if changed. -/
  | isat (x : Form)
  /-- ICMP (R247): Compares A with B and writes a predicate. -/
  | icmp (x : Form)
  /-- SEL (R249): Selects A or B per lane by the truth of C. -/
  | sel (x : Form)
  /-- MOV (R250): Copies A and its poison bit to D. -/
  | mov (x : Form)
  /-- LDI (R198): Writes a 32-bit constant assembled from MOD and IMM. -/
  | ldi (x : Form)
  /-- LEA (R251): Computes a 64-bit address A plus scaled B. -/
  | lea (x : Form)
  /-- FADD (R266): Adds two floats with one rounding. -/
  | fadd (x : Form)
  /-- FSUB (R266): Subtracts two floats with one rounding. -/
  | fsub (x : Form)
  /-- FMUL (R266): Multiplies two floats with one rounding. -/
  | fmul (x : Form)
  /-- FFMA (R266): Computes A times B plus C with one rounding. -/
  | ffma (x : Form)
  /-- FMIN (R269): Delivers the smaller float operand. -/
  | fmin (x : Form)
  /-- FMAX (R269): Delivers the larger float operand. -/
  | fmax (x : Form)
  /-- FDIV (R267): Correctly rounded float division as a long-latency producer. -/
  | fdiv (x : Form)
  /-- FSQRT (R267): Correctly rounded float square root as a long-latency producer. -/
  | fsqrt (x : Form)
  /-- FRCP (R268): Computes a reciprocal within the bounds of R75. -/
  | frcp (x : Form)
  /-- FRSQ (R268): Computes a reciprocal square root within the bounds of R75. -/
  | frsq (x : Form)
  /-- FEXP2 (R268): Computes 2 to the power A within the bounds of R75. -/
  | fexp2 (x : Form)
  /-- FLOG2 (R268): Computes log base 2 of A within the bounds of R75. -/
  | flog2 (x : Form)
  /-- FSIN (R268): Computes the sine of A within the bounds of R75. -/
  | fsin (x : Form)
  /-- FCOS (R268): Computes the cosine of A within the bounds of R75. -/
  | fcos (x : Form)
  /-- FCMP (R273): Compares two f32 values and writes a predicate. -/
  | fcmp (x : Form)
  /-- FCLASS (R274): Writes a one-hot class mask per element. -/
  | fclass (x : Form)
  /-- FRND (R270): Rounds A to an integral value in its type. -/
  | frnd (x : Form)
  /-- FDOT2 (R272): Computes an exact two-term packed dot product plus C, rounded once to f32. -/
  | fdot2 (x : Form)
  /-- FSCALE (R271): Computes A times 2 to the power b with one rounding. -/
  | fscale (x : Form)
  /-- CVT (R277): Converts A between integer and float type codes. -/
  | cvt (x : Form)
  /-- CVTDX (R278): Encodes the active lanes' f32 values as one DX8 or DX6 block. -/
  | cvtdx (x : Form)
  /-- UNDX (R279): Decodes one DX element with its header to f32. -/
  | undx (x : Form)
  /-- MAXABS (R280): Writes the largest magnitude over the active lanes to every active lane. -/
  | maxabs (x : Form)
  /-- BLKSCL (R281): Scales a 32-lane block to a shared power of two and writes scale records with elements. -/
  | blkscl (x : Form)
  /-- QNT (R282): Quantises A times B to an integer with clamping. -/
  | qnt (x : Form)
  /-- DQNT (R283): Dequantises an integer A by f32 scale B. -/
  | dqnt (x : Form)
  /-- RMOD (R286): Writes A modulo a per-lane modulus. -/
  | rmod (x : Form)
  /-- RMAD (R287): Writes (A times B plus C) modulo an immediate modulus. -/
  | rmad (x : Form)
  /-- RSPLIT (R288): Writes the res16 residue of A for one basis channel. -/
  | rsplit (x : Form)
  /-- RMRC (R289): Rebuilds residue values across lane halves with check and optional correction. -/
  | rmrc (x : Form)
  /-- PACK (R284): Assembles halves or bytes of A and B into D. -/
  | pack (x : Form)
  /-- SHFL (R254): Moves A between active lanes within segments. -/
  | shfl (x : Form)
  /-- VOTE (R255): Combines the truth of A over active lanes into a predicate or register. -/
  | vote (x : Form)
  /-- REDUX (R256): Reduces A over active lanes and writes the result to each. -/
  | redux (x : Form)
  /-- SCAN (R257): Writes an inclusive or exclusive running combination over active lanes. -/
  | scan (x : Form)
  /-- MATCH (R258): Writes to each active lane the mask of lanes with equal A. -/
  | matchL (x : Form)
  /-- PAND (R259): ANDs two optionally inverted predicates. -/
  | pand (x : Form)
  /-- POR (R259): ORs two optionally inverted predicates. -/
  | por (x : Form)
  /-- PXOR (R259): XORs two optionally inverted predicates. -/
  | pxor (x : Form)
  /-- PMOV (R260): Moves between predicates and registers in one of four forms. -/
  | pmov (x : Form)
  /-- BRA (R295): Branches active lanes to a relative target. -/
  | bra (x : Form)
  /-- BRX (R295): Branches active lanes to a register target. -/
  | brx (x : Form)
  /-- CALL (R295): Writes the return address and branches to the target. -/
  | call (x : Form)
  /-- RET (R295): Returns active lanes to a register target. -/
  | ret (x : Form)
  /-- MEET (R296): Pushes a meeting address in active lanes, or enters serial mode on overflow. -/
  | meet (x : Form)
  /-- EXIT (R297): Waits for the lanes' acknowledgements and sets their exited bits. -/
  | exit (x : Form)
  /-- SPAWN (R298): Places a new thread per active lane into a basket keyed by entry. -/
  | spawn (x : Form)
  /-- REBASK (R37): Moves active lanes into a basket as new threads, exiting them from the old wattle. -/
  | rebask (x : Form)
  /-- YIELD (R299): Acts as NOP with the yield hint. -/
  | yield (x : Form)
  /-- NOP (R299): Advances the PC only. -/
  | nop (x : Form)
  /-- LOOP (R300): Decrements a counter in the FE and branches while nonzero. -/
  | loop (x : Form)
  /-- LAUNCH (R301): Appends a launch packet to a device launch queue. -/
  | launch (x : Form)
  /-- REGACQ (R231): Acquires a set of extended register blocks or waits for them. -/
  | regacq (x : Form)
  /-- REGREL (R231): Releases held extended register blocks. -/
  | regrel (x : Form)
  /-- SLEEP (R303): Waits on a 64-byte granule for a write or a timeout. -/
  | sleep (x : Form)
  /-- SEND (R304): Enqueues a message on a port, blocking when the channel is full. -/
  | send (x : Form)
  /-- RECV (R305): Takes the oldest message from a port, blocking while empty. -/
  | recv (x : Form)
  /-- LD (R309): Loads from memory or scratch into a destination marked empty until filled. -/
  | ld (x : Form)
  /-- ST (R310): Stores B to memory or scratch with store bit, order and scope. -/
  | st (x : Form)
  /-- SFILL (R311): Starts a fill of scratch from memory bound to a barrier object. -/
  | sfill (x : Form)
  /-- PREF (R312): Requests lines into L1, L2 or the home cache. -/
  | pref (x : Form)
  /-- ATOM (R313): Performs an atomic read-modify-write and returns the old value. -/
  | atom (x : Form)
  /-- RED (R313): Performs an atomic reduction with no result. -/
  | red (x : Form)
  /-- LR (R316): Loads and sets the lane's reservation. -/
  | lr (x : Form)
  /-- SC (R316): Stores where the reservation is intact and writes a status. -/
  | sc (x : Form)
  /-- FENCE (R137): Orders earlier accesses under the fence kind and scope. -/
  | fence (x : Form)
  /-- CCTL (R318): Writes back or drops cached copies of a line. -/
  | cctl (x : Form)
  /-- BINIT (R319): Makes a scratch granule a live barrier object. -/
  | binit (x : Form)
  /-- BARRIVE (R319): Adds arrivals to a barrier object and returns the phase. -/
  | barrive (x : Form)
  /-- BWAIT (R319): Holds while the barrier object's phase equals q. -/
  | bwait (x : Form)
  /-- BEXPECT (R319): Raises the fills owed in the barrier's phase. -/
  | bexpect (x : Form)
  /-- BDROP (R319): Retires a barrier object. -/
  | bdrop (x : Form)
  /-- CBAR (R320): Arrives at a group hardware barrier and holds the arrived lanes. -/
  | cbar (x : Form)
  /-- QBAR (R321): Arrives at a team hedgerow barrier. -/
  | qbar (x : Form)
  /-- MWAIT (R322): Waits per lane until a location meets a condition. -/
  | mwait (x : Form)
  /-- CPY (R328): Submits one byte copy on a tag. -/
  | cpy (x : Form)
  /-- CPYJ (R329): Submits a copy job card on its tag. -/
  | cpyj (x : Form)
  /-- SADV (R330): Advances the group's stage counter and releases schedule entries. -/
  | sadv (x : Form)
  /-- TWAIT (R331): Holds until no tag of the mask is busy and returns their error bits. -/
  | twait (x : Form)
  /-- TWANY (R331): Holds until a tag of the mask is done or none is busy. -/
  | twany (x : Form)
  /-- TFIRST (R331): Returns the lowest done tag of the mask, optionally clearing it. -/
  | tfirst (x : Form)
  /-- TCLR (R331): Returns done tags of the mask to idle. -/
  | tclr (x : Form)
  /-- BASIS (R334): Loads a basis table entry from a list and computes its constants. -/
  | basis (x : Form)
  /-- OCLM (R335): Claims an operand slot for the quad. -/
  | oclm (x : Form)
  /-- OREL (R335): Releases an operand slot. -/
  | orel (x : Form)
  /-- OLOAD (R336): Converts an A tile or B half into a claimed slot. -/
  | oload (x : Form)
  /-- QMMA (R339): Submits k passes of participating quarters into an accumulator. -/
  | qmma (x : Form)
  /-- ACLR (R340): Clears an accumulator of a group. -/
  | aclr (x : Form)
  /-- ADRAIN (R341): Drains an accumulator through the RXU to memory. -/
  | adrain (x : Form)
  /-- SCLD (R338): Stages scale records for a group's staging area. -/
  | scld (x : Form)
  /-- MJOB (R342): Submits a Chrovia job card, choosing basis and engine. -/
  | mjob (x : Form)
  /-- MSTAT (R343): Reads an engine status word, or reads and clears the CCR. -/
  | mstat (x : Form)
  /-- BTJOB (R344): Submits a block transfer to a memory-side die's engine. -/
  | btjob (x : Form)
  /-- TRAP (R348): Raises SOFTWARE_TRAP with a code. -/
  | trap (x : Form)
  /-- ERET (R350): Returns from the innermost trap, restoring the frame. -/
  | eret (x : Form)
  /-- CSRR (R351): Reads a CSR. -/
  | csrr (x : Form)
  /-- CSRW (R351): Writes a CSR. -/
  | csrw (x : Form)
  /-- CSRS (R351): Sets bits of a CSR. -/
  | csrs (x : Form)
  /-- CSRC (R351): Clears bits of a CSR. -/
  | csrc (x : Form)
  /-- CKPT (R362): Writes an incremental checkpoint of a parked group. -/
  | ckpt (x : Form)
  /-- RSTO (R363): Places a saved group on a free core, running or parked. -/
  | rsto (x : Form)
  /-- TLBI_VA (R360): Drops the cached translation of one address of an ASID. -/
  | tlbiVa (x : Form)
  /-- TLBI_ASID (R360): Drops every non-global cached translation of an ASID. -/
  | tlbiAsid (x : Form)
  /-- TLBI_ALL (R360): Drops every cached translation. -/
  | tlbiAll (x : Form)
  /-- TIME (R356): Writes the global time base, optionally after earlier fills. -/
  | time (x : Form)
  /-- BRK (R349): Traps, or halts the group when BRKH is set. -/
  | brk (x : Form)
  /-- RESIZE (R358): Changes the scratch and L1 split. -/
  | resize (x : Form)
  /-- TIERH (R359): Gives the transplant engine a placement hint for a range. -/
  | tierh (x : Form)
  /-- PERF (R357): Reads a performance counter. -/
  | perf (x : Form)
  /-- PARK_HALT (R361): Halts the group of another logical core. -/
  | parkHalt (x : Form)
  /-- PARK_RUN (R361): Resumes a parked group. -/
  | parkRun (x : Form)
  /-- PARK_QUERY (R361): Reports the state of another core's group. -/
  | parkQuery (x : Form)
  /-- FAIRNESS_SWITCH (R25): Issues the highest-PC set when the starve counter reaches 2,048. -/
  | fairnessSwitch (core wat : Nat)
  /-- SERIAL_ROTATE (R27): Passes serial issue to the next unstopped lane after 2,048 cycles. -/
  | serialRotate (core wat : Nat)
  /-- ACTIVE_SET_FILL (R33): Fills a vacated active-set place with a ready resident wattle. -/
  | activeSetFill (core : Nat)
  /-- BASKET_PROOF_LAUNCH (R36): Launches a basket as a wattle when its proofing timer expires. -/
  | basketProofLaunch (core basket : Nat)
  /-- SEND_UNBLOCK (R18): Completes a blocked SEND when its channel has room. -/
  | sendUnblock (core thr : Nat)
  /-- RECV_DELIVER (R305): Completes a blocked RECV when a message arrives. -/
  | recvDeliver (core thr : Nat)
  /-- PORT_ORPHAN (R20): Raises a fault when a RECV stays blocked 1 ms without a live sender. -/
  | portOrphan (core thr : Nat)
  /-- RESULT_FILL (R226): Fills a long-latency destination and releases reads and producers waiting on it. -/
  | resultFill (fill : Nat)
  /-- GRID_END (R39): Ends a grid once its groups and started work complete, and writes its completion record. -/
  | gridEnd (grid : Nat)
  /-- DOORBELL (R396): Enters a launch packet into a queue from a host doorbell write. -/
  | doorbell (q nbytes : Nat) (v : DWord)
  /-- QCANCEL (R395): Withdraws every waiting packet and undealt groups of a queue. -/
  | qcancel (q : Nat) (v : DWord)
  /-- QUEUE_CONTROL_WRITE (R395): Writes a queue control word, changing only EN while the queue is enabled. -/
  | queueControlWrite (q off : Nat) (v : DWord)
  /-- RECORD_VALIDATE (R45): Validates a launch record when its packet reaches the head of its queue. -/
  | recordValidate (q : Nat)
  /-- AGE_PROMOTE (R50): Raises a ready head's effective class after 4 ms of waiting. -/
  | agePromote (q : Nat)
  /-- FOOTPRINT_FULL (R54): Raises a fault after an engine instruction has stalled 4 µs on a full footprint table. -/
  | footprintFull (core thr : Nat)
  /-- SENSOR_SAMPLE (R65): Samples column temperatures every 100 µs against the thresholds. -/
  | sensorSample (readings : List (Nat × Nat))
  /-- MIGRATE_GROUP (R66): Moves a group whose column passed the migration threshold. -/
  | migrateGroup (core : Nat)
  /-- HARD_LIMIT_PREEMPT (R433): Pre-empts a quad's groups when its column stays at the hard limit for 1 ms. -/
  | hardLimitPreempt (quad : Nat)
  /-- COPY_START (R111): Starts a waiting copy when one of the 16 running places frees. -/
  | copyStart (core : Nat)
  /-- COPY_COMPLETE (R112): Completes a copy, setting its tag done with a status. -/
  | copyComplete (core job : Nat)
  /-- SCHED_ENTRY_SUBMIT (R115): Submits a released schedule entry once its tag leaves busy. -/
  | schedEntrySubmit (core : Nat)
  /-- SFILL_LAND (R122): Lands an SFILL, lowering FILLS and raising LANDED of its barrier. -/
  | sfillLand (core job : Nat)
  /-- REGACQ_GRANT (R231): Grants a waiting REGACQ when slices free. -/
  | regacqGrant (core : Nat)
  /-- SLEEP_WAKE (R303): Ends a SLEEP when a write to its granule becomes visible. -/
  | sleepWake (core thr : Nat)
  /-- SLEEP_TIMEOUT (R303): Ends a SLEEP with status 1 when its timeout expires. -/
  | sleepTimeout (core thr : Nat)
  /-- MWAIT_REREAD (R322): Re-reads a waiting MWAIT lane's location after it can have changed. -/
  | mwaitReread (core thr : Nat)
  /-- TAG_WAIT_RETURN (R331): Returns a blocked TWAIT or TWANY when its tag condition holds. -/
  | tagWaitReturn (core thr : Nat)
  /-- BTE_COMPLETE (R124): Writes a BTE completion record to its ring and advances PROD. -/
  | bteComplete (die : Nat)
  /-- VAULT_BANK_SLEEP (R105): Puts a vault bank into retention sleep after its idle time. -/
  | vaultBankSleep (bank : Nat)
  /-- VAULT_BANK_WAKE (R106): Ends a bank wake and serves the held accesses. -/
  | vaultBankWake (bank : Nat)
  /-- VAULT_REPLAY (R106): Replays a NACKed vault access 128 ns later. -/
  | vaultReplay (req : Nat)
  /-- PAGE_MOVE_START (R104): Starts moving a TIER 3 page between vault and HBM4E. -/
  | pageMoveStart (page : Nat)
  /-- PAGE_MOVE_COMPLETE (R104): Serves a moved page from its new place and releases stalled writes and retried atomics. -/
  | pageMoveComplete (page : Nat)
  /-- STORE_ACCEPT (R129): Accepts a store at its home and returns its write completion time. -/
  | storeAccept (st : Nat)
  /-- STORE_APPLY (R129): Applies an accepted store at its Tw and releases waiting reads. -/
  | storeApply (st : Nat)
  /-- STORE_ACK (R130): Acknowledges a store to its writer after Tw. -/
  | storeAck (st : Nat)
  /-- LEASE_EXPIRE (R128): Invalidates a die's leased copy of a remote line. -/
  | leaseExpire (die line : Nat)
  /-- WRITEBACK_AGE (R153): Writes back buffered stores whose oldest byte has waited 1 µs. -/
  | writebackAge (die : Nat)
  /-- LINE_EVICT (R153): Evicts an L2 line, writing back its buffered bytes. -/
  | lineEvict (die line : Nat)
  /-- HEARTH_ATOMIC (R146): Performs an atomic or reduction at a hearth or home agent. -/
  | hearthAtomic (op : Nat)
  /-- RCELL_PARTIAL_ARRIVE (R402): Adds a child partial arriving over UALink into the parent's cell. -/
  | rcellPartialArrive (tree off : Nat) (sum : BitVec 384) (status : BitVec 3)
  /-- PAGE_WALK_COMPLETE (R423): Completes a translation walk and releases the requests waiting on it. -/
  | pageWalkComplete (walk : Nat)
  /-- TLBI_COMPLETE (R424): Completes a TLBI once every affected cache has dropped its entries. -/
  | tlbiComplete (core thr : Nat)
  /-- ENGINE_GRANT (R169): Grants a reservation-table entry to a free array group, fusing eligible QMMAs. -/
  | engineGrant (quad : Nat)
  /-- PASS_COMPLETE (R85): Ends a pass, aligning and adding into the accumulator and updating its bound. -/
  | passComplete (quad grp : Nat)
  /-- REPROOF_PASS (R184): Runs a rotated re-proof pass after every Nth pass and classes mismatches. -/
  | reproofPass (quad grp : Nat)
  /-- OLOAD_COMPLETE (R337): Completes an operand load, recording maxima and setting its tag. -/
  | oloadComplete (quad ent : Nat)
  /-- SCLD_COMPLETE (R338): Completes staging of scale records and sets its tag. -/
  | scldComplete (quad ent : Nat)
  /-- DRAIN_COMPLETE (R181): Completes a drain of an accumulator tile through the RXU. -/
  | drainComplete (quad ent : Nat)
  /-- JOB_START (R178): Starts a waiting job when it can reserve four free slots. -/
  | jobStart (quad ent : Nat)
  /-- JOB_COMPLETE (R180): Completes a job, setting its tag and freeing its slots. -/
  | jobComplete (quad ent : Nat)
  /-- PREEMPT_REQUEST (R410): Stops issue of a named group and drains it toward a halt. -/
  | preemptRequest (core : Nat)
  /-- PREEMPT_HALT (R410): Declares the group halted once the drain steps are done. -/
  | preemptHalt (core : Nat)
  /-- CHECKPOINT_WRITE_COMPLETE (R411): Completes a checkpoint with its stores past Tw and frees the core. -/
  | checkpointWriteComplete (core : Nat)
  /-- GROUP_RESTORE (R412): Restores a saved group before its first issue and replays its loads. -/
  | groupRestore (core : Nat)
  /-- REGISTER_RESTORE_BACKGROUND (R412): Restores a register from section 3 in the background, releasing reads waiting on it. -/
  | registerRestoreBackground (core thr reg : Nat)
  /-- HOST_MEM_WRITE (R393): Accepts a host CXL.mem write as a GA store at its home. -/
  | hostMemWrite (pa : Nat) (bytes : List Byte)
  /-- HOST_MEM_READ (R394): Serves a host CXL.mem read from the home value. -/
  | hostMemRead (pa len : Nat)
  /-- HOST_LINK_RESET (R393): Moves host traffic to the other link when one host link resets. -/
  | hostLinkReset (link : Nat)
  /-- UALINK_PORT_ENABLE (R401): Starts training of a UALink port on setting EN. -/
  | ualinkPortEnable (port : Nat) (v : DWord)
  /-- UALINK_PORT_RST (R401): Resets a UALink port on writing RST. -/
  | ualinkPortRst (port : Nat)
  /-- UALINK_PORT_TRAINED (R401): Moves a training port to up or degraded. -/
  | ualinkPortTrained (port lanes peer : Nat)
  /-- UALINK_PORT_DOWN (R401): Takes a port down, ending its unacknowledged traffic and rerouting. -/
  | ualinkPortDown (port : Nat)
  /-- PART_WRITE (R425): Writes a partition register, accepted only when its conditions hold. -/
  | partWrite (part : Nat) (v : DWord)
  /-- TPCFG_WRITE (R427): Writes the transplant hooks, returning pages above a lowered quota. -/
  | tpcfgWrite (v : DWord)
  /-- REGISTER_WRITE (R394): Writes a register-space word without behaviour of its own, discarding unnamed offsets. -/
  | registerWrite (off : Nat) (v : DWord)
  /-- HBM_BANK_ACCESS (R379): Serves a request at an HBM4E bank, activating its row. -/
  | hbmBankAccess (die bank : Nat)
  /-- RFM_BLOCK_END (R381): Ends the 350 ns bank block and serves the triggering request. -/
  | rfmBlockEnd (die bank : Nat)
  /-- HBM_REFRESH (R450): Refreshes a bank in each 3.9 µs period, closing its open row. -/
  | hbmRefresh (die bank : Nat)
  /-- PATROL_SCRUB (R450): Reads and repairs one line per bank every 2 µs. -/
  | patrolScrub (die bank : Nat)
  /-- COLUMN_TEST (R451): Runs a column test on an idle core and retires it on failure. -/
  | columnTest (core outcome : Nat)
  /-- ERROR_DETECT (R430): Contains a detected error at its boundary and logs it. -/
  | errorDetect (cls unit addr synd : Nat)
  /-- EINJ_WRITE (R448): Arms error injection, or discards the write and sets EIERR. -/
  | einjWrite (v : DWord)
  /-- ENGINE_RESET (R431): Resets one Chrovia engine by mailbox command. -/
  | engineReset (unit : Nat)
  /-- UMAGIL_LINK_RESET (R431): Resets one Umagil link by mailbox command. -/
  | umagilLinkReset (unit : Nat)
  /-- UALINK_PORT_RESET_CMD (R431): Resets one UALink port by mailbox command. -/
  | ualinkPortResetCmd (unit : Nat)
  /-- COMPUTE_DIE_RESET (R431): Resets a compute die, ending its groups. -/
  | computeDieReset (unit : Nat)
  /-- MEMORY_DIE_RESET (R431): Resets a memory-side die, ending its BTE jobs and poisoning its cells. -/
  | memoryDieReset (unit : Nat)
  /-- PARTITION_RESET (R431): Resets every die of a partition. -/
  | partitionReset (unit : Nat)
  /-- RESET_COMPLETE (R432): Ends a reset and completes any absorbed requests. -/
  | resetComplete (kind unit : Nat)
  /-- RETIRE_SLOT (R434): Retires a channel slot of an engine. -/
  | retireSlot (unit : Nat)
  /-- RETIRE_CORE (R429): Retires a core, clearing its maps and moving its group. -/
  | retireCore (unit : Nat)
  /-- L2P_REBUILD (R429): Rebuilds the logical core table at the first instant the partition is idle. -/
  | l2pRebuild (part : Nat)
  /-- ILLEGAL_OPCODE (R202): Issues a fetched word whose OPC is unassigned and raises ILLEGAL_OPCODE. -/
  | illegalOpcode (w : IWord)
  /-- ACLR_COMPLETE (R169): Ends the 8 cycles an ACLR holds its accumulator and frees its reservation-table entry. -/
  | aclrComplete (quad ent : Nat)
  /-- BASIS_COMPLETE (R334): Finishes computing a basis entry's constants, replaces the entry and releases the held thread. -/
  | basisComplete (core thr : Nat)
  /-- COMPLETION_HORIZON_PASSED (R135): Releases a held release, full, engine or completion fence once now reaches Hc plus 8 ns. -/
  | completionHorizonPassed (core thr : Nat)
  /-- TRANSLATION_REGISTER_WRITE (R420): Writes ATBASE or ATEN, discarding an ATBASE write while ATEN is 1. -/
  | translationRegisterWrite (off : Nat) (v : DWord)
  /-- DISPATCH_SELECT (R49): Selects one ready head as a dealing grid at each 100 ns instant. -/
  | dispatchSelect
  /-- DEAL (R60): Deals groups of dealing grids to eligible cores and takes lenders. -/
  | deal
  /-- THERMAL_FORCED_DEAL (R67): Deals one group of a non-URGENT grid after every 2 ms with all columns hot. -/
  | thermalForcedDeal
  /-- ACTIVATION_WINDOW_START (R380): Clears every activation counter at the start of each window. -/
  | activationWindowStart
  /-- BOOST_BOUNDARY (R388): Refills, grants and charges boost permits and sets quad clocks at each interval boundary. -/
  | boostBoundary
  /-- INJECTED_DETECTION (R449): Reports one injected detection every 10 µs along the reporting path. -/
  | injectedDetection
  /-- LOAD (R439): Verifies a firmware image and hands over to it. -/
  | load
  /-- FIRMWARE_HANDOVER (R439): Hands over to a verified image at a boost boundary. -/
  | firmwareHandover
  /-- PACKAGE_RESET (R431): Resets the whole package and reloads firmware. -/
  | packageReset
  /-- ATTEST (R442): Signs and writes an attestation report with a fresh leaf. -/
  | attest
  /-- SETPOL (R434): Sets a reliability or operator policy. -/
  | setpol
  /-- STANDBY_TAKEOVER (R440): Takes over on the standby controller after a missed watchdog. -/
  | standbyTakeover
  /-- POWER_LOSS (R441): Loses package power and keeps the committed leaf counter, so a leaf is lost and never reused. -/
  | powerLoss
  deriving DecidableEq, Repr

end Sys2Proof
end

