-- ==== Sys2Proof/Machine/Fields.lean ====
section
/-! DEFINITION. The static checks of a decoded word: which operand fields and modifier values each instruction
allows (R190 to R206 and the encoding tables R235, R252, R265, R275, R294, R306, R327, R346). -/

namespace Sys2Proof

/-- Bits [lo + len - 1 : lo] of MOD. -/
def Form.m (x : Form) (lo len : Nat) : Nat := (x.mod.extractLsb' lo len).toNat

/-- Bits [lo + len - 1 : lo] of IMM. -/
def Form.f (x : Form) (lo len : Nat) : Nat := (x.imm.extractLsb' lo len).toNat

/-- The operand field of 14 bits (07, "Operand fields"). -/
def Opnd.ofBits (w : BitVec 14) : Opnd :=
  { space := match (w.extractLsb' 12 2).toNat with
      | 0 => .main
      | 1 => .cache
      | 2 => .latch
      | _ => .special
    index := w.extractLsb' 4 8
    flags := w.extractLsb' 0 4 }

/-- The two bits of SPACE. -/
def Space.bits : Space → BitVec 2
  | .main => 0
  | .cache => 1
  | .latch => 2
  | .special => 3

/-- The 14 bits of an operand field. -/
def Opnd.toBits (o : Opnd) : BitVec 14 := o.space.bits ++ o.index ++ o.flags

/-- The third source, in IMM[13:0] (R196). -/
def Form.c (x : Form) : Opnd := Opnd.ofBits (x.imm.extractLsb' 0 14)

/-- The dead flag of a source (R191). -/
def Opnd.dead (o : Opnd) : Bool := o.flags.getLsbD 3

/-- The trap-on-empty flag of a source (R191). -/
def Opnd.trapEmpty (o : Opnd) : Bool := o.flags.getLsbD 2

/-- The float modifier of a source: 0 none, 1 negate, 2 absolute, 3 negated absolute (R191). -/
def Opnd.fmod (o : Opnd) : Nat := (o.flags.extractLsb' 0 2).toNat

/-- The source names IMM (R191). -/
def Opnd.isImm (o : Opnd) : Bool := o.space = .special && o.index = 0

/-- The source names a predicate p0 to p7 (R197). -/
def Opnd.isPred (o : Opnd) : Bool := o.space = .special && decide (0x38 ≤ o.index.toNat) && decide (o.index.toNat ≤ 0x3F)

/-- What an instruction does with its D field. -/
inductive DReq where
  | none                 -- holds 0x0000
  | reg (n : Nat)        -- a destination of n registers
  | mainReg (n : Nat)    -- a destination that is read as well: main file only (R314)
  | pred                 -- p1 to p7 (R192)
  | src (n : Nat)        -- a source of n registers in SPACE 00 (R325)
  deriving DecidableEq, Repr

/-- What an instruction does with a source field. -/
inductive SReq where
  | none                                  -- holds 0x0000
  | src (n : Nat) (flt imm : Bool)        -- a source of n registers; float modifier; IMM allowed
  | pred                                  -- a predicate p0 to p7 (R259)
  | noPred                                -- any source but a predicate (R260, PMOV.load)
  deriving DecidableEq, Repr

/-- The operand fields of one instruction, and whether IMM is free (R195). -/
structure Shape where
  d : DReq := .none
  a : SReq := .none
  b : SReq := .none
  c : SReq := .none
  free : Bool := false
  deriving DecidableEq, Repr

/-- Registers of an operand of the width in MOD[5:4] (R233): a pair for i64. -/
def Form.wregs (x : Form) : Nat := if x.m 4 2 = 1 then 2 else 1

/-- Registers of an access of size code k (R306). -/
def sizeRegs (k : Nat) : Nat := if k = 3 then 2 else if k = 4 then 4 else 1

/-- Registers of a CVT operand of type code k (R276). -/
def cvtRegs (k : Nat) : Nat := if k = 9 ∨ k = 10 then 2 else 1

/-- Registers of a CSR by number, none when the number is unassigned (R352). -/
def csrRegs (n : Nat) : Option Nat :=
  if n = 0x000 ∨ n = 0x800 ∨ n = 0x803 ∨ n = 0x804 ∨ n = 0x806 ∨ n = 0x840 ∨ n = 0x841 then some 1
  else if n = 0x001 ∨ n = 0x801 ∨ n = 0x802 ∨ n = 0x805 ∨ (0x820 ≤ n ∧ n ≤ 0x82F) then some 2
  else none

/-- ATOM and RED read B as floating-point values (R313, R315): `.fadd`, `.faddbf`. -/
def Form.rmwFlt (x : Form) : Bool := x.m 0 4 = 12 || x.m 0 4 = 13

/-- A source of n registers that may name IMM. -/
def SReq.any (n : Nat) : SReq := .src n false true

/-- A source of n registers that may not name IMM. -/
def SReq.regs (n : Nat) : SReq := .src n false false

/-- A float source that may name IMM. -/
def SReq.flt : SReq := .src 1 true true

/-- The operand fields of an instruction; events have none. -/
def Instr.shape : Instr → Shape
  | .iadd x | .isub x | .imul x | .imulh x | .imulhn x | .idiv x | .idivn x | .irem x | .iremn x
  | .imin x | .imax x | .iminn x | .imaxn x | .and x | .or x | .xor x | .andn x =>
    { d := .reg x.wregs, a := .any x.wregs, b := .any x.wregs, free := true }
  | .imad x => { d := .reg x.wregs, a := .regs x.wregs, b := .regs x.wregs, c := .regs x.wregs }
  | .ineg x | .iabs x | .popc x | .clz x | .ctz x | .brev x | .mov x =>
    { d := .reg x.wregs, a := .any x.wregs, free := true }
  | .shl x | .shrl x | .shra x | .rotl x | .bfx x | .bfxn x | .isat x =>
    { d := .reg x.wregs, a := .any x.wregs, b := .any 1, free := true }
  | .bfi x => { d := .reg x.wregs, a := .regs x.wregs, b := .regs 1, c := .regs x.wregs }
  | .icmp x => { d := .pred, a := .any x.wregs, b := .any x.wregs, free := true }
  | .sel x => { d := .reg x.wregs, a := .regs x.wregs, b := .regs x.wregs, c := .regs 1 }
  | .ldi _ => { d := .reg 1 }
  | .lea _ => { d := .reg 2, a := .any 2, b := .any 1, free := true }
  | .fadd _ | .fsub _ | .fmul _ | .fmin _ | .fmax _ | .fdiv _ =>
    { d := .reg 1, a := .flt, b := .flt, free := true }
  | .ffma _ | .fdot2 _ => { d := .reg 1, a := .src 1 true false, b := .src 1 true false, c := .src 1 true false }
  | .fsqrt _ | .frcp _ | .frsq _ | .fexp2 _ | .flog2 _ | .fsin _ | .fcos _ | .fclass _ | .frnd _
  | .cvtdx _ | .maxabs _ => { d := .reg 1, a := .flt, free := true }
  | .fcmp _ => { d := .pred, a := .flt, b := .flt, free := true }
  | .fscale _ | .blkscl _ => { d := .reg 1, a := .flt, b := .any 1, free := true }
  | .cvt x => { d := .reg (cvtRegs (x.f 4 4)), a := .src (cvtRegs (x.f 0 4)) (decide (x.f 0 4 ≤ 2)) false }
  | .undx _ => { d := .reg 1, a := .any 1, free := true }
  | .qnt _ => { d := .reg 1, a := .flt, b := .flt, free := true }
  | .dqnt _ => { d := .reg 1, a := .any 1, b := .flt, free := true }
  | .rmod x => { d := .reg 1, a := .any x.wregs, b := .any 1, free := true }
  | .rmad _ => { d := .reg 1, a := .regs 1, b := .regs 1, c := .regs 1 }
  | .rsplit x => { d := .reg 1, a := .regs x.wregs }
  | .rmrc _ => { d := .reg 2, a := .regs 1 }
  | .pack _ => { d := .reg 1, a := .any 1, b := .any 1, free := true }
  | .shfl x => { d := .reg x.wregs, a := .any x.wregs, b := .any 1, free := true }
  | .vote x => { d := if x.m 0 3 ≤ 2 then .pred else .reg 1, a := .any 1, free := true }
  | .redux x | .scan x => { d := .reg x.wregs, a := .any x.wregs, free := true }
  | .matchL x => { d := .reg 1, a := .any x.wregs, free := true }
  | .pand _ | .por _ | .pxor _ => { d := .pred, a := .pred, b := .pred, free := true }
  | .pmov x =>
    if x.m 0 2 ≤ 1 then { d := .pred, a := .any 1, free := true }
    else if x.m 0 2 = 2 then { d := .reg 1, free := true }
    else { a := .noPred, free := true }
  | .brx _ | .ret _ => { a := .regs 2 }
  | .call x => { d := .reg 2, a := if x.m 0 1 = 1 then .regs 2 else .none }
  | .spawn x | .rebask x => { d := .reg 1, a := if x.m 0 1 = 1 then .regs 2 else .none }
  | .loop _ => { d := .src 1 }
  | .launch _ => { d := .reg 1, a := .any 2, b := .any 1, free := true }
  | .sleep _ => { d := .reg 1, a := .regs 2, b := .regs 1 }
  | .send x => { a := .regs 1, b := if x.f 0 6 = 0 then .regs 1 else .none }
  | .recv _ => { d := .reg 1 }
  | .ld x => { d := .reg (sizeRegs (x.m 0 3)), a := .regs (if x.m 3 2 = 0 then 2 else 1) }
  | .st x => { a := .regs (if x.m 3 2 = 0 then 2 else 1), b := .regs (sizeRegs (x.m 0 3)) }
  | .sfill _ => { a := .regs 2, b := .regs 2 }
  | .pref _ | .cctl _ => { a := .regs 2 }
  | .atom x =>
    let n := if x.m 4 1 = 1 then 2 else 1
    if x.m 0 4 = 14 then { d := .reg 1, a := .regs 2, b := .regs 2 }
    else if x.m 0 4 = 9 then { d := .mainReg n, a := .regs 2, b := .regs n }
    else { d := .reg n, a := .regs 2, b := .src n x.rmwFlt false }
  | .red x => { a := .regs 2, b := .src (if x.m 0 4 = 14 ∨ x.m 4 1 = 1 then 2 else 1) x.rmwFlt false }
  | .lr x => { d := .reg (sizeRegs (x.m 0 3)), a := .regs 2 }
  | .sc x => { d := .reg 1, a := .regs 2, b := .regs (sizeRegs (x.m 0 3)) }
  | .binit _ | .bwait _ | .bexpect _ => { a := .regs 1, b := .regs 1 }
  | .barrive _ => { d := .reg 1, a := .regs 1, b := .regs 1 }
  | .bdrop _ => { a := .regs 1 }
  | .mwait x =>
    let n := if x.m 2 1 = 1 then 2 else 1
    { d := .reg n, a := .regs 2, b := .regs n }
  | .cpy _ => { d := .src 2, a := .regs 2, b := .regs 1 }
  | .cpyj _ | .basis _ | .mjob _ => { a := .regs 2 }
  | .twait _ | .twany _ => { d := .reg 2, a := .any 2, free := true }
  | .tfirst _ => { d := .reg 1, a := .any 2, free := true }
  | .tclr _ => { a := .any 2, free := true }
  | .oclm x => { d := .reg 1, a := if x.m 0 1 = 1 then .none else .any 1, free := true }
  | .orel _ => { a := .any 1, free := true }
  | .oload x => { a := .regs 2, b := if x.m 2 4 = 10 then .none else .regs 1 }
  | .adrain x =>
    { d := .src 2, a := if x.m 5 1 = 1 ∨ x.f 1 3 = 6 then .regs 2 else .none
      b := if x.f 1 3 = 1 then .none else .regs 1 }
  | .scld _ => { d := .src 1, a := .regs 2, b := .regs 1 }
  | .mstat _ => { d := .reg 2 }
  | .btjob _ => { d := .reg 1, a := .regs 2, b := .regs 1 }
  | .csrr x => { d := .reg ((csrRegs (x.f 0 12)).getD 1) }
  | .csrw x | .csrs x | .csrc x => { a := .regs ((csrRegs (x.f 0 12)).getD 1) }
  | .ckpt _ | .parkHalt _ | .parkRun _ | .parkQuery _ => { d := .reg 1, a := .regs 1 }
  | .rsto _ | .tlbiVa _ | .tlbiAsid _ | .tlbiAll _ => { d := .reg 1, a := .regs 2, b := .regs 1 }
  | .time _ | .perf _ => { d := .reg 2 }
  | .tierh _ => { a := .regs 2, b := .regs 1 }
  | _ => {}

/-- The MOD bits hold a value the instruction defines (R194 to R198 and the encoding tables). -/
def Instr.modOk : Instr → Bool
  | .iadd x | .isub x => decide (x.m 0 4 ≤ 2)
  | .imul x | .imulh x | .imulhn x | .imad x | .idiv x | .idivn x | .irem x | .iremn x
  | .imin x | .imax x | .iminn x | .imaxn x | .and x | .or x | .xor x | .andn x
  | .shl x | .shrl x | .shra x | .rotl x | .popc x | .clz x | .ctz x | .brev x => x.m 0 4 = 0
  | .ineg x | .iabs x => decide (x.m 0 4 ≤ 1)
  | .bfx x | .bfxn x | .bfi x | .sel x | .mov x => decide (x.m 4 2 ≤ 1) && x.m 0 4 = 0
  | .isat x => decide (x.m 0 4 ≤ 2)
  | .icmp x => decide (x.m 4 2 ≤ 1) && decide (x.m 0 4 ≤ 9)
  | .ldi x => x.m 4 2 = 0
  | .lea x => x.m 4 2 = 0
  | .fadd x | .fsub x | .fmul x | .ffma x | .fdiv x | .fsqrt x | .frcp x | .frsq x | .fexp2 x | .flog2 x
  | .fsin x | .fcos x | .frnd x | .fscale x => decide (x.m 0 2 ≤ 2) && x.m 5 1 = 0
  | .fmin x | .fmax x => decide (x.m 0 2 ≤ 2) && x.m 2 2 = 0 && x.m 5 1 = 0
  | .fcmp x => x.m 0 2 = 0 && decide (x.m 2 4 ≤ 13)
  | .fclass x => decide (x.m 0 2 ≤ 2) && x.m 2 4 = 0
  | .fdot2 x => (x.m 0 2 = 1 || x.m 0 2 = 2) && x.m 5 1 = 0
  | .cvt x => x.m 0 2 = 0 && x.m 5 1 = 0
  | .cvtdx x => decide (x.m 0 6 ≤ 1)
  | .undx x => x.m 1 3 = 0 && x.m 5 1 = 0
  | .maxabs x => decide (x.m 0 2 ≤ 2) && x.m 2 2 = 0 && x.m 5 1 = 0
  | .blkscl x => x.m 1 1 = 0 && x.m 5 1 = 0
  | .qnt x | .dqnt x => x.m 5 1 = 0
  | .rmod x | .rsplit x => x.m 1 3 = 0 && decide (x.m 4 2 ≤ 1)
  | .rmad x | .rmrc x => decide (x.m 0 6 ≤ 1)
  | .pack x => decide (x.m 0 6 ≤ 2)
  | .shfl x => decide (x.m 4 2 ≤ 1)
  | .vote x => decide (x.m 0 6 ≤ 4)
  | .redux x => x.m 3 1 = 0 && decide (x.m 4 2 ≤ 1)
  | .scan x => decide (x.m 4 2 ≤ 1)
  | .matchL x => x.m 0 4 = 0 && decide (x.m 4 2 ≤ 1)
  | .pand x | .por x | .pxor x | .pmov x => decide (x.m 0 6 ≤ 3)
  | .call x | .spawn x | .rebask x => decide (x.m 0 6 ≤ 1)
  | .ld x => decide (x.m 0 3 ≤ 4) && decide (x.m 3 2 ≤ 2) && (x.m 5 1 = 0 || decide (x.m 0 3 ≤ 1))
  | .st x => decide (x.m 0 3 ≤ 4) && decide (x.m 3 2 ≤ 2)
  | .sfill x => x.m 0 6 = 2 || x.m 0 6 = 3 || x.m 0 6 = 4
  | .pref x | .cctl x => decide (x.m 0 6 ≤ 2)
  | .atom x => decide (x.m 0 4 ≤ 14) && (x.m 4 1 = 0 || decide (x.m 0 4 ≤ 11)) && x.m 5 1 = 0
  | .red x => decide (x.m 0 4 ≤ 14) && !(x.m 0 4 = 8) && !(x.m 0 4 = 9) && (x.m 4 1 = 0 || decide (x.m 0 4 ≤ 11)) && x.m 5 1 = 0
  | .lr x | .sc x => x.m 0 6 = 2 || x.m 0 6 = 3
  | .fence x => decide (x.m 0 6 ≤ 4)
  | .mwait x => decide (x.m 0 2 ≤ 2) && x.m 3 3 = 0
  | .tfirst x | .oclm x | .rsto x | .time x => decide (x.m 0 6 ≤ 1)
  | .oload x => decide (x.m 0 2 ≤ 2) && (decide (x.m 2 4 ≤ 7) || x.m 2 4 = 9 || x.m 2 4 = 10)
  | .qmma x | .aclr x | .scld x => decide (x.m 0 6 ≤ 2)
  | .adrain x => decide (x.m 0 2 ≤ 2) && !(x.m 5 1 = 1 && (x.f 1 3 = 1 || x.f 1 3 = 2 || x.f 1 3 = 3))
  | .tlbiVa x => x.m 0 2 = 0 && x.m 3 3 = 0
  | .tlbiAsid x => x.m 0 2 = 1 && x.m 3 3 = 0
  | .tlbiAll x => x.m 0 2 = 2 && x.m 3 3 = 0
  | .tierh x => decide (x.m 0 6 ≤ 2)
  | .parkHalt x => x.m 0 6 = 0
  | .parkRun x => x.m 0 6 = 1
  | .parkQuery x => x.m 0 6 = 2
  | .brx x | .ret x | .bra x | .meet x | .exit x | .yield x | .nop x | .loop x | .launch x | .regacq x | .regrel x
  | .sleep x | .send x | .recv x | .binit x | .barrive x | .bwait x | .bexpect x | .bdrop x | .cbar x | .qbar x
  | .cpy x | .cpyj x | .sadv x | .twait x | .twany x | .tclr x | .basis x | .orel x | .mjob x | .mstat x | .btjob x
  | .trap x | .eret x | .csrr x | .csrw x | .csrs x | .csrc x | .ckpt x | .brk x | .resize x | .perf x => x.mod = 0
  | _ => true

/-- ORDER is not 0b11 and SCOPE is not 0b110 or 0b111 (R126). -/
def Form.orderScopeOk (x : Form) : Bool := decide (x.f 26 2 ≤ 2) && decide (x.f 23 3 ≤ 5)

/-- An optional tag: a tag field other than 0 needs the enable bit (R326). -/
def tagFieldOk (tag en : Nat) : Bool := en = 1 || tag = 0

/-- The assigned IMM fields hold values the instruction allows; a free IMM is checked apart (R195). -/
def Instr.immOk : Instr → Bool
  | .imad x | .bfi x | .sel x | .ffma x | .fdot2 x => x.f 14 14 = 0
  | .rmad x => decide (3 ≤ x.f 14 9) && x.f 23 5 = 0
  | .cvt x => decide (x.f 0 4 ≤ 10) && decide (x.f 4 4 ≤ 10) && x.f 8 20 = 0
  | .rsplit x => x.f 8 20 = 0
  | .rmrc x => x.f 4 24 = 0
  | .call x | .spawn x | .rebask x => x.m 0 1 = 0 || x.imm = 0
  | .brx x | .ret x | .exit x | .yield x | .nop x | .cpyj x | .mjob x | .eret x | .ckpt x | .rsto x | .tlbiVa x
  | .tlbiAsid x | .tlbiAll x | .time x | .tierh x | .parkHalt x | .parkRun x | .parkQuery x => x.imm = 0
  | .regacq x | .regrel x => x.f 3 25 = 0 && !(x.f 0 3 = 0)
  | .sleep x => x.f 23 5 = 0
  | .send x | .recv x => x.f 6 22 = 0
  | .ld x | .st x | .atom x | .red x | .lr x | .sc x => x.orderScopeOk
  | .mwait x => decide (x.f 26 2 ≤ 1) && decide (x.f 23 3 ≤ 5)
  | .sfill x | .pref x | .cctl x | .binit x | .barrive x | .bwait x | .bexpect x | .bdrop x => x.f 23 5 = 0
  | .fence x => x.f 26 2 = 0 && decide (x.f 23 3 ≤ 5) && x.f 0 23 = 0
  | .cbar x => decide (x.f 4 5 ≤ 16) && x.f 9 19 = 0
  | .qbar x => x.f 4 24 = 0
  | .cpy x => x.f 7 21 = 0
  | .sadv x => x.f 8 20 = 0 && !(x.f 0 8 = 0)
  | .basis x => x.f 4 24 = 0
  | .oload x =>
    x.f 24 4 = 0 && tagFieldOk (x.f 17 6) (x.f 23 1) && !(x.f 6 1 = 0 && x.f 7 1 = 1) &&
      (if x.m 2 4 = 9 ∨ x.m 2 4 = 10 then decide (x.f 12 5 = 0) else decide (x.f 12 5 ≤ 16))
  | .qmma x => x.f 18 10 = 0 && decide (x.f 13 2 ≤ 1) && decide (x.f 0 6 + x.f 15 3 ≤ 63) && decide (x.f 6 6 + x.f 15 3 ≤ 63)
  | .aclr x => x.f 1 27 = 0
  | .adrain x => x.f 11 17 = 0 && tagFieldOk (x.f 4 6) (x.f 10 1) && decide (1 ≤ x.f 1 3) && decide (x.f 1 3 ≤ 6)
  | .scld x => x.f 16 12 = 0 && tagFieldOk (x.f 9 6) (x.f 15 1)
  | .mstat x => decide (x.f 0 28 ≤ 4)
  | .btjob x => x.f 4 24 = 0
  | .trap x | .brk x => x.f 16 12 = 0
  | .csrr x | .csrw x | .csrs x | .csrc x => x.f 12 16 = 0 && (csrRegs (x.f 0 12)).isSome
  | .resize x => x.f 2 26 = 0
  | .perf x => decide (x.f 0 28 ≤ 11)
  | _ => true

/-- A special register of the index can be read in the stream (R197). -/
def specialOk (st : Stream) (ix : Nat) : Bool :=
  if decide (0x38 ≤ ix) && decide (ix ≤ 0x3F) then true
  else if decide (1 ≤ ix) && decide (ix ≤ 0x18) then
    st = .wattle || !(ix = 1 || ix = 2 || ix = 0xE || ix = 0xF || ix = 0x10 || ix = 0x11)
  else false

/-- A main-file index that a group of n registers can start at (R191, R193). -/
def mainIndexOk (st : Stream) (n ix : Nat) : Bool :=
  decide (ix % n = 0) && (st = .wattle || decide (ix ≤ 63))

/-- A source field is valid (R191, R193, R194). [DEDUCED: log 76; DESIGN CHOICE: log 112] -/
def srcOk (st : Stream) (o : Opnd) : SReq → Bool
  | .none => o = Opnd.zero
  | .pred => o.isPred && o.flags = 0
  | .noPred => !o.isPred && srcCore st o 1 false true
  | .src n flt imm => srcCore st o n flt imm
where
  /-- The table of R191 with the alignment of R193. -/
  srcCore (st : Stream) (o : Opnd) (n : Nat) (flt imm : Bool) : Bool :=
    (flt || o.fmod = 0) &&
    match o.space with
    | .main => mainIndexOk st n o.index.toNat
    | .cache => decide (o.index.toNat ≤ 5) && decide (n ≤ 2) && decide (o.index.toNat % n = 0)
    | .latch => decide (o.index.toNat ≤ 1) && decide (n ≤ 2) && !o.dead && !o.trapEmpty
    | .special => decide (n ≤ 2) && !o.dead && !o.trapEmpty && (if o.isImm then imm else specialOk st o.index.toNat)

/-- A destination field is valid (R192, R193, R314, R325). [DEDUCED: log 76] -/
def dstOk (st : Stream) (o : Opnd) : DReq → Bool
  | .none => o = Opnd.zero
  | .reg n =>
    match o.space with
    | .main => mainIndexOk st n o.index.toNat && o.flags = 0
    | .cache =>
      decide (n ≤ 2) && !o.dead && decide ((o.flags.extractLsb' 0 3).toNat ≤ 5) &&
        decide ((o.flags.extractLsb' 0 3).toNat % n = 0) && decide (o.index.toNat % n = 0)
    | _ => false
  | .mainReg n => o.space = .main && mainIndexOk st n o.index.toNat && o.flags = 0
  | .pred => o.isPred && !(o.index = 0x38) && o.flags = 0
  | .src n => o.space = .main && mainIndexOk st n o.index.toNat && o.fmod = 0

/-- The fields of an instruction word, none for an event. -/
def Instr.form : Instr → Option Form
  | .iadd x | .isub x | .imul x | .imulh x | .imulhn x | .imad x | .idiv x | .idivn x | .irem x | .iremn x
  | .ineg x | .iabs x | .imin x | .imax x | .iminn x | .imaxn x | .and x | .or x | .xor x | .andn x
  | .shl x | .shrl x | .shra x | .rotl x | .popc x | .clz x | .ctz x | .brev x | .bfx x | .bfxn x | .bfi x
  | .isat x | .icmp x | .sel x | .mov x | .ldi x | .lea x | .fadd x | .fsub x | .fmul x | .ffma x | .fmin x
  | .fmax x | .fdiv x | .fsqrt x | .frcp x | .frsq x | .fexp2 x | .flog2 x | .fsin x | .fcos x | .fcmp x
  | .fclass x | .frnd x | .fdot2 x | .fscale x | .cvt x | .cvtdx x | .undx x | .maxabs x | .blkscl x | .qnt x
  | .dqnt x | .rmod x | .rmad x | .rsplit x | .rmrc x | .pack x | .shfl x | .vote x | .redux x | .scan x
  | .matchL x | .pand x | .por x | .pxor x | .pmov x | .bra x | .brx x | .call x | .ret x | .meet x | .exit x
  | .spawn x | .rebask x | .yield x | .nop x | .loop x | .launch x | .regacq x | .regrel x | .sleep x | .send x
  | .recv x | .ld x | .st x | .sfill x | .pref x | .atom x | .red x | .lr x | .sc x | .fence x | .cctl x
  | .binit x | .barrive x | .bwait x | .bexpect x | .bdrop x | .cbar x | .qbar x | .mwait x | .cpy x | .cpyj x
  | .sadv x | .twait x | .twany x | .tfirst x | .tclr x | .basis x | .oclm x | .orel x | .oload x | .qmma x
  | .aclr x | .adrain x | .scld x | .mjob x | .mstat x | .btjob x | .trap x | .eret x | .csrr x | .csrw x
  | .csrs x | .csrc x | .ckpt x | .rsto x | .tlbiVa x | .tlbiAsid x | .tlbiAll x | .time x | .brk x | .resize x
  | .tierh x | .perf x | .parkHalt x | .parkRun x | .parkQuery x => some x
  | _ => none

/-- The operand fields an instruction uses, for the stream check of FE operand spaces (R191, R192, R205 step 3). -/
def Instr.usedOpnds (i : Instr) (x : Form) : List Opnd :=
  let sh := i.shape
  (if sh.d = .none then [] else [x.d]) ++ (if sh.a = .none then [] else [x.a]) ++
  (if sh.b = .none then [] else [x.b]) ++ (if sh.c = .none then [] else [x.c])

/-- Instructions outside the FE stream (R203). -/
def Instr.wattleOnly : Instr → Bool
  | .fdot2 _ | .cvtdx _ | .undx _ | .maxabs _ | .blkscl _ | .rsplit _ | .rmrc _ | .pack _ | .shfl _ | .vote _
  | .redux _ | .scan _ | .matchL _ | .meet _ | .rebask _ | .regacq _ | .regrel _ | .sfill _ | .cbar _ | .qbar _
  | .qmma _ => true
  | _ => false

/-- Class 1, whose packed types the FE has not (R203). -/
def Instr.class1 : Instr → Bool
  | .fadd _ | .fsub _ | .fmul _ | .ffma _ | .fmin _ | .fmax _ | .fdiv _ | .fsqrt _ | .frcp _ | .frsq _ | .fexp2 _
  | .flog2 _ | .fsin _ | .fcos _ | .fcmp _ | .fclass _ | .frnd _ | .fscale _ => true
  | _ => false

/-- Step 3 of R205: the stream executes the instruction and its operand spaces (R203, R191, R192). -/
def Instr.streamOk (st : Stream) (i : Instr) (x : Form) : Bool :=
  match st with
  | .wattle => match i with
    | .loop _ => false
    | _ => true
  | .fe =>
    !i.wattleOnly && !(i.class1 && (x.m 0 2 = 1 || x.m 0 2 = 2)) &&
      (i.usedOpnds x).all fun o => o.space = .main || o.space = .special

/-- Step 4 of R205: a use that needs supervisor mode, with the INFO of its PRIV record (R204, R334, R343, R351, R357,
R403). [DEDUCED: log 76] -/
def Instr.privInfo : Instr → Option Nat
  | .eret _ | .ckpt _ | .rsto _ | .tlbiVa _ | .tlbiAsid _ | .tlbiAll _ | .parkHalt _ | .parkRun _ | .parkQuery _ => some 0
  | .csrr x | .csrw x | .csrs x | .csrc x => if x.f 11 1 = 1 then some (x.f 0 12) else none
  | .mstat x => if x.f 0 3 = 1 then some 0 else none
  | .basis x => if x.f 0 4 < 2 then some 0 else none
  | .perf x => if x.f 0 8 = 10 ∨ x.f 0 8 = 11 then some 0 else none
  | _ => none

/-- Step 5 of R205: the first failing field in R403's numbering (1 MOD, 2 D, 3 A, 4 B, 5 C, 6 IMM, 7 HINT). [DEDUCED: log 76] -/
def Instr.encodingFault (st : Stream) (i : Instr) (x : Form) (hint0 : Bool) : Option Nat :=
  let sh := i.shape
  if hint0 then some 7
  else if !i.modOk then some 1
  else if !dstOk st x.d sh.d then some 2
  else if !srcOk st x.a sh.a then some 3
  else if !srcOk st x.b sh.b then some 4
  else if !(sh.c = .none || srcOk st x.c sh.c) then some 5
  else if sh.free then (if x.imm = 0 || x.a.isImm || x.b.isImm then none else some 6)
  else if i.immOk then none else some 6

end Sys2Proof
end

