-- ==== Sys2Proof/Machine/State.lean ====
section
/-! DEFINITION. The state of the AZ9 as plain data: threads, groups, cores, engines, memory, translation, dispatcher,
host interface, firmware, and the model's own bookkeeping (the agenda of what happens next and the counter of open
choices). Each field's comment gives its width, the rule of spec/ that names it and its reset value. -/

namespace Sys2Proof.Machine

/-- A virtual address or PC of 52 bits (R9). -/
abbrev Addr := BitVec 52

/-- NULL_MTG (R9). -/
def nullMtg : Addr := 0xFFFFFFFFFFFFF

/-! ## Registers of a thread -/

/-- One version of a 32-bit register: contents with the bits that travel with them (R219, R222). -/
structure Ver where
  /-- contents; 32 bits; 09 R219; reset 0. -/
  v : Word := 0
  /-- full/empty; 1 bit; 09 R226; reset 1. -/
  full : Bool := true
  /-- poison; 1 bit; 09 R228; reset 0. -/
  poison : Bool := false
  /-- dead; 1 bit; 09 R229; reset 0. -/
  dead : Bool := false
  /-- first core cycle in which this version can be read; 09 R222; reset 0. -/
  rdy : Nat := 0
  deriving DecidableEq, Repr

/-- A main-file register of one lane, or an FE register: its newest version, the older ones a close reader still
sees (R222), and the checkpoint-dirty bit. -/
structure Reg where
  /-- newest version; 09 R219, R222; reset 0, full. -/
  cur : Ver := {}
  /-- older versions still readable, newest first; 09 R222; reset none. -/
  old : List Ver := []
  /-- checkpoint-dirty; 1 bit; 09 R232; reset 0. -/
  dirty : Bool := false
  /-- not yet restored from section 3; 1 bit; 21 R412; reset 0. -/
  absent : Bool := false
  deriving DecidableEq, Repr

/-- State of an operand-cache slot (R221). -/
inductive SlotSt where
  | none
  | invalid
  | clean
  | dirty
  deriving DecidableEq, Repr

/-- One version of an operand-cache slot of one lane (R221, R222). -/
structure SlotVer where
  /-- contents; 09 R219; reset 0. -/
  ver : Ver := {}
  /-- home register index; 8 bits; 09 R221; reset none, 0. -/
  home : Nat := 0
  /-- state; 09 R221; reset none. -/
  st : SlotSt := .none
  deriving DecidableEq, Repr

/-- An operand-cache slot of one lane with its older versions (R222). -/
structure Slot where
  /-- newest version; 09 R221. -/
  cur : SlotVer := {}
  /-- older versions still readable, newest first; 09 R222; reset none. -/
  old : List SlotVer := []
  deriving DecidableEq, Repr

/-- A last-result latch of one lane (R219, R220). -/
structure Latch where
  /-- contents; 64 bits; 09 R219; reset 0. -/
  v : DWord := 0
  /-- valid; 1 bit; 09 R219; reset 0. -/
  valid : Bool := false
  /-- poison of the value latched; 1 bit; 09 R228; reset 0. -/
  poison : Bool := false
  deriving DecidableEq, Repr

/-- One lane of a wattle, or the one lane of the FE (R9). -/
structure Lane where
  /-- PC; 52 bits; 01 R9; reset the entry. -/
  pc : Addr := 0
  /-- meeting register MTG; 52 bits; 01 R9; reset NULL_MTG. -/
  mtg : Addr := nullMtg
  /-- meeting stack, top first; 4 x 52 bits; 01 R9; reset empty. -/
  stk : List Addr := []
  /-- depth; 3 bits; 01 R9; reset 0. -/
  depth : Nat := 0
  /-- serial-mode nest count; 8 bits; 01 R9, R27; reset 0. -/
  nest : Nat := 0
  /-- exited; 1 bit; 01 R9; reset 0. -/
  exited : Bool := false
  /-- launch mask bit; 1 bit; 01 R9; reset 1 for lanes that received a thread. -/
  launch : Bool := true
  /-- predicates p0 to p7 (p0 reads 1); 8 bits; 09 R219, 21 R413; reset p1 to p7 clear. -/
  preds : BitVec 8 := 1
  /-- serial-mode target T; 52 bits; 01 R26; reset NULL_MTG. -/
  tgt : Addr := nullMtg
  /-- completion horizon Hc, ns; 64 bits; 05 R129, 07 R197; reset 0. -/
  hc : Nat := 0
  /-- writes before this number are seen by the jobs of this thread: its last engine fence, or its start (model's own);
  05 R138; reset 0. -/
  fenced : Nat := 0
  /-- held at CBAR (0) or QBAR (1) barrier id; 12 R320, R321; reset none. -/
  arrived : Option (Nat × Nat) := none
  deriving DecidableEq, Repr

/-- A quarter slice of an extended block held by a wattle, and where it lies (R230, R64). -/
structure Slice where
  /-- block, 1 to 3; 09 R230. -/
  blk : Nat
  /-- quarter, 0 to 3; 09 R230. -/
  qtr : Nat
  /-- the lender core whose file holds it, none for the own file; 02 R64. -/
  lender : Option Nat
  deriving DecidableEq, Repr

/-! ## Places of accesses -/

/-- Attributes of a leaf entry (R417). -/
structure Attr where
  /-- TIER; 2 bits; 22 R417. -/
  tier : Nat := 1
  /-- LEASE; 2 bits; 22 R417. -/
  lease : Nat := 0
  /-- NHC; 1 bit; 22 R417. -/
  nhc : Bool := false
  /-- RCELL; 1 bit; 22 R417. -/
  rcell : Bool := false
  deriving DecidableEq, Repr

/-- Where an access goes: the scratchpad of a physical core, or a physical address (R100, R415). -/
inductive Loc where
  | scr (core off : Nat)
  | mem (pa : Nat)
  deriving DecidableEq, Repr

/-- One lane's access after the checks of R307. -/
structure Acc where
  /-- lane; 12 R307. -/
  lane : Nat
  /-- virtual address; 12 R307. -/
  va : Nat
  /-- where it goes. -/
  loc : Loc
  /-- page attributes. -/
  attr : Attr := {}
  /-- bytes. -/
  size : Nat := 4
  deriving DecidableEq, Repr

/-! ## Waiting -/

/-- What a held thread waits for (R22, R293). -/
inductive Why where
  | retry                               -- re-issued each cycle until it can complete (R226, R227, R167, R297, R54)
  | unissued                            -- an FE instruction before its issue, for its sources (R365)
  | send                                -- SEND on a full channel (R18)
  | recv                                -- RECV on an empty channel (R305)
  | sleep (loc : Loc) (lane tEnd : Nat)  -- SLEEP (R303): granule, its lane, timeout in ns
  | regacq                              -- REGACQ in the wait queue (R231)
  | fence                               -- fence, release store or seq-cst access (R135 to R137)
  | mwait                               -- MWAIT (R322)
  | bwait (off phase : Nat)             -- BWAIT (R121)
  | tags                                -- TWAIT or TWANY (R331)
  | basis                               -- BASIS waiting for its turn (R334)
  | tlbi (id : Nat)                     -- TLBI (R360)
  | footprint                           -- a stall on the footprint table (R54)
  deriving DecidableEq, Repr

/-- The instruction a thread holds (R22, R293). -/
structure Hold where
  /-- what it waits for. -/
  why : Why
  /-- the decoded instruction; 12 R293. -/
  instr : Instr
  /-- its word; 07 R189. -/
  word : IWord := 0
  /-- issued lanes; 01 R22. -/
  mask : BitVec 32 := 0
  /-- its PC. -/
  pc : Addr := 0
  /-- global time at which it issued, ns; 02 R54, 01 R20, 07 R197. -/
  t0 : Nat := 0
  /-- core cycle in which it issued; 09 R222, R224. -/
  cyc : Nat := 0
  /-- issue cycles and bank conflicts of an instruction whose sources died at issue; 09 R223. -/
  cost : Option (Nat × Nat) := none
  /-- a read of this instruction blocked, so the leave actions follow it; 09 R224. -/
  yields : Bool := false
  /-- accesses of an MWAIT; 12 R322. -/
  accs : List Acc := []
  /-- values of the lanes of an MWAIT that are done: lane, words, poison; 12 R322. -/
  vals : List (Nat × List Word × Bool) := []
  /-- tick of the next re-read of an MWAIT; 12 R322. -/
  next : Nat := 0
  /-- what PARK, CKPT or RSTO has started and waits for; 14 R361 to R363. -/
  aim : Nat := 0
  /-- time since which a blocked RECV has had no live sender, ns; 01 R20. -/
  orphanSince : Option Nat := none
  /-- a write to the SLEEP granule became visible; 12 R303. -/
  woken : Bool := false
  /-- the part of the instruction that is done at issue is done; 12 R293. -/
  begun : Bool := false
  /-- walks and bank requests of its reads at issue, once they are on their way; 04 R106, 22 R423. -/
  waits : Option (List Nat) := none
  /-- the other set of its cycle; 06 R171, 21 R405. -/
  dual : Option (BitVec 32 × Addr) := none
  /-- registers that a waiting RECV has marked empty, as they were; 12 R305, R323. -/
  undoR : FMap Reg := []
  /-- slots that a waiting RECV has marked empty, as they were; 12 R305, R323. -/
  undoS : FMap Slot := []
  /-- latches as they were before a waiting RECV; 12 R305, R323. -/
  undoL : FMap Latch := []
  deriving DecidableEq, Repr

/-- A lost acknowledgement or a deferred write-back not yet raised (R145, R154). -/
structure Late where
  /-- true: ACK_LOST; false: DEFERRED_WB. -/
  ack : Bool
  /-- lane whose store it was. -/
  lane : Nat
  /-- virtual address of the lowest byte. -/
  va : Nat
  deriving DecidableEq, Repr

/-- A saved copy of the per-lane valid and slot data that the frame keeps per wattle only (R407). -/
structure Shadow where
  /-- latches at the fault, keyed lane * 2 + k. -/
  lat : FMap Latch := []
  /-- slots at the fault, keyed lane * 6 + k. -/
  slots : FMap Slot := []
  /-- slots that a fill reached after the fault. -/
  filled : FMap Unit := []
  /-- hardware-barrier arrivals of the lanes at the fault (R323). -/
  arrived : List (Option (Nat × Nat)) := []
  /-- leave actions were still to be taken (R224). -/
  leaving : Bool := false
  deriving DecidableEq, Repr

/-- One thread object: a wattle of 32 lanes, or a front-end thread of one lane (R9, R11). -/
structure Thr where
  /-- lanes; 32, or 1 for the FE; 01 R9. -/
  lanes : List Lane := []
  /-- registers, keyed lane * 256 + n; unlisted reads as reset; 09 R219; reset 0, full. -/
  regs : FMap Reg := []
  /-- latches, keyed lane * 2 + k; unlisted invalid; 09 R219; reset invalid. -/
  lat : FMap Latch := []
  /-- operand cache, keyed lane * 6 + k; unlisted none; 09 R219; reset none. -/
  slots : FMap Slot := []
  /-- extended blocks held, bit 0 E1; 3 bits; 09 R230; reset 0. -/
  blocks : Nat := 0
  /-- quarter slices of the extended blocks; 09 R230; reset none. -/
  slices : List Slice := []
  /-- serial mode; 1 bit; 01 R26; reset normal. -/
  serial : Bool := false
  /-- running lane of serial mode; 5 bits; 01 R27, R407; reset 0. -/
  running : Nat := 0
  /-- fairness counter starve; 12 bits; 01 R25; reset 0. -/
  starve : Nat := 0
  /-- NUMST; 32 bits; 14 R352, R353; reset 0. -/
  numst : Word := 0
  /-- SSTATUS; 32 bits; 14 R352, R354; reset PM = mode at start, else 0. -/
  sstatus : Word := 0
  /-- L2PIDX; 32 bits; 14 R352; reset 0. -/
  l2pidx : Word := 0
  /-- place in the active set: issue slot; 01 R31; reset none. -/
  slot : Option Nat := none
  /-- core cycle of the last issue since it entered the active set; 01 R31; reset none. -/
  lastIssue : Option Nat := none
  /-- core cycle since which it has been ready; 01 R33; reset 0. -/
  readySince : Nat := 0
  /-- first core cycle of the next issue; 09 R222, R223; reset 0. -/
  nextIssue : Nat := 0
  /-- the held instruction; 12 R293; reset none. -/
  hold : Option Hold := none
  /-- the pc_b set that issues next without a vote (mask, PC); 01 R22; reset none. -/
  second : Option (BitVec 32 × Addr) := none
  /-- lost stores and discarded write-backs to be raised; 05 R145, R154; reset none. -/
  late : List Late := []
  /-- PERF 1 ISSUED; 64 bits; 14 R357; reset 0. -/
  issued : Nat := 0
  /-- PERF 2 BANKCONF; 64 bits; 14 R357; reset 0. -/
  bankconf : Nat := 0
  /-- PERF 7 FAIRSW; 64 bits; 14 R357; reset 0. -/
  fairsw : Nat := 0
  /-- shadows of the frames of trap depth 1 and 2, newest first (model's own); 21 R407; reset none. -/
  shadows : List Shadow := []
  /-- a checker fires on the next instruction, or on the one at a PC: its number; 21 R404; reset none. -/
  pchk : Option (Nat × Option Addr) := none
  /-- PC of an instruction that a checker had discarded and that issues once more; 21 R404; reset none. -/
  retried : Option Addr := none
  /-- CBARs and QBARs whose lanes wait for the release condition before they arrive; 12 R320, R321; reset none. -/
  cbars : List Hold := []
  /-- leave actions still to be taken before the next issue; 09 R224; reset no. -/
  leaving : Bool := false
  deriving DecidableEq, Repr

/-! ## Pending results and memory accesses -/

/-- Destination of a long-latency result: registers of the main file, or operand-cache slots with their home. -/
structure Dst where
  /-- true: operand cache. -/
  cache : Bool := false
  /-- first register (home register for the cache). -/
  reg : Nat := 0
  /-- first slot. -/
  slot : Nat := 0
  /-- registers written. -/
  n : Nat := 1
  /-- write both slot and home (WB). -/
  wb : Bool := false
  deriving DecidableEq, Repr

/-- How a pending destination gets its value. -/
inductive FillWhat where
  | value (vals : List (Nat × List Word × Bool))     -- per lane: words, poison; known at issue
  | load (sx : Bool) (accs : List Acc)               -- LD, LR: read when the fill comes
  | atomic (ops : List Nat)                          -- ATOM, SC: the results of these atomic operations
  deriving DecidableEq, Repr

/-- A long-latency destination still empty (R226). -/
structure Fill where
  /-- number of the fill (model's own). -/
  id : Nat
  /-- physical core. -/
  core : Nat
  /-- thread, 16 for the FE. -/
  thr : Nat
  /-- lanes still to fill. -/
  lanes : BitVec 32
  /-- destination. -/
  dst : Dst
  /-- source of the value. -/
  what : FillWhat
  /-- not before this tick. -/
  due : Nat
  /-- translation walks and bank requests it waits on. -/
  waits : List Nat := []
  /-- earlier results of the same home register, which go first; 09 R224. -/
  behind : List Nat := []
  /-- acquire (R134) or seq-cst (R136). -/
  acq : Bool := false
  /-- LR: expiry is set when the reservation is made; scope die or wider. -/
  lr : Bool := false
  /-- scope code of R126. -/
  scope : Nat := 0
  /-- TDEPTH of the thread at issue. -/
  depth : Nat := 0
  /-- LR: the thread was trapped or pre-empted since, so that no reservation is set; 05 R151. -/
  noResv : Bool := false
  /-- per lane result of an atomic operation: lane, words, poison. -/
  got : List (Nat × List Word × Bool) := []
  deriving DecidableEq, Repr

/-- The kinds of a read-modify-write (R313). -/
structure Rmw where
  /-- operation code of R313. -/
  op : Nat
  /-- eight bytes. -/
  wide : Bool
  /-- operand B. -/
  b : DWord
  /-- compare value of CAS. -/
  cmp : DWord
  /-- operand poisoned. -/
  poison : Bool
  deriving DecidableEq, Repr

/-- An atomic or reduction on its way to a hearth or home agent (R146). -/
structure AtomOp where
  /-- number (model's own). -/
  id : Nat
  /-- physical core of the issuer. -/
  core : Nat
  /-- thread of the issuer. -/
  thr : Nat
  /-- its access. -/
  acc : Acc
  /-- operation and operands. -/
  rmw : Rmw
  /-- SC at a hearth: the bytes stored. -/
  sc : Option (List Byte) := none
  /-- returns a value (ATOM, SC). -/
  ret : Bool
  /-- ASID of the issuer. -/
  asid : Nat
  /-- not before this tick. -/
  due : Nat
  /-- performed at this Tw, ns; the old value is returned then. -/
  tw : Option Nat := none
  /-- value returned, with its poison. -/
  old : Option (List Word × Bool) := none
  /-- walks and bank requests it waits on. -/
  waits : List Nat := []
  /-- it has reached its home's bank. -/
  touched : Bool := false
  deriving DecidableEq, Repr

/-- Who wrote a store. -/
inductive Writer where
  | thread (core thr lane : Nat)
  | engine (core : Nat)
  | host
  deriving DecidableEq, Repr

/-- Stage of a store (R129, R130, R145). -/
inductive StoreSt where
  | buffered            -- in the L2 of the writer's die, or on its way to it
  | leaving             -- written back, not yet accepted
  | accepted (tw : Nat)
  | applied (tw : Nat)
  deriving DecidableEq, Repr

/-- A store not yet acknowledged (R129, R130). -/
structure Store where
  /-- number (model's own). -/
  id : Nat
  /-- writer. -/
  by' : Writer
  /-- compute die of the writer, 4 for none. -/
  die : Nat
  /-- ASID. -/
  asid : Nat := 0
  /-- virtual address. -/
  va : Nat := 0
  /-- physical address. -/
  pa : Nat
  /-- bytes with the poison of the word each belongs to. -/
  bytes : List (Byte × Bool)
  /-- early forwarding (R130). -/
  ef : Bool := false
  /-- visible on the writer's die (EF in the L2). -/
  vis : Bool := false
  /-- stage. -/
  st : StoreSt := .buffered
  /-- time of issue, ns. -/
  t : Nat := 0
  /-- attributes of the page. -/
  attr : Attr := {}
  /-- the translation was dropped and write permission is gone (R153). -/
  revoked : Bool := false
  /-- threads that read its value by early forwarding (R133). -/
  readers : List (Nat × Nat × Nat) := []
  /-- stalled by a page move since, ns (R104). -/
  stalled : Option Nat := none
  /-- order of acceptance at the home (model's own). -/
  seq : Nat := 0
  /-- its acknowledgement is lost on a link: the home line is poisoned once it is applied (R145). -/
  cut : Bool := false
  deriving DecidableEq, Repr

/-- A leased copy of a remote line in a compute die's L2 (R128). -/
structure Copy where
  /-- compute die. -/
  die : Nat
  /-- line number, PA / 64. -/
  line : Nat
  /-- lease end by the home, ns. -/
  until' : Nat
  /-- the 64 bytes. -/
  bytes : List Byte
  /-- poison of its sixteen words. -/
  poison : BitVec 16
  deriving DecidableEq, Repr

/-- A reservation of LR (R151). -/
structure Resv where
  /-- physical core. -/
  core : Nat
  /-- thread. -/
  thr : Nat
  /-- lane. -/
  lane : Nat
  /-- where it is held: 0 scratch port, 1 L2 of the die, 2 hearth. -/
  place : Nat
  /-- unit that holds it: core, die or memory-side die. -/
  unit : Nat
  /-- granule: scratch offset / 64, or PA / 64. -/
  gran : Nat
  /-- expiry, ns. -/
  until' : Nat
  deriving DecidableEq, Repr

/-- A request at an HBM4E bank or a vault bank (R379, R106). -/
structure BankReq where
  /-- number (model's own). -/
  id : Nat
  /-- true: vault; false: HBM4E. -/
  vault : Bool
  /-- die (memory-side die, or physical core key of the vault). -/
  die : Nat
  /-- bank. -/
  bank : Nat
  /-- row (HBM4E). -/
  row : Nat
  /-- requesting physical core. -/
  core : Nat
  /-- arrival, ns. -/
  t : Nat
  /-- NACKed; replay at this time, ns (R106). -/
  replay : Option Nat := none
  /-- held in a wake-hold entry (R106). -/
  held : Bool := false
  deriving DecidableEq, Repr

/-! ## Copies, tags, schedules -/

/-- State of a tag (R110). -/
inductive TagSt where
  | idle
  | busy
  | done
  deriving DecidableEq, Repr

/-- A footprint as granules with its mark (R44, R52). -/
structure Foot where
  /-- first granule. -/
  lo : Nat
  /-- last granule. -/
  hi : Nat
  /-- write mark. -/
  wr : Bool
  deriving DecidableEq, Repr

/-- A task in the footprint table (R51, R52). -/
structure FpTask where
  /-- number (model's own), in order of entry. -/
  id : Nat
  /-- ASID. -/
  asid : Nat
  /-- partition. -/
  part : Nat
  /-- grid that issued it, for job cards and copies; the grid itself for a launch. -/
  grid : Nat
  /-- a launch (true) or an engine task. -/
  launch : Bool
  /-- its used footprints. -/
  foots : List Foot
  /-- tasks it is held on. -/
  on : List Nat
  deriving DecidableEq, Repr

/-- The work of a copy (R116, R311, R328). -/
inductive CopyWork where
  | plain (src dst len : Nat)
  | rows (src dst len stride rows : Nat)                           -- schedule entry (R114)
  | card (bytes src dst aux : List Byte) (moduli : List Nat)         -- copy job card with the records read with it (R116)
  | sfill (size bar : Nat) (lanes : List (Nat × Acc × Nat))        -- lane, source, destination offset (R311)
  deriving DecidableEq, Repr

/-- A submitted copy (R110, R330). -/
structure Job where
  /-- number (model's own), in order of submission. -/
  id : Nat
  /-- tag, none for SFILL. -/
  tag : Option Nat
  /-- event on port 34. -/
  ev : Bool := false
  /-- what it does. -/
  work : CopyWork
  /-- runs in one of the 16 places (R110). -/
  running : Bool := false
  /-- not before this tick. -/
  due : Nat := 0
  /-- its footprint task. -/
  task : Option Nat := none
  /-- writes performed: completes with this status once its stores, numbered below this, are applied; 05 R138. -/
  fin : Option (Nat × Nat) := none
  /-- paused at a pre-emption (R110). -/
  paused : Bool := false
  /-- mode of the issuer: supervisor. -/
  super : Bool := false
  /-- writes before this number are seen by it; 05 R138. -/
  mark : Nat := 0
  /-- thread of the issuer, and lane mask, for a held SFILL. -/
  thr : Nat := 0
  /-- bank requests that its reads wait on, none before they are made; 04 R106, 18 R379. -/
  waits : Option (List Nat) := none
  /-- destination bytes written before it was paused; 04 R110. -/
  done : Nat := 0
  deriving DecidableEq, Repr

/-- What a tagged piece of work wrote over: a thread that has not observed the tag done can still read it (R332). -/
structure Past where
  /-- tag; 6 bits. -/
  tag : Nat
  /-- place of the first byte. -/
  loc : Loc
  /-- bytes and poison from before. -/
  old : List (Byte × Bool)
  /-- threads that have observed the tag done. -/
  seen : List Nat := []
  /-- number (model's own). -/
  id : Nat
  deriving DecidableEq, Repr

/-- A schedule entry (R114). -/
structure Sched where
  /-- source. -/
  src : Nat
  /-- destination. -/
  dst : Nat
  /-- bytes a row. -/
  len : Nat
  /-- bytes between source rows. -/
  stride : Nat
  /-- rows. -/
  rows : Nat
  /-- stage. -/
  stage : Nat
  /-- tag. -/
  tag : Nat
  /-- writes before this number are seen by its copy; 05 R138. -/
  mark : Nat := 0
  /-- released (R115). -/
  released : Bool := false
  /-- index in its schedule; 04 R115. -/
  idx : Nat := 0
  /-- tick of its release; 04 R115. -/
  relAt : Nat := 0
  deriving DecidableEq, Repr

/-! ## Groups and cores -/

/-- A message: its lane words with their poison (R16). -/
structure Msg where
  /-- decision-queue target, 0xFFFF_FFFF for any (R15). -/
  target : Nat := 0
  /-- words; one, or 32. -/
  words : List (Word × Bool)
  deriving DecidableEq, Repr

/-- A basket (R34 to R36). -/
structure Basket where
  /-- entry address. -/
  key : Addr
  /-- threads in arrival order: v0 to v7 with poison. -/
  threads : List (List (Word × Bool))
  /-- elapsed cycles of its proofing timer. -/
  elapsed : Nat := 0
  deriving DecidableEq, Repr

/-- What a group is doing. -/
inductive GSt where
  | running
  | halting (t0 : Nat) (park brk : Bool)    -- R410, R361, R349: request time in ns; parked once halted; by BRK
  | saving                                  -- its checkpoint is being written (R410, R411)
  | parked (brk : Bool)                     -- R361, R349
  | restoring (park halt : Bool)            -- R412; parked by RSTO.park; by a PARK.halt meanwhile (R361)
  | ended                                   -- every thread exited; work still running (R39)
  | failing (rec' : List Byte)              -- R408: a fault ends it; it drains, then its record is written
  deriving DecidableEq, Repr

/-- A group on a core (R6, R352). -/
structure Group where
  /-- grid number (model's own). -/
  grid : Nat := 0
  /-- position in traversal order; 02 R55. -/
  pos : Nat := 0
  /-- %gx; 32 bits; 01 R7. -/
  gx : Nat := 0
  /-- %gy; 32 bits; 01 R7. -/
  gy : Nat := 0
  /-- %gz; 32 bits; 01 R7. -/
  gz : Nat := 0
  /-- ASID; 10 bits; 14 R352; from dispatch. -/
  asid : Nat := 0
  /-- partition; 2 bits; 20 R395. -/
  part : Nat := 0
  /-- queue it was dealt from; 19 R387. -/
  queue : Nat := 0
  /-- mode its threads start in; 20 R397. -/
  super : Bool := false
  /-- team number when TEAM is set; 02 R56. -/
  team : Option Nat := none
  /-- TVEC; 64 bits; 14 R352; reset 0. -/
  tvec : DWord := 0
  /-- TFRAME; 64 bits; 14 R352; reset 0. -/
  tframe : DWord := 0
  /-- CKBASE; 64 bits; 14 R352; from placement. -/
  ckbase : DWord := 0
  /-- CKBASE names an area: the dispatcher found one, or software set it; 21 R411; reset none. -/
  area : Bool := false
  /-- the pool area reserved for it, by PA / 64 KiB; 21 R411; reset none. -/
  pool : Option Nat := none
  /-- it was parked when it had to leave a retired core, and whether by BRK; 22 R429; reset none. -/
  parkedBy : Option Bool := none
  /-- FE entry, wattle entry; 02 R43. -/
  feEntry : Addr := 0
  /-- wattle entry; 02 R43. -/
  wEntry : Addr := 0
  /-- ARGS; 64 bits; 02 R43. -/
  args : DWord := 0
  /-- grid sizes X, Y, Z; 02 R43. -/
  dims : Nat × Nat × Nat := (1, 1, 1)
  /-- WATTLES of the record; 02 R43. -/
  wattles : Nat := 1
  /-- BASE_NEED; 02 R46. -/
  baseNeed : Nat := 64
  /-- EXT_MAX; 02 R46. -/
  extMax : Nat := 0
  /-- SCRATCH of the record; 02 R109. -/
  scratchNeed : Nat := 0
  /-- L1 split code; 2 bits; 04 R107. -/
  l1 : Nat := 0
  /-- heat class; 2 bits; 02 R59. -/
  heat : Nat := 0
  /-- PRIO; 2 bits; 02 R43. -/
  prio : Nat := 1
  /-- launch record address; 14 R364. -/
  record : Nat := 0
  /-- lenders in order, physical cores; 02 R62. -/
  lenders : List Nat := []
  /-- resident wattles; 01 R31. -/
  resident : List Nat := []
  /-- baskets, keyed 0 to 7; 01 R34; reset free. -/
  baskets : FMap Basket := []
  /-- stage counter; 8 bits; 04 R115; reset 0. -/
  stage : Nat := 0
  /-- schedule entries not yet submitted; 04 R114. -/
  sched : List Sched := []
  /-- decision queue, oldest first; 01 R13; reset empty. -/
  dq : List Msg := []
  /-- group channels 1 to 15; 01 R13; reset empty. -/
  chans : FMap (List Msg) := []
  /-- CBAR generations under way, keyed id: the count of the first arrival; 12 R320; reset none. -/
  cbar : FMap Nat := []
  /-- REGACQ wait queue (wattle, mask); 09 R231; reset empty. -/
  regq : List (Nat × Nat) := []
  /-- what it is doing. -/
  st : GSt := .running
  /-- first placement, tick, and order of dealing; 02 R68. -/
  born : Nat × Nat := (0, 0)
  /-- ended by a fault; 21 R408. -/
  faulted : Bool := false
  /-- PERF 6 DQ_DROPPED; 64 bits; 14 R357; reset 0. -/
  dqDropped : Nat := 0
  /-- PERF 10 PREEMPT; 64 bits; 14 R357; reset 0. -/
  preempts : Nat := 0
  /-- PERF 11 CKPT_BYTES; 64 bits; 14 R357; reset 0. -/
  ckptBytes : Nat := 0
  /-- tick of the latest request to pre-empt it; 02 R49; reset 0. -/
  asked : Nat := 0
  /-- core it runs on, physical (model's own: where its saved places lie). -/
  seat : Nat := 0
  /-- earliest next try of a migration, ns; 02 R66. -/
  migrateAt : Nat := 0
  /-- 4 KiB blocks of scratch and lent window written since the last checkpoint; 21 R411. -/
  scrDirty : List Nat := []
  /-- loads to re-issue after a restore; 21 R410. -/
  replay : List Fill := []
  /-- it migrates: it is placed again at once after its checkpoint; 02 R66. -/
  moving : Bool := false
  /-- a checkpoint is being written: its stores are numbered below this; its header is written; 21 R411. -/
  ck : Option (Nat × Bool) := none
  deriving DecidableEq, Repr

/-- A cached translation (R422, R423). -/
structure TlbEnt where
  /-- ASID. -/
  asid : Nat
  /-- VA / 64 KiB, or VA / 512 MiB. -/
  vpn : Nat
  /-- 512 MiB page. -/
  big : Bool
  /-- leaf entry. -/
  leaf : DWord
  /-- root and NOMOVE of the ASID entry it was made with: root * 2 + NOMOVE; 22 R419. -/
  via : Nat := 0
  deriving DecidableEq, Repr

/-- One physical core (R2, R352, R357). -/
structure Core where
  /-- group that occupies it. -/
  group : Option Group := none
  /-- core it lends to; 02 R62; reset none. -/
  lendsTo : Option Nat := none
  /-- core cycles, PERF 0 CYCLES; 64 bits; 14 R357, 19 R390; reset 0. -/
  cycle : Nat := 0
  /-- tick of the next cycle. -/
  edge : Nat := 0
  /-- PROOF; 32 bits; 14 R352; reset 512. -/
  proof : Word := 512
  /-- TAGERR; 64 bits; 14 R352; reset 0. -/
  tagerr : DWord := 0
  /-- tags, keyed 0 to 63; unlisted idle; 04 R110; reset idle. -/
  tags : FMap TagSt := []
  /-- copies in order of submission; 04 R111; reset none. -/
  jobs : List Job := []
  /-- scratchpad bytes; unlisted 0; 04 R100, R101; reset 0. -/
  scr : List Host.Cell := []
  /-- poisoned scratch words (offset / 4); 04 R101; reset none. -/
  scrP : FMap Unit := []
  /-- barrier type bits (offset / 16); 04 R120; reset none. -/
  scrT : FMap Unit := []
  /-- event ports 32 to 35, oldest first; 01 R13; reset empty. -/
  ports : FMap (List Word) := []
  /-- an event was lost on this port; 01 R19; reset no. -/
  lost : FMap Unit := []
  /-- events counted but not stored on this port; 01 R19; reset 0. -/
  lostN : FMap Nat := []
  /-- translation cache, newest first; 22 R423; reset empty. -/
  tlb : List TlbEnt := []
  /-- L1 lines (PA / 64); 04 R107; reset empty. -/
  l1 : FMap Unit := []
  /-- PERF 3 MIG_STALL; 64 bits; 14 R357; reset 0. -/
  migStall : Nat := 0
  /-- PERF 4 VAULT_WAKE_HOLD; 64 bits; 14 R357; reset 0. -/
  wakeHold : Nat := 0
  /-- PERF 5 VAULT_WAKE_REPLAY; 64 bits; 14 R357; reset 0. -/
  wakeReplay : Nat := 0
  /-- PERF 8 LENT_ACC; 64 bits; 14 R357; reset 0. -/
  lentAcc : Nat := 0
  /-- PERF 9 HBM_BACKOFF; 64 bits; 14 R357; reset 0. -/
  hbmBackoff : Nat := 0
  /-- time of the last column test, ns; 24 R451; reset none. -/
  tested : Option Nat := none
  /-- bytes that finished tagged work wrote over, newest first, for threads that have not observed its tag; 13 R332; reset none. -/
  past : List Past := []
  deriving DecidableEq, Repr

/-! ## The Chrovia engine of a quad -/

/-- One accumulator element: residues of the channels of its basis, and poison (R164). -/
structure Elem where
  /-- residues in channel order, 9 bits each; empty for 0 in every channel; 06 R164; reset 0. -/
  res : List Nat := []
  /-- poison; 1 bit; 06 R164; reset 0. -/
  poison : Bool := false
  deriving DecidableEq, Repr

/-- A loaded tile by lines, a line being an A row or a B column (R162, R174). -/
structure Tile where
  /-- residues of line l, element k (0 to 31), channel c, 9 bits each; 06 R162; reset none. -/
  el : List (List (List Nat)) := []
  /-- poisoned lines; 06 R174, 03 R84; reset none. -/
  bad : List Nat := []
  /-- carrier exponent of each line, 8 bits; 06 R162; reset 0. -/
  exp : List Int := []
  /-- per-K maximum of each k; 06 R162, 03 R96; reset 0. -/
  mx : List Nat := []
  deriving DecidableEq, Repr

/-- State of an operand slot (R163). -/
inductive SlotUse where
  | claimed
  | loadedA (t : Tile)
  | loadedB (t0 t1 : Option Tile)
  | job
  deriving DecidableEq, Repr

/-- An operand slot that is not free (R162, R163). -/
structure OSlot where
  /-- state. -/
  use : SlotUse
  /-- claiming core, physical. -/
  core : Nat
  /-- ASID that claimed or loaded it; 21 R414. -/
  asid : Nat
  /-- array group 0 full, 1 pair A, 2 pair B. -/
  grp : Nat := 0
  /-- basis id; 06 R162. -/
  basis : Nat := 0
  /-- moduli of that basis; 06 R162. -/
  ms : List Nat := []
  deriving DecidableEq, Repr

/-- Certification state of an accumulator (R166). -/
inductive Cert where
  | zero
  | certified
  | unbounded
  deriving DecidableEq, Repr

/-- An accumulator that is not unset, with its scale memory (R164, R165). -/
structure AccT where
  /-- elements by row and column; an absent one is 0; 06 R164. -/
  el : List (List Elem) := []
  /-- every element is poisoned; 06 R166; reset 0. -/
  bad : Bool := false
  /-- e_row[0..255], 8 bits each, none while unrecorded; 06 R165. -/
  er : List (Option Int) := []
  /-- e_col[0..127], 8 bits each, none while unrecorded; 06 R165. -/
  ec : List (Option Int) := []
  /-- bound B of R96, 96 bits, saturating; 06 R165; reset 0. -/
  bound : Nat := 0
  /-- basis recorded at the first pass; 06 R165. -/
  basis : Option Nat := none
  /-- moduli of that basis; 06 R165. -/
  ms : List Nat := []
  /-- certification state, 2 bits; 06 R166. -/
  cert : Cert := .zero
  /-- ASID that cleared it; 21 R414. -/
  asid : Nat := 0
  /-- core that cleared it, physical; 21 R411. -/
  core : Nat := 0
  /-- pass count of the group at the last pass, 16 bits; 06 R186. -/
  pass : Nat := 0
  deriving DecidableEq, Repr

/-- A staged scale record (R165). -/
structure Staged where
  /-- ASID of its SCLD. -/
  asid : Nat
  /-- core of its SCLD, physical; 21 R411. -/
  core : Nat
  /-- the record as read, none when its word was poisoned. -/
  rec' : Option Nat
  /-- linear index kept with it; 13 R338. -/
  lin : Nat
  deriving DecidableEq, Repr

/-- A basis table entry (R285, R334). -/
structure BasisEnt where
  /-- moduli, base channels first. -/
  moduli : List Nat
  /-- base channels n. -/
  n : Nat
  /-- ASID that loaded it (shared for 0 and 1); 21 R414. -/
  asid : Option Nat := none
  deriving DecidableEq, Repr

/-- What a reservation-table entry does (R167). The last three take none of the 16 entries and only keep their place in
the order (R334, R335). -/
inductive EntOp where
  | qmma (grp acc a b half k : Nat) (qtrs : BitVec 4)
  | oload (grp fmt slot kind half basis w addr stride : Nat) (ms : List Nat) (plane : List Byte) (tag : Option Nat)
  | aclr (grp acc : Nat)
  | adrain (grp fmt acc rnd : Nat) (ftz stats : Bool) (dst sta stride : Nat) (ms : List Nat) (plane : List Byte)
      (tag : Option Nat)
  | scld (grp : Nat) (rec' : List Byte) (col row count : Nat) (tag : Option Nat)
  | job (card : List Byte) (recs : List (List Byte)) (basis : Nat) (ms : List Nat)
  | oclm (any : Bool) (slot : Nat)
  | orel (slot : Nat)
  | basis (id thr : Nat) (ent : BasisEnt)
  deriving DecidableEq, Repr

/-- Progress of a running job (R178). -/
structure JobRun where
  /-- its four slots; 6 bits each; 06 R178. -/
  slots : List Nat := []
  /-- index vector; 06 R178. -/
  idx : List Nat := []
  /-- accumulator in use; 1 bit; 06 R178. -/
  acc : Nat := 0
  /-- drained tiles; 06 R178. -/
  tile : Nat := 0
  /-- first segment still to come; 06 R178. -/
  first : Bool := true
  /-- c of the previous segment; 06 R178. -/
  cPrev : Int := 0
  /-- the drain that comes before the next pass, or the last one, is done. -/
  drained : Bool := false
  /-- every segment is done. -/
  last : Bool := false
  /-- saturation seen, bit 7 of the status; 06 R182. -/
  sat : Bool := false
  deriving DecidableEq, Repr

/-- A reservation-table entry (R167). -/
structure Ent where
  /-- number (model's own), in order of entry. -/
  id : Nat
  /-- issuing core, physical. -/
  core : Nat
  /-- ASID of the issuer. -/
  asid : Nat
  /-- partition of the issuer. -/
  part : Nat := 0
  /-- PRIO of its launch. -/
  prio : Nat := 0
  /-- time of entry, ns; 06 R169. -/
  t : Nat := 0
  /-- mode of the issuer: supervisor. -/
  super : Bool := false
  /-- writes before this number are seen by it; 05 R138. -/
  mark : Nat := 0
  /-- operation; 06 R167. -/
  op : EntOp
  /-- translations made at issue: VA / 64 KiB, PA of the page, attributes; 13 R337, R341. -/
  pages : List (Nat × Nat × Attr) := []
  /-- it has its array group, its accumulator or the RXU; passes still to run, this one included; 06 R169. -/
  granted : Option Nat := none
  /-- fused into the pass of this entry; 06 R172. -/
  fusedInto : Option Nat := none
  /-- not before this tick. -/
  due : Nat := 0
  /-- running job; 06 R178. -/
  run : Option JobRun := none
  /-- its footprint task; 02 R51. -/
  task : Option Nat := none
  /-- writes performed: completes with this status once its stores, numbered below this, are applied; 05 R138. -/
  fin : Option (Nat × Nat) := none
  /-- paused at a pre-emption; 06 R188. -/
  paused : Bool := false
  /-- bank requests that its reads wait on, none before they are made; 04 R106, 18 R379. -/
  waits : Option (List Nat) := none
  deriving DecidableEq, Repr

/-- One engine, keyed by die * 21 + quad position (R158 to R188). -/
structure Eng where
  /-- operand slots that are not free, keyed 0 to 63; 06 R162; reset free. -/
  slots : FMap OSlot := []
  /-- accumulators that are not unset, keyed group * 2 + n; 06 R164; reset unset. -/
  accs : FMap AccT := []
  /-- staging areas, keyed group, oldest first; 06 R165; reset empty. -/
  staged : FMap (List Staged) := []
  /-- reservation table, oldest first; 16 entries; 06 R167; reset empty. -/
  table : List Ent := []
  /-- basis entries 2 to 15; 06 R285; reset not loaded. -/
  bases : FMap BasisEnt := []
  /-- CCR; 64 bits; 06 R186; reset 0. -/
  ccr : DWord := 0
  /-- retired slots; 06 R160; reset none. -/
  retired : List Nat := []
  /-- pass counts, keyed group; 06 R184; reset 0. -/
  passes : FMap Nat := []
  /-- a re-proof pass runs, keyed group: until this tick, for this core, ASID and accumulator; 06 R184; reset none. -/
  reproof : FMap (Nat × Nat × Nat × Nat) := []
  /-- ASID that the CCR's last event concerns; 21 R414; reset none. -/
  ccrAsid : Option Nat := none
  /-- pair mode; 06 R159; reset full. -/
  pair : Bool := false
  /-- held no work and no group since the last refill boundary; 19 R388. -/
  idle : Bool := true
  /-- CORR telemetry; 32 bits; 24 R446; reset 0. -/
  corr : Nat := 0
  /-- UNCORR telemetry; 32 bits; 24 R446; reset 0. -/
  uncorr : Nat := 0
  /-- REPROOF telemetry; 16 bits; 24 R446; reset 0. -/
  reproofN : Nat := 0
  /-- SKEW telemetry; 16 bits; 24 R446; reset 0. -/
  skew : Nat := 0
  /-- times (ns) of class-10 results by slot; 23 R434; reset none. -/
  stuck : List (Nat × Nat) := []
  deriving DecidableEq, Repr

/-- Channels of a team, keyed by quad (R13). -/
structure Team where
  /-- channels 16 to 31; 01 R13; reset empty. -/
  chans : FMap (List Msg) := []
  /-- positions of its groups that are pre-empted and away; 12 R321; reset none. -/
  away : List Nat := []
  deriving DecidableEq, Repr

/-! ## Translation -/

/-- A translation walk in flight (R423). -/
structure Walk where
  /-- number (model's own). -/
  id : Nat
  /-- compute die, or 4 + memory-side die. -/
  die : Nat
  /-- ASID. -/
  asid : Nat
  /-- VA / 64 KiB. -/
  page : Nat
  /-- result: size and leaf entry. -/
  res : Option (Bool × DWord)
  /-- root and NOMOVE of the ASID entry: root * 2 + NOMOVE; 22 R419. -/
  via : Nat := 0
  /-- cores that wait on it. -/
  cores : List Nat
  /-- bank requests of its table reads; 04 R106. -/
  waits : List Nat := []
  /-- not before this tick. -/
  due : Nat
  deriving DecidableEq, Repr

/-- A TLBI in progress (R360, R424). -/
structure Tlbi where
  /-- number (model's own). -/
  id : Nat
  /-- issuing core. -/
  core : Nat
  /-- partition. -/
  part : Nat
  /-- form 0 va, 1 asid, 2 all. -/
  form : Nat
  /-- address. -/
  va : Nat
  /-- ASID. -/
  asid : Nat
  /-- package form. -/
  pkg : Bool
  /-- a die in scope was or came in reset. -/
  reset : Bool
  /-- fills, atomics, copies and entries that used a dropped entry. -/
  fills : List Nat
  /-- dies whose caches have still to be emptied. -/
  dies : List Nat
  /-- TIER 3 pages that have to come back first (R428). -/
  pages : List Nat := []
  deriving DecidableEq, Repr

/-- A page move in progress (R104). -/
structure Move where
  /-- PA / 64 KiB of the HBM4E backing. -/
  page : Nat
  /-- to this vault page, vault * 288 + page; none for HBM4E. -/
  dst : Option Nat
  /-- started, ns. -/
  t : Nat
  deriving DecidableEq, Repr

/-! ## Dispatcher -/

/-- A launch packet (R39, R396). -/
structure Packet where
  /-- record address. -/
  va : Nat
  /-- writes before this number came before its packet entered the queue; 07 R190. -/
  mark : Nat := 0
  /-- grid that launched it, none for a doorbell. -/
  parent : Option Nat := none
  deriving DecidableEq, Repr

/-- State of the head of a queue (R48, R49). -/
inductive Head where
  | fresh                                 -- not yet validated
  | waiting (grid : Nat)                  -- validated; held by a dependence, the table or its parent
  | ready (grid t cls : Nat)              -- ready since t ns, effective class
  | dealing (grid : Nat)
  deriving DecidableEq, Repr

/-- A launch queue (R395). -/
structure Queue where
  /-- control word at 0x00; 64 bits; 20 R395; reset 0. -/
  ctl : DWord := 0
  /-- CWFAIL, BADDB, OVF; 3 bits; 20 R395; reset 0. -/
  cwfail : Bool := false
  /-- BADDB; 20 R395; reset 0. -/
  baddb : Bool := false
  /-- OVF; 20 R395; reset 0. -/
  ovf : Bool := false
  /-- CWADDR; 64 bits; 20 R395; reset 0. -/
  cwaddr : DWord := 0
  /-- packets, head first; up to 256; 20 R395; reset none. -/
  packets : List Packet := []
  /-- state of the head. -/
  head : Head := .fresh
  deriving DecidableEq, Repr

/-- A doorbell write that waits for the host writes received before it (R157). -/
structure Bell where
  /-- queue. -/
  queue : Nat
  /-- bytes of the write. -/
  nbytes : Nat
  /-- value; 64 bits. -/
  v : DWord
  /-- stores numbered below this came before it. -/
  mark : Nat
  deriving DecidableEq, Repr

/-- A withdrawn packet whose record is still to be read (R395). -/
structure Withdrawn where
  /-- queue. -/
  queue : Nat
  /-- address of its record. -/
  va : Nat
  /-- ASID. -/
  asid : Nat
  /-- partition. -/
  part : Nat
  /-- supervisor mode. -/
  super : Bool
  deriving DecidableEq, Repr

/-- A launch record in use (R43). -/
structure Rec where
  /-- its 256 bytes as read. -/
  bytes : List Byte := []
  /-- schedule entries. -/
  sched : List Sched := []
  deriving DecidableEq, Repr

/-- A grid (R39, R47, R60). -/
structure Grid where
  /-- launch record. -/
  rec' : Rec
  /-- its address. -/
  va : Nat
  /-- queue. -/
  queue : Nat
  /-- ASID. -/
  asid : Nat
  /-- partition. -/
  part : Nat
  /-- supervisor mode. -/
  super : Bool
  /-- parent grid. -/
  parent : Option Nat
  /-- writes before this number came before its packet entered the queue; 07 R190. -/
  mark : Nat := 0
  /-- next traversal position to deal. -/
  nextPos : Nat := 0
  /-- pre-empted groups to deal again, front first, with their checkpoint areas; 02 R68. -/
  again : List (Nat × Nat) := []
  /-- groups dealt and not ended. -/
  live : Nat := 0
  /-- FAULTED; 32 bits; 20 R398. -/
  faulted : Nat := 0
  /-- START, ns. -/
  start : Nat := 0
  /-- a group has been dealt. -/
  started : Bool := false
  /-- withdrawn; 20 R395. -/
  cancelled : Bool := false
  /-- deals now; 02 R49. -/
  dealing : Bool := false
  /-- waits for a dealing place since; 02 R49. -/
  regain : Option Nat := none
  /-- became ready, ns; 02 R50. -/
  readyAt : Nat := 0
  /-- effective class at its selection; 02 R49, R50. -/
  cls : Nat := 0
  /-- footprint task. -/
  task : Option Nat := none
  /-- BTE jobs not completed; 13 R344. -/
  btes : Nat := 0
  /-- has left its queue. -/
  left : Bool := false
  /-- channels of teams whose groups are all pre-empted, keyed team; 02 R68. -/
  teams : FMap Team := []
  deriving DecidableEq, Repr

/-! ## Block-transfer engines -/

/-- A BTE job (R123, R344). -/
structure BteJob where
  /-- source. -/
  src : Nat
  /-- destination. -/
  dst : Nat
  /-- bytes. -/
  len : Nat
  /-- ring descriptor address. -/
  ring : Nat
  /-- JOB_ID. -/
  jobId : Nat
  /-- notice on port 35. -/
  notice : Bool
  /-- issuing core, physical. -/
  core : Nat
  /-- ASID. -/
  asid : Nat
  /-- mode of the issuer: supervisor. -/
  super : Bool
  /-- writes before this number are seen by it; 05 R138. -/
  mark : Nat := 0
  /-- grid. -/
  grid : Nat
  /-- footprint task. -/
  task : Option Nat
  /-- not before this tick. -/
  due : Nat
  /-- transfer done: its stores are numbered below this; status, fault, bytes, address; 05 R138. -/
  fin : Option (Nat × Nat × Nat × Nat × Nat) := none
  /-- its completion record is written; its store is numbered below this; 04 R124. -/
  recd : Option Nat := none
  /-- bank requests that its reads wait on, none before they are made; 04 R106, 18 R379. -/
  waits : Option (List Nat) := none
  deriving DecidableEq, Repr

/-! ## HBM4E, vaults, boost -/

/-- One HBM4E bank, keyed die * 1024 + b (R379 to R384). -/
structure Bank where
  /-- open row; 18 R379; reset none. -/
  openRow : Option Nat := none
  /-- activation counters by row; unlisted 0; 16 bits; 18 R380; reset 0. -/
  cnt : FMap Nat := []
  /-- RFMROWS; 32 bits; 18 R384; reset 0. -/
  rfmRows : Nat := 0
  /-- ALERTS; 32 bits; 18 R384; reset 0. -/
  alerts : Nat := 0
  /-- BACKOFF_NS; 64 bits; 18 R384; reset 0. -/
  backoff : Nat := 0
  /-- LASTROW; 16 bits; 18 R384; reset 0xFFFF. -/
  lastRow : Nat := 0xFFFF
  /-- LASTWIN; 32 bits; 18 R384; reset 0. -/
  lastWin : Nat := 0
  /-- end of a block, ns; 18 R381; reset none. -/
  blockedTo : Option Nat := none
  /-- end of an ordinary refresh, ns; 24 R450; reset 0. -/
  refreshTo : Nat := 0
  /-- an ordinary refresh that waits for the end of a block; 24 R450; reset none. -/
  refreshOwed : Bool := false
  /-- request whose alert is raised and whose block has still to begin; 18 R381; reset none. -/
  alerted : Option Nat := none
  /-- what the next scrub read finds, set from outside: the address of a word, and whether it is uncorrectable; 24 R450; reset none. -/
  scrubFinds : Option (Nat × Bool) := none
  deriving DecidableEq, Repr

/-- A bank of a vault, keyed vault * 72 + bank (R105). -/
structure VBank where
  /-- asleep; 04 R105. -/
  asleep : Bool := false
  /-- wake ends, ns; 04 R105. -/
  wakeAt : Option Nat := none
  /-- last access, ns; 04 R105. -/
  last : Nat := 0
  /-- idle time in force, ns; 24 R443. -/
  idle : Nat := 50000
  deriving DecidableEq, Repr

/-- Boost data of a quad, keyed die * 21 + position (R388, R391). -/
structure QBoost where
  /-- CLOCK in 100 MHz; 19 R391; reset 6. -/
  clock : Nat := 6
  /-- GRANTED; 32 bits; 19 R391; reset 0. -/
  granted : Nat := 0
  /-- DESCENT; 32 bits; 19 R391; reset 0. -/
  descent : Nat := 0
  /-- REFUSED; 32 bits; 19 R391; reset 0. -/
  refused : Nat := 0
  /-- age of its claim: first boundary of the run; 19 R387; reset none. -/
  claim : Option Nat := none
  deriving DecidableEq, Repr

/-- Boost data of a compute die (R388, R391). -/
structure DBoost where
  /-- POOL; 8 bits signed; 19 R391; reset POOLMAX. -/
  pool : Int := 64
  /-- REFILLED; 32 bits; 19 R391; reset 0. -/
  refilled : Nat := 0
  /-- CHARGED; 32 bits; 19 R391; reset 0. -/
  charged : Nat := 0
  /-- POOLMAX in force; 8 bits; 19 R391; reset 64. -/
  poolmax : Nat := 64
  /-- the set of quads that claimed at the last boundary, and for how many boundaries; 19 R389; reset none. -/
  claimed : List Nat := []
  /-- boundaries in a row with that set; 19 R389; reset 0. -/
  run : Nat := 0
  deriving DecidableEq, Repr

/-- A column, keyed by physical core (R65, R446). -/
structure Column where
  /-- TEMP in 1/8 degree; 16 bits; 24 R446; reset 0. -/
  temp : Nat := 0
  /-- TSTATE; 2 bits; 24 R446; reset 0. -/
  tstate : Nat := 0
  /-- PCHK; 32 bits; 24 R446; reset 0. -/
  pchk : Nat := 0
  /-- CTFAIL; 1 bit; 24 R446; reset 0. -/
  ctfail : Bool := false
  /-- at the hard limit since, ns; 23 R433; reset none. -/
  hotSince : Option Nat := none
  /-- times (ns) of PIPELINE_CHECK faults; 23 R434; reset none. -/
  pchkT : List Nat := []
  deriving DecidableEq, Repr

/-! ## Host interface and firmware -/

/-- A UALink port (R400). -/
structure Port where
  /-- EN; 20 R400; reset 0. -/
  en : Bool := false
  /-- PEER; 10 bits; 20 R400; reset 0. -/
  peer : Nat := 0
  /-- ERRCNT; 8 bits; 20 R400; reset 0. -/
  errcnt : Nat := 0
  /-- LANES; 4 bits; 20 R400; reset 0. -/
  lanes : Nat := 0
  /-- STATE; 3 bits; 20 R400; reset 0. -/
  st : Nat := 0
  deriving DecidableEq, Repr

/-- A running firmware image (R435, R438). -/
structure Image where
  /-- VERSION; 32 bits; 23 R435. -/
  version : Nat := 0
  /-- SVN; 16 bits; 23 R435. -/
  svn : Nat := 0
  /-- DIGEST; 32 bytes; 23 R438. -/
  digest : List Byte := []
  deriving DecidableEq, Repr

/-- A log record that may still take repeats of its error (R437). -/
structure LogRec where
  /-- CLASS. -/
  cls : Nat
  /-- BOUND. -/
  bound : Nat
  /-- ASID. -/
  asid : Nat
  /-- UNIT. -/
  unit : Nat
  /-- ADDR. -/
  addr : Nat
  /-- TIME, ns. -/
  time : Nat
  /-- SYND. -/
  synd : Nat
  /-- COUNT. -/
  count : Nat := 0
  deriving DecidableEq, Repr

/-- An ATTEST whose leaf is committed and whose report is still to be written (R441, R442). -/
structure Attest where
  /-- the leaf that it uses. -/
  leaf : Nat
  /-- PA of the report. -/
  out : Nat
  /-- the nonce, with poison. -/
  nonce : List (Byte × Bool)
  /-- time of the report, ns. -/
  due : Nat
  deriving DecidableEq, Repr

/-- Firmware, mailbox and log (R434 to R443). -/
structure Fw where
  /-- STATE; 4 bits; 23 R435; reset 0. -/
  st : Nat := 0
  /-- running image; 23 R435; reset none (fields 0). -/
  image : Option Image := none
  /-- verified image waiting for a boost boundary; 23 R439; reset none. -/
  next : Option Image := none
  /-- image of the store from which firmware reloads; 23 R431; reset none. -/
  store : Option Image := none
  /-- ACTIVE: standby; 1 bit; 23 R435; reset 0. -/
  standby : Bool := false
  /-- a controller runs; 23 R440; reset 1. -/
  alive : Bool := true
  /-- time at which the standby takes over, ns; 23 R440; reset 0. -/
  downAt : Nat := 0
  /-- time at which the controller failed, ns; 23 R437, R440; reset 0. -/
  failedAt : Nat := 0
  /-- ARG0; 64 bits; 23 R435; reset 0. -/
  arg0 : DWord := 0
  /-- ARG1; 64 bits; 23 R435; reset 0. -/
  arg1 : DWord := 0
  /-- running command, with KIND and UNIT: BUSY; 23 R435; reset none. -/
  cmd : Option (Nat × Nat × Nat) := none
  /-- a running LOAD or ATTEST that waits for a home in reset: OP, ARG0, ARG1; 23 R431, R435; reset none. -/
  held : Option (Nat × Nat × Nat) := none
  /-- RESULT; 8 bits; 23 R435; reset 0. -/
  result : Nat := 0
  /-- LOGBASE; 64 bits; 23 R435; reset 0. -/
  logbase : DWord := 0
  /-- log records made: LOGPROD once their stores are done; 64 bits; 23 R435, R437; reset 0. -/
  logprod : Nat := 0
  /-- LOGCONS; 64 bits; 23 R435; reset 0. -/
  logcons : DWord := 0
  /-- LOGLOST; 64 bits; 23 R435; reset 0. -/
  loglost : Nat := 0
  /-- log records that may still take repeats, oldest first; 23 R437; reset none. -/
  logOpen : List LogRec := []
  /-- stores of the newest log records, in order, those before LOGPROD left out at times; 23 R437; reset none. -/
  logStores : List Nat := []
  /-- the ATTEST whose report is still to be written; 23 R441; reset none. -/
  att : Option Attest := none
  /-- minimum SVN in fuses; 23 R439; reset 0. -/
  minSvn : Nat := 0
  /-- leaf counter on memory-side die 0; 21 bits; 23 R441; kept without power. -/
  leaf0 : Nat := 0
  /-- leaf counter on memory-side die 4; 21 bits; 23 R441; kept without power. -/
  leaf4 : Nat := 0
  /-- policies and settings by number; unlisted default; 23 R434, 24 R443; reset defaults. -/
  pol : FMap Nat := []
  /-- TDISP, TMIG, THARD and MIGRATE as in force since the last sensor sample; 24 R443; reset defaults. -/
  inForce : FMap Nat := []
  /-- samples taken, SEQ; 32 bits; 24 R446; reset 0. -/
  seq : Nat := 0
  /-- EINJ word; 64 bits; 24 R448; reset 0. -/
  einj : DWord := 0
  /-- detections still to report, time of the next (ns); 24 R448; reset none. -/
  einjLeft : Option (Nat × Nat) := none
  /-- thermal emergency logged, by partition; 23 R433; reset none. -/
  emergency : List Nat := []
  /-- every column of the partition hot since (ns), for R67, keyed partition; reset none. -/
  hotSince : FMap Nat := []
  /-- last sensor sample, ns; 24 R444; reset 0. -/
  sampled : Nat := 0
  deriving DecidableEq, Repr

/-- A reset in progress (R431, R432). -/
structure RstUnit where
  /-- kind of R436. -/
  kind : Nat
  /-- unit. -/
  unit : Nat
  /-- ends, ns. -/
  t : Nat
  /-- requested by mailbox and absorbed requests to complete with it. -/
  mailbox : Bool := false
  /-- caches emptied at, ns (R424). -/
  emptyAt : Nat := 0
  deriving DecidableEq, Repr

/-- A core's share of one engine (R411 section 6). -/
structure EngShare where
  /-- slots it claimed. -/
  slots : FMap OSlot := []
  /-- accumulators it last cleared. -/
  accs : FMap AccT := []
  /-- staged records. -/
  staged : FMap (List Staged) := []
  /-- its jobs, paused, and its OCLMs and ORELs to come; 13 R345. -/
  ents : List Ent := []
  deriving DecidableEq, Repr

/-- What the section-1 and section-6 parts of a checkpoint hold, whose layout the manual does not give (R411). -/
structure Image6 where
  /-- group state. -/
  group : Group
  /-- copies, tags, TAGERR and ports of the core. -/
  core : Core
  /-- threads' state outside the frames, keyed thread. -/
  thrs : FMap Thr
  /-- its share of its quad's engine. -/
  near : EngShare := {}
  /-- its shares of other engines, keyed engine: forwarded jobs; 06 R179. -/
  far : FMap EngShare := []
  /-- the scratchpads of its lenders; 02 R66. -/
  lent : List Core := []
  deriving DecidableEq, Repr

/-- A cell of a pod tree on this package (R402). -/
structure Tree where
  /-- entry words [63:0] and [127:64]; 128 bits; 20 R402; reset 0. -/
  lo : DWord := 0
  /-- BASE; 64 bits; 20 R402; reset 0. -/
  base : DWord := 0
  deriving DecidableEq, Repr

/-! ## What happens next -/

/-- One item of the agenda (model's own): an event of the table, one cycle of cores of a quad, of an FE or of the issue slots
of a core, or one issued set. -/
inductive Act where
  | ev (i : Instr)
  | fe (core : Nat)
  | slot (core : Nat)
  | quad (cores : List Nat)
  | set (core thr : Nat) (mask : BitVec 32) (pc : Addr) (dual : Option (BitVec 32 × Addr)) (again : Bool)
  deriving DecidableEq, Repr

/-- The set that issues now (model's own). -/
structure Issue where
  /-- physical core. -/
  core : Nat := 0
  /-- thread, 16 for the FE. -/
  thr : Nat := 0
  /-- issued lanes (R22). -/
  mask : BitVec 32 := 0
  /-- PC. -/
  pc : Addr := 0
  /-- the other set of the same cycle: mask, PC. -/
  dual : Option (BitVec 32 × Addr) := none
  /-- it faulted once already and waited for the other set of the cycle (R23). -/
  again : Bool := false
  /-- its word. -/
  word : IWord := 0
  /-- this issue re-executes a held instruction: since (ns), a read blocked, its issue part done. -/
  held : Option (Nat × Bool × Bool) := none
  /-- the core cycle in which a held instruction issued. -/
  cyc : Option Nat := none
  /-- its issue cycles and bank conflicts, where they were noted at its issue. -/
  cost : Option (Nat × Nat) := none
  deriving DecidableEq, Repr

/-! ## The parts of the state -/

/-- A store of a thread that an engine can still fail to see in a granule of eight bytes (R138; the model's own). -/
structure Was where
  /-- number of the write. -/
  n : Nat
  /-- physical core of the writer. -/
  core : Nat
  /-- wattle of the writer, 16 for the FE. -/
  thr : Nat
  /-- lane of the writer. -/
  lane : Nat
  /-- the writer has passed an engine fence since: every engine sees the store. -/
  sure : Bool := false
  /-- first byte of the granule that it wrote. -/
  lo : Nat
  /-- what those bytes held before, with their poison. -/
  old : List (Byte × Bool)
  deriving DecidableEq, Repr

/-- A contribution sent to the parent package of a reduction tree (R150, R401, R402). -/
structure Partial where
  /-- UALink port it takes. -/
  port : Nat
  /-- PARENT: package number; 10 bits. -/
  parent : Nat
  /-- TREE; 8 bits. -/
  tree : Nat
  /-- offset of the cell in its page. -/
  off : Nat
  /-- SUM; 384 bits. -/
  sum : BitVec 384
  /-- status bits. -/
  status : BitVec 3
  deriving DecidableEq, Repr

/-- Memory and everything on its way to it (R128 to R154). -/
structure Mem where
  /-- home bytes by physical address; unlisted 0; 05 R128; reset nothing listed. -/
  bytes : List Host.Cell := []
  /-- poisoned 32-bit words by PA / 4; 09 R228; reset none. -/
  poison : FMap Unit := []
  /-- stores not yet acknowledged, in order of issue; 05 R129; reset none. -/
  stores : List Store := []
  /-- leased copies; 05 R128; reset none. -/
  copies : List Copy := []
  /-- latest lease end granted, by line, ns; 05 R128; reset none. -/
  leaseEnd : FMap Nat := []
  /-- Tw of the previous store accepted, by line, ns; 05 R129; reset none. -/
  lastTw : FMap Nat := []
  /-- reservations, oldest first; 05 R151; reset none. -/
  resvs : List Resv := []
  /-- atomics under way, in order of issue; 05 R146; reset none. -/
  atoms : List AtomOp := []
  /-- long-latency results under way, in order of issue; 09 R226; reset none. -/
  fills : List Fill := []
  /-- bank requests, in order of arrival; 18 R379, 04 R106; reset none. -/
  reqs : List BankReq := []
  /-- home-cache lines resident, keyed PA / 64, dirty; 18 R379; reset none. -/
  hcache : FMap Bool := []
  /-- EF values of a lost store in the writer's die are poisoned: die * 2^43 + PA / 4; 05 R145; reset none. -/
  efPoison : FMap Unit := []
  /-- pages that have been used as reduction cells, by PA / 64 KiB; 05 R149, 23 R431; reset none. -/
  cells : FMap Unit := []
  /-- RCELL_LATE by memory-side die; 05 R150; reset 0. -/
  rcellLate : FMap Nat := []
  /-- contributions sent to a parent package over UALink; 05 R150; reset none. -/
  sent : List Partial := []
  /-- contributions of child packages that wait for an accepted store of their cell, in order: tree, offset, sum, status;
  05 R129, R150; reset none. -/
  partials : List (Nat × Nat × BitVec 384 × BitVec 3) := []
  /-- stores of threads that engines can fail to see, newest first, keyed PA / 8, or 2^60 + core * 2^17 + offset / 8 for
  scratch (model's own); 05 R138; reset none. -/
  was : FMap (List Was) := []
  /-- earlier contents of 4-byte words, newest first, with the number of the write that replaced them, keyed PA / 4
  (model's own); 07 R190; reset none. -/
  code : FMap (List (Nat × List Byte)) := []
  /-- number of the next write for `was` and `code` (model's own). -/
  wasN : Nat := 0
  deriving DecidableEq, Repr

/-- Translation, partitions and page placement (R415 to R429). -/
structure Xl where
  /-- word 0x8000 ATBASE and ATEN; 64 bits; 22 R420; reset 0. -/
  at' : DWord := 0
  /-- TPERR; 1 bit; 22 R420; reset 0. -/
  tperr : Bool := false
  /-- PCERR; 1 bit; 22 R420; reset 0. -/
  pcerr : Bool := false
  /-- TPCFG; 64 bits; 22 R427; reset HOTTHR 64, VQUOTA 64, CKRES 192, EN 0. -/
  tpcfg : DWord := 0x4020300000
  /-- PART0 to PART3; 64 bits each; 22 R425; reset PART0 0x1FFF, else 0. -/
  parts : List DWord := [0x1FFF, 0, 0, 0]
  /-- translations shared by a compute die, keyed die; 22 R423; reset empty. -/
  dtlb : FMap (List TlbEnt) := []
  /-- walks in flight; 22 R423; reset none. -/
  walks : List Walk := []
  /-- TLBIs in progress; 14 R360; reset none. -/
  tlbis : List Tlbi := []
  /-- TIER 3 pages in a vault: page of the HBM4E backing to vault * 288 + vault page; 22 R428; reset none. -/
  inVault : FMap Nat := []
  /-- moves in progress; 04 R104; reset none. -/
  moves : List Move := []
  /-- hints: page to vault (physical core + 1) or 0 for HBM4E; 14 R359; reset none. -/
  hints : FMap Nat := []
  /-- accesses to a TIER 3 page in one 64 us interval: number of the interval, accesses; 22 R427; reset none. -/
  heat : FMap (Nat × Nat) := []
  /-- TPCFG waiting for pages above its lower quota to come back; 64 bits; 22 R427; reset none. -/
  tpcfgNext : Option DWord := none
  /-- good map by compute die; 84 bits; 14 R355; reset see log. -/
  good : List (BitVec 84) := []
  /-- enabled map by compute die; 84 bits; 14 R355; reset see log. -/
  enabled : List (BitVec 84) := []
  /-- logical-to-physical table by partition: (valid, physical core); 22 R429; reset from R57. -/
  l2p : FMap (List (Bool × Nat)) := []
  /-- logical quads by partition; 15 R366; reset from R57. -/
  lquads : FMap (List Nat) := []
  /-- checkpoint areas taken: base page of a vault, by PA / 64 KiB, pages; 21 R411; reset none. -/
  ckAreas : FMap Nat := []
  /-- contents of sections 1 and 6 of the checkpoints written, keyed by number; 21 R411; reset none. -/
  ckImages : FMap Image6 := []
  /-- number of the latest checkpoint of an area; 21 R411; reset none. -/
  ckLast : FMap Nat := []
  deriving DecidableEq, Repr

/-- Dispatcher (R43 to R68). -/
structure Disp where
  /-- launch queues, keyed 0 to 63; unlisted reset; 20 R395. -/
  queues : FMap Queue := []
  /-- grids in being, keyed by number; reset none. -/
  grids : FMap Grid := []
  /-- footprint table, in order of entry; 02 R51; reset empty. -/
  fps : List FpTask := []
  /-- entries of the footprint table for each partition; 02 R51; firmware's division. -/
  fpShare : List Nat := [256, 0, 0, 0]
  /-- MSI-X messages sent: vector numbers, newest first; 20 R398; reset none. -/
  msix : List Nat := []
  /-- MSI-X messages that wait for the store of their record to pass Tw: its number, vector; 20 R398; reset none. -/
  msiWait : List (Nat × Nat) := []
  /-- order number of the next group dealt (model's own). -/
  dealt : Nat := 0
  /-- instant of the last selection, ns; 02 R49. -/
  selected : Nat := 0
  /-- a deal is due: a core or quad became free, a grid started dealing, or a column changed; 02 R60. -/
  dealDue : Bool := false
  /-- doorbell writes that wait for earlier host writes, oldest first; 05 R157; reset none. -/
  bells : List Bell := []
  /-- withdrawn packets whose CANCELLED record is still to be written; 20 R395; reset none. -/
  cancels : List Withdrawn := []
  /-- core whose pre-emption for an URGENT group is under way; 02 R68. -/
  urgent : Option Nat := none
  deriving DecidableEq, Repr

/-- Memory-side dies: banks, counters, BTEs (R123, R378 to R384). -/
structure Hbm where
  /-- banks, keyed die * 1024 + b; unlisted reset; 18 R384. -/
  banks : FMap Bank := []
  /-- THR in force, keyed die; unlisted 1024; 18 R384; reset 1024. -/
  thr : FMap Nat := []
  /-- current window, keyed die; 18 R384. -/
  win : FMap Nat := []
  /-- vault banks, keyed vault * 72 + bank; unlisted awake; 04 R105. -/
  vbanks : FMap VBank := []
  /-- BTE queues, keyed die, oldest first; 256 jobs each; 13 R344; reset empty. -/
  btes : FMap (List BteJob) := []
  deriving DecidableEq, Repr

/-- A read of a host that has still to be served (R394). -/
structure HostRead where
  /-- physical address. -/
  pa : Nat
  /-- bytes. -/
  n : Nat
  /-- bank requests it waits on, once it has reached the home; 04 R106. -/
  waits : Option (List Nat) := none
  deriving DecidableEq, Repr

/-- Fabric and host ports (R393 to R402). -/
structure Link where
  /-- UALink ports, keyed 0 to 11; unlisted reset; 20 R400. -/
  ports : FMap Port := []
  /-- reduction tree table, keyed 0 to 63; unlisted 0; 20 R402. -/
  trees : FMap Tree := []
  /-- values returned to host reads, newest first: bytes and poison; 20 R394. -/
  hostRead : List (List Byte × Bool) := []
  /-- host reads that are not yet served, in order; 05 R129, R157, 23 R431. -/
  hostWait : List HostRead := []
  /-- this package's number in the pod; 05 R156; none when not in a pod. -/
  package : Option Nat := none
  deriving DecidableEq, Repr

/-- The machine. -/
structure State where
  /-- power is present; 23 R441; reset 1. -/
  powered : Bool := true
  /-- global time base in ticks of 1/84 ns; 00 R2; reset 0. -/
  time : Nat := 0
  /-- physical cores, keyed die * 84 + core; unlisted reset. -/
  cores : FMap Core := []
  /-- threads of the groups, keyed core * 32 + thread (16 the FE). -/
  thrs : FMap Thr := []
  /-- engines, keyed die * 21 + quad position; unlisted reset. -/
  engs : FMap Eng := []
  /-- teams, keyed die * 21 + quad position. -/
  teams : FMap Team := []
  /-- memory. -/
  mem : Mem := {}
  /-- translation. -/
  xl : Xl := {}
  /-- dispatcher. -/
  disp : Disp := {}
  /-- memory-side dies and vaults. -/
  hbm : Hbm := {}
  /-- boost data of the quads; unlisted reset; 19 R391. -/
  qboost : FMap QBoost := []
  /-- boost data of the compute dies; unlisted reset; 19 R391. -/
  dboost : FMap DBoost := []
  /-- columns; unlisted reset; 24 R446. -/
  cols : FMap Column := []
  /-- links and host. -/
  link : Link := {}
  /-- firmware. -/
  fw : Fw := {}
  /-- resets in progress; 23 R431; reset none. -/
  resets : List RstUnit := []
  /-- what happens next, in order (model's own). -/
  agenda : List Act := []
  /-- the issuing set (model's own). -/
  cur : Issue := {}
  /-- counter of open choices (model's own). -/
  choice : Nat := 0
  /-- next number for fills, stores, jobs and entries (model's own). -/
  nextId : Nat := 0
  deriving DecidableEq, Repr

/-- Why the machine stops with a fault. -/
inductive Fault where
  /-- Raised by step when the package has no power (R441): nothing runs. Safe: no instruction could execute. -/
  | unpowered
  deriving DecidableEq, Repr

/-- Why a step has no meaning. -/
inductive Refusal where
  /-- Raised by exec for an instruction without a meaning in this model. Safe: nothing is claimed of it. -/
  | notModelled (mnemonic : String)
  deriving DecidableEq, Repr

/-- The 80 cores of a die that are enabled at reset: quad positions 0 to 19 (R1; 15, "What the harvest registers
hold" names position 20 as the spare). [DESIGN CHOICE: log 2; DEDUCED: log 75] -/
def enabledAtReset : BitVec 84 := 0xFFFFFFFFFFFFFFFFFFFF

/-- Physical cores of the four dies in the order of R57, enabled ones only. [DESIGN CHOICE: log 2] -/
def l2pAtReset : List (Bool × Nat) :=
  (List.range 336).filterMap fun c => if c % 84 < 80 then some (true, c) else none

/-- Logical quads in the order of R57 and R366. [DESIGN CHOICE: log 2] -/
def lquadsAtReset : List Nat := (List.range 84).filter fun q => decide (q % 21 < 20)

/-- The machine right after reset: every core free, nothing listed in memory, translation off. [DESIGN CHOICE: log 1, 2] -/
def State.reset : State :=
  { xl :=
      { good := [0xFFFFFFFFFFFFFFFFFFFFF, 0xFFFFFFFFFFFFFFFFFFFFF, 0xFFFFFFFFFFFFFFFFFFFFF, 0xFFFFFFFFFFFFFFFFFFFFF]
        enabled := [enabledAtReset, enabledAtReset, enabledAtReset, enabledAtReset]
        l2p := [(0, l2pAtReset)]
        lquads := [(0, lquadsAtReset)] } }

end Sys2Proof.Machine
end

