-- ==== Sys2Proof/Machine/Regs.lean ====
section
/-! DEFINITION. Access to the parts of the state, and the one home of every register read and write: main file with
older values (R222), latches (R220), operand cache (R221), dead marks (R229), leave actions (R224). -/

namespace Sys2Proof.Machine

/-! ## Parts of the state -/

/-- A physical core. -/
def coreOf (s : State) (c : Nat) : Core := mgetD s.cores c {}
/-- Change a physical core. -/
def updCore (s : State) (c : Nat) (f : Core → Core) : State := { s with cores := mupd s.cores c {} f }
/-- The group of a core (an empty one when there is none). -/
def grpOf (s : State) (c : Nat) : Group := (coreOf s c).group.getD {}
/-- Change the group of a core, if there is one. -/
def updGrp (s : State) (c : Nat) (f : Group → Group) : State := updCore s c fun k => { k with group := k.group.map f }
/-- Key of a thread. [DESIGN CHOICE: log 19] -/
def tkey (c t : Nat) : Nat := c * 32 + t
/-- A thread. -/
def thrOf (s : State) (c t : Nat) : Thr := mgetD s.thrs (tkey c t) {}
/-- Replace a thread. -/
def setThr (s : State) (c t : Nat) (h : Thr) : State := { s with thrs := mset s.thrs (tkey c t) h }
/-- Change a thread. -/
def updThr (s : State) (c t : Nat) (f : Thr → Thr) : State := { s with thrs := mupd s.thrs (tkey c t) {} f }
/-- Compute die of a core (0 to 3). [DESIGN CHOICE: log 19] -/
def dieOf (c : Nat) : Nat := c / 84
/-- Quad of a core: die * 21 + position (R355). [DESIGN CHOICE: log 19] -/
def quadOf (c : Nat) : Nat := c / 84 * 21 + c % 84 / 4
/-- In-quad position, %core (R57). -/
def inQuad (c : Nat) : Nat := c % 84 % 4
/-- The four cores of a quad. [DESIGN CHOICE: log 19] -/
def coresOf (q : Nat) : List Nat := (List.range 4).map fun j => q / 21 * 84 + q % 21 * 4 + j
/-- The engine of a quad. -/
def engOf (s : State) (q : Nat) : Eng := mgetD s.engs q {}
/-- Change the engine of a quad. -/
def updEng (s : State) (q : Nat) (f : Eng → Eng) : State := { s with engs := mupd s.engs q {} f }
/-- Change memory. -/
def updMem (s : State) (f : Mem → Mem) : State := { s with mem := f s.mem }
/-- Change translation. -/
def updXl (s : State) (f : Xl → Xl) : State := { s with xl := f s.xl }
/-- Change the dispatcher. -/
def updDisp (s : State) (f : Disp → Disp) : State := { s with disp := f s.disp }
/-- Change the firmware. -/
def updFw (s : State) (f : Fw → Fw) : State := { s with fw := f s.fw }
/-- Change the memory-side dies. -/
def updHbm (s : State) (f : Hbm → Hbm) : State := { s with hbm := f s.hbm }
/-- Change the links. -/
def updLink (s : State) (f : Link → Link) : State := { s with link := f s.link }
/-- Global time in ns (R2). [DEDUCED: log 8; DESIGN CHOICE: log 102] -/
def nowNs (s : State) : Nat := s.time / 84
/-- Ticks of a number of ns. [DEDUCED: log 8] -/
def ticks (ns : Nat) : Nat := ns * 84
/-- Ticks of one core cycle of a quad: 140, 120 or 105 at 600, 700 or 800 MHz (R386). [DEDUCED: log 8] -/
def periodOf (s : State) (q : Nat) : Nat :=
  let c := (mgetD s.qboost q {}).clock
  if c = 8 then 105 else if c = 7 then 120 else 140
/-- The quantity of the n-th open choice, and the state with the counter advanced (a free value). [DESIGN CHOICE: log 3] -/
def freeN (s : State) : Nat × State := (Config.freeNat s.choice, { s with choice := s.choice + 1 })
/-- The bit of the n-th open choice. [DESIGN CHOICE: log 3] -/
def freeB (s : State) : Bool × State := (Config.freeBit s.choice, { s with choice := s.choice + 1 })
/-- n words whose contents are open. [DESIGN CHOICE: log 3] -/
def freeWords (s : State) : Nat → List Word × State
  | 0 => ([], s)
  | n + 1 =>
    let (w, s) := freeN s
    let (ws, s) := freeWords s n
    (BitVec.ofNat 32 w :: ws, s)
/-- Index, apart from those of the counter, of an open choice about item i of a kind at this instant. -/
def openAt (s : State) (kind i : Nat) : Nat := 2 ^ 300 * (kind + 1) + s.time * 2 ^ 200 + s.choice * 2 ^ 150 + i
/-- A fresh number. -/
def freshId (s : State) : Nat × State := (s.nextId, { s with nextId := s.nextId + 1 })
/-- Put items at the front of the agenda. -/
def pushActs (s : State) (as : List Act) : State := { s with agenda := as ++ s.agenda }
/-- The default of a policy or setting of R434 and R443, by number. -/
def policyDefault (n : Nat) : Nat :=
    (if n = 0x01 then 64 else if n = 0x02 then 1 else if n = 0x03 then 2 else if n = 0x04 then 16
     else if n = 0x10 then 92 else if n = 0x11 then 97 else if n = 0x12 then 105 else if n = 0x13 then 0
     else if n = 0x14 then 64 else if n = 0x15 then 1024 else if n = 0x16 then 50000
     else if n = 0x17 then 1 else if n = 0x18 then 1 else if n = 0x19 then 100 else 0)

/-- A policy or setting of R434 and R443, by number, with its default. -/
def policy (s : State) (n : Nat) : Nat := mgetD s.fw.pol n (policyDefault n)

/-- A setting of the sensors (TDISP, TMIG, THARD, MIGRATE) as the last sample left it in force (R443). -/
def policyHeld (s : State) (n : Nat) : Nat := mgetD s.fw.inForce n (policyDefault n)

/-! ## Threads -/

/-- A lane of a thread. -/
def laneOf (t : Thr) (l : Nat) : Lane := t.lanes.getD l { launch := false }
/-- Change a lane. -/
def updLane (t : Thr) (l : Nat) (f : Lane → Lane) : Thr := { t with lanes := lset t.lanes l (f (laneOf t l)) }
/-- Live (R10). -/
def Lane.live (l : Lane) : Bool := l.launch && !l.exited
/-- Held at its meeting (R10), or at a hardware barrier (R320). -/
def Lane.held (l : Lane) : Bool := (!(l.mtg = nullMtg) && l.pc = l.mtg) || l.arrived.isSome
/-- A lane goes on from an instruction: its PC advances by 12, and a nest count is used up by a serial lane that goes on from
its target (R27). [DEDUCED: log 92] -/
def Lane.goOn (serial : Bool) (n : Lane) : Lane :=
  { n with pc := n.pc + 12, nest := if serial && n.pc = n.tgt then n.nest - 1 else n.nest }

/-- Lanes of a thread go on from an instruction (R201). -/
def passLanes (t : Thr) (ls : List Nat) : Thr := ls.foldl (fun t l => updLane t l (Lane.goOn t.serial)) t

/-- Mask of the lanes with a property. -/
def laneMask (t : Thr) (p : Lane → Bool) : BitVec 32 := maskOf ((List.range t.lanes.length).filter fun l => p (laneOf t l))
/-- Mask of the live lanes. -/
def liveMask (t : Thr) : BitVec 32 := laneMask t Lane.live
/-- Current mode: supervisor (R354). -/
def Thr.super (t : Thr) : Bool := t.sstatus.getLsbD 4
/-- TDEPTH (R354). -/
def Thr.tdepth (t : Thr) : Nat := nbits t.sstatus.toNat 6 2
/-- Set a bit of NUMST (R353). -/
def Thr.sticky (t : Thr) (b : Nat) : Thr := { t with numst := t.numst ||| (1#32 <<< b) }

/-- The front-end thread's index. [DESIGN CHOICE: log 19] -/
def feIdx : Nat := 16
/-- The issuing core. -/
def curCore (s : State) : Nat := s.cur.core
/-- The issuing thread. -/
def curThr (s : State) : Thr := thrOf s s.cur.core s.cur.thr
/-- The issuing thread is the FE. -/
def curFe (s : State) : Bool := s.cur.thr = feIdx
/-- Stream of the issuing thread. -/
def curStream (s : State) : Stream := if curFe s then .fe else .wattle
/-- Change the issuing thread. -/
def updCur (s : State) (f : Thr → Thr) : State := updThr s s.cur.core s.cur.thr f
/-- The issuing core's cycle. -/
def curCycle (s : State) : Nat := (coreOf s s.cur.core).cycle

/-- The guard of an instruction in a lane (R201). -/
def guardOf (t : Thr) (x : Form) (l : Nat) : Bool := ((laneOf t l).preds ||| 1#8).getLsbD x.gp.toNat != x.gn

/-- The active lanes of the issuing set (R201). -/
def actMask (s : State) (x : Form) : BitVec 32 :=
  let t := curThr s
  maskOf ((lanesOf s.cur.mask).filter fun l => (laneOf t l).live && guardOf t x l)

/-! ## Main file -/

/-- Key of a register. -/
def rkey (l n : Nat) : Nat := l * 256 + n
/-- A register of a lane. -/
def regOf (t : Thr) (l n : Nat) : Reg := mgetD t.regs (rkey l n) {}
/-- Change a register. -/
def updReg (t : Thr) (l n : Nat) (f : Reg → Reg) : Thr := { t with regs := mupd t.regs (rkey l n) {} f }

/-- The version of a register that a read in core cycle c sees (R222). [DEDUCED: log 9] -/
def verAt (c : Nat) : Ver → List Ver → Ver
  | v, [] => v
  | v, w :: ws => if v.rdy ≤ c then v else verAt c w ws

/-- A read sees this version in core cycle c. [DEDUCED: log 9] -/
def readVer (r : Reg) (c : Nat) : Ver := verAt c r.cur r.old

/-- Older versions that a later read can still see: those above the newest one readable from cycle c + 1. [DEDUCED: log 9] -/
def keepOld (c : Nat) : List Ver → List Ver
  | [] => []
  | v :: vs => if v.rdy ≤ c + 1 then [v] else v :: keepOld c vs

/-- The register after a new version, written in core cycle c (R222, R232). [DEDUCED: log 9] -/
def pushVer (r : Reg) (c : Nat) (v : Ver) : Reg :=
  { r with cur := v, old := if v.rdy ≤ c + 1 then [] else keepOld c (r.cur :: r.old), dirty := true, absent := false }

/-- The register after its destination is marked empty (R226). -/
def markEmpty (r : Reg) : Reg :=
  { r with cur := { r.cur with full := false, dead := false, rdy := 0 }, old := [], absent := false }

/-- The register after a fill (R226, R229). -/
def fillReg (v : Word) (p : Bool) : Reg :=
  { cur := { v := v, full := true, poison := p, dead := false, rdy := 0 }, old := [], dirty := true, absent := false }

/-- The register after a dead-marked read (R229). [DEDUCED: log 18] -/
def killReg (r : Reg) : Reg := { r with cur := { r.cur with dead := true }, dirty := false }

/-- The block of a register: 0 base, 1 to 3 extended (R230). -/
def blockOf (n : Nat) : Nat := n / 64

/-- The wattle holds the block of register n and n is usable (R46, R230). -/
def holds (t : Thr) (g : Group) (n : Nat) : Bool :=
  if n < 64 then decide (n < g.baseNeed) else t.blocks.testBit (blockOf n - 1)

/-- A register counts as lent for a set of active lanes (R64). -/
def isLent (t : Thr) (act : BitVec 32) (n : Nat) : Bool :=
  decide (64 ≤ n) && t.slices.any fun sl =>
    sl.blk = blockOf n && sl.lender.isSome && !((act >>> (8 * sl.qtr)) &&& 0xFF#32 = 0#32)

/-! ## Latches and operand cache -/

/-- A latch of a lane. -/
def latOf (t : Thr) (l k : Nat) : Latch := mgetD t.lat (l * 2 + k) {}
/-- A slot of a lane. -/
def slotOf (t : Thr) (l k : Nat) : Slot := mgetD t.slots (l * 6 + k) {}
/-- Change a slot. -/
def updSlot (t : Thr) (l k : Nat) (f : Slot → Slot) : Thr := { t with slots := mupd t.slots (l * 6 + k) {} f }

/-- The version of a slot that a read in cycle c sees (R222). -/
def slotVerAt (c : Nat) : SlotVer → List SlotVer → SlotVer
  | v, [] => v
  | v, w :: ws => if v.ver.rdy ≤ c then v else slotVerAt c w ws

/-- A read sees this version of a slot in core cycle c. [DEDUCED: log 9] -/
def readSlot (s : Slot) (c : Nat) : SlotVer := slotVerAt c s.cur s.old

/-- Older versions of a slot that a later read can still see. -/
def keepOldSlot (c : Nat) : List SlotVer → List SlotVer
  | [] => []
  | v :: vs => if v.ver.rdy ≤ c + 1 then [v] else v :: keepOldSlot c vs

/-- A slot after a new version. -/
def pushSlot (s : Slot) (c : Nat) (v : SlotVer) : Slot :=
  { cur := v, old := if v.ver.rdy ≤ c + 1 then [] else keepOldSlot c (s.cur :: s.old) }

/-- A slot after a dead-marked read (R221): invalid, keeping its home; one without a home stays as it is. [DEDUCED: log 18] -/
def killSlot (s : Slot) : Slot := { cur := { s.cur with st := if s.cur.st = .none then .none else .invalid }, old := [] }

/-- A dead-marked read of a slot makes it invalid in the lanes of the issued set (R221, R377), but where a result is still due
in it (R224, R226). [DEDUCED: log 18] -/
def killSlots (t : Thr) (m : BitVec 32) (k : Nat) : Thr :=
  { t with slots := t.slots.map fun (j, o) => if j % 6 = k && m.getLsbD (j / 6) && o.cur.ver.full then (j, killSlot o) else (j, o) }

/-- Latches of a lane after an instruction with a register destination (R220). -/
def pushLatch (t : Thr) (l : Nat) (v : DWord) (valid poison : Bool) : Thr :=
  { t with lat := mset (mset t.lat (l * 2 + 1) (latOf t l 0)) (l * 2) { v := v, valid := valid, poison := poison } }

/-- Every fixed-latency result of a thread is ready (R222: after a trap, a fault, a pre-emption, a return). -/
def settle (t : Thr) : Thr :=
  { t with
    regs := t.regs.map fun (k, r) => (k, { r with cur := { r.cur with rdy := 0 }, old := [] })
    slots := t.slots.map fun (k, o) => (k, { cur := { o.cur with ver := { o.cur.ver with rdy := 0 } }, old := [] }) }

/-! ## Leave actions (R224) -/

/-- The home registers of dirty full slots that are empty, so that the write-back has to wait. -/
def leaveBlocked (t : Thr) : Bool :=
  (List.range (t.lanes.length * 6)).any fun k =>
    let o := (mgetD t.slots k {}).cur
    o.st = .dirty && o.ver.full && !(regOf t (k / 6) o.home).cur.full

/-- Leave actions of one slot. -/
def leaveSlot (c : Nat) (t : Thr) (k : Nat) : Thr :=
  let sl := mgetD t.slots k {}
  let o := sl.cur
  let inv := { t with slots := mset t.slots k { cur := { o with st := .invalid, ver := { o.ver with full := true } }, old := [] } }
  match o.st with
  | .none => t
  | .invalid => t
  | .clean => inv
  | .dirty =>
    if o.ver.full then
      updReg inv (k / 6) o.home fun r => pushVer r c { v := o.ver.v, full := true, poison := o.ver.poison, dead := false, rdy := c }
    else updReg inv (k / 6) o.home markEmpty

/-- Leave actions of a thread (R224): write-backs, then slots and latches invalid. -/
def leaveThr (c : Nat) (t : Thr) : Thr :=
  let t := (t.slots.map (·.1)).foldl (leaveSlot c) t
  { t with lat := t.lat.map (fun (k, h) => (k, { h with valid := false })), leaving := false }

/-- A pending result writes its registers in the main file. -/
def Fill.direct (f : Fill) : Bool := !f.dst.cache || f.dst.wb

/-- Two pending results of one thread have a lane and a home register in common. -/
def Fill.shares (f g : Fill) : Bool :=
  f.core = g.core && f.thr = g.thr && !(f.id = g.id) && !(f.lanes &&& g.lanes = 0) &&
    decide (f.dst.reg < g.dst.reg + g.dst.n) && decide (g.dst.reg < f.dst.reg + f.dst.n)

/-- A pending result whose slot became invalid at a yield point fills its home register only, behind the results that
are already on their way to that register (R224). A result of an interrupted level is left alone (R225). -/
def redirectFills (c t : Nat) (th : Thr) (fs : List Fill) : List Fill :=
  fs.foldl (fun out f =>
    if f.core = c && f.thr = t && f.depth = th.tdepth && f.dst.cache &&
        (lanesOf f.lanes).any (fun l =>
          let o := (slotOf th l f.dst.slot).cur
          (o.st = .dirty || o.st = .clean) && !o.ver.full)
    then
      let first := if f.dst.wb then [] else ((out ++ fs).filter fun g => g.direct && g.shares f).map (·.id)
      out ++ [{ f with dst := { f.dst with cache := false, wb := false }, behind := f.behind ++ first }]
    else out ++ [f]) []

/-- Take the leave actions of a thread now, or leave them due until its home registers are full. -/
def leaveNow (s : State) (c t : Nat) : State :=
  let th := thrOf s c t
  if leaveBlocked th then setThr s c t { th with leaving := true }
  else
    updMem (setThr s c t (leaveThr (coreOf s c).cycle th)) fun m => { m with fills := redirectFills c t th m.fills }

/-! ## Destinations -/

/-- Destination of a D field (R192), n registers. -/
def dstOf (x : Form) (n : Nat) : Dst :=
  match x.d.space with
  | .cache => { cache := true, reg := x.d.index.toNat, slot := (x.d.flags.extractLsb' 0 3).toNat, n := n, wb := x.wb }
  | _ => { cache := false, reg := x.d.index.toNat, n := n }

/-- Write one word of a result to a lane (R219 to R222): c is the issue cycle of the producer. -/
def writeWord (t : Thr) (act : BitVec 32) (d : Dst) (l i c : Nat) (w : Word) (p : Bool) : Thr :=
  let lat := if isLent t act (d.reg + i) then 10 else 4
  let mainV : Ver := { v := w, full := true, poison := p, dead := false, rdy := c + lat }
  if d.cache then
    let t := updSlot t l (d.slot + i) fun o =>
      pushSlot o c { ver := { v := w, full := true, poison := p, rdy := c + 2 }, home := d.reg + i, st := if d.wb then .clean else .dirty }
    if d.wb then updReg t l (d.reg + i) fun r => pushVer r c mainV else t
  else updReg t l (d.reg + i) fun r => pushVer r c mainV

/-- Write the words of a result to a lane, from word i on. -/
def writeWords (t : Thr) (act : BitVec 32) (d : Dst) (l c : Nat) (p : Bool) : Nat → List Word → Thr
  | _, [] => t
  | i, w :: ws => writeWords (writeWord t act d l i c w p) act d l c p (i + 1) ws

/-- The latch value of a result: a 32-bit result zero-extended, a pair whole (R220). -/
def latchVal : List Word → DWord
  | [] => 0
  | [w] => w.setWidth 64
  | w :: v :: _ => v ++ w

/-- Mark the registers of a destination empty in a lane (R226). -/
def emptyDst (t : Thr) (d : Dst) (l : Nat) : Thr :=
  (List.range d.n).foldl (fun t i =>
    if d.cache then
      let t := updSlot t l (d.slot + i) fun _ =>
        { cur := { ver := { full := false }, home := d.reg + i, st := if d.wb then .clean else .dirty }, old := [] }
      if d.wb then updReg t l (d.reg + i) markEmpty else t
    else updReg t l (d.reg + i) markEmpty) t

/-- Fill a destination in a lane (R226). -/
def fillDst (t : Thr) (d : Dst) (l : Nat) (ws : List Word) (p : Bool) : Thr :=
  (List.range d.n).foldl (fun t i =>
    let w := ws.getD i 0
    if d.cache then
      let t := updSlot t l (d.slot + i) fun o =>
        { cur := { o.cur with ver := { v := w, full := true, poison := p, rdy := 0 } }, old := [] }
      if d.wb then updReg t l (d.reg + i) fun _ => fillReg w p else t
    else updReg t l (d.reg + i) fun _ => fillReg w p) t

/-- A destination register or slot is empty in a lane (R226). -/
def dstEmpty (t : Thr) (d : Dst) (l : Nat) : Bool :=
  (List.range d.n).any fun i =>
    if d.cache then
      !(slotOf t l (d.slot + i)).cur.ver.full || (d.wb && !(regOf t l (d.reg + i)).cur.full)
    else !(regOf t l (d.reg + i)).cur.full

/-- A predicate of a lane (p0 reads 1, R197). -/
def predOf (t : Thr) (l p : Nat) : Bool := p = 0 || (laneOf t l).preds.getLsbD p

/-- Write a predicate of a lane (R248). -/
def setPred (t : Thr) (l p : Nat) (b : Bool) : Thr :=
  updLane t l fun n => { n with preds := if b then n.preds ||| (1#8 <<< p) else n.preds &&& ~~~(1#8 <<< p) }

end Sys2Proof.Machine
end

