-- ==== Sys2Proof/Machine/EngBase.lean ====
section
/-! DEFINITION. The tables of a Chrovia engine: accumulators and their shared storage (R164, R340), which entries meet
(R168), the state that older entries will leave (R163), slots claimed and released in the order of issue (R335). -/

namespace Sys2Proof.Machine

/-! ## Accumulators -/

/-- Key of an accumulator: group, number (R164). -/
def accKey (g n : Nat) : Nat := g * 2 + n

/-- Keys of the accumulators that occupy the same storage (R164). [DEDUCED: log 50] -/
def accRivals (g n : Nat) : List Nat := if g = 0 then [accKey 1 n, accKey 2 n] else [accKey 0 n]

/-- Keys an operation on an accumulator touches. -/
def accTouch (g n : Nat) : List Nat := accKey g n :: accRivals g n

/-- An accumulator that is not unset. -/
def accOf (e : Eng) (g n : Nat) : Option AccT := mget e.accs (accKey g n)

/-- Put an accumulator; those that share its storage become unset (R340). -/
def putAcc (e : Eng) (g n : Nat) (a : AccT) : Eng :=
  { e with accs := mset ((accRivals g n).foldl mdel e.accs) (accKey g n) a }

/-- Clear an accumulator for a core (R166). -/
def clearAcc (e : Eng) (g n asid core : Nat) : Eng := putAcc e g n { asid := asid, core := core }

/-! ## Jobs' cards (R177) -/

/-- The fields of a Chrovia job card. -/
structure JobCard where
  grp : Nat
  basis : Nat
  alt : Nat
  rfloor : Nat
  afmt : Nat
  bfmt : Nat
  wa : Nat
  wb : Nat
  dfmt : Nat
  round : Nat
  acc : Nat
  tag : Nat
  flags : Nat
  levels : Nat
  abase : Nat
  bbase : Nat
  cbase : Nat
  sbase : Nat
  ascale : Nat
  bscale : Nat
  ald : Nat
  bld : Nat
  cld : Nat
  deriving DecidableEq, Repr

/-- A card from its bytes. -/
def JobCard.of (b : List Byte) : JobCard :=
  { grp := leAt b 0 1, basis := leAt b 1 1, alt := leAt b 2 1, rfloor := leAt b 3 1, afmt := leAt b 4 1, bfmt := leAt b 5 1
    wa := leAt b 6 1, wb := leAt b 7 1, dfmt := leAt b 8 1, round := leAt b 9 1, acc := leAt b 10 1, tag := leAt b 11 1
    flags := leAt b 12 1, levels := leAt b 13 1, abase := leAt b 0x10 8, bbase := leAt b 0x18 8, cbase := leAt b 0x20 8
    sbase := leAt b 0x28 8, ascale := leAt b 0x30 8, bscale := leAt b 0x38 8, ald := leAt b 0x40 4, bld := leAt b 0x44 4
    cld := leAt b 0x48 4 }

/-- KEEP (R177). [DEDUCED: log 50] -/
def JobCard.keep (k : JobCard) : Bool := k.flags.testBit 2
/-- ALT (R177). [DEDUCED: log 45] -/
def JobCard.altAcc (k : JobCard) : Bool := k.flags.testBit 1
/-- STATS (R177). -/
def JobCard.stats (k : JobCard) : Bool := k.dfmt = 6 || k.flags.testBit 4

/-- COUNT of a level. -/
def lvCount (b : List Byte) (l : Nat) : Nat := leAt b (0x50 + 20 * l) 2
/-- A stride of a level: 0 ASTR, 1 BSTR, 2 CSTR; signed 48 bits. [DEDUCED: log 40] -/
def lvStride (b : List Byte) (l w : Nat) : Int := toSigned 48 (leAt b (0x52 + 20 * l + 6 * w) 6)

/-- The job drains more than one tile: a level that changes c has more than one step (R178). -/
def manyTiles (b : List Byte) : Bool :=
  !((JobCard.of b).dfmt = 0) &&
    (List.range (JobCard.of b).levels).any fun l => decide (1 < lvCount b l) && !(lvStride b l 2 = 0)

/-- The accumulators a job uses. -/
def jobAccs (b : List Byte) : List Nat :=
  let k := JobCard.of b
  if k.altAcc && manyTiles b then [k.acc, 1 - k.acc] else [k.acc]

/-! ## What entries name (R168) -/

/-- An entry that takes one of the 16 places (R167). [DEDUCED: log 49] -/
def Ent.real (n : Ent) : Bool :=
  match n.op with
  | .oclm _ _ => false
  | .orel _ => false
  | .basis _ _ _ => false
  | _ => true

/-- OCLM or OREL, which executes again after a pre-emption that comes before its effect (R345). -/
def Ent.slotOp (n : Ent) : Bool :=
  match n.op with
  | .oclm _ _ => true
  | .orel _ => true
  | _ => false

/-- A job. -/
def Ent.isJob (n : Ent) : Bool :=
  match n.op with
  | .job _ _ _ _ => true
  | _ => false

/-- Operand slots an entry names. -/
def namesSlots : EntOp → List Nat
  | .qmma _ _ a b _ k _ => ((List.range k).map (a + ·)) ++ (List.range k).map (b + ·)
  | .oload _ _ slot _ _ _ _ _ _ _ _ _ => [slot]
  | .oclm _ s => [s]
  | .orel s => [s]
  | _ => []

/-- Accumulator storage an entry names. -/
def namesAccs : EntOp → List Nat
  | .qmma g n _ _ _ _ _ => accTouch g n
  | .aclr g n => accTouch g n
  | .adrain g _ n _ _ _ _ _ _ _ _ _ => accTouch g n
  | .job b _ _ _ => (jobAccs b).flatMap (accTouch (JobCard.of b).grp)
  | _ => []

/-- The staging area an entry uses (R165). [DEDUCED: log 37] -/
def namesStage : EntOp → Option Nat
  | .oload g fmt _ _ _ _ _ _ _ _ _ _ => if fmt = 3 then some g else none
  | .scld g _ _ _ _ _ => some g
  | _ => none

/-- A loaded slot is bound to the basis. -/
def slotBound (e : Eng) (id k : Nat) : Bool :=
  match mget e.slots k with
  | some o => match o.use with
    | .loadedA _ => o.basis = id
    | .loadedB _ _ => o.basis = id
    | _ => false
  | none => false

/-- A loaded slot, or an accumulator with sums in it, is under the basis id (R334). [DEDUCED: log 49] -/
def basisInUse (e : Eng) (id : Nat) : Bool :=
  ((List.range 64).any (slotBound e id)) || e.accs.any fun (_, a) => !(a.cert = .zero) && a.basis = some id

/-- An entry names a basis id, by itself or through a slot or accumulator it works on. -/
def namesBasis (e : Eng) (id : Nat) : EntOp → Bool
  | .oload _ _ slot _ _ b _ _ _ _ _ _ => b = id || slotBound e id slot
  | .job _ _ b _ => b = id
  | .basis b _ _ => b = id
  | .qmma g n a b _ k _ => ((List.range k).any fun j => slotBound e id (a + j) || slotBound e id (b + j)) ||
      (match accOf e g n with
        | some t => t.basis = some id
        | none => false)
  | .adrain g fmt n _ _ _ _ _ _ _ pl _ => (fmt = 1 && leAt pl 21 1 = id) || (match accOf e g n with
      | some t => t.basis = some id
      | none => false)
  | .aclr g n => (match accOf e g n with
      | some t => t.basis = some id
      | none => false)
  | .orel k => slotBound e id k
  | _ => false

/-- The entry is a BASIS for this id. -/
def isBasis (op : EntOp) : Option Nat :=
  match op with
  | .basis id _ _ => some id
  | _ => none

/-- Both are QMMA passes into one accumulator, which can take effect in any order (R168). -/
def sameAccPass : EntOp → EntOp → Bool
  | .qmma g n _ _ _ _ _, .qmma g' n' _ _ _ _ _ => g = g' && n = n'
  | _, _ => false

/-- Two lists share a member. -/
def shareAny (a b : List Nat) : Bool := a.any b.contains

/-- An older entry m keeps a younger one n from taking effect (R168). [DEDUCED: log 37] -/
def meets (e : Eng) (m n : EntOp) : Bool :=
  if sameAccPass m n then false
  else shareAny (namesSlots m) (namesSlots n) || shareAny (namesAccs m) (namesAccs n) ||
    ((namesStage m).isSome && namesStage m = namesStage n) ||
    (match isBasis m with
      | some id => namesBasis e id n
      | none => false) ||
    (match isBasis n with
      | some id => namesBasis e id m
      | none => false)

/-- An entry has taken its whole effect on the engine and only waits for its writes to be applied. -/
def Ent.past (n : Ent) : Bool := n.fin.isSome && !n.isJob

/-- A job of a core that stands still, paused by the pre-emption of its group (R188). -/
def Ent.resting (n : Ent) (c : Nat) : Bool := n.isJob && n.paused && n.core = c && n.granted.isNone && n.fin.isNone

/-- The entries older than one, that have still to take effect before it: a paused job lets the other entries of its own group
be performed (R188). -/
def olderThan (e : Eng) (n : Ent) : List Ent :=
  (e.table.takeWhile fun m => !(m.id = n.id)).filter fun m => !m.past && !m.resting n.core

/-- No older entry keeps an entry from taking effect (R168). -/
def eligible (e : Eng) (n : Ent) : Bool := (olderThan e n).all fun m => !meets e m.op n.op

/-- An entry by number. -/
def entOf (e : Eng) (id : Nat) : Option Ent := e.table.find? fun n => n.id = id
/-- Change an entry. -/
def Eng.updEnt (e : Eng) (id : Nat) (f : Ent → Ent) : Eng :=
  { e with table := e.table.map fun n => if n.id = id then f n else n }
/-- Remove an entry. -/
def Eng.delEnt (e : Eng) (id : Nat) : Eng := { e with table := e.table.filter fun n => !(n.id = id) }

/-- Places of the table in use (R167). -/
def entriesUsed (e : Eng) : Nat := (e.table.filter Ent.real).length
/-- The table is full. -/
def tableFull (e : Eng) : Bool := decide (16 ≤ entriesUsed e)
/-- Out of service (R160). -/
def outOfService (e : Eng) : Bool := decide (2 ≤ e.retired.length)

/-! ## Effects on slots and staging -/

/-- A slot after a tile is loaded into it (R163); h is the half of a B tile. -/
def loadSlot (o : OSlot) (grp kind half basis : Nat) (ms : List Nat) (t : Tile) : OSlot :=
  let keep : Option Tile × Option Tile := match o.use with
    | .loadedB t0 t1 => if o.grp = grp ∧ o.basis = basis then (t0, t1) else (none, none)
    | _ => (none, none)
  let use : SlotUse := if kind = 0 then .loadedA t
    else if half = 0 then .loadedB (some t) keep.2 else .loadedB keep.1 (some t)
  { o with use := use, grp := grp, basis := basis, ms := ms }

/-- Lines of an operand: 256 A rows or 128 B columns (R162). -/
def tileLines (kind : Nat) : Nat := if kind = 0 then 256 else 128

/-- Take the n oldest staged records of an ASID from an area (R165, R175): taken, rest. [DEDUCED: log 37] -/
def takeStaged (asid : Nat) : Nat → List Staged → List Staged × List Staged
  | _, [] => ([], [])
  | 0, l => ([], l)
  | n + 1, r :: l =>
    if r.asid = asid then
      let p := takeStaged asid n l
      (r :: p.1, p.2)
    else
      let p := takeStaged asid (n + 1) l
      (p.1, r :: p.2)

/-- A slot claimed for a core (R163). [DEDUCED: log 36] -/
def claimSlot (e : Eng) (k core asid : Nat) : Eng :=
  { e with slots := mset e.slots k { use := .claimed, core := core, asid := asid } }

/-- A claimed or loaded slot is released (R163). -/
def releaseSlot (e : Eng) (k : Nat) : Eng :=
  match mget e.slots k with
  | some o => if o.use = .job then e else { e with slots := mdel e.slots k }
  | none => e

/-- What an entry will have done to slots, accumulators, staging and bases, without the data (R163). [DEDUCED: log 35] -/
def foresee (e : Eng) (n : Ent) : Eng :=
  if n.past then e
  else match n.op with
  | .qmma g acc a _ _ _ _ =>
    match accOf e g acc, mget e.slots a with
    | some t, some o => putAcc e g acc { t with cert := .certified, basis := some o.basis, ms := o.ms }
    | some t, none => putAcc e g acc { t with cert := .certified }
    | none, _ => e
  | .oload g fmt slot kind half b _ _ _ ms _ _ =>
    let e := match mget e.slots slot with
      | some o => { e with slots := mset e.slots slot (loadSlot o g kind half b ms {}) }
      | none => e
    if fmt = 3 then { e with staged := mset e.staged g (takeStaged n.asid (tileLines kind) (mgetD e.staged g [])).2 } else e
  | .aclr g acc => clearAcc e g acc n.asid n.core
  | .adrain _ _ _ _ _ _ _ _ _ _ _ _ => e
  | .scld g _ _ _ count _ =>
    { e with staged := mset e.staged g (mgetD e.staged g [] ++
        List.replicate count { asid := n.asid, core := n.core, rec' := none, lin := 0 }) }
  | .job b _ id ms =>
    (jobAccs b).foldl (fun e a => putAcc e (JobCard.of b).grp a
      { asid := n.asid, core := n.core, cert := .certified, basis := some id, ms := ms }) e
  | .oclm _ k => claimSlot e k n.core n.asid
  | .orel k => releaseSlot e k
  | .basis id _ b => if basisInUse e id then e else { e with bases := mset e.bases id b }

/-- The state that every entry of the table will leave (R163). [DEDUCED: log 35, 36] -/
def foreseen (e : Eng) : Eng := e.table.foldl foresee e

/-! ## Claims and releases in the order of issue (R335) -/

/-- Claims and releases whose turn has come take effect, oldest first. [DEDUCED: log 35] -/
def settleSlots (e : Eng) : Eng :=
  e.table.foldl (fun e n =>
    match n.op with
    | .oclm _ k => if eligible e n then claimSlot (e.delEnt n.id) k n.core n.asid else e
    | .orel k => if eligible e n then releaseSlot (e.delEnt n.id) k else e
    | _ => e) e

/-- An entry enters the table (R167). [DEDUCED: log 10] -/
def enterEnt (s : State) (q : Nat) (n : Ent) : State :=
  let (id, s) := freshId s
  updEng s q fun e => settleSlots { e with table := e.table ++ [{ n with id := id }], idle := false }

/-- Entries fused into an entry that is gone wait for a later grant (R172). -/
def unfuse (e : Eng) : Eng :=
  { e with table := e.table.map fun n => match n.fusedInto with
      | some m => if e.table.any fun o => o.id = m then n else { n with fusedInto := none, granted := none }
      | none => n }

/-- Release the slots that a core holds once every older entry has taken effect, as OREL (R163): its group has ended. -/
def releaseCore (s : State) (c : Nat) : State :=
  s.engs.foldl (fun s (q, e) => ((foreseen e).slots.filter fun (_, o) => o.core = c && !(o.use = .job)).foldl (fun s (k, o) =>
    enterEnt s q { id := 0, core := c, asid := o.asid, op := .orel k }) s) s

end Sys2Proof.Machine
end

