-- ==== Sys2Proof/Machine/Float.lean ====
section
/-! DEFINITION. The float formats of R71 as exact dyadic values with one rounding at the end (R72 to R75, R263 to
R274). Bit patterns are natural numbers below 2 to the width of the format. -/

namespace Sys2Proof.Machine

/-- A float format: exponent bits and fraction bits (R71). -/
structure Fmt where
  eb : Nat
  fb : Nat
  deriving DecidableEq, Repr

/-- binary32. -/
def f32 : Fmt := { eb := 8, fb := 23 }
/-- binary16. -/
def f16 : Fmt := { eb := 5, fb := 10 }
/-- bf16. -/
def bf16 : Fmt := { eb := 8, fb := 7 }

/-- Width in bits. -/
def Fmt.width (f : Fmt) : Nat := 1 + f.eb + f.fb
/-- Exponent bias. -/
def Fmt.bias (f : Fmt) : Nat := 2 ^ (f.eb - 1) - 1
/-- Exponent of the smallest subnormal. -/
def Fmt.emin (f : Fmt) : Int := 1 - (f.bias : Int) - f.fb
/-- Bits of +infinity. -/
def Fmt.inf (f : Fmt) : Nat := (2 ^ f.eb - 1) <<< f.fb
/-- The canonical NaN (R72). -/
def Fmt.nan (f : Fmt) : Nat := f.inf + 2 ^ (f.fb - 1)
/-- The sign bit. -/
def Fmt.sbit (f : Fmt) : Nat := 2 ^ (f.eb + f.fb)
/-- Bits of a signed magnitude. -/
def Fmt.signed (f : Fmt) (neg : Bool) (mag : Nat) : Nat := if neg then f.sbit + mag else mag

/-- A float value: NaN, an infinity, or (-1)^neg * m * 2^e exactly (m = 0 for a signed zero). -/
inductive FV where
  | nan
  | inf (neg : Bool)
  | fin (neg : Bool) (m : Nat) (e : Int)
  deriving DecidableEq, Repr

/-- The four rounding modes (R73). -/
inductive Rnd where
  | rne
  | rtz
  | rup
  | rdn
  deriving DecidableEq, Repr

/-- MOD[3:2] as a rounding mode (R73). -/
def Rnd.ofCode (n : Nat) : Rnd := if n = 0 then .rne else if n = 1 then .rtz else if n = 2 then .rup else .rdn

/-- The value of a bit pattern; subnormals read as zero under FTZ (R71, R74). -/
def fdec (f : Fmt) (ftz : Bool) (v : Nat) : FV :=
  let neg := decide (f.sbit ≤ v % 2 ^ f.width)
  let ef := nbits v f.fb f.eb
  let fr := nbits v 0 f.fb
  if ef = 0 then .fin neg (if ftz then 0 else fr) f.emin
  else if ef = 2 ^ f.eb - 1 then (if fr = 0 then .inf neg else .nan)
  else .fin neg (fr + 2 ^ f.fb) (f.emin + (ef - 1 : Nat))

/-- floor(log2(m * 2^e)) for m > 0. -/
def ilog (m : Nat) (e : Int) : Int := e + Nat.log2 m

/-- The magnitude m * 2^e in units of 2^q, rounded to an integer (R73). -/
def roundAt (r : Rnd) (neg : Bool) (m : Nat) (e q : Int) : Nat :=
  if q ≤ e then m <<< (e - q).toNat
  else
    let sh := (q - e).toNat
    if Nat.log2 m + 1 < sh then
      -- below half a unit
      if m = 0 then 0
      else match r with
        | .rup => if neg then 0 else 1
        | .rdn => if neg then 1 else 0
        | _ => 0
    else
      let n := m >>> sh
      let rem := m % 2 ^ sh
      let half := 2 ^ (sh - 1)
      let up := match r with
        | .rne => decide (half < rem) || (rem = half && n % 2 = 1)
        | .rtz => false
        | .rup => !neg && !(rem = 0)
        | .rdn => neg && !(rem = 0)
      if up then n + 1 else n

/-- Overflow of a finite value (R73). -/
def foverflow (f : Fmt) (r : Rnd) (neg : Bool) : Nat :=
  let toInf := match r with
    | .rne => true
    | .rtz => false
    | .rup => !neg
    | .rdn => neg
  f.signed neg (if toInf then f.inf else f.inf - 1)

/-- Round a value once to a format (R73, R74, R263). -/
def fround (f : Fmt) (r : Rnd) (ftz : Bool) : FV → Nat
  | .nan => f.nan
  | .inf neg => f.signed neg f.inf
  | .fin neg m e =>
    if m = 0 then f.signed neg 0
    else
      let lg := ilog m e
      if ftz && decide (lg < 1 - (f.bias : Int)) then f.signed neg 0
      else if (f.bias : Int) < lg then foverflow f r neg
      else
        let q := max f.emin (lg - f.fb)
        let n := roundAt r neg m e q
        let mag := ((q - f.emin).toNat <<< f.fb) + n
        if mag < f.inf then f.signed neg mag else foverflow f r neg

/-- Round a value once to a format, with ±∞ for a magnitude beyond its range whatever the mode (R77, R117). -/
def froundInf (f : Fmt) (r : Rnd) (ftz : Bool) : FV → Nat
  | .fin neg m e => if !(m = 0) && decide ((f.bias : Int) < ilog m e) then f.signed neg f.inf else fround f r ftz (.fin neg m e)
  | v => fround f r ftz v

/-- Sign of a value. -/
def FV.neg : FV → Bool
  | .nan => false
  | .inf n => n
  | .fin n _ _ => n

/-- Negate a value. -/
def FV.negate : FV → FV
  | .nan => .nan
  | .inf n => .inf !n
  | .fin n m e => .fin (!n) m e

/-- The signed dyadic of a finite value, as an integer in units of 2^q with q at most its exponent. -/
def dyInt (neg : Bool) (m : Nat) (e q : Int) : Int :=
  let n : Int := ((m <<< (e - q).toNat : Nat) : Int)
  if neg then -n else n

/-- Exact sum of two values (R73 for the sign of an exact zero). -/
def fvAdd (r : Rnd) : FV → FV → FV
  | .nan, _ => .nan
  | _, .nan => .nan
  | .inf a, .inf b => if a = b then .inf a else .nan
  | .inf a, .fin _ _ _ => .inf a
  | .fin _ _ _, .inf b => .inf b
  | .fin n1 m1 e1, .fin n2 m2 e2 =>
    let q := min e1 e2
    let t := dyInt n1 m1 e1 q + dyInt n2 m2 e2 q
    if t = 0 then .fin (if n1 = n2 then n1 else r = .rdn) 0 q
    else .fin (decide (t < 0)) t.natAbs q

/-- Exact product of two values. -/
def fvMul : FV → FV → FV
  | .nan, _ => .nan
  | _, .nan => .nan
  | .inf a, .inf b => .inf (a != b)
  | .inf a, .fin b m _ => if m = 0 then .nan else .inf (a != b)
  | .fin a m _, .inf b => if m = 0 then .nan else .inf (a != b)
  | .fin a m1 e1, .fin b m2 e2 => .fin (a != b) (m1 * m2) (e1 + e2)

/-- Quotient, exact enough for one rounding to any format of R71 (a sticky last bit) (R267). -/
def fvDiv : FV → FV → FV
  | .nan, _ => .nan
  | _, .nan => .nan
  | .inf _, .inf _ => .nan
  | .inf a, .fin b _ _ => .inf (a != b)
  | .fin a _ _, .inf b => .fin (a != b) 0 0
  | .fin a m1 e1, .fin b m2 e2 =>
    if m2 = 0 then (if m1 = 0 then .nan else .inf (a != b))
    else
      let n := m1 <<< 64
      let s := if n % m2 = 0 then 0 else 1
      .fin (a != b) (2 * (n / m2) + s) (e1 - e2 - 65)

/-- Integer square root by bits, from bit i downward. -/
def isqrtAux (n : Nat) : Nat → Nat → Nat
  | 0, r => r
  | i + 1, r =>
    let r' := r + 2 ^ i
    isqrtAux n i (if r' * r' ≤ n then r' else r)

/-- floor of the square root. -/
def isqrt (n : Nat) : Nat := isqrtAux n (Nat.log2 n / 2 + 1) 0

/-- Square root, exact enough for one rounding (R267). -/
def fvSqrt : FV → FV
  | .nan => .nan
  | .inf neg => if neg then .nan else .inf false
  | .fin neg m e =>
    if m = 0 then .fin neg 0 0
    else if neg then .nan
    else
      let odd := decide (e % 2 = 1)
      let m' := (if odd then 2 * m else m) <<< 80
      let e' := (if odd then e - 1 else e) - 80
      let s := isqrt m'
      .fin false (2 * s + (if s * s = m' then 0 else 1)) (e' / 2 - 1)

/-- Compare two values that are not NaN: less than, with +0 = -0. -/
def fvLt : FV → FV → Bool
  | .inf a, .inf b => a && !b
  | .inf a, .fin _ _ _ => a
  | .fin _ _ _, .inf b => !b
  | .fin n1 m1 e1, .fin n2 m2 e2 =>
    let q := min e1 e2
    decide (dyInt n1 m1 e1 q < dyInt n2 m2 e2 q)
  | _, _ => false

/-- The float modifier of a source on one element: 1 negate, 2 absolute, 3 negated absolute (R191). -/
def fmodBits (f : Fmt) (md v : Nat) : Nat :=
  let v := v % 2 ^ f.width
  let mag := v % f.sbit
  if md = 1 then (if f.sbit ≤ v then mag else f.sbit + mag)
  else if md = 2 then mag
  else if md = 3 then f.sbit + mag
  else v

/-- FTZ on an input pattern (R74). -/
def fflush (f : Fmt) (ftz : Bool) (v : Nat) : Nat :=
  if ftz && nbits v f.fb f.eb = 0 then (if f.sbit ≤ v % 2 ^ f.width then f.sbit else 0) else v % 2 ^ f.width

/-- FMIN and FMAX on patterns (R269). -/
def fminmax (f : Fmt) (mx ftz : Bool) (a b : Nat) : Nat :=
  let a := fflush f ftz a
  let b := fflush f ftz b
  match fdec f false a, fdec f false b with
  | .nan, .nan => f.nan
  | .nan, _ => b
  | _, .nan => a
  | x, y =>
    let lt := fvLt x y || (!fvLt y x && x.neg && !y.neg)     -- a below b, -0 below +0
    if mx then (if lt then b else a) else (if lt then a else b)

/-- Round to an integral value in the same format (R270). -/
def frnd (f : Fmt) (r : Rnd) (ftz : Bool) (v : Nat) : Nat :=
  match fdec f ftz v with
  | .nan => f.nan
  | .inf n => f.signed n f.inf
  | .fin n m e => if 0 ≤ e then fround f r false (.fin n m e) else fround f r false (.fin n (roundAt r n m e 0) 0)

/-- Class mask of R274. -/
def fclass (f : Fmt) (v : Nat) : Nat :=
  let neg := decide (f.sbit ≤ v % 2 ^ f.width)
  let ef := nbits v f.fb f.eb
  let fr := nbits v 0 f.fb
  if ef = 2 ^ f.eb - 1 then
    if fr = 0 then (if neg then 1 else 2 ^ 7)
    else if nbits v (f.fb - 1) 1 = 0 then 2 ^ 8 else 2 ^ 9
  else if ef = 0 then
    if fr = 0 then (if neg then 2 ^ 3 else 2 ^ 4) else (if neg then 2 ^ 2 else 2 ^ 5)
  else if neg then 2 ^ 1 else 2 ^ 6

/-- FCMP conditions of R273. -/
def fcmp (cond a b : Nat) : Bool :=
  match fdec f32 false a, fdec f32 false b with
  | .nan, _ => decide (7 ≤ cond)
  | _, .nan => decide (7 ≤ cond)
  | x, y =>
    let lt := fvLt x y
    let gt := fvLt y x
    let eq := !lt && !gt
    match cond % 8 with
    | 0 => eq
    | 1 => !eq
    | 2 => lt
    | 3 => lt || eq
    | 4 => gt
    | 5 => gt || eq
    | 6 => decide (cond = 6)
    | _ => false

/-- The format of a packed or scalar element (R262). -/
def fmtOf (ty : Nat) : Fmt := if ty = 0 then f32 else if ty = 1 then f16 else bf16

/-- Apply a one-operand function to each element of a 32-bit operand (R262). -/
def fmap1 (ty : Nat) (g : Fmt → Nat → Nat) (a : Nat) : Nat :=
  let f := fmtOf ty
  if ty = 0 then g f (a % 2 ^ 32)
  else g f (nbits a 0 16) + 2 ^ 16 * g f (nbits a 16 16)

/-- Apply a two-operand function to each element (R262). -/
def fmap2 (ty : Nat) (g : Fmt → Nat → Nat → Nat) (a b : Nat) : Nat :=
  let f := fmtOf ty
  if ty = 0 then g f (a % 2 ^ 32) (b % 2 ^ 32)
  else g f (nbits a 0 16) (nbits b 0 16) + 2 ^ 16 * g f (nbits a 16 16) (nbits b 16 16)

/-- Apply a three-operand function to each element (R262). -/
def fmap3 (ty : Nat) (g : Fmt → Nat → Nat → Nat → Nat) (a b c : Nat) : Nat :=
  let f := fmtOf ty
  if ty = 0 then g f (a % 2 ^ 32) (b % 2 ^ 32) (c % 2 ^ 32)
  else g f (nbits a 0 16) (nbits b 0 16) (nbits c 0 16) + 2 ^ 16 * g f (nbits a 16 16) (nbits b 16 16) (nbits c 16 16)

/-- A + B (R266). -/
def fadd (r : Rnd) (ftz : Bool) (f : Fmt) (a b : Nat) : Nat := fround f r ftz (fvAdd r (fdec f ftz a) (fdec f ftz b))
/-- A - B (R266). -/
def fsub (r : Rnd) (ftz : Bool) (f : Fmt) (a b : Nat) : Nat :=
  fround f r ftz (fvAdd r (fdec f ftz a) (fdec f ftz b).negate)
/-- A × B (R266). -/
def fmul (r : Rnd) (ftz : Bool) (f : Fmt) (a b : Nat) : Nat := fround f r ftz (fvMul (fdec f ftz a) (fdec f ftz b))
/-- A × B + C with one rounding (R266). -/
def ffma (r : Rnd) (ftz : Bool) (f : Fmt) (a b c : Nat) : Nat :=
  fround f r ftz (fvAdd r (fvMul (fdec f ftz a) (fdec f ftz b)) (fdec f ftz c))
/-- A / B (R267). -/
def fdiv (r : Rnd) (ftz : Bool) (f : Fmt) (a b : Nat) : Nat := fround f r ftz (fvDiv (fdec f ftz a) (fdec f ftz b))
/-- Square root (R267). -/
def fsqrt (r : Rnd) (ftz : Bool) (f : Fmt) (a : Nat) : Nat := fround f r ftz (fvSqrt (fdec f ftz a))
/-- A × 2^b (R271). -/
def fscale (r : Rnd) (ftz : Bool) (f : Fmt) (a : Nat) (b : Int) : Nat :=
  match fdec f ftz a with
  | .fin n m e => fround f r ftz (.fin n m (if m = 0 then e else e + b))
  | x => fround f r ftz x

/-- FDOT2 (R272). -/
def fdot2 (r : Rnd) (ftz : Bool) (ty a b c : Nat) : Nat :=
  let f := fmtOf ty
  let p0 := fvMul (fdec f ftz (nbits a 0 16)) (fdec f ftz (nbits b 0 16))
  let p1 := fvMul (fdec f ftz (nbits a 16 16)) (fdec f ftz (nbits b 16 16))
  let z := fdec f32 ftz (c % 2 ^ 32)
  let s := fvAdd r p0 p1
  -- a zero total takes its sign from all three terms
  match fvAdd r s z, p0, p1, z with
  | .fin _ 0 e, .fin a1 _ _, .fin a2 _ _, .fin a3 _ _ =>
    fround f32 r ftz (.fin (if a1 = a2 && a2 = a3 then a1 else r = .rdn) 0 e)
  | t, _, _, _ => fround f32 r ftz t

/-- Bits of |x| rounded to f32 toward +infinity (R183). -/
def fupBits (m : Nat) (e : Int) : Nat := fround f32 .rup false (.fin false m e)

/-- x is an integer k with 2^k a value of the format. -/
def exp2Exact (f : Fmt) : FV → Option Nat
  | .fin n m e =>
    let q := min e 0
    let t := dyInt n m e q
    let u : Int := ((2 ^ (0 - q).toNat : Nat) : Int)
    if t % u = 0 then
      let k := t / u
      if f.emin ≤ k ∧ k ≤ f.bias then some (fround f .rne false (.fin false 1 k)) else none
    else none
  | _ => none

/-- |y - 1/x| is at most one unit in the last place of the format at 1/x (R75), for finite nonzero x; infinity only where 1/x lies
beyond the format's range. [DESIGN CHOICE: log 4] -/
def rcpOk (f : Fmt) (xm : Nat) (xe : Int) (neg : Bool) (y : Nat) : Bool :=
  match fdec f false y with
  | .fin n m e =>
    -- 1/x = 2^(-xe) / xm; its floor log
    let lg : Int := if xm = 2 ^ Nat.log2 xm then -xe - Nat.log2 xm else -xe - Nat.log2 xm - 1
    let u := max f.emin (lg - f.fb)
    let q := min (min e u) (-xe)
    let a : Int := (m <<< (e - q).toNat : Nat) * (xm : Int)
    let b : Int := (1 <<< (-xe - q).toNat : Nat)
    let w : Int := (1 <<< (u - q).toNat : Nat) * (xm : Int)
    n = neg && decide ((a - b).natAbs ≤ w.natAbs)
  | .inf n =>
    -- x is at most 2^-(bias + 1)
    let k : Int := xe + f.bias + 1
    n = neg && decide (xm <<< k.toNat ≤ 1 <<< (-k).toNat)
  | .nan => false

/-- |y - 1/sqrt x| is at most one unit in the last place of the format at 1/sqrt x (R75), for finite x above 0. [DESIGN CHOICE: log 4] -/
def rsqOk (f : Fmt) (xm : Nat) (xe : Int) (y : Nat) : Bool :=
  match fdec f false y with
  | .fin false m e =>
    -- bounds y - u and y + u, squared against 1/x; u at the floor of the logarithm of 1/sqrt x
    let lx := ilog xm xe
    let lg : Int := if xm = 2 ^ Nat.log2 xm then -((lx + 1) / 2) else -(lx / 2) - 1
    let u := max f.emin (lg - f.fb)
    let q := min e u
    let ym : Int := (m <<< (e - q).toNat : Nat)
    let ui : Int := (1 <<< (u - q).toNat : Nat)
    let lo := max 0 (ym - ui)
    let hi := ym + ui
    -- lo^2 * x <= 1 <= hi^2 * x, with x = xm 2^xe and the squares in units 2^(2q)
    let k := 2 * q + xe
    let one : Nat → Nat := fun z => if 0 ≤ k then z <<< k.toNat else z
    let rhs : Nat := if 0 ≤ k then 1 else 1 <<< (-k).toNat
    decide (one (lo.natAbs * lo.natAbs * xm) ≤ rhs) && decide (rhs ≤ one (hi.natAbs * hi.natAbs * xm))
  | _ => false

/-- ln 2 in units of 2^-128. -/
def ln2Fix : Nat := 0xb17217f7d1cf79abc9e3b39803f2f6af
/-- Two pi in units of 2^-256. -/
def twoPiFix : Nat := 0x6487ed5110b4611a62633145c06e0e68948127044533e63a0105df531d89cd912

/-- 2^g for a g from 0 to below 1, both in units of 2^-128, to within 2^-110: the exponential series. [DESIGN CHOICE: log 4] -/
def exp2Fix (g : Nat) : Nat :=
  let t := (g * ln2Fix) >>> 128
  ((List.range 40).foldl (fun (r : Nat × Nat) i =>
    let term := ((r.2 * t) >>> 128) / (i + 1)
    (r.1 + term, term)) (2 ^ 128, 2 ^ 128)).1

/-- log2 of m * 2^e for m > 0, in units of 2^-128, to within 2^-110: the series of the inverse hyperbolic tangent. [DESIGN CHOICE: log 4] -/
def log2Fix (m : Nat) (e : Int) : Int :=
  let one := 2 ^ Nat.log2 m
  let z := ((m - one) <<< 128) / (m + one)
  let sum := ((List.range 48).foldl (fun (r : Nat × Nat) i => (r.1 + r.2 / (2 * i + 1), (((r.2 * z) >>> 128) * z) >>> 128)) (0, z)).1
  ilog m e * 2 ^ 128 + ((2 * sum) <<< 128 : Nat) / (ln2Fix : Int)

/-- sin (cos = false) or cos of |m * 2^e|, in units of 2^-128, to within 2^-110, for e at least -200: the angle less its
whole turns, then the power series. [DESIGN CHOICE: log 4] -/
def sinFix (cos : Bool) (m : Nat) (e : Int) : Int :=
  let r := ((m <<< (e + 256).toNat) % twoPiFix) >>> 128
  let sq := (r * r) >>> 128
  let k0 := if cos then 1 else 2
  ((List.range 40).foldl (fun (s : Int × Nat) i =>
    (if i % 2 = 0 then s.1 + s.2 else s.1 - s.2, ((s.2 * sq) >>> 128) / ((2 * i + k0) * (2 * i + k0 + 1))))
    (0, if cos then 2 ^ 128 else r)).1

/-- The pattern y lies within w of v, both in units of 2^q; an infinity counts as the first power of two past the
format. [DESIGN CHOICE: log 4] -/
def nearFix (f : Fmt) (v : Int) (w : Nat) (q : Int) (y : Nat) : Bool :=
  let at' (n : Bool) (m : Nat) (e : Int) : Bool :=
    let k := min e q
    let s : Int := ((1 <<< (q - k).toNat : Nat) : Int)
    decide ((dyInt n m e k - v * s).natAbs ≤ w * s.natAbs)
  match fdec f false y with
  | .nan => false
  | .inf n => at' n 1 (f.bias + 1) || (decide (v < 0) = n && decide ((f.bias : Int) + 1 ≤ ilog v.natAbs q))
  | .fin n m e => at' n m e

/-- The free value y where it keeps to the bound w about v (in units of 2^q), else v rounded; under FTZ a result whose
exact value is below the smallest normal is zero (R74, R75). [DESIGN CHOICE: log 4] -/
def pickFix (f : Fmt) (ftz : Bool) (v : Int) (w : Nat) (q : Int) (y : Nat) : Nat :=
  if ftz && decide (ilog v.natAbs q < 1 - (f.bias : Int)) then f.signed (v < 0) 0
  else if nearFix f v w q y then y else fround f .rne ftz (.fin (v < 0) v.natAbs q)

/-- b units in the last place of the format at |v| * 2^q, in units of 2^q (R75). -/
def ulpsAt (f : Fmt) (b : Nat) (v : Int) (q : Int) : Nat := b <<< (max f.emin (ilog v.natAbs q - f.fb) - q).toNat

/-- The same, with 2^20 units of slack for the series. [DESIGN CHOICE: log 4] -/
def ulpsFix (f : Fmt) (b : Nat) (v : Int) (q : Int) : Nat := ulpsAt f b v q + 2 ^ 20

/-- The approximate function fn (0 FRCP, 1 FRSQ, 2 FEXP2, 3 FLOG2, 4 FSIN, 5 FCOS) on one element: the exact cases of
R75, and elsewhere the device's own value, a free value inside the bound of R75. Two units in the last place bound
FEXP2 and FLOG2 in f32 and one in a narrow type, 2^-22 FLOG2 from 0.5 to 2 and 2^-21 FSIN and FCOS in f32. [DESIGN CHOICE: log 4] -/
def fapprox (fn ty : Nat) (ftz : Bool) (f : Fmt) (v : Nat) : Nat :=
  let x := fdec f ftz v
  let raw := (Config.approx fn ty ftz (BitVec.ofNat 32 v)).toNat % 2 ^ f.width
  let minNormal : Int := 1 - (f.bias : Int)
  let wide := decide (f.fb = 23)
  match fn, x with
  | _, .nan => f.nan
  | 0, .inf n => f.signed n 0
  | 0, .fin n m e =>
    if m = 0 then f.signed n f.inf
    else
      let tiny := if m = 2 ^ Nat.log2 m then decide (-e - Nat.log2 m < minNormal) else decide (-e - Nat.log2 m - 1 < minNormal)
      if ftz && tiny then f.signed n 0
      else if rcpOk f m e n raw then raw else fdiv .rne ftz f (fround f .rne false (.fin false 1 0)) v
  | 1, .inf n => if n then f.nan else 0
  | 1, .fin n m e =>
    if m = 0 then f.signed n f.inf
    else if n then f.nan
    else if rsqOk f m e raw then raw
    else fround f .rne ftz (fvSqrt (fvDiv (.fin false 1 0) (.fin false m e)))
  | 2, .inf n => if n then 0 else f.inf
  | 2, .fin n m e =>
    if m = 0 then fround f .rne false (.fin false 1 0)
    else if fvLt (.fin n m e) (.fin true (f.emin - 1).natAbs 0) then 0
    else if ftz && fvLt (.fin n m e) (.fin true minNormal.natAbs 0) then 0
    else if fvLt (.fin false (f.bias + 2) 0) (.fin n m e) then f.inf
    else match exp2Exact f (.fin n m e) with
      | some y => y
      | none =>
        -- close to 1 the result is 1 and less than one part in 2^60, on the side of the sign
        if ilog m e < -60 then
          let y : Int := if n then 2 ^ 128 - 1 else 2 ^ 128 + 1
          pickFix f ftz y (ulpsAt f (if wide then 2 else 1) y (-128)) (-128) raw
        else
        let t := dyInt n (m <<< (e + 384).toNat) 0 0 / 2 ^ 256
        let k := t / 2 ^ 128
        let y : Int := (exp2Fix (t % 2 ^ 128).toNat : Nat)
        pickFix f ftz y (ulpsFix f (if wide then 2 else 1) y (k - 128)) (k - 128) raw
  | 3, .inf n => if n then f.nan else f.inf
  | 3, .fin n m e =>
    if m = 0 then f.signed true f.inf
    else if n then f.nan
    else if !fvLt x (.fin false 1 0) && !fvLt (.fin false 1 0) x then 0
    else
      let y := log2Fix m e
      let w := if wide && !fvLt x (.fin false 1 (-1)) && !fvLt (.fin false 2 0) x then 2 ^ 106 + 2 ^ 20
        else ulpsFix f (if wide then 2 else 1) y (-128)
      pickFix f ftz y w (-128) raw
  | 4, .inf _ => f.nan
  | 4, .fin n m e =>
    if m = 0 then f.signed n 0
    else if ftz && !fvLt (.fin false 1 minNormal) (.fin false m e) then f.signed n 0
    else if ilog m e < -30 then
      -- |sin x| is |x| less a part below one in 2^60
      let q := e - 60
      let y := dyInt n m e q + (if n then 1 else -1)
      pickFix f ftz y (if wide then 1 <<< (-21 - q).toNat else ulpsAt f 1 y q) q raw
    else
      let y := if n then -(sinFix false m e) else sinFix false m e
      pickFix f ftz y (if wide then 2 ^ 107 + 2 ^ 20 else ulpsFix f 1 y (-128)) (-128) raw
  | 5, .inf _ => f.nan
  | 5, .fin _ m e =>
    if m = 0 then fround f .rne false (.fin false 1 0)
    else
      if ilog m e < -40 then
        -- cos x is 1 less a part below one in 2^79
        pickFix f ftz (2 ^ 128 - 1) (if wide then 2 ^ 107 else ulpsAt f 1 (2 ^ 128 - 1) (-128)) (-128) raw
      else
      let y := sinFix true m e
      pickFix f ftz y (if wide then 2 ^ 107 + 2 ^ 20 else ulpsFix f 1 y (-128)) (-128) raw
  | _, _ => raw

end Sys2Proof.Machine
end

