-- ==== Sys2Proof/Machine/Xlate.lean ====
section
/-! DEFINITION. The physical address map (R415, R425, R426), the page tables and the ASID table (R416 to R421), and
translation with its caches (R422, R423). -/

namespace Sys2Proof.Machine

/-! ## Physical addresses -/

/-- Bytes of one memory-side die: 48 GiB. -/
def mdieBytes : Nat := 0xC00000000
/-- Base of the vault range (R415). -/
def vaultBase : Nat := 0x10000000000
/-- Step from vault to vault (R415). -/
def vaultStep : Nat := 0x2000000
/-- Used bytes of a vault: 18 MiB. -/
def vaultBytes : Nat := 0x1200000
/-- Base of the register space (R415). -/
def regBase : Nat := 0x1F000000000
/-- Bytes of the register space. -/
def regBytes : Nat := 0x4000000
/-- Base of host memory (R415). -/
def hostBase : Nat := 0x1000000000000

/-- What a physical address names (R415). -/
inductive Region where
  | hbm
  | vault (core off : Nat)
  | reg (off : Nat)
  | host
  | none
  deriving DecidableEq, Repr

/-- The range a physical address lies in (R415). -/
def regionOf (pa : Nat) : Region :=
  if pa < 8 * mdieBytes then .hbm
  else if vaultBase ≤ pa ∧ pa < vaultBase + 336 * vaultStep then
    let p := pa - vaultBase
    if p % vaultStep < vaultBytes then .vault (p / vaultStep) (p % vaultStep) else .none
  else if regBase ≤ pa ∧ pa < regBase + regBytes then .reg (pa - regBase)
  else if hostBase ≤ pa ∧ pa < 2 * hostBase then .host
  else .none

/-- The word PARTn (R425). -/
def partWord (s : State) (n : Nat) : DWord := s.xl.parts.getD n 0
/-- EN of a partition. -/
def partEn (s : State) (n : Nat) : Bool := (partWord s n).getLsbD 12
/-- The partition has this compute die (R425). -/
def partHasDie (s : State) (n d : Nat) : Bool := partEn s n && (partWord s n).getLsbD (8 + d)
/-- The partition of a compute die, if any. -/
def partOfDie (s : State) (d : Nat) : Option Nat := (List.range 4).find? fun n => partHasDie s n d
/-- Memory-side dies of a partition, ascending. -/
def mdiesOf (w : DWord) : List Nat := (List.range 8).filter fun i => w.getLsbD i
/-- log2 of the number of memory-side dies. -/
def partK (w : DWord) : Nat := Nat.log2 (max 1 (mdiesOf w).length)
/-- HBASE of a partition word (R425). -/
def hbaseOf (w : DWord) : Nat := (mdiesOf w).headD 0 * mdieBytes
/-- An address lies in the HBM4E range of a partition word (R425). -/
def inHbm (w : DWord) (pa : Nat) : Bool :=
  !(mdiesOf w).isEmpty && decide (hbaseOf w ≤ pa) && decide (pa < hbaseOf w + (mdiesOf w).length * mdieBytes)

/-- An address is backed for a partition (R415). -/
def backed (s : State) (part pa : Nat) : Bool :=
  match regionOf pa with
  | .hbm => partEn s part && inHbm (partWord s part) pa
  | .vault c _ => partHasDie s part (dieOf c)
  | .reg _ => true
  | .host => true
  | .none => false

/-- A host can write the address: device memory of a partition, or the host's own memory. -/
def hostWritable (s : State) (pa : Nat) : Bool :=
  match regionOf pa with
  | .hbm => (List.range 4).any fun p => backed s p pa
  | .vault _ _ => (List.range 4).any fun p => backed s p pa
  | .host => true
  | _ => false

/-- Memory-side die, bank number and row of an HBM4E address (R378, R426). -/
def hbmPlace (s : State) (pa : Nat) : Option (Nat × Nat × Nat) :=
  match (List.range 4).find? fun n => partEn s n && inHbm (partWord s n) pa with
  | none => none
  | some n =>
    let w := partWord s n
    let k := partK w
    let h := pa - hbaseOf w
    let die := (mdiesOf w).headD 0 + nbits h 8 k
    let ch := nbits h (8 + k) 5
    let pc := nbits h (13 + k) 1
    let bk := nbits h (14 + k) 4
    some (die, 32 * ch + 16 * pc + bk, nbits h (20 + k) 16)

/-- The home of a line (05, "Homes, leases and write completion time"). -/
inductive Home where
  | mdie (d : Nat)        -- memory-side die
  | cdie (d core : Nat)   -- control die, with the vault's column
  | host
  | reg
  | none
  deriving DecidableEq, Repr

/-- The home of a physical address; a TIER 3 page in a vault is served from there (R428). [DEDUCED: log 79] -/
def homeOf (s : State) (pa : Nat) : Home :=
  match mget s.xl.inVault (pa / 65536) with
  | some v => .cdie (dieOf (v / 288)) (v / 288)
  | none =>
    match regionOf pa with
    | .hbm => match hbmPlace s pa with
      | some (d, _, _) => .mdie d
      | none => .none
    | .vault c _ => .cdie (dieOf c) c
    | .reg _ => .reg
    | .host => .host
    | .none => .none

/-- The home is this compute die (R129, R130). -/
def homeIs (s : State) (pa die : Nat) : Bool :=
  match homeOf s pa with
  | .cdie d _ => d = die
  | _ => false

/-! ## Resets (R431) -/

/-- A unit of a kind of R436 is in reset, by itself or within a wider reset (R431). -/
def inReset (s : State) (kind unit : Nat) : Bool := s.resets.any fun r => r.kind = kind && r.unit = unit

/-- The partition of a memory-side die. -/
def partOfMdie (s : State) (d : Nat) : Option Nat := (List.range 4).find? fun n => partEn s n && (mdiesOf (partWord s n)).contains d

/-- A memory-side die is in reset (R431). -/
def mdieInReset (s : State) (d : Nat) : Bool :=
  inReset s 5 d || inReset s 7 0 || (match partOfMdie s d with
    | some p => inReset s 6 p
    | none => false)

/-- A compute die is in reset (R431). -/
def cdieInReset (s : State) (d : Nat) : Bool :=
  inReset s 4 d || inReset s 7 0 || (match partOfDie s d with
    | some p => inReset s 6 p
    | none => false)

/-- The home of an address is in reset: it serves nothing (R431). -/
def homeDown (s : State) (pa : Nat) : Bool :=
  match homeOf s pa with
  | .mdie d => mdieInReset s d
  | .cdie d _ => cdieInReset s d
  | _ => false

/-- A line of n bytes of memory has its home in reset (R431). -/
def rangeDown (s : State) (pa n : Nat) : Bool :=
  !s.resets.isEmpty && (List.range ((pa + n - 1) / 64 + 1 - pa / 64)).any fun k => homeDown s (64 * (pa / 64 + k))

/-- The engine of a quad is in reset, or its die is (R431). -/
def engineDown (s : State) (q : Nat) : Bool := inReset s 1 q || cdieInReset s (q / 21)

/-! ## Table walks -/

/-- Eight bytes at the home, none when a word is poisoned or the address is not backed or in the register space
(R421, class 14 of R430). -/
def walkRead (s : State) (part pa : Nat) : Option DWord :=
  match regionOf pa with
  | .reg _ => none
  | _ =>
    if !backed s part pa || mhas s.mem.poison (pa / 4) || mhas s.mem.poison (pa / 4 + 1) then none
    else some (BitVec.ofNat 64 (leNat (bgetN s.mem.bytes pa 8)))

/-- PA[48:16] field of an entry, as an address (R417). -/
def entPa (e : DWord) : Nat := nbits e.toNat 16 33 * 65536
/-- V of an entry. -/
def entV (e : DWord) : Bool := e.getLsbD 0
/-- T of an entry. -/
def entT (e : DWord) : Bool := e.getLsbD 1
/-- Reserved bits are clear; a table pointer carries only V, T and PA (R417). -/
def entOk (e : DWord) : Bool :=
  nbits e.toNat 49 15 = 0 && nbits e.toNat 13 3 = 0 && (!entT e || nbits e.toNat 2 11 = 0)

/-- A read that has to wait for a store that its home has accepted and not yet applied (R129); no fault code. -/
def notNow : Nat := 0x100

/-- Accepted at the home and not yet applied. -/
def Store.isAccepted (st : Store) : Bool :=
  match st.st with
  | .accepted _ => true
  | _ => false
/-- Not yet applied at the home, and not lost. -/
def Store.pending (st : Store) : Bool :=
  match st.st with
  | .applied _ => false
  | _ => true
/-- Line number. -/
def Store.line (st : Store) : Nat := st.pa / 64

/-- A line has an accepted store that its home has still to apply: reads of it wait (R129). -/
def lineBusy (s : State) (line : Nat) : Bool := s.mem.stores.any fun st => st.isAccepted && st.line = line

/-- A read of a line has to wait at its home: for an accepted store (R129), or for the end of the home's reset (R431). -/
def lineStalls (s : State) (line : Nat) : Bool := lineBusy s line || (!s.resets.isEmpty && homeDown s (64 * line))

/-- ATEN (R420). -/
def aten (s : State) : Bool := s.xl.at'.getLsbD 0

/-- The ASID entry (partition, root) as the tables give it, none when it is not live (R419). -/
def asidFresh (s : State) (part asid : Nat) : Option (Nat × Nat × Bool) :=
  let pa := entPa s.xl.at' + 16 * asid
  match walkRead s part pa, walkRead s part (pa + 8) with
  | some lo, some hi =>
    if lo.getLsbD 0 && nbits hi.toNat 2 62 = 0 && nbits lo.toNat 49 15 = 0 && nbits lo.toNat 2 14 = 0 then
      some (nbits hi.toNat 0 2, entPa lo, lo.getLsbD 1)
    else none
  | _, _ => none

/-- The ASID is live for the partition (R419, R45). -/
def asidLive (s : State) (part asid : Nat) : Bool :=
  aten s && match asidFresh s part asid with
    | some (p, _, _) => p = part
    | none => false

/-- The root and NOMOVE that a translation is made with: root * 2 + NOMOVE, none when the ASID is not live (R419). -/
def asidVia (s : State) (part asid : Nat) : Option Nat :=
  match asidFresh s part asid with
  | some (p, root, nomove) => if p = part then some (root * 2 + if nomove then 1 else 0) else none
  | none => none

/-- The entries that the walk of an address reads, as far as it comes: the ASID entry, then table entries (R418, R421). -/
def walkEntries (s : State) (part asid va : Nat) : List Nat :=
  (entPa s.xl.at' + 16 * asid) :: match asidFresh s part asid with
    | none => []
    | some (p, root, _) =>
      if !(p = part) then []
      else
        let p0 := root + 8 * nbits va 41 11
        p0 :: match walkRead s part p0 with
          | none => []
          | some e0 =>
            if !entV e0 || !entT e0 || !entOk e0 then []
            else
              let p1 := entPa e0 + 8 * nbits va 29 12
              p1 :: match walkRead s part p1 with
                | none => []
                | some e1 => if entV e1 && entOk e1 && entT e1 then [entPa e1 + 8 * nbits va 16 13] else []

/-- The lines that the walk of an address reads, as far as it comes (R418, R421). -/
def walkLines (s : State) (part asid va : Nat) : List Nat := (walkEntries s part asid va).map (· / 64)

/-- The poisoned entry that ends the walk of an address, if one does (class 14 of R430). -/
def walkPoison (s : State) (part asid va : Nat) : Option Nat :=
  if !aten s then none
  else match walkEntries s part asid va with
    | [] => none
    | a :: es =>
      if (List.range 4).any fun k => mhas s.mem.poison (a / 4 + k) then some a
      else es.find? fun e => mhas s.mem.poison (e / 4) || mhas s.mem.poison (e / 4 + 1)

/-- The walk of an address has to wait at a home of its tables (R129, R421, R431). -/
def walkWaits (s : State) (part asid va : Nat) : Bool := aten s && (walkLines s part asid va).any (lineStalls s)

/-- The read of an ASID entry has to wait at its home. -/
def asidWaits (s : State) (asid : Nat) : Bool := aten s && lineStalls s ((entPa s.xl.at' + 16 * asid) / 64)

/-- Leaf entry of an address by a fresh walk (R418): large page, leaf with NOMOVE applied. -/
def walk (s : State) (part asid va : Nat) : Option (Bool × DWord) :=
  if !aten s then none
  else match asidFresh s part asid with
    | none => none
    | some (p, root, nomove) =>
      if !(p = part) then none
      else match walkRead s part (root + 8 * nbits va 41 11) with
        | none => none
        | some e0 =>
          if !entV e0 || !entT e0 || !entOk e0 then none
          else match walkRead s part (entPa e0 + 8 * nbits va 29 12) with
            | none => none
            | some e1 =>
              if !entV e1 || !entOk e1 then none
              else if !entT e1 then (if nbits e1.toNat 16 13 = 0 then some (true, e1) else none)
              else match walkRead s part (entPa e1 + 8 * nbits va 16 13) with
                | none => none
                | some e2 =>
                  if !entV e2 || entT e2 || !entOk e2 then none
                  -- NOMOVE: a TIER 3 page acts as TIER 1
                  else some (false, if nomove && nbits e2.toNat 7 2 = 3 then e2 &&& ~~~0x100#64 else e2)

/-- Physical address of an address under a leaf (R418). -/
def leafPa (big : Bool) (leaf : DWord) (va : Nat) : Nat :=
  if big then nbits leaf.toNat 29 20 * 2 ^ 29 + va % 2 ^ 29 else entPa leaf + va % 65536

/-- Attributes of a leaf (R103, R149, R417). -/
def leafAttr (big : Bool) (leaf : DWord) : Attr :=
  let t := nbits leaf.toNat 7 2
  let rc := leaf.getLsbD 12
  { tier := if big && (t = 0 || t = 3) then 1 else if rc && t = 3 then 1 else t
    lease := if rc then 3 else nbits leaf.toNat 9 2
    nhc := rc || leaf.getLsbD 11
    rcell := rc }

/-- What an access needs of a page (R307, R190). -/
inductive Need where
  | read
  | write
  | both
  | exec
  deriving DecidableEq, Repr

/-- Permission check of a leaf (R418). -/
def permOk (leaf : DWord) (k : Need) (super : Bool) : Bool :=
  (super || leaf.getLsbD 5) &&
  match k with
  | .read => leaf.getLsbD 2
  | .write => leaf.getLsbD 3
  | .both => leaf.getLsbD 2 && leaf.getLsbD 3
  | .exec => leaf.getLsbD 4

/-- A leaf that translates the address for the partition (R418). -/
def leafOk (s : State) (part : Nat) (big : Bool) (leaf : DWord) (va : Nat) : Bool :=
  !(leaf.getLsbD 3 && !leaf.getLsbD 2) && backed s part (leafPa big leaf va)

/-- A cached translation covers the address (R422). -/
def TlbEnt.covers (e : TlbEnt) (asid va : Nat) : Bool :=
  e.asid = asid && (if e.big then va / 2 ^ 29 = e.vpn else va / 65536 = e.vpn)

/-- The cached translation of an address for a core (R423). [DESIGN CHOICE: log 66; DEDUCED: log 82] -/
def tlbFind (s : State) (core asid va : Nat) : Option TlbEnt :=
  match (coreOf s core).tlb.find? (fun e => e.covers asid va) with
  | some e => some e
  | none => (mgetD s.xl.dtlb (dieOf core) []).find? fun e => e.covers asid va

/-- The cached translation of an address in the caches of a die: compute die, or 4 + memory-side die (R423). -/
def dieFind (s : State) (die asid va : Nat) : Option TlbEnt := (mgetD s.xl.dtlb die []).find? fun e => e.covers asid va

/-- Outcome of a translation: a fault code (0x05 or 0x06), notNow, or address and attributes. -/
abbrev XRes := Except Nat (Nat × Attr)

/-- Judge a leaf. [DESIGN CHOICE: log 66] -/
def judge (s : State) (part : Nat) (k : Need) (super : Bool) (va : Nat) : Option (Bool × DWord) → XRes
  | none => .error 0x05
  | some (big, leaf) =>
    if !leafOk s part big leaf va then .error 0x05
    else if !permOk leaf k super then .error 0x06
    else .ok (leafPa big leaf va, leafAttr big leaf)

/-- Where the open choice between a cached entry and the tables is drawn: one for a page at an instant. [DESIGN CHOICE: log 66] -/
def xlatePick (s : State) (asid va : Nat) : Nat := 2 ^ 299 + s.time * 2 ^ 90 + asid * 2 ^ 60 + va / 65536

/-- Translate an address outside the windows with a cached entry, if there is one (R418, R420, R422). An entry that passes can
be used in place of the tables until a TLBI completes: which of two different answers is used, a fault included, is a free
choice. [DESIGN CHOICE: log 66] -/
def translateVia (s : State) (cached : Option TlbEnt) (part asid : Nat) (super : Bool) (k : Need) (va : Nat) : XRes :=
  if !aten s then .error 0x05
  else
    let fresh := if walkWaits s part asid va then .error notNow else judge s part k super va (walk s part asid va)
    match cached with
    | none => fresh
    | some e =>
      match judge s part k super va (some (e.big, e.leaf)) with
      | .error _ => fresh
      | .ok r => if Config.freeBit (xlatePick s asid va) then .ok r else fresh

/-- Translate an address outside the windows for a core (R418, R422). [DESIGN CHOICE: log 66] -/
def translate (s : State) (core part asid : Nat) (super : Bool) (k : Need) (va : Nat) : XRes :=
  translateVia s (tlbFind s core asid va) part asid super k va

/-- Keep a cache within its size, newest first (R423). [DESIGN CHOICE: log 66; DEDUCED: log 82] -/
def tlbPut (n : Nat) (e : TlbEnt) (l : List TlbEnt) : List TlbEnt :=
  (e :: l.filter fun o => !(o = e)).take n

/-- A walk brings the translation of an address: it is of its page, or has met a leaf of its 512 MiB page (R423). -/
def Walk.serves (w : Walk) (die asid va : Nat) : Bool :=
  w.die = die && w.asid = asid && (w.page = va / 65536 || match w.res with
    | some (big, _) => big && w.page / 8192 = va / 2 ^ 29
    | none => false)

/-- Start (or join) a walk on a die (a compute die, or 4 + memory-side die) for some cores or for an agent of the die (R423);
the number the requests wait on. [DEDUCED: log 10] -/
def walkOn (s : State) (die : Nat) (cores : List Nat) (part asid va : Nat) : State × Nat :=
  match s.xl.walks.find? fun w => w.serves die asid va with
  | some w =>
    (updXl s fun x => { x with walks := x.walks.map fun v =>
      if v.id = w.id then { v with cores := (v.cores ++ cores).eraseDups } else v }, w.id)
  | none =>
    let (id, s) := freshId s
    let (n, s) := freeN s
    let w : Walk := { id := id, die := die, asid := asid, page := va / 65536, res := walk s part asid va
                      via := (asidVia s part asid).getD 0
                      cores := cores, due := s.time + 1 + n }
    (updXl s fun x => { x with walks := x.walks ++ [w] }, id)

/-- Walks that a die runs at once: 32 on a compute die, 8 on a memory-side die (R423). -/
def walksAtOnce (die : Nat) : Nat := if die < 4 then 32 else 8

/-- The walks that run: on each die the oldest ones; later misses queue behind them (R423). -/
def walksRunning (s : State) : List Walk :=
  (s.xl.walks.map (·.die)).eraseDups.flatMap fun d => (s.xl.walks.filter fun w => w.die = d).take (walksAtOnce d)

/-! ## Windows (R99, R100, R63) -/

/-- Base of the scratch window. -/
def scrWin : Nat := 0xFFE0000000000
/-- Base of the lent window. -/
def lentWin : Nat := 0xFFE0001000000
/-- An address of the reserved range. -/
def inReserved (va : Nat) : Bool := decide (scrWin ≤ va) && decide (va < scrWin + 0x10000000000)
/-- Bytes of a scratchpad: 768 KiB. -/
def scrBytes : Nat := 0xC0000
/-- L1 bytes of a split code (R107). -/
def l1Bytes (k : Nat) : Nat := if k = 0 then 0 else if k = 1 then 0x10000 else if k = 2 then 0x20000 else 0x40000
/-- Scratch limit of a group (R107). -/
def slimit (g : Group) : Nat := scrBytes - l1Bytes g.l1
/-- Lent window bytes of a group (R63). -/
def lentBytes (g : Group) : Nat := g.lenders.length * scrBytes

/-- A scratch offset of n bytes as a place, none at or above the limit (R100). -/
def scrLoc (s : State) (core off n : Nat) : Option Loc :=
  if off + n ≤ slimit (grpOf s core) then some (.scr core off) else none

/-- A lent-window offset of n bytes as a place, none beyond the window (R63). -/
def lentLoc (s : State) (core off n : Nat) : Option Loc :=
  let g := grpOf s core
  if off + n ≤ lentBytes g then some (.scr (g.lenders.getD (off / scrBytes) 0) (off % scrBytes)) else none

end Sys2Proof.Machine
end

