-- ==== Sys2Proof/Machine/RegSpace.lean ====
section
/-! DEFINITION. The register space as the host and mapped pages read it: capability list (R399), queue control
(R395, R396), translation registers (R420), row-management, boost, port, tree, mailbox and telemetry pages (R384, R391,
R400, R402, R435, R446). The offsets of the pages are the model's choice (see the assumption log). -/

namespace Sys2Proof.Machine

/-- Logical cores of a partition as (valid, physical core). -/
def l2pOf (s : State) (p : Nat) : List (Bool × Nat) := mgetD s.xl.l2p p []

/-- The physical core of a logical core of a partition (R57). -/
def physOf (s : State) (p n : Nat) : Option Nat :=
  match (l2pOf s p)[n]? with
  | some (true, c) => some c
  | _ => none

/-- The logical number of a physical core in its partition (R57). -/
def logOf (s : State) (p c : Nat) : Nat := ((l2pOf s p).findIdx? fun e => e.2 = c).getD 0

/-- L2PDATA entry (R355). -/
def l2pWord (s : State) (p i : Nat) : Nat :=
  match (l2pOf s p)[i]? with
  | some (v, c) => (if v then 2 ^ 31 else 0) + dieOf c * 128 + c % 84
  | none => 0

/-- HMAP word i: die, map, half (R355). -/
def hmapWord (s : State) (i : Nat) : Nat :=
  let maps := if i % 4 / 2 = 0 then s.xl.good else s.xl.enabled
  let m := (maps.getD (i / 4) 0).toNat
  if i % 2 = 0 then m % 2 ^ 64 else m / 2 ^ 64

/-- A physical core is enabled (R355, R429). [DEDUCED: log 75] -/
def coreEnabled (s : State) (c : Nat) : Bool := (s.xl.enabled.getD (dieOf c) 0).getLsbD (c % 84)
/-- A quad has an enabled core. [DEDUCED: log 75] -/
def quadPresent (s : State) (q : Nat) : Bool := (coresOf q).any (coreEnabled s)

/-- ENGPROF of an engine by its retired slots (R160, R161). [DESIGN CHOICE: log 110] -/
def engProf (e : Eng) : Nat :=
  match e.retired with
  | [] => 0xF44A
  | [r] => r * 4096 + (if 6 ≤ r then 3 else 4) * 256 + (if r < 6 then 3 else 4) * 16 + 9
  | _ => 0

/-- Largest n of a group under the current profile: 0 full, 1 pair A, 2 pair B. -/
def profN (e : Eng) (g : Nat) : Nat :=
  let p := engProf e
  if g = 0 then nbits p 0 4 else if g = 1 then nbits p 4 4 else nbits p 8 4

/-- A queue (R395). -/
def queueOf (s : State) (q : Nat) : Queue := mgetD s.disp.queues q {}
/-- Change a queue. -/
def updQueue (s : State) (q : Nat) (f : Queue → Queue) : State := updDisp s fun d => { d with queues := mupd d.queues q {} f }
/-- EN, IRQ, DEVL, SUPER, PART, ASID and VEC of a queue (R395). -/
def Queue.en (q : Queue) : Bool := q.ctl.getLsbD 32
/-- IRQ. -/
def Queue.irq (q : Queue) : Bool := q.ctl.getLsbD 33
/-- DEVL. -/
def Queue.devl (q : Queue) : Bool := q.ctl.getLsbD 34
/-- SUPER. -/
def Queue.super (q : Queue) : Bool := q.ctl.getLsbD 35
/-- PART. -/
def Queue.part (q : Queue) : Nat := nbits q.ctl.toNat 36 2
/-- ASID. -/
def Queue.asid (q : Queue) : Nat := nbits q.ctl.toNat 38 10
/-- VEC. -/
def Queue.vec (q : Queue) : Nat := nbits q.ctl.toNat 0 16

/-- Pages of the capability records: kind and unit, in list order (R399). [DESIGN CHOICE: log 74] -/
def capList : List (Nat × Nat) :=
  [(1, 0)] ++ (List.range 8).map (fun d => (2, d)) ++ (List.range 4).map (fun d => (3, d)) ++
    (List.range 12).map (fun d => (4, d)) ++ [(5, 0), (6, 0), (7, 0)]

/-- Offset of the first record. -/
def capHead : Nat := 0x40
/-- Offset of the page of record i: queue control and translation registers for record 0 (R394, R395, R420), a register page for
each other one. [DESIGN CHOICE: log 74] -/
def capPage (i : Nat) : Nat := if i = 0 then 0x10000 else 0x1000000 + 0x10000 * i

/-- The eight-byte word at offset w of record i (R399). [DESIGN CHOICE: log 74] -/
def capWord (i w : Nat) : Nat :=
  let (id, unit) := capList.getD i (0, 0)
  if w = 0 then id + 0x0100 * 65536 + (if i + 1 < capList.length then capHead + 32 * (i + 1) else 0) * 2 ^ 32
  else if w = 8 then unit
  else if w = 16 then capPage i
  else regBase + capPage i

/-- HOTROW and HOTCNT of a bank: the largest counter, the lowest row on ties (R384). -/
def hotRow (b : Bank) : Nat × Nat :=
  b.cnt.foldl (fun (r : Nat × Nat) (c : Nat × Nat) => if r.2 < c.2 then c else r) (0xFFFF, 0)

/-- Row-management block of a memory-side die (R384). -/
def rowWord (s : State) (die off : Nat) : Nat :=
  if off = 0 then 32000 * 2 ^ 32 + 350 * 2 ^ 16 + mgetD s.hbm.thr die 1024
  else if off = 8 then nowNs s / 32000000
  else if off < 0x40 ∨ 0x8040 ≤ off then 0
  else
    let b := mgetD s.hbm.banks (die * 1024 + (off - 0x40) / 32) {}
    let h := hotRow b
    match (off - 0x40) % 32 with
    | 0 => b.rfmRows * 2 ^ 32 + b.alerts
    | 8 => b.backoff
    | 16 => h.1 * 2 ^ 32 + h.2
    | _ => b.lastRow * 2 ^ 32 + b.lastWin

/-- Boost block of a compute die (R391). -/
def boostWord (s : State) (die off : Nat) : Nat :=
  let d := mgetD s.dboost die {}
  if off = 0 then 4000 * 2 ^ 32 + 32000 * 2 ^ 16 + d.poolmax * 256 + ofSigned 8 d.pool
  else if off = 8 then d.refilled * 2 ^ 32 + d.charged
  else if off < 0x40 ∨ 0x190 ≤ off then 0
  else
    let q := mgetD s.qboost (die * 21 + (off - 0x40) / 16) {}
    if off % 16 = 0 then q.granted * 2 ^ 32 + q.descent else q.refused * 2 ^ 32 + q.clock

/-- UALink port page (R400). -/
def portWord (s : State) (p off : Nat) : Nat :=
  let r := mgetD s.link.ports p {}
  if off = 0 then (if r.en then 1 else 0)
  else if off = 8 then r.peer * 2 ^ 32 + r.errcnt * 256 + r.lanes * 16 + r.st
  else 0

/-- Reduction tree table (R402). -/
def treeWord (s : State) (off : Nat) : Nat :=
  if off < 1024 then
    let t := mgetD s.link.trees (off / 16) {}
    if off % 16 = 0 then t.lo.toNat else t.base.toNat
  else 0

/-- LOGPROD: the records whose stores, and those of all before them, are done (R437). [DEDUCED: log 52] -/
def logProd (s : State) : Nat :=
  s.fw.logprod - (s.fw.logStores.dropWhile fun n => !(s.mem.stores.any fun st => st.id = n && st.pending)).length

/-- Mailbox page (R435). -/
def mailWord (s : State) (off : Nat) : Nat :=
  let f := s.fw
  let im := f.image.getD {}
  if off = 0 then im.version * 2 ^ 32 + im.svn % 65536 * 2 ^ 16 + (if f.standby then 16 else 0) + f.st
  else if off = 0x10 then f.arg0.toNat
  else if off = 0x18 then f.arg1.toNat
  else if off = 0x20 then (if f.cmd.isSome then 256 else 0) + f.result
  else if off = 0x100 then f.logbase.toNat
  else if off = 0x108 then logProd s
  else if off = 0x110 then f.logcons.toNat
  else if off = 0x118 then f.loglost
  else if 0x200 ≤ off ∧ off < 0x240 then leNat ((((Config.idPub.take 60) ++ List.replicate 60 0).take 60 ++ List.replicate 8 0).drop (off - 0x200) |>.take 8)
  else 0

/-- Telemetry block (R446, R448). -/
def teleWord (s : State) (off : Nat) : Nat :=
  if off = 0 then 100000 * 2 ^ 32 + s.fw.seq
  else if off < 0x40 then 0
  else if off < 0xAC0 then
    let c := mgetD s.cols ((off - 0x40) / 8) {}
    c.pchk * 2 ^ 32 + (if c.ctfail then 2 ^ 18 else 0) + c.tstate * 2 ^ 16 + c.temp
  else if off < 0x1000 then
    let q := (off - 0xAC0) / 16
    let e := engOf s q
    if (off - 0xAC0) % 16 = 0 then e.corr * 2 ^ 32 + e.uncorr
    else e.reproofN * 2 ^ 48 + e.skew * 2 ^ 32 + (if quadPresent s q then engProf e else 0)
  else if off = 0x1000 then s.fw.einj.toNat
  else 0

/-- Translation registers page (R420). -/
def xlWord (s : State) (off : Nat) : Nat :=
  if off = 0x8000 then s.xl.at'.toNat
  else if off = 0x8008 then (if s.xl.tperr then 2 else 0) + (if s.xl.pcerr then 1 else 0)
  else if off = 0x8010 then s.xl.tpcfg.toNat
  else if 0x8020 ≤ off ∧ off < 0x8040 then (partWord s ((off - 0x8020) / 8)).toNat
  else if 0x8100 ≤ off ∧ off < 0x8180 then hmapWord s ((off - 0x8100) / 8)
  else if 0x8200 ≤ off ∧ off < 0x8200 + 4 * 0x600 then
    let p := (off - 0x8200) / 0x600
    let j := (off - 0x8200) % 0x600 / 4
    l2pWord s p j + 2 ^ 32 * l2pWord s p (j + 1)
  else 0

/-- The eight bytes of register space at an offset that is a multiple of 8. [DESIGN CHOICE: log 74] -/
def regWord (s : State) (off : Nat) : Nat :=
  if off = 0 then capHead
  else if capHead ≤ off ∧ off < capHead + 32 * capList.length then capWord ((off - capHead) / 32) ((off - capHead) % 32)
  else if 0x10000 ≤ off ∧ off < 0x11000 then
    let q := queueOf s ((off - 0x10000) / 64)
    match off % 64 with
    | 0 => q.ctl.toNat
    | 8 => (if q.cwfail then 2 ^ 18 else 0) + (if q.baddb then 2 ^ 17 else 0) + (if q.ovf then 2 ^ 16 else 0) + q.packets.length
    | 24 => q.cwaddr.toNat
    | _ => 0
  else if capPage 0 + 0x8000 ≤ off ∧ off < capPage 0 + 0x10000 then xlWord s (off - capPage 0)
  else if 0x100000 ≤ off ∧ off < 0x140000 then
    if off % 4096 = 8 then 256 - (queueOf s ((off - 0x100000) / 4096)).packets.length else 0
  else if capPage 1 ≤ off ∧ off < capPage 28 then
    let i := (off - 0x1000000) / 0x10000
    let o := off % 0x10000
    if i < 9 then rowWord s (i - 1) o
    else if i < 13 then boostWord s (i - 9) o
    else if i < 25 then portWord s (i - 13) o
    else if i = 25 then treeWord s o
    else if i = 26 then mailWord s o
    else teleWord s o
  else 0

/-- Bytes of register space from an offset. -/
def regBytesAt (s : State) (off n : Nat) : List Byte :=
  (List.range n).map fun i => BitVec.ofNat 8 (regWord s ((off + i) / 8 * 8) >>> (8 * ((off + i) % 8)))

/-- What a thread's load of a mapped register page returns: the translation registers are reached by the host driver
only (R420) and read 0 here. [DESIGN CHOICE: log 74] -/
def regLoad (s : State) (off n : Nat) : List Byte :=
  if off < capPage 1 then List.replicate n 0 else regBytesAt s off n

end Sys2Proof.Machine
end

