-- ==== Sys2Proof/Machine/MemOps.lean ====
section
/-! DEFINITION. Memory: what each agent sees of it (R127 to R133), the life of a store (R129, R130, R153), leases
(R128), poison of words (R228, R310), scratch (R100, R101, R120), reservations (R151), sleepers (R303), home caches and
banks (R379, R106). -/

namespace Sys2Proof.Machine

/-! ## Stores as agents see them -/

/-- The store writes this byte. -/
def Store.covers (st : Store) (pa : Nat) : Bool := decide (st.pa ≤ pa) && decide (pa < st.pa + st.bytes.length)
/-- In the die's L2 or on its way to the home: no Tw yet. -/
def Store.unaccepted (st : Store) : Bool := st.pending && !st.isAccepted
/-- A reader on a die sees the store before it is applied: its own store, or an EF store in the die's L2 (R127, R130). [DEDUCED: log 21] -/
def Store.seenBy (st : Store) (die : Nat) (who : Writer → Bool) : Bool :=
  st.pending && (who st.by' || (st.vis && decide (st.die = die)))

/-- The stores that are lane l of a thread's own. -/
def readerOf (c t l : Nat) : Writer → Bool := fun w => decide (w = .thread c t l)
/-- The stores that are a thread's own, whatever the lane. -/
def ownerOf (c t : Nat) : Writer → Bool := fun w =>
  match w with
  | .thread c' t' _ => decide (c' = c ∧ t' = t)
  | _ => false
/-- An agent without buffered stores of its own. -/
def nobody : Writer → Bool := fun _ => false

/-- The valid leased copy of a line on a die (R128). -/
def copyOf (s : State) (die line : Nat) : Option Copy :=
  s.mem.copies.find? fun c => c.die = die && c.line = line && decide (nowNs s + 8 < c.until')

/-- The latest store to a byte that a reader sees before it is applied. [DEDUCED: log 21] -/
def lastSeen (s : State) (die : Nat) (who : Writer → Bool) (pa : Nat) : Option Store :=
  (s.mem.stores.filter fun st => st.covers pa && st.seenBy die who).getLast?

/-- The value of a byte at the home. [DEDUCED: log 21] -/
def homeByte (s : State) (pa : Nat) : Byte :=
  match regionOf pa with
  | .reg off => (regLoad s off 1).headD 0
  | _ => bget s.mem.bytes pa

/-- A byte as a reader on a die sees it (R127, R128, R130). [DEDUCED: log 21] -/
def viewByte (s : State) (die : Nat) (who : Writer → Bool) (pa : Nat) : Byte :=
  match lastSeen s die who pa with
  | some st => (st.bytes.getD (pa - st.pa) (0, false)).1
  | none =>
    match copyOf s die (pa / 64) with
    | some c => c.bytes.getD (pa % 64) 0
    | none => homeByte s pa

/-- Poison of a 32-bit word after bytes are written over it: a poisoned byte poisons it, all four bytes unpoisoned
clear it, fewer leave it (R310). -/
def wordAfter (p : Bool) (lo : Nat) (bs : List (Byte × Bool)) (w : Nat) : Bool :=
  let idx := (List.range 4).filter fun k => decide (lo ≤ 4 * w + k) && decide (4 * w + k < lo + bs.length)
  if idx.any fun k => (bs.getD (4 * w + k - lo) (0, false)).2 then true
  else if idx.length = 4 then false
  else p

/-- Poison of the word that holds a byte, as a reader on a die sees it. [DESIGN CHOICE: log 109] -/
def viewPoison (s : State) (die : Nat) (who : Writer → Bool) (pa : Nat) : Bool :=
  let w := pa / 4
  let base := match copyOf s die (pa / 64) with
    | some c => c.poison.getLsbD (pa % 64 / 4)
    | none => mhas s.mem.poison w
  let seen := s.mem.stores.filter fun st => st.seenBy die who && decide (st.pa < 4 * w + 4) && decide (4 * w < st.pa + st.bytes.length)
  seen.foldl (fun p st => wordAfter p st.pa st.bytes w) base || mhas s.mem.efPoison (die * 2 ^ 43 + w)

/-- n bytes as a reader on a die sees them, and whether a word of them is poisoned (R309). [DEDUCED: log 21] -/
def viewBytes (s : State) (die : Nat) (who : Writer → Bool) (pa n : Nat) : List Byte × Bool :=
  ((List.range n).map fun i => viewByte s die who (pa + i), (List.range n).any fun i => viewPoison s die who (pa + i))

/-! ## What engines and fetches can fail to see (R138, R190) -/

/-- Key of a scratch granule of eight bytes. -/
def scrKey (k off : Nat) : Nat := 2 ^ 60 + k * 2 ^ 17 + off / 8

/-- How far a place lies behind the start of another, if it does in the same memory. -/
def locOffset : Loc → Loc → Option Nat
  | .scr k o, .scr k' o' => if k = k' ∧ o ≤ o' then some (o' - o) else none
  | .mem a, .mem a' => if a ≤ a' then some (a' - a) else none
  | _, _ => none

/-- Two places of n and k bytes share a byte. -/
def locMeets (a : Loc) (n : Nat) (b : Loc) (k : Nat) : Bool :=
  (match locOffset a b with
    | some d => decide (d < n)
    | none => false) || match locOffset b a with
    | some d => decide (d < k)
    | none => false

/-- A write of a thread or of the host to a place: what tagged work wrote over there is gone for every reader (R332).
[DEDUCED: log 94] -/
def forgetPast (s : State) (w : Writer) (loc : Loc) (n : Nat) : State :=
  match w with
  | .engine _ => s
  | _ => if s.cores.all fun (_, k) => k.past.isEmpty then s
    else { s with cores := s.cores.map fun (c, k) => (c, { k with past := k.past.filter fun p => !(locMeets p.loc p.old.length loc n) }) }

/-- Note what a store of a thread writes over, by granules of eight bytes; lo is its first byte, base the key of
granule 0 (R138). [DEDUCED: log 27] -/
def notePast (s : State) (w : Writer) (base lo : Nat) (old : List (Byte × Bool)) : State :=
  match w with
  | .thread c t l =>
    updMem s fun m =>
      { m with
        wasN := m.wasN + 1
        was := (List.range ((lo + old.length - 1) / 8 + 1 - lo / 8)).foldl (fun f k =>
          let g := lo / 8 + k
          let b := max lo (8 * g)
          mupd f (base + g) [] fun es =>
            { n := m.wasN, core := c, thr := t, lane := l, lo := b - 8 * g
              old := (old.drop (b - lo)).take (min (lo + old.length) (8 * g + 8) - b) } :: es) m.was }
  | _ => s

/-- Byte b of a granule for an engine task that sees every write below mark: of each other store whose writer has not
passed an engine fence it sees the old or the new bytes, the same in the whole granule (R138). [DEDUCED: log 27] -/
def seenIn (s : State) (mark id key b : Nat) (now : Byte × Bool) : List Was → Byte × Bool
  | [] => now
  | e :: es =>
    if decide (e.lo ≤ b) && decide (b < e.lo + e.old.length) then
      if e.sure || decide (e.n < mark) || Config.freeBit (openAt s 0 ((id * 2 ^ 40 + e.n) * 2 ^ 62 + key)) then now
      else seenIn s mark id key b (e.old.getD (b - e.lo) (0, false)) es
    else seenIn s mark id key b now es

/-- A byte as an engine task (mark, number) sees it, none for a reader that misses nothing. [DEDUCED: log 27] -/
def taskSees (s : State) (since : Option (Nat × Nat)) (key b : Nat) (now : Byte × Bool) : Byte × Bool :=
  match since with
  | none => now
  | some (mark, id) => seenIn s mark id key b now (mgetD s.mem.was key [])

/-- Lanes of a wattle have passed an engine fence: every engine sees their stores, and their own jobs see every store
before it (R137, R138). [DEDUCED: log 27] -/
def passEngineFence (s : State) (c t : Nat) (mask : BitVec 32) : State :=
  let fence (p : Nat × List Was) : Option (Nat × List Was) :=
    let es := p.2.map fun e => if e.core = c && e.thr = t && mask.getLsbD e.lane then { e with sure := true } else e
    if es.all (·.sure) then none else some (p.1, es)
  let s := updMem s fun m => { m with was := m.was.filterMap fence }
  updThr s c t fun h => (lanesOf mask).foldl (fun h l => updLane h l fun n => { n with fenced := s.mem.wasN }) h

/-- Writes before this number are seen by a task that the issuing lanes start (R138). [DEDUCED: log 27] -/
def taskMark (s : State) : Nat :=
  match (lanesOf s.cur.mask).map fun l => (laneOf (curThr s) l).fenced with
  | [] => 0
  | n :: ns => ns.foldl min n

/-- Note the code words that a write at the home replaces while a grid is in being, or a packet waits (R190). [DEDUCED: log 67] -/
def noteCode (s : State) (pa n : Nat) : State :=
  if s.disp.grids.isEmpty && s.disp.queues.all (fun (_, r) => r.packets.isEmpty) then s
  else updMem s fun m =>
    { m with
      wasN := m.wasN + 1
      code := (List.range ((pa + n - 1) / 4 + 1 - pa / 4)).foldl (fun f k =>
        let w := pa / 4 + k
        mupd f w [] fun l => (m.wasN, bgetN m.bytes (4 * w) 4) :: l) m.code }

/-- A byte of code: its word is the current one, or one that it held since the packet of the group's grid entered its
queue (R190). [DEDUCED: log 67] -/
def codeByte (s : State) (c pa : Nat) : Byte :=
  let now := viewByte s (dieOf c) nobody pa
  match mget s.disp.grids (grpOf s c).grid with
  | none => now
  | some g =>
    let w := pa / 4
    let home := (List.range 4).map fun k => homeByte s (4 * w + k)
    let view := (List.range 4).map fun k => viewByte s (dieOf c) nobody (4 * w + k)
    let older := (if home = view then [] else [home]) ++
      ((mgetD s.mem.code w []).filter fun p => decide (g.mark ≤ p.1)).map (·.2)
    match older with
    | [] => now
    | _ => (((view :: older)[Config.freeNat (openAt s 1 (w * 512 + c)) % (older.length + 1)]?).getD view).getD (pa % 4) 0

/-- A read can be performed now: a read that reaches the home while an accepted store is pending waits (R129). -/
def viewReady (s : State) (die : Nat) (who : Writer → Bool) (pa n : Nat) : Bool :=
  (List.range n).all fun i =>
    (lastSeen s die who (pa + i)).isSome || (copyOf s die ((pa + i) / 64)).isSome ||
      (!lineBusy s ((pa + i) / 64) && !homeDown s (pa + i))

/-- A thread's reads of early forwarded values raise its horizon to their Tw, once known (R133). -/
def noteReaders (s : State) (c t l pa n : Nat) : State :=
  let hit (st : Store) : Bool :=
    st.ef && st.vis && st.pending && st.die = dieOf c && !(decide (st.by' = .thread c t l)) &&
      (List.range n).any (fun i => st.covers (pa + i)) && !(st.readers.contains (c, t, l))
  updMem s fun m =>
    { m with
      stores := m.stores.map fun st => if hit st then { st with readers := (c, t, l) :: st.readers } else st }

/-- Raise the horizon of a lane (R129). -/
def raiseHc (s : State) (c t l tw : Nat) : State :=
  if mhas s.thrs (tkey c t) then updThr s c t fun h => updLane h l fun n => { n with hc := max n.hc tw } else s

/-- A read of an EF store already accepted raises the horizon at once. -/
def raiseSeen (s : State) (c t l pa n : Nat) : State :=
  (s.mem.stores.filter fun st => st.ef && st.vis && st.die = dieOf c && (List.range n).any (fun i => st.covers (pa + i))).foldl
    (fun s st => match st.st with
      | .accepted tw => raiseHc s c t l tw
      | _ => s) s

/-! ## Leases (R128) -/

/-- Lease length in ns; 0 for no caching. -/
def leaseNs (a : Attr) : Nat := if a.lease = 0 then 250 else if a.lease = 1 then 1000 else if a.lease = 2 then 4000 else 0

/-- The line can be cached under a lease on the die. -/
def leasable (s : State) (die pa : Nat) (a : Attr) : Bool :=
  decide (0 < leaseNs a) && !homeIs s pa die && !(regionOf pa = .none) &&
    match regionOf pa with
    | .reg _ => false
    | _ => true

/-- Lines of a die's L2: 64 MiB (R2). -/
def l2Lines : Nat := 2 ^ 20

/-- Leased copies of a die whose L2 is full make room for one more: the oldest goes (R2). [DESIGN CHOICE: log 64] -/
def l2Room (die : Nat) (cs : List Copy) : List Copy :=
  if (cs.filter fun o => o.die = die).length < l2Lines then cs
  else match cs.find? fun o => o.die = die with
    | some o => cs.erase o
    | none => cs

/-- The home grants a lease for a line that the die fills. -/
def grantLease (s : State) (die pa : Nat) (a : Attr) : State :=
  let line := pa / 64
  -- a line with an accepted store still to be applied gets no lease (R129)
  if !leasable s die pa a || (copyOf s die line).isSome || lineBusy s line then s
  else
    let e := nowNs s + leaseNs a
    let c : Copy := { die := die, line := line, until' := e
                      bytes := (List.range 64).map fun i => homeByte s (64 * line + i)
                      poison := (List.range 16).foldl (fun (p : BitVec 16) k =>
                        if mhas s.mem.poison (16 * line + k) then p ||| (1#16 <<< k) else p) 0 }
    updMem s fun m => { m with copies := l2Room die (m.copies.filter fun o => !(o.die = die && o.line = line)) ++ [c]
                               leaseEnd := mupd m.leaseEnd line 0 (max e) }

/-- Drop a leased copy, with the marks of lost early-forwarded values in it (R145). [DESIGN CHOICE: log 109] -/
def dropCopy (s : State) (die line : Nat) : State :=
  updMem s fun m =>
    { m with copies := m.copies.filter fun o => !(o.die = die && o.line = line)
             efPoison := m.efPoison.filter fun (k, _) => !(k / 2 ^ 43 = die && k % 2 ^ 43 / 16 = line) }

/-! ## Reservations (R151) -/

/-- A write to a granule breaks the reservations held at a place: any, or only in the L2 of one die. [DEDUCED: log 23] -/
def breakResv (s : State) (p : Resv → Bool) (gran : Nat) : State :=
  updMem s fun m => { m with resvs := m.resvs.filter fun r => !(p r && r.gran = gran) }

/-- Reservations of a thread are dropped (pre-emption, trap, fault), those of its LRs under way too. [DEDUCED: log 23] -/
def dropResvs (s : State) (c t : Nat) : State :=
  updMem s fun m =>
    { m with
      resvs := m.resvs.filter fun r => !(r.core = c && r.thr = t)
      fills := m.fills.map fun f => if f.core = c && f.thr = t then { f with noResv := true } else f }

/-- Place and unit of a reservation: scratch port, L2 of the die, or hearth (R146, R151). -/
def resvPlace (s : State) (c : Nat) (loc : Loc) (scope : Nat) : Nat × Nat × Nat :=
  match loc with
  | .scr k off => (0, k, off / 64)
  | .mem pa =>
    if scope ≤ 1 then (1, dieOf c, pa / 64)
    else (2, (match homeOf s pa with
      | .mdie d => d
      | .cdie d _ => 8 + d
      | _ => 0), pa / 64)

/-- Set the lane's one reservation; the oldest of a full table is dropped. -/
def setResv (s : State) (c t l : Nat) (loc : Loc) (scope : Nat) : State :=
  let (place, unit, gran) := resvPlace s c loc scope
  let cap := if place = 1 then 1024 else if place = 2 then 4096 else 1024
  let r : Resv := { core := c, thr := t, lane := l, place := place, unit := unit, gran := gran, until' := nowNs s + 2000 }
  updMem s fun m =>
    let rest := m.resvs.filter fun o => !(o.core = c && o.thr = t && o.lane = l)
    let mine := rest.filter fun o => o.place = place && o.unit = unit
    let rest := if 0 < place ∧ cap ≤ mine.length then
        match mine with
        | o :: _ => rest.erase o
        | [] => rest
      else rest
    { m with resvs := rest ++ [r] }

/-- The lane's reservation is intact for an access. [DEDUCED: log 23] -/
def resvIntact (s : State) (c t l : Nat) (loc : Loc) (scope : Nat) : Bool :=
  let (_, _, gran) := resvPlace s c loc scope
  s.mem.resvs.any fun r => r.core = c && r.thr = t && r.lane = l && r.gran = gran &&
    (match loc with
      | .scr k _ => r.place = 0 && r.unit = k
      | .mem _ => decide (0 < r.place)) && decide (nowNs s < r.until')

/-- Clear the lane's reservation. [DEDUCED: log 23] -/
def clearResv (s : State) (c t l : Nat) : State :=
  updMem s fun m => { m with resvs := m.resvs.filter fun r => !(r.core = c && r.thr = t && r.lane = l) }

/-! ## Sleepers (R303) -/

/-- The granule of a place. -/
def granOf : Loc → Loc
  | .scr k off => .scr k (off / 64)
  | .mem pa => .mem (pa / 64)

/-- A write to a granule by an agent becomes visible: threads that sleep on it, on the dies named, are woken. -/
def wakeSleepers (s : State) (p : Nat → Bool) (gran : Loc) (by' : Writer) : State :=
  { s with thrs := s.thrs.map fun (k, h) =>
      match h.hold with
      | some o =>
        match o.why with
        | .sleep loc l _ =>
          if p (k / 32) && granOf loc = gran && !(decide (by' = .thread (k / 32) (k % 32) l)) then
            (k, { h with hold := some { o with woken := true } })
          else (k, h)
        | _ => (k, h)
      | none => (k, h) }

/-! ## Home caches and banks -/

/-- Idle time before sleep that stands after reset: 50 us (R105, R443). -/
def bankIdle0 : Nat := 50000

/-- A vault bank; one that no access has reached since reset has been idle since then (R105). -/
def vbankOf (s : State) (b : Nat) : VBank := mgetD s.hbm.vbanks b { idle := bankIdle0, asleep := decide (bankIdle0 ≤ nowNs s) }
/-- Change a vault bank. -/
def updVbank (s : State) (b : Nat) (f : VBank → VBank) : State :=
  updHbm s fun h => { h with vbanks := mset h.vbanks b (f (vbankOf s b)) }

/-- Change a counter of the core of an access; other agents have none. -/
def countCore (s : State) (c : Nat) (f : Core → Core) : State := if c < 336 then updCore s c f else s

/-- A vault access of a core: at once when the bank is awake, else held or NACKed (R106). [DEDUCED: log 65] -/
def touchVault (s : State) (core v off : Nat) : State × List Nat :=
  let b := v * 72 + off / 262144
  let k := vbankOf s b
  let mine := s.mem.reqs.any fun r => r.vault && r.bank = b && r.core = core && !r.held
  if !k.asleep && k.wakeAt = none && !mine then (updVbank s b fun k => { k with last := nowNs s, idle := policy s 0x16 }, [])
  else
    let held := (s.mem.reqs.filter fun r => r.vault && r.die = v && r.held).length
    let (id, s) := freshId s
    let now := nowNs s
    let s := if k.asleep then updVbank s b fun k =>
        { k with asleep := false, wakeAt := some (now + 120), last := now, idle := policy s 0x16 } else s
    let r : BankReq := { id := id, vault := true, die := v, bank := b, row := 0, core := core, t := now }
    if mine then (updMem s fun m => { m with reqs := m.reqs ++ [r] }, [id])
    else if held < 16 then
      (countCore (updMem s fun m => { m with reqs := m.reqs ++ [{ r with held := true }] }) core
        fun c => { c with wakeHold := (c.wakeHold + 1) % 2 ^ 64 }, [id])
    else
      (countCore (updMem s fun m => { m with reqs := m.reqs ++ [{ r with replay := some (now + 128) }] }) core
        fun c => { c with wakeReplay := (c.wakeReplay + 1) % 2 ^ 64 }, [id])

/-- A request of a core reaches the HBM4E bank of an address (R379): its number, none when there is no such bank. -/
def bankReq (s : State) (core pa : Nat) : State × List Nat :=
  match hbmPlace s pa with
  | none => (s, [])
  | some (die, bank, row) =>
    let (id, s) := freshId s
    (updMem s fun m => { m with reqs := m.reqs ++
      [{ id := id, vault := false, die := die, bank := bank, row := row, core := core, t := nowNs s }] }, [id])

/-- Requesters that are no core, each with a number of its own (R106): the host, home caches that evict, the dispatcher, the
fabric, the walkers of a die, the block-transfer engine of a memory-side die. [DEDUCED: log 65] -/
def hostReq : Nat := 336
/-- Home caches that evict. [DEDUCED: log 65] -/
def evictReq : Nat := 337
/-- The dispatcher. [DEDUCED: log 65] -/
def dispReq : Nat := 338
/-- The fabric. [DEDUCED: log 65] -/
def fabricReq : Nat := 339
/-- The walkers of a compute die, or of 4 + a memory-side die. [DEDUCED: log 65] -/
def walkReq (die : Nat) : Nat := 340 + die
/-- The block-transfer engine of a memory-side die. -/
def bteReq (die : Nat) : Nat := 352 + die

/-- The home cache loses a line; a dirty one reaches the bank once, when it is written back (R379). -/
def evictHome (s : State) (line : Nat) : State :=
  let dirty := mget s.mem.hcache line = some true
  let s := updMem s fun m => { m with hcache := mdel m.hcache line }
  if dirty then (bankReq s evictReq (64 * line)).1 else s

/-- Lines of the home cache slice of a memory-side die: 32 MiB (R2, R379). -/
def sliceLines : Nat := 2 ^ 19

/-- A full home cache slice makes room for one more line: an open choice of its own (R2, R379). [DESIGN CHOICE: log 64] -/
def sliceRoom (s : State) (die : Nat) : State :=
  let mine := (s.mem.hcache.map (·.1)).filter fun l => (hbmPlace s (64 * l)).any fun p => p.1 = die
  if mine.length < sliceLines then s
  else evictHome s (mine.getD (Config.freeNat (openAt s 10 die) % mine.length) 0)

/-- An access to an HBM4E line: through the home cache, whose resident lines it does not pass (R379), or to the bank on every
access for NHC pages. [DESIGN CHOICE: log 64] -/
def touchHbm (s : State) (core pa : Nat) (nhc wr : Bool) : State × List Nat :=
  let line := pa / 64
  if nhc then bankReq s core pa
  else match mget s.mem.hcache line with
    | some d => (updMem s fun m => { m with hcache := mset m.hcache line (d || wr) }, [])
    | none =>
      let (s, ids) := bankReq (match hbmPlace s pa with
        | some (die, _, _) => sliceRoom s die
        | none => s) core pa
      (updMem s fun m => { m with hcache := mset m.hcache line wr }, ids)

/-- An access that reaches the home: the bank requests it waits on. -/
def touchHome (s : State) (core pa : Nat) (nhc wr : Bool) : State × List Nat :=
  match homeOf s pa with
  | .mdie _ => touchHbm s core pa nhc wr
  | .cdie _ v => match regionOf pa with
    | .vault _ off => touchVault s core v off
    | _ => touchVault s core v (mgetD s.xl.inVault (pa / 65536) 0 % 288 * 65536 + pa % 65536)
  | _ => (s, [])

/-- Reads of some bytes reach the home, one access a line that no leased copy of the die serves: the bank requests they wait
on (R105, R106, R379). -/
def touchRange (s : State) (core die pa n : Nat) (nhc : Bool) : State × List Nat :=
  ((List.range ((pa + n - 1) / 64 + 1 - pa / 64)).map (pa / 64 + ·)).foldl (fun (r : State × List Nat) l =>
    if (copyOf r.1 die l).isSome then r
    else
      let (s, ids) := touchHome r.1 core (64 * l) nhc false
      (s, r.2 ++ ids)) (s, [])

/-- A walk that starts reads its tables at their homes, and waits for their banks (R105, R106, R379, R421). [DEDUCED: log 87] -/
def walkFrom (s : State) (die : Nat) (cores : List Nat) (part asid va : Nat) : State × Nat :=
  let (t, id) := walkOn s die cores part asid va
  if t.xl.walks.length = s.xl.walks.length then (t, id)
  else
    let (t, ids) := (walkLines s part asid va).foldl (fun (r : State × List Nat) l =>
      let (t, new) := touchHome r.1 (walkReq die) (64 * l) false false
      (t, r.2 ++ new)) (t, [])
    (updXl t fun x => { x with walks := x.walks.map fun w => if w.id = id then { w with waits := ids } else w }, id)

/-- Start (or join) the walk of an address that no cache of a core holds (R423). [DEDUCED: log 10] -/
def startWalk (s : State) (core part asid va : Nat) : State × Option Nat :=
  match tlbFind s core asid va with
  | some _ => (s, none)
  | none => let (t, id) := walkFrom s (dieOf core) [core] part asid va; (t, some id)

/-! ## Home writes -/

/-- Poison of the home words after bytes are written (R310). -/
def poisonAfter (p : FMap Unit) (pa : Nat) (bs : List (Byte × Bool)) : FMap Unit :=
  (List.range ((pa + bs.length - 1) / 4 + 1 - pa / 4)).foldl
    (fun p k => mflag p (pa / 4 + k) (wordAfter (mhas p (pa / 4 + k)) pa bs (pa / 4 + k))) p

/-- Write bytes at the home; in the register space nothing is written (R384). -/
def homeWrite (s : State) (pa : Nat) (bs : List (Byte × Bool)) : State :=
  match regionOf pa with
  | .reg _ => s
  | _ => updMem s fun m => { m with bytes := bsetL m.bytes pa (bs.map (·.1)), poison := poisonAfter m.poison pa bs }

/-- A page move stalls writes to the page (R104). -/
def moving (s : State) (pa : Nat) : Bool := s.xl.moves.any fun v => v.page = pa / 65536

/-- The write completion time a store accepted now takes (R129). -/
def twFor (s : State) (line : Nat) : Nat :=
  max (nowNs s) (max (mgetD s.mem.leaseEnd line 0) (mgetD s.mem.lastTw line 0))

/-- Change a store by number. -/
def updStore (s : State) (id : Nat) (f : Store → Store) : State :=
  updMem s fun m => { m with stores := m.stores.map fun st => if st.id = id then f st else st }

/-- A store by number. -/
def storeOf (s : State) (id : Nat) : Option Store := s.mem.stores.find? fun st => st.id = id

/-- The home accepts a store: Tw, horizons, reservations (R129, R131, R133). [DEDUCED: log 21] -/
def acceptStore (s : State) (st : Store) : State :=
  let tw := twFor s st.line
  let (q, s) := freshId s
  let s := updStore s st.id fun o => { o with st := .accepted tw, seq := q, stalled := none }
  let s := updMem s fun m => { m with lastTw := mset m.lastTw st.line tw }
  let s := breakResv s (fun r => decide (0 < r.place)) st.line
  let s := match st.by' with
    | .thread c t l => raiseHc s c t l tw
    | _ => s
  st.readers.foldl (fun s (c, t, l) => raiseHc s c t l tw) s

/-- A store may be accepted: earlier stores of its die to the line come first, and no page move stalls it. -/
def acceptable (s : State) (st : Store) : Bool :=
  !moving s st.pa && !homeDown s st.pa &&
    ((s.mem.stores.takeWhile fun o => !(o.id = st.id)).all fun o => !(o.unaccepted && o.die = st.die && o.line = st.line))

/-- A store comes from a die: from its L2, or by a thread of it, performed at a hearth or a home (R130). -/
def Store.byDie (st : Store) (die : Nat) : Bool :=
  st.die = die || (st.die = 4 && match st.by' with
    | .thread c _ _ => dieOf c = die
    | _ => false)

/-- A GA store of a die to a line, or an atomic on its way to the hearth, numbered below n is still pending (R130, R132). -/
def gaBefore (s : State) (die line n : Nat) : Bool :=
  (s.mem.stores.any fun st => !st.ef && st.byDie die && st.line = line && st.pending && decide (st.id < n)) ||
    s.mem.atoms.any fun a => dieOf a.core = die && a.tw.isNone && decide (a.id < n) && match a.acc.loc with
      | .mem pa => pa / 64 = line
      | .scr _ _ => false

/-- EF stores held back by a GA store of the die to the line become visible when none is pending before them (R132); threads of
the die that sleep on the line are woken then (R303). -/
def refreshVis (s : State) (die line : Nat) : State :=
  let free (st : Store) : Bool := st.ef && !st.vis && st.die = die && st.line = line && st.pending && !gaBefore s die line st.id
  let new := (s.mem.stores.filter free).map (·.by')
  new.foldl (fun s w => wakeSleepers s (fun c => dieOf c = die) (.mem line) w)
    (updMem s fun m => { m with stores := m.stores.map fun st => if free st then { st with vis := true } else st })

/-- An access to a TIER 3 page counts towards HOTTHR, by intervals of 64 us (R427). [DESIGN CHOICE: log 63] -/
def countHeat (s : State) (a : Attr) (pa : Nat) : State :=
  if a.tier = 3 then updXl s fun x =>
    let (w, n) := mgetD x.heat (pa / 65536) (0, 0)
    { x with heat := mset x.heat (pa / 65536) (nowNs s / 64000, if w = nowNs s / 64000 then n + 1 else 1) }
  else s

/-- A page that is used as reduction cells is noted (R149, R431). [DEDUCED: log 82] -/
def noteCell (s : State) (a : Attr) (pa : Nat) : State :=
  if a.rcell then updMem s fun m => { m with cells := mset m.cells (pa / 65536) () } else s

/-- A write to a page that moves stalls from now on (R104). -/
def stallFrom (s : State) (pa : Nat) : Option Nat := if moving s pa then some (nowNs s) else none

/-- A store enters the memory system (R129, R130, R153). A store to the register space completes and writes nothing. [DESIGN CHOICE: log 101] -/
def postStore (s : State) (w : Writer) (die asid va pa : Nat) (bs : List (Byte × Bool)) (ef : Bool) (a : Attr) : State :=
  match regionOf pa with
  | .reg _ => s
  | _ =>
    let own := die = 4 || homeIs s pa die
    let s := forgetPast s w (.mem pa) bs.length
    let s := notePast s w 0 pa ((List.range bs.length).map fun i => (viewByte s die nobody (pa + i), viewPoison s die nobody (pa + i)))
    let (id, s) := freshId s
    let st : Store := { id := id, by' := w, die := die, asid := asid, va := va, pa := pa, bytes := bs
                        ef := ef && !own, t := nowNs s, attr := a, stalled := if own then stallFrom s pa else none }
    let s := updMem s fun m => { m with stores := m.stores ++ [st] }
    let s := breakResv s (fun r => r.place = 1 && r.unit = die) (pa / 64)
    if own then (if acceptable s st then acceptStore s st else s)
    else
      refreshVis s die (pa / 64)

/-- A write of an engine, a BTE or the host past the L2: accepted at the home at once unless a move stalls it (R138). [DEDUCED: log 27] -/
def postHome (s : State) (w : Writer) (asid va pa : Nat) (bs : List (Byte × Bool)) (a : Attr) : State :=
  postStore s w 4 asid va pa bs false a

/-- The sixteen words of a line are poisoned at the home (R145). -/
def poisonHomeLine (s : State) (line : Nat) : State :=
  updMem s fun m => { m with poison := (List.range 16).foldl (fun p k => mset p (16 * line + k) ()) m.poison }

/-- The home applies an accepted store at its Tw; waiting agents see it (R129). [DEDUCED: log 21] -/
def applyStore (s : State) (st : Store) (tw : Nat) : State :=
  let core := match st.by' with
    | .thread c _ _ => c
    | .engine c => c
    | .host => 336
  let s := noteCell (homeWrite (noteCode s st.pa st.bytes.length) st.pa st.bytes) st.attr st.pa
  let s := if st.cut then poisonHomeLine s st.line else s
  let s := (touchHome (countHeat s st.attr st.pa) core st.pa st.attr.nhc true).1
  let s := updStore s st.id fun o => { o with st := .applied tw }
  let s := refreshVis s (match st.by' with
    | .thread c _ _ => dieOf c
    | _ => st.die) st.line
  -- a store already visible on the writer's die wakes nobody there a second time (R303)
  wakeSleepers s (fun c => !(st.vis && dieOf c = st.die)) (.mem st.line) st.by'

/-- A store may be applied now: its Tw has come and no store accepted before it to the line is pending. -/
def applicable (s : State) (st : Store) : Bool :=
  match st.st with
  | .accepted tw => decide (tw ≤ nowNs s) &&
      s.mem.stores.all fun o => !(o.isAccepted && o.line = st.line && decide (o.seq < st.seq))
  | _ => false

/-! ## Write-back (R153, R154) -/

/-- Start the write-back of every buffered store of a line on a die; the bytes whose page lost its write permission
are discarded and recorded for their thread. -/
def writeBackLine (s : State) (die line : Nat) : State :=
  let hit (st : Store) : Bool := st.die = die && st.line = line && decide (st.st = .buffered)
  let lost := s.mem.stores.filter fun st => hit st && st.revoked
  let s := updMem s fun m =>
    { m with
      stores := (m.stores.filter fun st => !(hit st && st.revoked)).map fun st =>
        if hit st then { st with st := .leaving, stalled := stallFrom s st.pa } else st }
  lost.foldl (fun s st => match st.by' with
    | .thread c t l => if mhas s.thrs (tkey c t) then updThr s c t fun h =>
        { h with late := h.late ++ [{ ack := false, lane := l, va := st.va }] } else s
    | _ => s) s

/-- Start the write-back of a thread's buffered stores (R135, R137). [DEDUCED: log 58] -/
def writeBackThread (s : State) (c t : Nat) (mask : BitVec 32) : State :=
  let mine := s.mem.stores.filter fun st => st.st = .buffered && match st.by' with
    | .thread c' t' l => c' = c && t' = t && mask.getLsbD l
    | _ => false
  mine.foldl (fun s st => writeBackLine s st.die st.line) s

/-- The stores of lanes of a thread that are not yet acknowledged. -/
def ownStores (s : State) (c t : Nat) (mask : BitVec 32) : List Store :=
  s.mem.stores.filter fun st => match st.by' with
    | .thread c' t' l => c' = c && t' = t && mask.getLsbD l
    | _ => false

/-! ## Scratch (R100, R101, R120) -/

/-- Bytes of a scratchpad and whether a word of them is poisoned. -/
def scrRead (s : State) (k off n : Nat) : List Byte × Bool :=
  let c := coreOf s k
  (bgetN c.scr off n, (List.range n).any fun i => mhas c.scrP ((off + i) / 4))

/-- Block number of a scratch byte in section 5 of the group of a core (R411): own scratch, then the lent window. -/
def blockNo (s : State) (core k off : Nat) : Nat :=
  if k = core then off / 4096
  else 192 * (1 + ((grpOf s core).lenders.findIdx? (· = k)).getD 0) + off / 4096

/-- Write scratch bytes: poison as in memory, reservations of the port, sleepers, and the block's checkpoint mark. -/
def scrWrite (s : State) (core k off : Nat) (bs : List (Byte × Bool)) (by' : Writer) : State :=
  let s := forgetPast s by' (.scr k off) bs.length
  let s := notePast s by' (scrKey k 0) off ((List.range bs.length).map fun i => let r := scrRead s k (off + i) 1; (r.1.headD 0, r.2))
  let s := updCore s k fun c => { c with scr := bsetL c.scr off (bs.map (·.1)), scrP := poisonAfter c.scrP off bs }
  let b0 := blockNo s core k off
  let s := updGrp s core fun g => { g with scrDirty := if g.scrDirty.contains b0 then g.scrDirty else b0 :: g.scrDirty }
  let s := breakResv s (fun r => r.place = 0 && r.unit = k) (off / 64)
  wakeSleepers s (fun _ => true) (.scr k (off / 64)) by'

/-- A range of scratch overlaps a live barrier object (R120). [DEDUCED: log 42] -/
def overBarrier (s : State) (k off n : Nat) : Bool :=
  (List.range ((off + n - 1) / 16 + 1 - off / 16)).any fun i => mhas (coreOf s k).scrT (off / 16 + i)

/-- A place overlaps a live barrier object. -/
def locBarrier (s : State) (loc : Loc) (n : Nat) : Bool :=
  match loc with
  | .scr k off => overBarrier s k off n
  | .mem _ => false

/-- What tagged work of a core writes over is noted for the threads that have not observed its tag (R332); the tag none for other
work. -/
def notePastTag (s : State) (c : Nat) (tag : Option Nat) (loc : Loc) (n : Nat) : State :=
  match tag with
  | none => s
  | some t =>
    let old := match loc with
      | .scr k off => (List.range n).map fun i => let r := scrRead s k (off + i) 1; (r.1.headD 0, r.2)
      | .mem pa => (List.range n).map fun i => (viewByte s (dieOf c) nobody (pa + i), viewPoison s (dieOf c) nobody (pa + i))
    let (id, s) := freshId s
    updCore s c fun k => { k with past := { tag := t, loc := loc, old := old, id := id } :: k.past }

/-- The place moved on. -/
def Loc.plus : Loc → Nat → Loc
  | .scr k o, n => .scr k (o + n)
  | .mem a, n => .mem (a + n)

/-- A byte as a thread reads it: of tagged work whose tag it has not observed done it sees the new or the old one (R332).
[DESIGN CHOICE: log 88] -/
def pastSees (s : State) (c t : Nat) (loc : Loc) (now : Byte × Bool) : Byte × Bool :=
  match (coreOf s c).past.find? fun p => locMeets p.loc p.old.length loc 1 with
  | none => now
  | some p =>
    let k := (locOffset p.loc loc).getD 0
    if p.seen.contains t || Config.freeBit (openAt s 11 (p.id * 2 ^ 40 + k)) then now else p.old.getD k now

/-- Bytes a thread loads, with what it may not have seen yet (R332): poisoned when a byte of them is. [DESIGN CHOICE: log 88] -/
def pastBytes (s : State) (c t : Nat) (loc : Loc) (r : List Byte × Bool) : List Byte × Bool :=
  if (coreOf s c).past.isEmpty then r
  else
    let bs := r.1.zipIdx.map fun (b, k) => pastSees s c t (loc.plus k) (b, r.2)
    (bs.map (·.1), bs.any (·.2))

/-- A thread has observed tags done: it sees every write of the work behind them (R332). -/
def observe (s : State) (c t : Nat) (tags : List Nat) : State :=
  if (coreOf s c).past.isEmpty then s
  else updCore s c fun k => { k with past := k.past.map fun p => if tags.contains p.tag then { p with seen := t :: p.seen } else p }

/-- Read a place for a lane of a thread. -/
def readLoc (s : State) (c t l : Nat) (loc : Loc) (n : Nat) : List Byte × Bool :=
  match loc with
  | .scr k off => scrRead s k off n
  | .mem pa => viewBytes s (dieOf c) (readerOf c t l) pa n

/-- A read of a place can be performed now. -/
def locReady (s : State) (c t l : Nat) (loc : Loc) (n : Nat) : Bool :=
  match loc with
  | .scr _ _ => true
  | .mem pa => viewReady s (dieOf c) (readerOf c t l) pa n

/-! ## Read-modify-write (R313, R315) -/

/-- New value of an atomic operation of w bits. -/
def rmwNew (r : Rmw) (old : DWord) : DWord :=
  let w := if r.wide then 64 else 32
  let o := old.toNat % 2 ^ w
  let b := r.b.toNat % 2 ^ w
  let si := toSigned w o
  let sb := toSigned w b
  let v : Nat := match r.op with
    | 0 => o + b
    | 1 => if si ≤ sb then o else b
    | 2 => if si ≤ sb then b else o
    | 3 => min o b
    | 4 => max o b
    | 5 => Nat.land o b
    | 6 => Nat.lor o b
    | 7 => Nat.xor o b
    | 8 => b
    | 9 => if o = r.cmp.toNat % 2 ^ w then b else o
    | 10 => if b ≤ o then 0 else o + 1
    | 11 => if o = 0 ∨ b < o then b else o - 1
    | 12 => fadd .rne false f32 o b
    | _ => fmap2 2 (fadd .rne false) o b
  BitVec.ofNat 64 (v % 2 ^ w)

/-! ## The error log (R437) -/

/-- Bytes without poison. -/
def plain (bs : List Byte) : List (Byte × Bool) := bs.map fun b => (b, false)

/-- The 32 bytes of a log record. -/
def logBytes (r : LogRec) : List Byte :=
  natLe 1 r.cls ++ natLe 1 r.bound ++ natLe 2 r.asid ++ natLe 4 r.unit ++ natLe 8 r.addr ++ natLe 8 r.time ++ natLe 4 r.synd ++
    natLe 4 r.count

/-- Address of log record n. -/
def logAddr (s : State) (n : Nat) : Nat := s.fw.logbase.toNat / 65536 * 65536 + 32 * (n % 2048)

/-- The log is written: LOGBASE is set and a controller runs (R437, R440). -/
def logOn (s : State) : Bool := !(s.fw.logbase.toNat / 65536 = 0) && s.fw.alive

/-- Write a record as one store; a full log drops it (R437). [DEDUCED: log 52] -/
def writeLog (s : State) (r : LogRec) : State :=
  if !logOn s then s
  else if 2048 ≤ s.fw.logprod - s.fw.logcons.toNat then updFw s fun f => { f with loglost := f.loglost + 1 }
  else
    let id := s.nextId
    let s := postHome s .host 0xFFFF 0 (logAddr s s.fw.logprod) (plain (logBytes r)) {}
    updFw s fun f =>
      { f with
        logprod := f.logprod + 1
        logStores := (f.logStores.dropWhile fun k => !(s.mem.stores.any fun st => st.id = k && st.pending)) ++ [id] }

/-- Log one error detected at t ns: it is merged into a record of its class and unit that is not older than 1 us (R437). [DEDUCED: log 52] -/
def logErrAt (s : State) (t cls bound asid unit addr synd : Nat) : State :=
  let same (r : LogRec) : Bool := r.cls = cls && r.unit = unit && decide (t < r.time + 1000)
  if !logOn s then s
  else if s.fw.logOpen.any same then
    updFw s fun f => { f with logOpen := f.logOpen.map fun r => if same r then { r with count := r.count + 1 } else r }
  else updFw s fun f => { f with logOpen := f.logOpen ++
    [{ cls := cls, bound := bound, asid := asid, unit := unit, addr := addr, time := t, synd := synd }] }

/-- Log an error detected now. [DEDUCED: log 52] -/
def logErr (s : State) (cls bound asid unit addr synd : Nat) : State := logErrAt s (nowNs s) cls bound asid unit addr synd

/-- Records that take no more repeats are written, in order (R437). [DEDUCED: log 52] -/
def flushLog (s : State) : State :=
  let due (r : LogRec) : Bool := decide (r.time + 1000 ≤ nowNs s)
  if s.fw.logOpen.any due && s.fw.alive then
    (s.fw.logOpen.filter due).foldl writeLog (updFw s fun f => { f with logOpen := f.logOpen.filter fun r => !(due r) })
  else s

/-- A walk that reads a poisoned entry is logged (class 14 of R430), with the entry's address; unit: the die that walks. -/
def logWalk (s : State) (die part asid va : Nat) : State :=
  if inReserved va || decide (2 ^ 52 ≤ va) then s
  else match walkPoison s part asid va with
  | some pa => logErr s 14 12 asid die pa 0
  | none => s

end Sys2Proof.Machine
end

