-- ==== Sys2Proof/Machine/Ops.lean ====
section
/-! DEFINITION. Operations that several instructions and events share: event ports and tags (R19, R110), footprints
(R51 to R54), the end of a group (R12, R59, R408), and taking an exception (R405 to R407) with the return from it
(R350). -/

namespace Sys2Proof.Machine

/-! ## Event ports and tags -/

/-- An event word enters an event port of a core, or is counted when the port is full (R13, R19). -/
def pushEvent (s : State) (c port : Nat) (w : Word) : State :=
  updCore s c fun k =>
    let q := mgetD k.ports port []
    if 16 ≤ q.length then
      { k with lost := mset k.lost port (), lostN := mupd k.lostN port 0 (· + 1) }
    else
      let w := if mhas k.lost port then w ||| 0x80000000#32 else w &&& 0x7FFFFFFF#32
      { k with ports := mset k.ports port (q ++ [w]), lost := mdel k.lost port }

/-- State of a tag (R110). -/
def tagOf (s : State) (c t : Nat) : TagSt := mgetD (coreOf s c).tags t .idle

/-- The tag bitmap %tags (R110). -/
def tagBits (s : State) (c : Nat) : DWord :=
  (coreOf s c).tags.foldl (fun (b : DWord) (k, v) => if v = .done then b ||| (1#64 <<< k) else b) 0

/-- A tag becomes busy: bit and error bit clear (R110). -/
def tagBusy (s : State) (c t : Nat) : State :=
  updCore s c fun k => { k with tags := mset k.tags t .busy, tagerr := k.tagerr &&& ~~~(1#64 <<< t) }

/-- A tag becomes done with a status (R110). -/
def tagDone (s : State) (c t status : Nat) : State :=
  updCore s c fun k =>
    { k with
      tags := mset k.tags t .done
      tagerr := if status = 0 then k.tagerr &&& ~~~(1#64 <<< t) else k.tagerr ||| (1#64 <<< t) }

/-- A tag becomes idle (R110). -/
def tagIdle (s : State) (c t : Nat) : State :=
  updCore s c fun k => { k with tags := mdel k.tags t, tagerr := k.tagerr &&& ~~~(1#64 <<< t) }

/-! ## Footprints (R51 to R54) -/

/-- Entries in use by a partition. -/
def fpUsed (s : State) (part : Nat) : Nat :=
  ((s.disp.fps.filter fun t => t.part = part).map fun t => t.foots.length).sum

/-- The table has room for n entries of a partition. -/
def fpRoom (s : State) (part n : Nat) : Bool :=
  n = 0 || decide (fpUsed s part + n ≤ s.disp.fpShare.getD part 0)

/-- A grid and its ancestors (R52), up to depth n. -/
def ancestors (s : State) : Nat → Nat → List Nat
  | 0, g => [g]
  | n + 1, g =>
    match mget s.disp.grids g with
    | some r => match r.parent with
      | some p => g :: ancestors s n p
      | none => [g]
    | none => [g]

/-- Two footprints conflict (R52). -/
def Foot.meets (a b : Foot) : Bool := decide (a.lo ≤ b.hi) && decide (b.lo ≤ a.hi) && (a.wr || b.wr)

/-- A task enters the table (R51, R52); its number. -/
def fpEnter (s : State) (asid part grid : Nat) (launch : Bool) (foots : List Foot) : State × Option Nat :=
  if foots.isEmpty then (s, none)
  else
    let (id, s) := freshId s
    let mine := if launch then [] else ancestors s 64 grid
    let on := (s.disp.fps.filter fun u =>
      u.asid = asid && !(u.launch && mine.contains u.grid) && u.foots.any fun f => foots.any fun g => f.meets g).map (·.id)
    let t : FpTask := { id := id, asid := asid, part := part, grid := grid, launch := launch, foots := foots, on := on }
    (updDisp s fun d => { d with fps := d.fps ++ [t] }, some id)

/-- A task leaves the table; tasks held on it wait on the others only (R51, R52). -/
def fpLeave (s : State) (id : Option Nat) : State :=
  match id with
  | none => s
  | some i => updDisp s fun d =>
    { d with fps := (d.fps.filter fun t => !(t.id = i)).map fun t => { t with on := t.on.filter fun k => !(k = i) } }

/-- A task is not held (R52). -/
def fpClear (s : State) (id : Option Nat) : Bool :=
  match id with
  | none => true
  | some i => !(s.disp.fps.any fun t => t.id = i && !t.on.isEmpty)

/-- Footprints of a card or record: n of 16 bytes each from an offset; none when one is malformed (R44). -/
def footsAt (bs : List Byte) (off : Nat) : Nat → Option (List Foot)
  | 0 => some []
  | n + 1 =>
    let b := leAt bs off 8
    let l := leAt bs (off + 8) 4
    let m := leAt bs (off + 12) 1
    if decide (2 ^ 52 ≤ b) || decide (1 < m) || !(leAt bs (off + 13) 3 = 0) then none
    else match footsAt bs (off + 16) n with
      | none => none
      | some r => some (if l = 0 then r else { lo := b / 64, hi := (b + l - 1) / 64, wr := m = 1 } :: r)

/-! ## The end of a group -/

/-- The quad has a team (R321): the groups of its cores that belong to one. -/
def teamCores (s : State) (q : Nat) : List Nat :=
  (coresOf q).filter fun c => match (coreOf s c).group with
    | some g => g.team.isSome && !(g.st = .ended)
    | none => false

/-- Release the lanes held at a hardware barrier, those whose wattle is in a handler among them: kind 0 CBAR, 1 QBAR (R320, R321). -/
def releaseArrived (s : State) (c kind id : Nat) (w : Nat) : State :=
  updThr s c w fun h =>
    { h with
      lanes := h.lanes.map fun l => if l.arrived = some (kind, id) then { l with arrived := none } else l
      shadows := h.shadows.map fun v => { v with arrived := v.arrived.map fun a => if a = some (kind, id) then none else a } }

/-- Every live lane of a wattle is arrived at a barrier. -/
def allArrived (h : Thr) (kind id : Nat) : Bool :=
  (List.range h.lanes.length).all fun l => !(laneOf h l).live || (laneOf h l).arrived = some (kind, id)

/-- A wattle has a live lane. -/
def wattleLive (s : State) (c w : Nat) : Bool := !(liveMask (thrOf s c w) = 0)

/-- Live wattles of a group that have brought every live lane to CBAR id (R320). -/
def cbarCame (s : State) (c id : Nat) : List Nat :=
  (grpOf s c).resident.filter fun w => wattleLive s c w && allArrived (thrOf s c w) 0 id

/-- Complete the CBAR generations of a group whose count is reached: every held lane of the generation goes on (R320). -/
def cbarCheck (s : State) (c : Nat) : State :=
  (grpOf s c).cbar.foldl (fun s (id, n) =>
    let came := cbarCame s c id
    let full := if n = 0 then ((grpOf s c).resident.filter (wattleLive s c)).all (came.contains ·) else decide (n ≤ came.length)
    if full then
      let s := (grpOf s c).resident.foldl (fun s w => releaseArrived s c 0 id w) s
      updGrp s c fun g => { g with cbar := mdel g.cbar id }
    else s) s

/-- Some lane of a core's group is held at hedgerow barrier id. -/
def qbarHeld (s : State) (c id : Nat) : Bool :=
  (grpOf s c).resident.any fun w => (thrOf s c w).lanes.any fun l => l.arrived = some (1, id)

/-- The group's sections are still to be read (R412). -/
def Group.isRestoring (g : Group) : Bool :=
  match g.st with
  | .restoring _ _ => true
  | _ => false

/-- The group of a core has arrived at hedgerow barrier id: every live resident wattle has (R321); one whose threads are still to be
restored has not. -/
def qbarCame (s : State) (c id : Nat) : Bool :=
  !(grpOf s c).isRestoring && ((grpOf s c).resident.filter (wattleLive s c)).all fun w => allArrived (thrOf s c w) 1 id

/-- Complete the hedgerow generations of a quad (R321); a group that has ended counts as arrived. -/
def qbarCheck (s : State) (q : Nat) : State :=
  (List.range 16).foldl (fun s id =>
    let cs := teamCores s q
    if (mgetD s.teams q {}).away.isEmpty && cs.any (qbarHeld s · id) && cs.all (qbarCame s · id) then
      cs.foldl (fun s c => (grpOf s c).resident.foldl (fun s w => releaseArrived s c 1 id w) s) s
    else s) s

/-- Engine work that keeps a group on its core: OLOAD, ADRAIN, SCLD and jobs (R59). -/
def Ent.keeps (n : Ent) : Bool :=
  match n.op with
  | .oload _ _ _ _ _ _ _ _ _ _ _ _ => true
  | .adrain _ _ _ _ _ _ _ _ _ _ _ _ => true
  | .scld _ _ _ _ _ _ => true
  | .job _ _ _ _ => true
  | _ => false

/-- The group of a core still has copies, released schedule entries, SFILLs, OLOADs, ADRAINs, SCLDs or jobs under way (R59, R330). -/
def workOf (s : State) (c : Nat) : Bool :=
  !(coreOf s c).jobs.isEmpty || (grpOf s c).sched.any (·.released) || s.engs.any fun (_, e) => e.table.any fun n => n.core = c && n.keeps

/-- Forget a core's threads. -/
def dropThreads (s : State) (c : Nat) : State :=
  { s with thrs := s.thrs.filter fun (k, _) => !(k / 32 = c) }

/-- A core and its lenders hold no group any more: threads, pending results, scratch and type bits are gone (R59, R62,
R101, R121). -/
def clearCore (s : State) (c : Nat) : State :=
  let g := grpOf s c
  let s := g.lenders.foldl (fun s l => updCore s l fun k => { k with lendsTo := none, scr := [], scrP := [], scrT := [] }) s
  let s := dropThreads s c
  let s := updMem s fun m =>
    { m with fills := m.fills.filter fun f => !(f.core = c), resvs := m.resvs.filter fun r => !(r.core = c) }
  let s := updCore s c fun k =>
    { k with group := none, jobs := [], scr := [], scrP := [], scrT := [], l1 := [], tags := [], tagerr := 0,
             ports := [], lost := [], lostN := [], past := [] }
  updDisp s fun d => { d with dealDue := true }

/-- Key of a group's checkpoint area: its first page, or one beside every page where it has no area (R411). [DEDUCED: log 53] -/
def areaKey (g : Group) : Nat := if g.area then g.ckbase.toNat / 65536 else 2 ^ 60 + g.grid * 2 ^ 64 + g.pos

/-- The group no longer occupies its core: it has ended (R59); its slots are released (R163), its checkpoint area is
free again, and its grid counts it (R398). -/
def freeCore (s : State) (c : Nat) : State :=
  let g := grpOf s c
  let s := clearCore (releaseCore s c) c
  let s := updXl s fun x => { x with ckAreas := match g.pool with
    | some p => mdel x.ckAreas p
    | none => x.ckAreas }
  let s := if (teamCores s (quadOf c)).isEmpty && (mgetD s.teams (quadOf c) {}).away.isEmpty then
      { s with teams := mdel s.teams (quadOf c) } else s
  let s := qbarCheck s (quadOf c)
  updDisp s fun d =>
    { d with grids := match mget d.grids g.grid with
        | some r => mset d.grids g.grid { r with live := r.live - 1, faulted := r.faulted + (if g.faulted then 1 else 0) }
        | none => d.grids }

/-- A group whose FE and wattles have exited and whose baskets are empty has ended (R12); it leaves its core once its
copies and engine work are complete (R59). -/
def tryEnd (s : State) (c : Nat) : State :=
  match (coreOf s c).group with
  | none => s
  | some g =>
    if g.st = .running || g.st = .ended then
      let alive := (g.resident.any (wattleLive s c)) || wattleLive s c feIdx || !g.baskets.isEmpty
      if alive then s
      else if workOf s c then updGrp s c fun g => { g with st := .ended }
      else freeCore s c
    else s

/-- Free what a core holds in its quad's engine: claimed slots and the accumulators it last cleared (R408). -/
def freeEngine (s : State) (c : Nat) : State :=
  let s := s.engs.foldl (fun s (_, e) => (e.table.filter fun n => n.core = c).foldl (fun s n => fpLeave s n.task) s) s
  { s with engs := s.engs.map fun (k, e) =>
      (k, settleSlots (unfuse
        { e with table := e.table.filter fun n => !(n.core = c) || (match n.op with
                   | .orel _ => true
                   | _ => false)
                 slots := e.slots.filter fun (_, o) => !(o.core = c)
                 accs := e.accs.filter fun (_, a) => !(a.core = c) })) }

/-- A group that has drained is gone: its copies, jobs, slots, accumulators and baskets end (R408). [DEDUCED: log 58] -/
def killGroup (s : State) (c : Nat) : State :=
  let s := (coreOf s c).jobs.foldl (fun s j => fpLeave s j.task) s
  let s := freeEngine s c
  let s := updGrp s c fun g => { g with faulted := true, baskets := [], sched := [] }
  freeCore (updCore s c fun k => { k with jobs := [] }) c

/-! ## Taking an exception -/

/-- What a fault puts into its record (R403, R405). -/
structure FRec where
  /-- CODE. -/
  code : Nat
  /-- MASK. -/
  mask : BitVec 32
  /-- INFO. -/
  info : Nat := 0
  /-- ADDR. -/
  addr : Nat := 0
  /-- COUNT when it is not the number of faulting lanes. -/
  count : Option Nat := none
  /-- FLAGS.BRK. -/
  brk : Bool := false
  /-- FLAGS.RETRIED. -/
  retried : Bool := false
  /-- a fetch fault: WORD is zero. -/
  fetch : Bool := false
  /-- a fault of a translation. -/
  walked : Bool := false
  deriving DecidableEq, Repr

/-- The 64 bytes of a fault record (R405). [DEDUCED: log 58] -/
def recBytes (s : State) (f : FRec) (ended : Bool) : List Byte :=
  let t := curThr s
  let c := s.cur.core
  let g := grpOf s c
  let n := f.count.getD (lanesOf f.mask).length
  let flags := (if f.brk then 1 else 0) + (if curFe s then 2 else 0) + (if 1 < n then 4 else 0) +
    (if s.cur.dual.isSome then 8 else 0) + (if f.retried then 16 else 0) + (if ended then 32 else 0)
  natLe 1 f.code ++ natLe 1 flags ++ natLe 1 (if curFe s then 0xFF else s.cur.thr) ++ natLe 1 t.tdepth ++
  natLe 4 f.mask.toNat ++ natLe 8 s.cur.pc.toNat ++ natLe 8 f.addr ++ natLe 4 n ++ natLe 4 f.info ++
  natLe 8 (nowNs s) ++ natLe 4 s.cur.mask.toNat ++ natLe 2 g.asid ++ natLe 2 (logOf s g.part c) ++
  natLe 12 (if f.fetch then 0 else s.cur.word.toNat) ++ natLe 4 0

/-- State code of an operand-cache slot (R407). -/
def SlotSt.code : SlotSt → Nat
  | .none => 0
  | .invalid => 1
  | .clean => 2
  | .dirty => 3

/-- State of an operand-cache slot from its code. -/
def SlotSt.ofCode (n : Nat) : SlotSt := if n = 0 then .none else if n = 1 then .invalid else if n = 2 then .clean else .dirty

/-- A latch of a thread counts as valid in the frame when it is valid in any lane (R407). [DEDUCED: log 57] -/
def latAny (lat : FMap Latch) (k : Nat) : Bool := (List.range 32).any fun l => (mgetD lat (l * 2 + k) {}).valid

/-- Home and state of a slot in the frame: those of the lowest lane in which it has a home (R407). [DEDUCED: log 57] -/
def slotAny (slots : FMap Slot) (k : Nat) : Nat × Nat :=
  match (List.range 32).find? fun l => !((mgetD slots (l * 6 + k) {}).cur.st = .none) with
  | some l => ((mgetD slots (l * 6 + k) {}).cur.home, (mgetD slots (l * 6 + k) {}).cur.st.code)
  | none => (0, 0)

/-- The 4,096 bytes of a trap frame with the given record (R407). [DEDUCED: log 57] -/
def frameBytes (t : Thr) (fe : Bool) (rec' : List Byte) : List (Byte × Bool) :=
  let lane (l : Nat) : Lane := if fe && decide (0 < l) then { mtg := 0, tgt := 0, launch := false } else laneOf t l
  let all (f : Nat → List (Byte × Bool)) : List (Byte × Bool) := (List.range 32).flatMap f
  let mode := (if t.serial then 1 else 0) + 2 * t.running + 64 * (t.starve % 4096) +
    (if latAny t.lat 0 then 2 ^ 18 else 0) + (if latAny t.lat 1 then 2 ^ 19 else 0)
  let stk (l : Nat) : List Byte := (List.range 4).flatMap fun i => natLe 8 ((lane l).stk.getD i 0).toNat
  let bits (l : Nat) : Nat := (lane l).depth + 8 * (lane l).nest + (if (lane l).exited then 2048 else 0) +
    (if (lane l).launch then 4096 else 0)
  let lat (l k : Nat) : List (Byte × Bool) := (natLe 8 (latOf t l k).v.toNat).map fun b => (b, (latOf t l k).poison)
  plain rec' ++ plain (natLe 4 t.sstatus.toNat) ++ plain (natLe 4 (if fe then 0 else mode)) ++ plain (natLe 56 0) ++
  all (fun l => plain (natLe 8 (lane l).pc.toNat)) ++ all (fun l => plain (natLe 8 (lane l).mtg.toNat)) ++
  all (fun l => plain (stk l)) ++ all (fun l => plain (natLe 4 (bits l))) ++ plain (natLe 64 0) ++
  all (fun l => plain (natLe 8 (if fe then 0 else (lane l).tgt.toNat))) ++
  all (fun l => if fe then plain (natLe 16 0) else lat l 0 ++ lat l 1) ++
  (List.range 6).flatMap (fun k => all fun l =>
    if fe then plain (natLe 4 0)
    else (natLe 4 (slotOf t l k).cur.ver.v.toNat).map fun b => (b, (slotOf t l k).cur.ver.poison)) ++
  (List.range 8).flatMap (fun k => if fe ∨ 6 ≤ k then plain (natLe 2 0)
    else plain (natLe 1 (slotAny t.slots k).1 ++ natLe 1 (slotAny t.slots k).2)) ++
  plain (natLe 688 0)

/-- The place of n bytes at a supervisor address of the group of a core, for a read or a write. [DEDUCED: log 57] -/
def superLoc (s : State) (c : Nat) (k : Need) (va n : Nat) : Except Nat (Loc × Attr) :=
  let g := grpOf s c
  if decide (2 ^ 52 ≤ va) then .error 0x05
  else if inReserved va then
    match (if decide (lentWin ≤ va) then lentLoc s c (va - lentWin) n else scrLoc s c (va - scrWin) n) with
    | some l => .ok (l, {})
    | none => .error 0x05
  else match translate s c g.part g.asid true k va with
    | .error e => .error e
    | .ok (pa, a) => .ok (.mem pa, a)

/-- The 64 lines of a frame as places; none when one faults. [DEDUCED: log 57] -/
def frameLocs (s : State) (c : Nat) (k : Need) (f : Nat) : Option (List (Loc × Attr)) :=
  (List.range 64).foldr (fun i acc => match superLoc s c k (f + 64 * i) 64, acc with
    | .ok p, some r => some (p :: r)
    | _, _ => none) (some [])

/-- Write one line of a frame: a GA store accepted at its home (R406). [DEDUCED: log 57] -/
def writeLine (s : State) (c t l va : Nat) (p : Loc × Attr) (bs : List (Byte × Bool)) : State :=
  match p.1 with
  | .scr k off => scrWrite s c k off bs (.thread c t l)
  | .mem pa => postHome s (.thread c t l) (grpOf s c).asid va pa bs p.2

/-- Address of the trap frame of a thread at a depth (R406). -/
def frameAddr (g : Group) (t depth : Nat) : Nat := g.tframe.toNat + (t * 2 + depth) * 4096

/-- The lowest live lane of a thread. -/
def lowestLive (t : Thr) : Nat := (lanesOf (liveMask t)).headD 0

/-- The thread after trap entry (R406). -/
def trapThr (t : Thr) (tvec : DWord) : Thr :=
  let ss := t.sstatus
  let pm := ss.getLsbD 4
  let ss := (ss &&& ~~~0xE0#32) ||| (if pm then 0x20 else 0) ||| 0x10 ||| BitVec.ofNat 32 ((t.tdepth + 1) * 64)
  let t := settle t
  let arr := t.lanes.map fun n => n.arrived.filter fun a => decide (a.1 < 2)
  { t with
    sstatus := ss
    lanes := t.lanes.map fun l =>
      if l.live then { l with pc := tvec.setWidth 52, mtg := nullMtg, stk := [], depth := 0, nest := 0, arrived := none } else l
    serial := false
    starve := 0
    shadows := { lat := t.lat, slots := t.slots, arrived := arr, leaving := t.leaving } :: t.shadows
    leaving := false
    cbars := []
    lat := t.lat.map fun (k, h) => (k, { h with valid := false })
    slots := []
    hold := none
    second := none
    pchk := none
    retried := none }

/-- Put back entries of a table. [DEDUCED: log 16, 20] -/
def putBack {α : Type} (m old : FMap α) : FMap α := old.foldl (fun m (k, v) => mset m k v) m

/-- Lanes that wait for the release condition of a CBAR or QBAR execute it again (R323). -/
def dropCbars (h : Thr) : Thr :=
  { h with
    cbars := []
    lanes := if h.cbars.isEmpty then h.lanes else h.lanes.map fun n => { n with arrived := n.arrived.filter fun a => decide (a.1 < 2) } }

/-- A held instruction is broken off by a trap, a fault or a pre-emption (R303, R323): SLEEP ends with status 2, a RECV
that took nothing has had no effect, a REGACQ leaves the wait queue, and the rest execute again; a lost store that a
seq-cst access waits for makes it execute again too (redo, R403). [DEDUCED: log 17, 24] -/
def dropHold (s : State) (c t : Nat) (redo : Bool) : State :=
  let s := updThr s c t dropCbars
  let h := thrOf s c t
  match h.hold with
  | none => s
  | some o =>
    let s := setThr s c t { h with hold := none }
    match o.why with
    | .sleep _ _ _ =>
      match o.instr.form with
      | none => s
      | some x =>
        let cyc := (coreOf s c).cycle
        let act := (lanesOf o.mask).filter fun l => (laneOf h l).live && guardOf h x l
        let p := o.vals.any (·.2.2)
        updThr s c t fun h =>
          let h := act.foldl (fun h l =>
            let h := writeWord h (maskOf act) (dstOf x 1) l 0 cyc 2 p
            if t = feIdx then h else pushLatch h l 2 true p) h
          passLanes h (lanesOf o.mask)
    | .recv => updThr s c t fun h =>
        { h with regs := putBack h.regs o.undoR, slots := putBack h.slots o.undoS, lat := putBack h.lat o.undoL }
    | .basis => { s with engs := s.engs.map fun (k, e) => (k, settleSlots { e with table := e.table.filter fun n =>
        !(n.core = c && (match n.op with
          | .basis _ th _ => th = t
          | _ => false)) }) }
    | .tlbi id => updXl s fun x => { x with tlbis := x.tlbis.filter fun v => !(v.id = id) }
    | .regacq => updGrp s c fun g => { g with regq := g.regq.filter fun e => !(e.1 = t) }
    | .fence =>
      -- a seq-cst access that has been made is not made again (R410): only the wait behind it ends
      if o.begun && !redo then updThr s c t fun h => passLanes h (lanesOf o.mask)
      else s
    | _ => s

/-- Threads of a group. -/
def groupThreads (s : State) (c : Nat) : List Nat := feIdx :: (grpOf s c).resident

/-- Issue of a core that still stands on the agenda of this instant. -/
def Act.issuesOn (a : Act) (c : Nat) : Bool :=
  match a with
  | .set k _ _ _ _ _ => k = c
  | .slot k => k = c
  | .fe k => k = c
  | _ => false

/-- A group stops at an instruction boundary and begins to drain: held instructions are abandoned, the write-back of every
buffered store starts, jobs pause at their next pass boundary (R188, R410). -/
def beginDrain (s : State) (c : Nat) (st : GSt) : State :=
  let s := (groupThreads s c).foldl (fun s t => updThr (dropHold s c t false) c t fun h => { h with second := none }) s
  let s := (groupThreads s c).foldl (fun s t => writeBackThread s c t (BitVec.allOnes 32)) s
  let s := { s with engs := s.engs.map fun (q, e) =>
    (q, { e with table := e.table.map fun n => if n.core = c && n.isJob then { n with paused := true } else n }) }
  updGrp s c fun g => { g with st := st }

/-- The walks that the pages of a frame start or join (R423). [DEDUCED: log 87] -/
def frameWalks (s : State) (c fa : Nat) : State :=
  [fa, fa + 4032].foldl (fun s va => if inReserved va then s else (startWalk s c (grpOf s c).part (grpOf s c).asid va).1) s

/-- The poisoned walk behind a frame that cannot be written is logged (class 14 of R430). -/
def logFrame (s : State) (c fa : Nat) : State :=
  match (List.range 64).find? fun i => match superLoc s c .write (fa + 64 * i) 64 with
      | .error e => e = 0x05
      | .ok _ => false with
  | some i => logWalk s (dieOf c) (grpOf s c).part (grpOf s c).asid (fa + 64 * i)
  | none => s

/-- The read of a frame reaches its walks and banks (R105, R379, R423); the thread does not wait for them. -/
def frameTouch (s : State) (c fa : Nat) : State :=
  ((frameLocs s c .read fa).getD []).foldl (fun s (l, a) => match l with
    | .scr _ _ => s
    | .mem pa => (touchRange s c (dieOf c) pa 64 a.nhc).1) (frameWalks s c fa)

/-- A fault ends the group of the issuing core: every thread stops at once, and it drains as for a pre-emption (R408). [DEDUCED: log 58] -/
def endByFault (s : State) (f : FRec) : State :=
  let c := s.cur.core
  let r := recBytes s f true
  let s := { s with agenda := s.agenda.filter fun a => !(a.issuesOn c) }
  beginDrain s c (.failing r)

/-- Trap entry of the issuing thread (R406). [DEDUCED: log 57] -/
def enterTrap (s : State) (f : FRec) : State :=
  let c := s.cur.core
  let n := s.cur.thr
  let s := dropHold s c n (f.code = 0x13 || f.code = 0x14)
  let s := if (curThr s).leaving && !leaveBlocked (curThr s) then leaveNow s c n else s
  let t := curThr s
  let g := grpOf s c
  if decide (2 ≤ t.tdepth) || g.tvec = 0 || g.tframe = 0 then endByFault s f
  else
    let fa := frameAddr g n t.tdepth
    match frameLocs s c .write fa with
    | none => endByFault (logFrame s c fa) f
    | some locs =>
      let s := frameWalks s c fa
      let bs := frameBytes t (curFe s) (recBytes s f false)
      let s := (List.range 64).foldl (fun s i =>
        writeLine s c n (lowestLive t) (fa + 64 * i) (locs.getD i (.mem 0, {})) ((bs.drop (64 * i)).take 64)) s
      let s := dropResvs s c n
      updThr s c n fun t => trapThr t g.tvec

/-- A table read of the issuing set has to wait for an accepted store (R129, R421): the set issues again, with nothing done. [DEDUCED: log 87] -/
def waitSet (s : State) : State :=
  if s.cur.held.isSome then s
  else updCur s fun t =>
    { t with nextIssue := max t.nextIssue (curCycle s + 1)
             second := if t.second.isSome then t.second else some (s.cur.mask, s.cur.pc) }

/-- A line of the frame that the issuing thread would enter has to wait so. -/
def frameWaits (s : State) : Bool :=
  let c := s.cur.core
  let t := curThr s
  let g := grpOf s c
  !(decide (2 ≤ t.tdepth) || g.tvec = 0 || g.tframe = 0) && (List.range 64).any fun i =>
    match superLoc s c .write (frameAddr g s.cur.thr t.tdepth + 64 * i) 64 with
    | .error e => e = notNow
    | .ok _ => false

/-- Enter the handler for the issuing set. When the other set of the same cycle has still to execute, it completes first
(R23); when that one has faulted already, this set stays where it is. [DEDUCED: log 14] -/
def trapWith (s : State) (enter : State → State) : State :=
  if frameWaits s then waitSet s
  else match s.agenda with
  | .set c t m p d again :: rest =>
    if c = s.cur.core && t = s.cur.thr && s.cur.dual = some (m, p) then
      if again then s
      else if s.cur.again then enter s
      else
        let self : Act := .set s.cur.core s.cur.thr s.cur.mask s.cur.pc s.cur.dual true
        { s with agenda := .set c t m p d false :: self :: rest }
    else enter s
  | _ => enter s

/-- The walk behind a fault of the issuing set is logged when it read poison (R430). -/
def noteWalk (s : State) (f : FRec) : State :=
  if f.code = 0x05 && (f.fetch || f.walked) then
    logWalk s (dieOf s.cur.core) (grpOf s s.cur.core).part (grpOf s s.cur.core).asid f.addr
  else s

/-- Raise a fault of the issuing set (R406). [DEDUCED: log 15] -/
def takeFault (s : State) (f : FRec) : State := if f.code = notNow then waitSet s else trapWith s fun u => enterTrap (noteWalk u f) f

/-- A PIPELINE_CHECK fault on the issuing core counts towards PCHKN (R434). -/
def notePchk (s : State) : State :=
  { s with cols := mupd s.cols s.cur.core {} fun k =>
      { k with pchkT := (k.pchkT.filter fun t => decide (nowNs s < t + 1000000000)) ++ [nowNs s] } }

/-! ## Return from an exception (R350) -/

/-- The frame of the innermost trap as the thread reads it; none when a line of it faults. -/
def readFrame (s : State) (c t fa : Nat) : Option (List (Byte × Bool)) :=
  match frameLocs s c .read fa with
  | none => none
  | some locs => some (locs.flatMap fun (l, _) =>
      match l with
      | .scr k off => (List.range 64).map fun i => ((scrRead s k (off + i) 1).1.headD 0, (scrRead s k (off + i) 1).2)
      | .mem pa => (List.range 64).map fun i =>
          (viewByte s (dieOf c) (ownerOf c t) (pa + i), viewPoison s (dieOf c) (ownerOf c t) (pa + i)))

/-- Every line of the frame can be read now. -/
def frameReady (s : State) (c t fa : Nat) : Bool :=
  match frameLocs s c .read fa with
  | none => true
  | some locs => locs.all fun (l, _) => match l with
    | .scr _ _ => true
    | .mem pa => viewReady s (dieOf c) (ownerOf c t) pa 64

/-- A field of a frame. -/
def frAt (bs : List (Byte × Bool)) (o n : Nat) : Nat := leNat (((bs.drop o).take n).map (·.1))

/-- Poison of a field of a frame. -/
def frPoison (bs : List (Byte × Bool)) (o n : Nat) : Bool := ((bs.drop o).take n).any (·.2)

/-- A lane as the frame gives it (R407): a launch-mask bit that the handler has cleared brings the lane back. [DEDUCED: log 57] -/
def laneFrom (bs : List (Byte × Bool)) (l : Nat) (old : Lane) : Lane :=
  let b := frAt bs (0x680 + 4 * l) 4
  let d := b % 8
  { old with
    pc := BitVec.ofNat 52 (frAt bs (0x80 + 8 * l) 8)
    mtg := BitVec.ofNat 52 (frAt bs (0x180 + 8 * l) 8)
    stk := (List.range (min d 4)).map fun i => BitVec.ofNat 52 (frAt bs (0x280 + 32 * l + 8 * i) 8)
    depth := d
    nest := nbits b 3 8
    exited := b.testBit 11 && (b.testBit 12 || !old.launch)
    launch := b.testBit 12 || old.launch
    tgt := BitVec.ofNat 52 (frAt bs (0x740 + 8 * l) 8) }

/-- A thread as a frame gives it, with the per-lane data that the frame keeps for the wattle only taken from a shadow
(R407). [DEDUCED: log 57] -/
def frameThr (t : Thr) (fe : Bool) (sh : Shadow) (bs : List (Byte × Bool)) : Thr :=
  let mode := frAt bs 0x44 4
  let t := settle t
  let lanes := (List.range t.lanes.length).map fun l => { laneFrom bs l (laneOf t l) with arrived := sh.arrived.getD l none }
  if fe then { t with lanes := lanes }
  else
    let valid (l k : Nat) : Bool :=
      let v := mode.testBit (18 + k)
      if v = latAny sh.lat k then (mgetD sh.lat (l * 2 + k) {}).valid else v
    let latch (j : Nat) : Latch :=
      { v := BitVec.ofNat 64 (frAt bs (0x840 + 8 * j) 8), valid := valid (j / 2) (j % 2)
        poison := frPoison bs (0x840 + 8 * j) 8 }
    let slot (l k : Nat) : Slot :=
      let home := frAt bs (0xD40 + 2 * k) 1
      let st := frAt bs (0xD41 + 2 * k) 1 % 4
      let o := (mgetD sh.slots (l * 6 + k) {}).cur
      let same := (home, st) = slotAny sh.slots k
      let at' := 0xA40 + 128 * k + 4 * l
      let ver : Ver := if mhas sh.filled (l * 6 + k) then o.ver
        else { v := BitVec.ofNat 32 (frAt bs at' 4), full := o.ver.full, poison := frPoison bs at' 4 }
      { cur := { ver := ver, home := if same then o.home else home, st := if same then o.st else SlotSt.ofCode st } }
    { t with
      lanes := lanes
      serial := mode.testBit 0
      running := nbits mode 1 5
      starve := nbits mode 6 12
      lat := (List.range 64).map fun j => (j, latch j)
      slots := (List.range 192).map fun j => (j, slot (j / 6) (j % 6)) }

/-- The thread after ERET, from its frame and the shadow of its trap (R350, R407): the mode from PPM, TDEPTH one less, and PPM
and BRKH as the SSTATUS of the frame has them. [DEDUCED: log 57] -/
def eretThr (t : Thr) (fe : Bool) (bs : List (Byte × Bool)) : Thr :=
  let old := BitVec.ofNat 32 (frAt bs 0x40 4) &&& 0x28#32
  let ss := old ||| (if t.sstatus.getLsbD 5 then 0x10 else 0) ||| BitVec.ofNat 32 ((t.tdepth - 1) * 64)
  let u := frameThr t fe (t.shadows.headD {}) bs
  { u with sstatus := ss, shadows := t.shadows.tail, leaving := (t.shadows.headD {}).leaving }

end Sys2Proof.Machine
end

