-- ==== Sys2Proof/Machine/Residue.lean ====
section
/-! DEFINITION. Residue arithmetic, carriers, the DX block formats and the exact sums of R76 to R97. -/

namespace Sys2Proof.Machine

/-! ## Bases and reconstruction -/

/-- Inverse of a modulo m, by search (moduli are at most 511). -/
def invMod (a m : Nat) : Nat := ((List.range m).find? fun x => a * x % m = 1 % m).getD 0

/-- x mod m as a natural number, for any integer x (R93). -/
def imod (x : Int) (m : Nat) : Nat := (x % (m : Int)).toNat

/-- The moduli of a list are pairwise coprime. -/
def coprimeAll : List Nat → Bool
  | [] => true
  | m :: ms => ms.all (fun k => Nat.gcd m k = 1) && coprimeAll ms

/-- The conditions of R90 on n base moduli followed by two redundant ones. -/
def basisOk (n : Nat) (ms : List Nat) : Bool :=
  decide (2 ≤ n) && decide (n ≤ 10) && ms.length = n + 2 &&
  ms.all (fun m => decide (3 ≤ m) && decide (m ≤ 511)) && coprimeAll ms &&
  (ms.take n).all fun b => (ms.drop n).all fun r => decide (b < r)

/-- The default full basis (R91). -/
def basisFull : List Nat := [256, 255, 253, 251, 247, 241, 239, 233, 229, 227, 263, 269]
/-- The default pair basis (R91). -/
def basisPair : List Nat := [256, 255, 253, 251, 263, 269]

/-- M of R90: the product of the base moduli. -/
def basisM (n : Nat) (ms : List Nat) : Nat := (ms.take n).foldl (· * ·) 1

/-- H of R90. -/
def basisH (n : Nat) (ms : List Nat) : Nat := (basisM n ms - 1) / 2

/-- One mixed-radix digit: the residue t of modulus m reduced by the earlier digits (modulus, digit) (R93). -/
def digit (m : Nat) (t : Int) : List (Nat × Int) → Int
  | [] => t
  | (mk, ak) :: ds => digit m (((t - ak) * (invMod (mk % m) m : Int)) % (m : Int)) ds

/-- Mixed-radix conversion of (modulus, residue) pairs in ascending channel order: (X, P) of R93. -/
def reconstruct : List (Nat × Nat) → Nat × Nat :=
  fun chs =>
    let r := chs.foldl (fun (acc : List (Nat × Int) × Int × Nat) (c : Nat × Nat) =>
      let a := digit c.1 (c.2 : Int) acc.1
      (acc.1 ++ [(c.1, a)], acc.2.1 + a * (acc.2.2 : Int), acc.2.2 * c.1)) ([], 0, 1)
    (r.2.1.toNat, r.2.2)

/-- What draining one element gives (R94). -/
inductive Drained where
  | poison
  | range
  | uncorrectable
  | value (v : Int)
  | corrected (v : Int) (ch syn : Nat)
  deriving DecidableEq, Repr

/-- The signed mapping of a base reconstruction (R94). -/
def signedOf (x m h : Nat) : Int := if x ≤ h then (x : Int) else (x : Int) - m

/-- drain_element of R94 on the residues of n + 2 channels. -/
def drainElement (n : Nat) (ms res : List Nat) (poisoned certified : Bool) : Drained :=
  if poisoned then .poison
  else
    let chs := ms.zip res
    let (x, m) := reconstruct (chs.take n)
    let h := (m - 1) / 2
    let v := signedOf x m h
    if (chs.drop n).all fun c => imod v c.1 = c.2 then .value v
    else if !certified then .range
    else
      let cand := (List.range (n + 2)).filterMap fun j =>
        let (y, p) := reconstruct (chs.eraseIdx j)
        if y ≤ h then some (j, (y : Int))
        else if p - h ≤ y then some (j, (y : Int) - p)
        else none
      match cand with
      | [(j, y)] =>
        let mj := ms.getD j 1
        .corrected y j (imod ((res.getD j 0 : Int) - imod y mj) mj)
      | _ => .uncorrectable

/-- The residues of an integer in every channel. -/
def residues (ms : List Nat) (v : Int) : List Nat := ms.map fun m => imod v m

/-! ## Carriers -/

/-- A finite dyadic input, or a NaN or infinity (R83). -/
def FV.isFin : FV → Bool
  | .fin _ _ _ => true
  | _ => false

/-- floor(log2 |x|) of a nonzero finite value. -/
def FV.lg : FV → Option Int
  | .fin _ m e => if m = 0 then none else some (ilog m e)
  | _ => none

/-- The largest of a list of integers. -/
def imaxOf : List Int → Option Int
  | [] => none
  | x :: xs => some (xs.foldl max x)

/-- Clamp to the symmetric range of R83. -/
def clampSym (lim c : Int) : Int × Bool :=
  if lim < c then (lim, true) else if c < -lim then (-lim, true) else (c, false)

/-- Signed rounding of a finite value in units of 2^q. -/
def FV.roundInt (r : Rnd) (q : Int) : FV → Int
  | .fin n m e =>
    let k : Int := (roundAt r n m e q : Nat)
    if n then -k else k
  | _ => 0

/-- to_carriers of R83 on a segment: carriers, exponent, SAT, poison of the segment. -/
def toCarriers (xs : List FV) (w : Nat) : List Int × Int × Bool × Bool :=
  let lim : Int := ((2 ^ (w - 1) - 1 : Nat) : Int)
  let bad := xs.any fun x => !x.isFin
  let ys := xs.map fun x => if x.isFin then x else .fin false 0 0
  let s : Int := match imaxOf (ys.filterMap FV.lg) with
    | none => -128
    | some em => min 127 (max (-128) (em - (w - 2 : Nat)))
  let cs := ys.map fun x => clampSym lim (x.roundInt .rne s)
  (cs.map (·.1), s, cs.any (·.2), bad)

/-- Integer inputs of R83: exponent 0, saturated to the symmetric range. -/
def toCarriersInt (xs : List Int) (w : Nat) : List Int × Int × Bool × Bool :=
  let lim : Int := ((2 ^ (w - 1) - 1 : Nat) : Int)
  let cs := xs.map (clampSym lim)
  (cs.map (·.1), 0, cs.any (·.2), false)

/-! ## DX8 and DX6 -/

/-- A DX element: sel, sign, mag (R76). -/
structure DxEl where
  sel : Bool
  sign : Bool
  mag : Nat
  deriving DecidableEq, Repr

/-- log2 F of a format (R77). -/
def dxLog (six : Bool) : Nat := if six then 4 else 6

/-- The bits of an element (R76). -/
def DxEl.bits (six : Bool) (x : DxEl) : Nat :=
  let k := dxLog six
  x.mag + (if x.sign then 2 ^ k else 0) + (if x.sel then 2 ^ (k + 1) else 0)

/-- An element from its bits. -/
def DxEl.ofBits (six : Bool) (v : Nat) : DxEl :=
  let k := dxLog six
  { sel := nbits v (k + 1) 1 = 1, sign := nbits v k 1 = 1, mag := nbits v 0 k }

/-- dx_value of R77, from the header and the element bits. -/
def dxValue (six : Bool) (hdr el : Nat) : FV :=
  let e := nbits hdr 8 8
  let d := nbits hdr 5 3
  let x := DxEl.ofBits six el
  if !(nbits hdr 0 5 = 0) then .nan
  else if e = 0 then .fin x.sign 0 0
  else if e = 255 then (if x.mag = 0 then .inf x.sign else .nan)
  else .fin x.sign x.mag ((e : Int) - 127 + (if x.sel then (d : Int) else 0) - dxLog six)

/-- encode_dx of R78 on exact values: header, elements, SAT. -/
def dxEncode (six : Bool) (xs : List FV) : Nat × List Nat × Bool :=
  let k := dxLog six
  let f := 2 ^ k
  if xs.any fun x => !x.isFin then
    (255 * 256, xs.map (fun x => match x with
      | .inf n => DxEl.bits six { sel := false, sign := n, mag := 0 }
      | _ => DxEl.bits six { sel := false, sign := false, mag := 1 }), false)
  else
    let lgs := xs.filterMap FV.lg
    match imaxOf lgs with
    | none => (0, xs.map (fun x => DxEl.bits six { sel := false, sign := x.neg, mag := 0 }), false)
    | some top =>
      let eTop := top + 1
      let d : Int := match imaxOf (lgs.filter fun g => decide (g < eTop - 3)) with
        | none => 0
        | some g => min 7 (eTop - g - 1)
      let base := min 127 (max (-126) (eTop - d))
      let els := xs.map fun x => match x with
        | .fin n m e =>
          let sel0 := decide (0 < m) && decide (base ≤ ilog m e)
          let mag0 := roundAt .rne false m e (base + (if sel0 then d else 0) - k)
          let sel := sel0 || mag0 = f
          let mag := if sel != sel0 then roundAt .rne false m e (base + d - k) else mag0
          if f ≤ mag then (DxEl.bits six { sel := sel, sign := n, mag := f - 1 }, true)
          else (DxEl.bits six { sel := sel, sign := n, mag := mag }, false)
        | _ => (0, false)
      ((base + 127).toNat * 256 + d.toNat * 32, els.map (·.1), els.any (·.2))

/-- The memory image of a DX block (R76). -/
def dxBytes (six : Bool) (hdr : Nat) (els : List Nat) : List Byte :=
  natLe 2 hdr ++
    if six then natLe 24 (els.foldr (fun e acc => e + 64 * acc) 0) else els.map (BitVec.ofNat 8)

/-- The elements of a DX block in memory (R76). -/
def dxOfBytes (six : Bool) (bs : List Byte) : Nat × List Nat :=
  let hdr := leAt bs 0 2
  if six then
    let v := leNat (bs.drop 2)
    (hdr, (List.range 32).map fun k => nbits v (6 * k) 6)
  else (hdr, (bs.drop 2).map (·.toNat))

/-! ## SBF16 -/

/-- Element of an SBF16 block: bf16 × 2^(S - 127), NaN when S is 255 (R80). -/
def sbfValue (s v : Nat) : FV :=
  if s = 255 then .nan
  else match fdec bf16 false v with
    | .fin n m e => .fin n m (e + (s : Int) - 127)
    | x => x

/-- A scale record matches the block of this linear index (R80, R82). -/
def scaleOk (rec' lin : Nat) : Bool := nbits rec' 12 4 = 0 && nbits rec' 8 4 = lin % 16

/-! ## WFX320 and reduction cells -/

/-- The signed units of 2^-160 of a finite value (R86). -/
def wfxOf (n : Bool) (m : Nat) (e : Int) : Int :=
  let k : Int := ((if -160 ≤ e then m <<< (e + 160).toNat else m >>> (-160 - e).toNat : Nat) : Int)
  if n then -k else k

/-- Read-out of a sum with its NaN, +inf and -inf marks (R87). -/
def wfxRead (f : Fmt) (sum : Int) (nan pinf ninf : Bool) : Nat :=
  if nan || (pinf && ninf) then f.nan
  else if pinf then f.inf
  else if ninf then f.signed true f.inf
  else fround f .rne false (.fin (decide (sum < 0)) sum.natAbs (-160))

/-! ## Rounding to integers (R277, R282, R182) -/

/-- Round a value to an integer and clamp to [lo, hi]; the flag says a clamp changed it or a NaN became 0. -/
def toIntClamp (r : Rnd) (lo hi : Int) : FV → Int × Bool
  | .nan => (0, true)
  | .inf n => (if n then lo else hi, true)
  | .fin n m e =>
    if ¬ m = 0 ∧ 200 < ilog m e then (if n then lo else hi, true)
    else
      let k := FV.roundInt r 0 (.fin n m e)
      if k < lo then (lo, true) else if hi < k then (hi, true) else (k, false)

/-- Range of an integer type of w bits. -/
def intRange (w : Nat) (sgn : Bool) : Int × Int :=
  if sgn then (-((2 ^ (w - 1) : Nat) : Int), ((2 ^ (w - 1) - 1 : Nat) : Int)) else (0, ((2 ^ w - 1 : Nat) : Int))

/-- The exact value v × 2^t of a drained element (R95). -/
def drainFV (v t : Int) : FV := .fin (decide (v < 0)) v.natAbs t

/-! ## TBR (R119) -/

/-- Literal bytes of a run, from position p of the stream. -/
def tbrLits (re : Nat → List Byte → Byte → Byte) (p : Nat) (out lits : List Byte) : List Byte :=
  lits.zipIdx.foldl (fun o (b, i) => o ++ [re (p + i) o b]) out

/-- tbr_decode on the part of a stream that could be read: left counts the bytes of the whole stream still to come, p
those that are read, and re p o b is the byte read at position p when o has been written. The status is none where the
readable part ran out; the third part is what an interrupted literal run can still deliver. fuel bounds the tokens. [DESIGN CHOICE: log 28] -/
def tbrDecode (re : Nat → List Byte → Byte → Byte) (lim : Nat) :
    Nat → Nat → Nat → List Byte → List Byte → Option Nat × List Byte × List Byte
  | 0, _, _, _, out => (some 0, out, [])
  | _ + 1, 0, _, _, out => (some 0, out, [])
  | _ + 1, _ + 1, _, [], out => (none, out, [])
  | fuel + 1, left + 1, p, c :: src, out =>
    let h := re p out c
    if h.toNat < 128 then
      let len := h.toNat + 1
      if left < len then (some 0x22, out, [])
      else if lim < out.length + len then (some 0x21, out, [])
      else if src.length < len then (none, out, (tbrLits re (p + 1) out src).drop out.length)
      else tbrDecode re lim fuel (left - len) (p + 1 + len) (src.drop len) (tbrLits re (p + 1) out (src.take len))
    else if left = 0 then (some 0x22, out, [])
    else
      match src with
      | [] => (none, out, [])
      | b :: rest =>
        let len := nbits h.toNat 3 4 + 3
        let off := nbits h.toNat 0 3 * 256 + (re (p + 1) out b).toNat + 1
        if out.length < off then (some 0x20, out, [])
        else if lim < out.length + len then (some 0x21, out, [])
        else tbrDecode re lim fuel (left - 1) (p + 2) rest
          ((List.range len).foldl (fun o _ => o ++ [o.getD (o.length - off) 0]) out)

end Sys2Proof.Machine
end

