-- ==== Sys2Proof/Machine/Vote.lean ====
section
/-! DEFINITION. The vote of a wattle (R21, R25), serial mode (R26 to R28), and when a thread can issue (R31). -/

namespace Sys2Proof.Machine

/-! ## The vote (R21) -/

/-- Release every meeting that is complete: one pass over the meeting sets as they stand (R21 step 1). [DEDUCED: log 77] -/
def meetPass (t : Thr) : Thr :=
  let ls := (List.range t.lanes.length).filter fun l => (laneOf t l).live
  let done (l : Nat) : Bool :=
    let n := laneOf t l
    !(n.mtg = nullMtg) && ls.all fun k =>
      let m := laneOf t k
      !(m.mtg = n.mtg && m.depth = n.depth) || m.pc = n.mtg
  (ls.filter done).foldl (fun u l => updLane u l fun n =>
    if 0 < n.depth then { n with mtg := n.stk.headD nullMtg, stk := n.stk.tail, depth := n.depth - 1 }
    else { n with mtg := nullMtg }) t

/-- Release every meeting that is complete; a meeting that a release completes is released in the same cycle (R21). A lane
has at most five. [DEDUCED: log 77] -/
def meetRelease (t : Thr) : Thr := meetPass (meetPass (meetPass (meetPass (meetPass t))))

/-- Voters: live lanes that are not held (R10, R21). [DEDUCED: log 77] -/
def voters (t : Thr) : List Nat := (List.range t.lanes.length).filter fun l => (laneOf t l).live && !(laneOf t l).held

/-- The smallest of PCs. -/
def minPc : List Addr → Option Addr
  | [] => none
  | p :: ps => some (ps.foldl (fun a b => if b < a then b else a) p)

/-- The largest of PCs. -/
def maxPc : List Addr → Option Addr
  | [] => none
  | p :: ps => some (ps.foldl (fun a b => if a < b then b else a) p)

/-- The lanes of a list at a PC. -/
def lanesAt (t : Thr) (ls : List Nat) (p : Addr) : BitVec 32 := maskOf (ls.filter fun l => (laneOf t l).pc = p)

/-- Outcome of a vote: the sets a and b, and the thread with its fairness counter. -/
structure Vote where
  a : Option (BitVec 32 × Addr) := none
  b : Option (BitVec 32 × Addr) := none
  t : Thr
  deriving DecidableEq, Repr

/-- Steps 2 and 3 of R21 in normal mode; `force` puts the highest set in the place of pc_b. -/
def voteNormal (force : Bool) (t : Thr) : Vote :=
  let t := meetRelease t
  let vs := voters t
  match minPc (vs.map fun l => (laneOf t l).pc), maxPc (vs.map fun l => (laneOf t l).pc) with
  | some pa, some ph =>
    let pb := minPc ((vs.map fun l => (laneOf t l).pc).filter fun p => !(p = pa))
    let pb := if force then some ph else pb
    let issuedH := ph = pa || some ph = pb
    { a := some (lanesAt t vs pa, pa), b := pb.map fun p => (lanesAt t vs p, p)
      t := { t with starve := if issuedH then 0 else (t.starve + 1) % 4096, fairsw := t.fairsw + (if force then 1 else 0) } }
  | _, _ => { t := t }

/-- The fairness switch of a wattle is due (R21, R25): starve has reached 2,048 and the highest set would not issue. -/
def fairDue (t : Thr) : Bool :=
  let u := meetRelease t
  let ps := (voters u).map fun l => (laneOf u l).pc
  !t.serial && decide (2048 ≤ t.starve) &&
    match minPc ps, maxPc ps with
    | some pa, some ph => !(ph = pa) && !(some ph = minPc (ps.filter fun p => !(p = pa)))
    | _, _ => false

/-- A live lane of serial mode that has stopped at its target (R27). -/
def stopped (n : Lane) : Bool := n.live && n.pc = n.tgt && n.nest = 0 && !(n.tgt = nullMtg)

/-- The live lanes of serial mode that have not stopped. -/
def unstopped (t : Thr) : List Nat := (List.range t.lanes.length).filter fun l => (laneOf t l).live && !stopped (laneOf t l)

/-- The next of some lanes in ascending order from lane r, wrapping. -/
def nextLane (ls : List Nat) (r : Nat) : Nat := (ls.filter fun k => decide (r < k)).headD (ls.headD 0)

/-- Serial mode: the running lane, or the next unstopped one (R27). Lanes that have arrived at a hardware barrier do not issue
(R320). [DESIGN CHOICE: log 83, 106] -/
def voteSerial (t : Thr) : Vote :=
  let cand := (unstopped t).filter fun l => !(laneOf t l).arrived.isSome
  if cand.isEmpty then { t := t }
  else
    let same := cand.contains t.running
    let l := if same then t.running else nextLane cand t.running
    let n := laneOf t l
    let t := { t with running := l, starve := if same then t.starve + 1 else 1 }
    { a := some (1#32 <<< l, n.pc), t := t }

/-- Serial rotation is due (R27): 2,048 issue cycles without the running lane stopping. -/
def rotateDue (t : Thr) : Bool :=
  t.serial && decide (2048 ≤ t.starve) && (unstopped t).contains t.running && !(laneOf t t.running).arrived.isSome

/-- The vote of a thread (R21, R27). -/
def vote (t : Thr) : Vote := if t.serial then voteSerial t else voteNormal false t

/-- A serial wattle whose live lanes have all stopped or exited is in normal mode again (R28). [DESIGN CHOICE: log 83] -/
def serialReturn (t : Thr) : Thr :=
  if t.serial && (unstopped t).isEmpty then { t with serial := false, running := 0, starve := 0 } else t

/-- A thread that holds nothing and has a set to issue can issue in this cycle (R31): its STALL count has elapsed and its
leave actions are done. -/
def canIssue (s : State) (c t : Nat) : Bool :=
  let h := thrOf s c t
  (grpOf s c).st = .running && h.hold = none && !h.leaving && decide (h.nextIssue ≤ (coreOf s c).cycle) &&
    (h.second.isSome || (vote h).a.isSome)

end Sys2Proof.Machine
end

