-- ==== Sys2Proof/Machine/Operands.lean ====
section
/-! DEFINITION. Operands: reading every source form (R191, R195, R197, R219 to R229), the checks of R205 steps 6 and 7
that all instructions share, results (R220, R222, R226), and the end of an instruction (R200, R201, R224). -/

namespace Sys2Proof.Machine

/-! ## Reading sources -/

/-- A value read from an operand: its words, low first, and poison. -/
structure Val where
  w : List Word := [0]
  p : Bool := false
  deriving DecidableEq, Repr

/-- Words as one number, low first. -/
def wordsNat : List Word → Nat
  | [] => 0
  | w :: ws => w.toNat + 2 ^ 32 * wordsNat ws

/-- The n low words of a number. -/
def natWords : Nat → Nat → List Word
  | 0, _ => []
  | n + 1, v => BitVec.ofNat 32 v :: natWords n (v / 2 ^ 32)

/-- The value as a number. -/
def Val.n (v : Val) : Nat := wordsNat v.w

/-- One word of a source: a main-file register, a value read elsewhere, or a slot without a home. -/
inductive Part where
  | reg (r : Nat)
  | got (v : Ver)
  | bad
  deriving DecidableEq, Repr

/-- The value of a special register of a lane, 64 bits (R197). [DESIGN CHOICE: log 102] -/
def specialVal (s : State) (l ix : Nat) : Nat :=
  let c := s.cur.core
  let t := curThr s
  let g := grpOf s c
  if 0x38 ≤ ix then (if predOf t l (ix - 0x38) then 1 else 0)
  else match ix with
    | 0x01 => l
    | 0x02 => s.cur.thr
    | 0x03 => g.gx
    | 0x04 => g.gy
    | 0x05 => g.gz
    | 0x06 => g.dims.1
    | 0x07 => g.dims.2.1
    | 0x08 => g.dims.2.2
    | 0x09 => g.wattles
    | 0x0A => inQuad c
    | 0x0B => ((mgetD s.xl.lquads g.part []).findIdx? (· = quadOf c)).getD 0
    | 0x0C => match s.cur.held with
      | some (t, _, _) => t
      | none => nowNs s
    | 0x0D => (tagBits s c).toNat
    | 0x0E => s.cur.mask.toNat
    | 0x0F => (liveMask t).toNat
    | 0x10 => (laneOf t l).mtg.toNat
    | 0x11 => (laneOf t l).depth
    | 0x12 => g.args.toNat
    | 0x13 => g.stage
    | 0x14 => slimit g
    | 0x15 => lentBytes g
    | 0x16 => (laneOf t l).hc
    | 0x17 => g.prio
    | 0x18 => g.heat
    | _ => 0

/-- IMM as a source of n words, integer or float (R195). -/
def immVal (x : Form) (n : Nat) (flt : Bool) : Nat :=
  if flt then x.imm.toNat * 16 else ofSigned (32 * n) (toSigned 28 x.imm.toNat)

/-- What a slot held before its first write: no value is stated (R222). [DESIGN CHOICE: log 3] -/
def earlySlot (s : State) (l k : Nat) : Word :=
  BitVec.ofNat 32 (Config.freeNat (openAt s 15 (tkey s.cur.core s.cur.thr * 2 ^ 12 + l * 8 + k)))

/-- The words of a source field in a lane, as a read in core cycle c finds them. -/
def partsOf (s : State) (x : Form) (l c : Nat) (o : Opnd) (n : Nat) (flt : Bool) : List Part :=
  let t := curThr s
  let ix := o.index.toNat
  match o.space with
  | .main => (List.range n).map fun i => .reg (ix + i)
  | .cache => (List.range n).map fun i =>
      let v := readSlot (slotOf t l (ix + i)) c
      match v.st with
      -- a slot read too early has what it held before its first write, and never faults (R222, R223)
      | .none => if (slotOf t l (ix + i)).cur.st = .none then .bad else .got { v := earlySlot s l (ix + i) }
      | .invalid => .reg v.home
      | _ => .got v.ver
  | .latch =>
      let h := latOf t l ix
      if h.valid then (List.range n).map fun i => .got { v := (h.v >>> (32 * i)).setWidth 32, poison := h.poison }
      else [.bad]
  | .special =>
      let v := if ix = 0 then immVal x n flt else specialVal s l ix
      (natWords n v).map fun w => .got { v := w }

/-- The version behind a part. -/
def partVer (t : Thr) (l c : Nat) : Part → Ver
  | .reg r => readVer (regOf t l r) c
  | .got v => v
  | .bad => {}

/-- A register of the part is not yet restored (R412). -/
def partAbsent (t : Thr) (l : Nat) : Part → Bool
  | .reg r => (regOf t l r).absent
  | _ => false

/-- What a read of a version delivers: a dead register reads 0, full and not poisoned (R229). -/
def Ver.word (v : Ver) : Word := if v.dead then 0 else v.v
/-- Poison of a read. -/
def Ver.pois (v : Ver) : Bool := v.poison && !v.dead
/-- A read finds the register empty. -/
def Ver.empty (v : Ver) : Bool := !v.full && !v.dead

/-- The value of a source field in a lane. -/
def valOf (s : State) (x : Form) (l c : Nat) (o : Opnd) (n : Nat) (flt : Bool) : Val :=
  let vs := (partsOf s x l c o n flt).map (partVer (curThr s) l c)
  { w := vs.map Ver.word, p := vs.any Ver.pois }

/-! ## The fields an instruction reads -/

/-- A source field: number of R403, operand, registers, float. -/
structure Field where
  no : Nat
  o : Opnd
  n : Nat
  flt : Bool := false
  deriving DecidableEq, Repr

/-- The source of a request, if any. -/
def srcField (no : Nat) (o : Opnd) : SReq → List Field
  | .none => []
  | .src n flt _ => [{ no := no, o := o, n := n, flt := flt }]
  | .pred => [{ no := no, o := o, n := 1 }]
  | .noPred => [{ no := no, o := o, n := 1 }]

/-- The sources of an instruction in the order D, A, B, C. -/
def fieldsOf (i : Instr) (x : Form) : List Field :=
  let sh := i.shape
  (match sh.d with
    | .src n => [{ no := 2, o := x.d, n := n }]
    | .mainReg n => [{ no := 2, o := x.d, n := n }]
    | _ => []) ++ srcField 3 x.a sh.a ++ srcField 4 x.b sh.b ++ (if sh.c = .none then [] else srcField 5 x.c sh.c)

/-- Registers of the destination, 0 for none. -/
def dregs (i : Instr) : Nat :=
  match i.shape.d with
  | .reg n => n
  | .mainReg n => n
  | _ => 0

/-- Instructions that act once for the wattle on the operands of its lowest active lane (R201, R324, R347). -/
def actsOnce : Instr → Bool
  | .launch _ | .sleep _ | .binit _ | .barrive _ | .bwait _ | .bexpect _ | .bdrop _ | .cpy _ | .cpyj _ | .sadv _
  | .twait _ | .twany _ | .tfirst _ | .tclr _ | .basis _ | .oclm _ | .orel _ | .oload _ | .aclr _ | .adrain _
  | .scld _ | .mjob _ | .mstat _ | .btjob _ | .csrr _ | .csrw _ | .csrs _ | .csrc _ | .ckpt _ | .rsto _
  | .tlbiVa _ | .tlbiAsid _ | .tlbiAll _ | .time _ | .resize _ | .tierh _ | .perf _ | .parkHalt _ | .parkRun _
  | .parkQuery _ => true
  | .send x => x.f 0 6 = 0 || decide (16 ≤ x.f 0 6)
  | _ => false

/-- The basis that an ASID sees under an id of an engine: 0 and 1 always, the firmware's defaults until BASIS replaces
them; 2 to 15 when the ASID loaded them (R90, R285, R414). [DEDUCED: log 35] -/
def basisIn (e : Eng) (asid id : Nat) : Option BasisEnt :=
  match mget e.bases id with
  | some b => if decide (id ≤ 1) || b.asid = some asid then some b else none
  | none =>
    if id = 0 then some { moduli := basisFull, n := 10 }
    else if id = 1 then some { moduli := basisPair, n := 4 }
    else none

/-- The basis a core sees under an id (R285). -/
def basisOf (s : State) (c id : Nat) : Option BasisEnt := basisIn (engOf s (quadOf c)) (grpOf s c).asid id

/-- The lanes whose sources are read, ascending: RMRC reads the first n + 2 of each half only (R289). -/
def readLanes (i : Instr) (x : Form) (s : State) : List Nat :=
  let ls := lanesOf (actMask s x)
  if actsOnce i then ls.take 1
  else match i with
  | .rmrc _ => match basisOf s s.cur.core (x.f 0 4) with
    | some b => ls.filter fun l => decide (l % 16 < b.n + 2)
    | none => ls
  | _ => ls

/-! ## Occupancy and timing (R222, R223, R64, R365) -/

/-- The core cycle in which an instruction issues, and whose values it reads, also when it was held since (R222, R224); the
FE does not issue before its sources are readable (R365). [DEDUCED: log 9] -/
def readCycle (s : State) : Nat := s.cur.cyc.getD (curCycle s)

/-- Main-file registers that the sources A, B and C of the active lanes name, slots redirected included. -/
def fileRegs (i : Instr) (x : Form) (s : State) : List Nat :=
  let c := readCycle s
  ((readLanes i x s).flatMap fun l => ((fieldsOf i x).filter fun f => !(f.no = 2)).flatMap fun f =>
    (partsOf s x l c f.o f.n f.flt).filterMap fun p => match p with
      | .reg r => some r
      | _ => none).eraseDups

/-- Registers of the most crowded bank. [DEDUCED: log 9] -/
def crowd (rs : List Nat) : Nat :=
  ((List.range 4).map fun b => (rs.filter fun r => r % 4 = b).length).foldl max 0

/-- Issue cycles that bank conflicts add to the one of an instruction of a wattle (R223); lent sources never conflict (R64).
[DEDUCED: log 9] -/
def conflicts (i : Instr) (x : Form) (s : State) : Nat :=
  match s.cur.cost with
  | some k => k.2
  | none => crowd ((fileRegs i x s).filter fun r => !isLent (curThr s) (actMask s x) r) - 1

/-- Issue cycles of an instruction of a wattle (R223, R64). [DEDUCED: log 9; DESIGN CHOICE: log 84] -/
def occupancy (i : Instr) (x : Form) (s : State) : Nat :=
  match s.cur.cost with
  | some k => k.1
  | none => 1 + conflicts i x s + (if (fileRegs i x s).any (isLent (curThr s) (actMask s x)) then 2 else 0)

/-- Issue cycles and bank conflicts are those of the issue, whatever the wait that follows does to the sources (R223). [DEDUCED: log 9] -/
def noteCost (i : Instr) (x : Form) (s0 s : State) : State :=
  { s with cur := { s.cur with cost := some (occupancy i x s0, conflicts i x s0) } }

/-- The last issue cycle, from which a result is timed (R223, R64). [DEDUCED: log 9] -/
def lastCycle (i : Instr) (x : Form) (s : State) : Nat :=
  if curFe s then readCycle s else readCycle s + occupancy i x s - 1

/-- The cycle in which the instruction completes: its last issue cycle, or the later one in which its wait is over (R293). [DEDUCED: log 9] -/
def endCycle (i : Instr) (x : Form) (s : State) : Nat := max (curCycle s) (lastCycle i x s)

/-- The s-registers that an FE instruction reads: those of its sources, and the carried ones of SPAWN (R298). -/
def feSources (i : Instr) (x : Form) : List Nat :=
  ((fieldsOf i x).flatMap fun f => match f.o.space with
    | .main => (List.range f.n).map (f.o.index.toNat + ·)
    | _ => []) ++ (match i with
    | .spawn _ => List.range 8
    | _ => [])

/-- An FE instruction is held for a source whose result is not yet readable (R365). [DEDUCED: log 13] -/
def feWaits (i : Instr) (x : Form) (s : State) : Bool :=
  curFe s && (feSources i x).any fun n => decide (curCycle s < (regOf (curThr s) 0 n).cur.rdy)

/-- A source of the instruction in a lane. -/
def fieldVal (x : Form) (s : State) (l : Nat) (f : Field) : Val :=
  valOf s x l (readCycle s) f.o f.n f.flt

/-- The source with a field number in a lane. -/
def srcNo (i : Instr) (x : Form) (s : State) (no l : Nat) : Val :=
  match (fieldsOf i x).find? fun f => f.no = no with
  | some f => fieldVal x s l f
  | none => {}

/-- Any source read in the lane is poisoned (R228). -/
def poisonedIn (i : Instr) (x : Form) (s : State) (l : Nat) : Bool :=
  (fieldsOf i x).any fun f => (fieldVal x s l f).p

/-! ## The checks that all instructions share -/

/-- Main-file registers named by a field, homes of a cache destination included. -/
def namedRegs (o : Opnd) (n : Nat) (dst : Bool) : List Nat :=
  match o.space with
  | .main => (List.range n).map (o.index.toNat + ·)
  | .cache => if dst then (List.range n).map (o.index.toNat + ·) else []
  | _ => []

/-- Step 6 of R205: the first register named in a block that the wattle does not hold (R46, R230). [DEDUCED: log 13] -/
def notHeld (i : Instr) (x : Form) (s : State) : Option Nat :=
  if curFe s then none
  else
    let rs := (fieldsOf i x).filter (fun f => f.no = 2) |>.flatMap (fun f => namedRegs f.o f.n false)
    let rs := rs ++ namedRegs x.d (dregs i) true ++
      ((fieldsOf i x).filter fun f => !(f.no = 2)).flatMap fun f => namedRegs f.o f.n false
    rs.find? fun r => !holds (curThr s) (grpOf s s.cur.core) r

/-- Lanes in which a source field has a property of its parts. -/
def fieldMask (i : Instr) (x : Form) (s : State) (f : Field) (p : Nat → Part → Bool) : BitVec 32 :=
  let c := readCycle s
  maskOf ((readLanes i x s).filter fun l => (partsOf s x l c f.o f.n f.flt).any (p l))

/-- A part is empty for a read. -/
def partEmpty (s : State) (l : Nat) (p : Part) : Bool := (partVer (curThr s) l (readCycle s) p).empty

/-- The first source field with the trap-on-empty flag that is empty (R227), with its lanes. [DEDUCED: log 13] -/
def trapEmptyAt (i : Instr) (x : Form) (s : State) : Option (Nat × BitVec 32) :=
  (fieldsOf i x).findSome? fun f =>
    if !(f.o.space = .main || f.o.space = .cache) || !f.o.trapEmpty then none
    else
      let m := fieldMask i x s f fun l p => partEmpty s l p && !partAbsent (curThr s) l p
      if m = 0 then none else some (f.no, m)

/-- The first source field that names an invalid latch or a slot without a home (R220, R221), with its lanes. [DEDUCED: log 13] -/
def latchBadAt (i : Instr) (x : Form) (s : State) : Option (Nat × BitVec 32) :=
  (fieldsOf i x).findSome? fun f =>
    let m := fieldMask i x s f fun _ p => p = .bad
    if m = 0 then none else some (f.no, m)

/-- A source is empty in some lane that reads it. -/
def srcEmpty (i : Instr) (x : Form) (s : State) : Bool :=
  (fieldsOf i x).any fun f => !(fieldMask i x s f (fun l p => partEmpty s l p) = 0)

/-- A source is not yet restored in some lane that reads it (R412). -/
def srcAbsent (i : Instr) (x : Form) (s : State) : Bool :=
  (fieldsOf i x).any fun f => !(fieldMask i x s f (fun l p => partAbsent (curThr s) l p) = 0)

/-- A destination register or slot is empty in an active lane (R226). -/
def dstBusy (i : Instr) (x : Form) (s : State) : Bool :=
  !(dregs i = 0) && (lanesOf (actMask s x)).any fun l => dstEmpty (curThr s) (dstOf x (dregs i)) l

/-- The checker that fires on the issuing instruction (R404). -/
def checkerHit (s : State) : Option Nat :=
  match (curThr s).pchk with
  | some (k + 1, p) => if p = none || p = some s.cur.pc then some (k + 1) else none
  | _ => none

/-- Everything that all instructions need in order to run now: registers held, an active lane, sources full, readable and
valid, destinations full, and no checker fired. -/
structure Runs (i : Instr) (x : Form) (s : State) : Prop where
  /-- no checker fired on it (R404). -/
  chk : checkerHit s = none
  /-- its sources are readable, in the FE (R365). -/
  ready : feWaits i x s = false
  /-- its registers are held (R46). -/
  held : notHeld i x s = none
  /-- a lane is active (R201). -/
  act : actMask s x ≠ 0
  /-- no source with the trap flag is empty (R227). -/
  trap : trapEmptyAt i x s = none
  /-- latch and slot sources are valid (R220, R221). -/
  latch : latchBadAt i x s = none
  /-- sources are full and restored (R226, R412). -/
  full : srcEmpty i x s = false
  /-- sources are restored. -/
  here : srcAbsent i x s = false
  /-- destinations are full (R226). -/
  free : dstBusy i x s = false

/-! ## Leaving the active set -/

/-- Another resident wattle is ready and waits for a place (R32, R33). -/
def readyWaiter (s : State) (c w : Nat) : Bool :=
  (grpOf s c).resident.any fun v => !(v = w) && (thrOf s c v).slot = none && canIssue s c v

/-- The issuing wattle leaves its place (R32). -/
def leavePlace (s : State) : State := updCur s fun t => { t with slot := none }

/-- The leave actions of the issuing thread (R224): at once, or before its next instruction when the other set of the
cycle has still to read its sources. -/
def leaveSoon (s : State) : State :=
  if s.cur.dual.isSome || (curThr s).hold.isSome then updCur s fun t => { t with leaving := true }
  else leaveNow s s.cur.core s.cur.thr

/-- A yield point at which the wattle need not leave (R32, R224). -/
def yieldNow (s : State) : State :=
  if curFe s then s
  else
    let s := leaveSoon s
    if readyWaiter s s.cur.core s.cur.thr then leavePlace s else s

/-! ## The end of an instruction -/

/-- Sources marked dead take effect (R229, R221), and reads of dead registers set DEADRD. [DEDUCED: log 18] -/
def killDead (i : Instr) (x : Form) (s : State) : State :=
  let c := readCycle s
  let ls := readLanes i x s
  let fs := fieldsOf i x
  let sawDead := ls.any fun l => fs.any fun f => (partsOf s x l c f.o f.n f.flt).any fun p => (partVer (curThr s) l c p).dead
  updCur s fun t =>
    let t := ls.foldl (fun t l => fs.foldl (fun t f =>
      if !f.o.dead then t
      else match f.o.space with
        | .main => (List.range f.n).foldl (fun t k => updReg t l (f.o.index.toNat + k) killReg) t
        | .cache => (List.range f.n).foldl (fun t k => killSlots t s.cur.mask (f.o.index.toNat + k)) t
        | _ => t) t) t
    if sawDead then t.sticky 1 else t

/-- The PC of every issued lane advances by 12 (R201). [DEDUCED: log 9] -/
def advance (s : State) : State := updCur s fun t => passLanes t (lanesOf s.cur.mask)

/-- Set the PC of lanes. -/
def setPcs (s : State) (ls : List Nat) (f : Nat → Addr) : State :=
  updCur s fun t => ls.foldl (fun t l => updLane t l fun n => { n with pc := f l }) t

/-- Timing and counters of an instruction that completed in cycle last: next issue (R222, R223), ISSUED and the bank conflicts
of BANKCONF (R357). -/
def account (x : Form) (last conf : Nat) (s : State) : State :=
  let fe := curFe s
  updCur s fun t =>
    { t with
      nextIssue := max t.nextIssue (last + 1 + (if fe then 0 else x.stall.toNat))
      issued := (t.issued + 1) % 2 ^ 64
      bankconf := (t.bankconf + conf) % 2 ^ 64
      hold := t.hold.filter fun o => !(o.mask = s.cur.mask && o.pc = s.cur.pc)
      pchk := if t.pchk.any (fun p => !(p.2 = none || p.2 = some s.cur.pc)) then t.pchk else none
      retried := if t.retried = some s.cur.pc then none else t.retried }

/-- The blocked read of a held instruction was a yield point (R224). -/
def heldYield (s : State) : Bool :=
  match s.cur.held with
  | some (_, y, _) => y
  | none => false

/-- End of an instruction whose effect is done: PCs advance, counters, and the leave actions of a yield point. -/
def finish (i : Instr) (x : Form) (s0 : State) (always : Bool) (s : State) : State :=
  let s := advance s
  let s := account x (endCycle i x s0) (if curFe s0 then 0 else conflicts i x s0) s
  if curFe s0 then s
  else if x.yld then yieldNow s
  else if always || heldYield s0 then leaveSoon s
  else s

/-- An instruction with no active lane: the PC of the issued lanes advances, and YLD still yields (R201). -/
def skip (i : Instr) (x : Form) (s : State) : State := finish i x s false s

/-- The instruction carries the YLD hint (R200). -/
def yldOf (i : Instr) : Bool :=
  match i.form with
  | some x => x.yld
  | none => false

/-- The other set of the cycle holds the issuing thread (R22). [DEDUCED: log 16] -/
def otherHolds (s : State) : Bool :=
  match (curThr s).hold with
  | some o => !(o.mask = s.cur.mask && o.pc = s.cur.pc)
  | none => false

/-- Hold the issuing thread on this instruction. When the other set of the same cycle already holds it, this set issues
again, without a vote, once that one is done (R22). The wattle leaves its place where the wait always makes it leave, and
with the YLD hint when another is ready and waits (R32). [DEDUCED: log 16] -/
def holdOn (i : Instr) (s : State) (why : Why) (yields leaves begun : Bool) : State :=
  let t0 := match s.cur.held with
    | some (t, _, _) => t
    | none => nowNs s
  let y := yields || heldYield s
  if otherHolds s then updCur s fun t => { t with second := some (s.cur.mask, s.cur.pc) }
  else
  let s := updCur s fun t =>
    { t with hold := some { why := why, instr := i, word := s.cur.word, mask := s.cur.mask, pc := s.cur.pc, t0 := t0
                            cyc := readCycle s, cost := s.cur.cost
                            yields := y, begun := begun, dual := s.cur.dual
                            waits := (t.hold.filter fun o => o.mask = s.cur.mask && o.pc = s.cur.pc).bind (·.waits) } }
  if leaves || (yldOf i && !curFe s && readyWaiter s s.cur.core s.cur.thr) then leavePlace s else s

/-- How a thread is held for a source: the FE has not issued its instruction yet (R365). [DEDUCED: log 13] -/
def holdFor (s : State) : Why := if curFe s then .unissued else .retry

/-- Why an instruction does not reach its effect, with the state that follows; none when it runs. [DEDUCED: log 13] -/
def prelude (i : Instr) (x : Form) (s : State) : Option State :=
  match checkerHit s with
  | some k =>
    let again := (curThr s).retried = some s.cur.pc
    if policy s 0x02 = 1 ∧ ¬ again then
      -- discarded and issued once more (R404)
      some (updCur s fun t => { t with pchk := none, retried := some s.cur.pc, nextIssue := curCycle s + 1 })
    else some (trapWith (updCur s fun t => { t with pchk := some (k, some s.cur.pc) }) fun u =>
      enterTrap (notePchk u) { code := 0x15, mask := actMask s x, info := k, retried := again })
  | none =>
  match notHeld i x s with
  | some r => some (takeFault s { code := 0x0A, mask := s.cur.mask, info := r })
  | none =>
  if actMask s x = 0 then some (skip i x s)
  else if feWaits i x s then some (holdOn i s .unissued false false false)
  else match trapEmptyAt i x s with
  | some (no, m) => some (takeFault s { code := 0x07, mask := m, info := no })
  | none =>
  match latchBadAt i x s with
  | some (no, m) => some (takeFault s { code := 0x09, mask := m, info := no })
  | none =>
  if srcEmpty i x s then some (holdOn i s (holdFor s) (!srcAbsent i x s) (!curFe s && !srcAbsent i x s) false)
  else if srcAbsent i x s then some (holdOn i s (holdFor s) false false false)
  else if dstBusy i x s then some (holdOn i s .retry false false false)
  else none

/-- Run the effect of an instruction behind the shared checks. [DEDUCED: log 13] -/
def run (i : Instr) (x : Form) (s : State) (k : State) : Host.Outcome State Fault Refusal :=
  match prelude i x s with
  | some t => .next t
  | none => .next k

/-! ## Results -/

/-- Write a result of n words in each active lane, timed from core cycle c, and the latches (R219 to R222). -/
def putAt (c : Nat) (x : Form) (n : Nat) (s0 : State) (res : Nat → Val) (s : State) : State :=
  let act := actMask s0 x
  let fe := curFe s0
  updCur s fun t => (lanesOf act).foldl (fun t l =>
    let r := res l
    let t := writeWords t act (dstOf x n) l c r.p 0 r.w
    if fe then t else pushLatch t l (latchVal r.w) true r.p) t

/-- The result of a fixed-latency instruction, timed from the last of its issue cycles (R222, R223, R64). [DEDUCED: log 9] -/
def putFixed (i : Instr) (x : Form) (n : Nat) (s0 : State) (res : Nat → Val) (s : State) : State :=
  putAt (lastCycle i x s0) x n s0 res s

/-- The result of an instruction that holds the thread, timed from the cycle in which it completes (R293, R347). -/
def putDone (i : Instr) (x : Form) (n : Nat) (s0 : State) (res : Nat → Val) (s : State) : State :=
  putAt (endCycle i x s0) x n s0 res s

/-- A fixed-latency instruction: dead marks, result, end. -/
def fixed (i : Instr) (x : Form) (n : Nat) (s : State) (res : Nat → Val) : State :=
  finish i x s false (putFixed i x n s res (killDead i x s))

/-- Mark a long-latency destination empty in the active lanes and invalidate h0 (R220, R226). -/
def emptyAll (i : Instr) (x : Form) (n : Nat) (s0 s : State) : State :=
  let act := actMask s0 x
  let fe := curFe s0
  let _ := i
  updCur s fun t => (lanesOf act).foldl (fun t l =>
    let t := emptyDst t (dstOf x n) l
    if fe then t else pushLatch t l 0 false false) t

/-- A pending result of the issuing thread, due after an open time. [DEDUCED: log 10] -/
def addFill (x : Form) (n : Nat) (lanes : BitVec 32) (what : FillWhat) (s : State) (g : Fill → Fill) : State :=
  let (id, s) := freshId s
  let (d, s) := freeN s
  let f : Fill := { id := id, core := s.cur.core, thr := s.cur.thr, lanes := lanes, dst := dstOf x n, what := what
                    due := s.time + 1 + d, depth := (curThr s).tdepth }
  updMem s fun m => { m with fills := m.fills ++ [g f] }

/-- A long-latency instruction whose value is computed at issue. -/
def long (i : Instr) (x : Form) (n : Nat) (s : State) (res : Nat → Val) : State :=
  let act := actMask s x
  let vals := (lanesOf act).map fun l => (l, (res l).w, (res l).p)
  finish i x s false (addFill x n act (.value vals) (emptyAll i x n s (killDead i x s)) id)

/-- Set a sticky bit of NUMST when a lane asks for it. -/
def stickyIf (b : Bool) (bit : Nat) (s : State) : State := if b then updCur s fun t => t.sticky bit else s

/-- The first active lanes whose source field is poisoned, as a POISON_CONSUMED fault (R228). [DEDUCED: log 14] -/
def poisonFault (i : Instr) (x : Form) (s : State) (nos : List Nat) : Option FRec :=
  nos.findSome? fun no =>
    let ls := (readLanes i x s).filter fun l => (srcNo i x s no l).p
    if ls.isEmpty then none else some { code := 0x08, mask := maskOf ls, info := no }

/-- Write a predicate in each active lane (R248); a poisoned source raises POISON_CONSUMED (R228). -/
def toPred (i : Instr) (x : Form) (s : State) (res : Nat → Bool) : State :=
  match poisonFault i x s [3, 4, 5] with
  | some f => takeFault s f
  | none =>
    let p := x.d.index.toNat - 0x38
    finish i x s false (updCur (killDead i x s) fun t =>
      (lanesOf (actMask s x)).foldl (fun t l => setPred t l p (res l)) t)

end Sys2Proof.Machine
end

