-- ==== Sys2Proof/Machine/FloatIns.lean ====
section
/-! DEFINITION. Class 1: floating point instructions (R262 to R274). -/

namespace Sys2Proof

open Sys2Proof.Machine

/-- Type code in MOD[1:0] (R262). -/
def Form.ty (x : Form) : Nat := x.m 0 2
/-- Rounding mode in MOD[3:2] (R73). -/
def Form.rnd (x : Form) : Rnd := Rnd.ofCode (x.m 2 2)
/-- FTZ in MOD[4] (R74). -/
def Form.ftz (x : Form) : Bool := x.m 4 1 = 1

end Sys2Proof

namespace Sys2Proof.Machine

/-- A float source in a lane, with its float modifier on each element of the type (R191, R263). -/
def fsrc (i : Instr) (x : Form) (s : State) (no ty l : Nat) : Nat :=
  let md := (if no = 3 then x.a else if no = 4 then x.b else x.c).fmod
  fmap1 ty (fun f v => fmodBits f md v) (srcNo i x s no l).n

/-- A fixed-latency float instruction: the result word of each lane. -/
def fltFixed (i : Instr) (x : Form) (s : State) (f : Nat → Nat) : Host.Outcome State Fault Refusal :=
  run i x s (fixed i x 1 s fun l => { w := [BitVec.ofNat 32 (f l)], p := poisonedIn i x s l })

/-- A long-latency float instruction (R264). -/
def fltLong (i : Instr) (x : Form) (s : State) (f : Nat → Nat) : Host.Outcome State Fault Refusal :=
  run i x s (long i x 1 s fun l => { w := [BitVec.ofNat 32 (f l)], p := poisonedIn i x s l })

/-- FADD (R266). -/
def execFadd (x : Form) (s : State) : Host.Outcome State Fault Refusal :=
  fltFixed (.fadd x) x s fun l =>
    fmap2 x.ty (fadd x.rnd x.ftz) (fsrc (.fadd x) x s 3 x.ty l) (fsrc (.fadd x) x s 4 x.ty l)
/-- FSUB (R266). -/
def execFsub (x : Form) (s : State) : Host.Outcome State Fault Refusal :=
  fltFixed (.fsub x) x s fun l =>
    fmap2 x.ty (fsub x.rnd x.ftz) (fsrc (.fsub x) x s 3 x.ty l) (fsrc (.fsub x) x s 4 x.ty l)
/-- FMUL (R266). -/
def execFmul (x : Form) (s : State) : Host.Outcome State Fault Refusal :=
  fltFixed (.fmul x) x s fun l =>
    fmap2 x.ty (fmul x.rnd x.ftz) (fsrc (.fmul x) x s 3 x.ty l) (fsrc (.fmul x) x s 4 x.ty l)
/-- FFMA (R266). -/
def execFfma (x : Form) (s : State) : Host.Outcome State Fault Refusal :=
  fltFixed (.ffma x) x s fun l =>
    fmap3 x.ty (ffma x.rnd x.ftz) (fsrc (.ffma x) x s 3 x.ty l) (fsrc (.ffma x) x s 4 x.ty l) (fsrc (.ffma x) x s 5 x.ty l)
/-- FMIN (R269). -/
def execFmin (x : Form) (s : State) : Host.Outcome State Fault Refusal :=
  fltFixed (.fmin x) x s fun l =>
    fmap2 x.ty (fun f => fminmax f false x.ftz) (fsrc (.fmin x) x s 3 x.ty l) (fsrc (.fmin x) x s 4 x.ty l)
/-- FMAX (R269). -/
def execFmax (x : Form) (s : State) : Host.Outcome State Fault Refusal :=
  fltFixed (.fmax x) x s fun l =>
    fmap2 x.ty (fun f => fminmax f true x.ftz) (fsrc (.fmax x) x s 3 x.ty l) (fsrc (.fmax x) x s 4 x.ty l)
/-- FDIV (R267). -/
def execFdiv (x : Form) (s : State) : Host.Outcome State Fault Refusal :=
  fltLong (.fdiv x) x s fun l =>
    fmap2 x.ty (fdiv x.rnd x.ftz) (fsrc (.fdiv x) x s 3 x.ty l) (fsrc (.fdiv x) x s 4 x.ty l)
/-- FSQRT (R267). -/
def execFsqrt (x : Form) (s : State) : Host.Outcome State Fault Refusal :=
  fltLong (.fsqrt x) x s fun l =>
    fmap1 x.ty (fsqrt x.rnd x.ftz) (fsrc (.fsqrt x) x s 3 x.ty l)
/-- FRCP (R268, R75). -/
def execFrcp (x : Form) (s : State) : Host.Outcome State Fault Refusal :=
  fltLong (.frcp x) x s fun l =>
    fmap1 x.ty (fapprox 0 x.ty x.ftz) (fsrc (.frcp x) x s 3 x.ty l)
/-- FRSQ (R268, R75). -/
def execFrsq (x : Form) (s : State) : Host.Outcome State Fault Refusal :=
  fltLong (.frsq x) x s fun l =>
    fmap1 x.ty (fapprox 1 x.ty x.ftz) (fsrc (.frsq x) x s 3 x.ty l)
/-- FEXP2 (R268, R75). -/
def execFexp2 (x : Form) (s : State) : Host.Outcome State Fault Refusal :=
  fltLong (.fexp2 x) x s fun l =>
    fmap1 x.ty (fapprox 2 x.ty x.ftz) (fsrc (.fexp2 x) x s 3 x.ty l)
/-- FLOG2 (R268, R75). -/
def execFlog2 (x : Form) (s : State) : Host.Outcome State Fault Refusal :=
  fltLong (.flog2 x) x s fun l =>
    fmap1 x.ty (fapprox 3 x.ty x.ftz) (fsrc (.flog2 x) x s 3 x.ty l)
/-- FSIN (R268, R75). -/
def execFsin (x : Form) (s : State) : Host.Outcome State Fault Refusal :=
  fltLong (.fsin x) x s fun l =>
    fmap1 x.ty (fapprox 4 x.ty x.ftz) (fsrc (.fsin x) x s 3 x.ty l)
/-- FCOS (R268, R75). -/
def execFcos (x : Form) (s : State) : Host.Outcome State Fault Refusal :=
  fltLong (.fcos x) x s fun l =>
    fmap1 x.ty (fapprox 5 x.ty x.ftz) (fsrc (.fcos x) x s 3 x.ty l)
/-- FCMP (R273). -/
def execFcmp (x : Form) (s : State) : Host.Outcome State Fault Refusal :=
  run (.fcmp x) x s (toPred (.fcmp x) x s fun l =>
    fcmp (x.m 2 4) (fsrc (.fcmp x) x s 3 0 l) (fsrc (.fcmp x) x s 4 0 l))
/-- FCLASS (R274). -/
def execFclass (x : Form) (s : State) : Host.Outcome State Fault Refusal :=
  fltFixed (.fclass x) x s fun l => fmap1 x.ty fclass (fsrc (.fclass x) x s 3 x.ty l)
/-- FRND (R270). -/
def execFrnd (x : Form) (s : State) : Host.Outcome State Fault Refusal :=
  fltFixed (.frnd x) x s fun l =>
    fmap1 x.ty (fun f => frnd f x.rnd x.ftz) (fsrc (.frnd x) x s 3 x.ty l)
/-- FDOT2: A and B packed, C and D f32 (R272). -/
def execFdot2 (x : Form) (s : State) : Host.Outcome State Fault Refusal :=
  fltFixed (.fdot2 x) x s fun l =>
    fdot2 x.rnd x.ftz x.ty (fsrc (.fdot2 x) x s 3 x.ty l) (fsrc (.fdot2 x) x s 4 x.ty l) (fsrc (.fdot2 x) x s 5 0 l)
/-- FSCALE: B is an integer, one per element for the packed types (R271). -/
def execFscale (x : Form) (s : State) : Host.Outcome State Fault Refusal :=
  fltFixed (.fscale x) x s fun l =>
    let b := (srcNo (.fscale x) x s 4 l).n
    if x.ty = 0 then fscale x.rnd x.ftz f32 (fsrc (.fscale x) x s 3 0 l) (toSigned 32 b)
    else
      let f := fmtOf x.ty
      let a := fsrc (.fscale x) x s 3 x.ty l
      fscale x.rnd x.ftz f (nbits a 0 16) (toSigned 16 b) + 2 ^ 16 * fscale x.rnd x.ftz f (nbits a 16 16) (toSigned 16 (b / 65536))

end Sys2Proof.Machine
end

