-- ==== Sys2Proof/WellFormed.lean ====
section
/-! DEFINITION. When an instruction is one that a word can say: it has a form, its stream executes it, and no field
fails the encoding checks of step 5 of R205. -/

namespace Sys2Proof

/-- The instruction passes steps 3 and 5 of R205 in the stream (R203, R190 to R199). -/
def Instr.wellFormed (st : Stream) (i : Instr) : Bool :=
  match i.form with
  | none => false
  | some x => i.streamOk st x && i.encodingFault st x false = none

end Sys2Proof
end

