-- ==== Sys2Proof/Decode.lean ====
section
/-! DEFINITION. Decoding a 96-bit word (R189, R202, R205 steps 2 to 5), total on any bits: a word gives its
instruction, the ILLEGAL_OPCODE row for an unassigned OPC, or a rejection by name; and the encoder. -/

namespace Sys2Proof

/-- Why a word is no instruction of the stream in the mode (R205 steps 3 to 5). -/
inductive Reject where
  | stream                    -- step 3: ILLEGAL_OPCODE
  | priv (info : Nat)         -- step 4: PRIV, with INFO
  | operand (field : Nat)     -- step 5: ILLEGAL_OPERAND, with the field of R403
  deriving DecidableEq, Repr

/-- The fields of a word (R189). -/
def Form.ofWord (w : IWord) : Form :=
  { mod := w.extractLsb' 80 6
    gn := w.getLsbD 79
    gp := w.extractLsb' 76 3
    d := Opnd.ofBits (w.extractLsb' 62 14)
    a := Opnd.ofBits (w.extractLsb' 48 14)
    b := Opnd.ofBits (w.extractLsb' 34 14)
    imm := w.extractLsb' 6 28
    stall := w.extractLsb' 3 3
    yld := w.getLsbD 2
    wb := w.getLsbD 1 }

/-- The instruction of a 10-bit OPC, none when it is unassigned (R202). -/
def Instr.ofOpc (opc : Nat) (x : Form) : Option Instr :=
  match opc with
  | 0x000 => some (.iadd x)
  | 0x001 => some (.isub x)
  | 0x002 => some (.imul x)
  | 0x003 => some (.imulh x)
  | 0x004 => some (.imulhn x)
  | 0x005 => some (.imad x)
  | 0x006 => some (.idiv x)
  | 0x007 => some (.idivn x)
  | 0x008 => some (.irem x)
  | 0x009 => some (.iremn x)
  | 0x00A => some (.ineg x)
  | 0x00B => some (.iabs x)
  | 0x00C => some (.imin x)
  | 0x00D => some (.imax x)
  | 0x00E => some (.iminn x)
  | 0x00F => some (.imaxn x)
  | 0x010 => some (.and x)
  | 0x011 => some (.or x)
  | 0x012 => some (.xor x)
  | 0x013 => some (.andn x)
  | 0x014 => some (.shl x)
  | 0x015 => some (.shrl x)
  | 0x016 => some (.shra x)
  | 0x017 => some (.rotl x)
  | 0x018 => some (.popc x)
  | 0x019 => some (.clz x)
  | 0x01A => some (.ctz x)
  | 0x01B => some (.brev x)
  | 0x01C => some (.bfx x)
  | 0x01D => some (.bfxn x)
  | 0x01E => some (.bfi x)
  | 0x01F => some (.isat x)
  | 0x020 => some (.icmp x)
  | 0x021 => some (.sel x)
  | 0x022 => some (.mov x)
  | 0x023 => some (.ldi x)
  | 0x024 => some (.lea x)
  | 0x080 => some (.fadd x)
  | 0x081 => some (.fsub x)
  | 0x082 => some (.fmul x)
  | 0x083 => some (.ffma x)
  | 0x084 => some (.fmin x)
  | 0x085 => some (.fmax x)
  | 0x086 => some (.fdiv x)
  | 0x087 => some (.fsqrt x)
  | 0x088 => some (.frcp x)
  | 0x089 => some (.frsq x)
  | 0x08A => some (.fexp2 x)
  | 0x08B => some (.flog2 x)
  | 0x08C => some (.fsin x)
  | 0x08D => some (.fcos x)
  | 0x08E => some (.fcmp x)
  | 0x08F => some (.fclass x)
  | 0x090 => some (.frnd x)
  | 0x091 => some (.fdot2 x)
  | 0x092 => some (.fscale x)
  | 0x100 => some (.cvt x)
  | 0x101 => some (.cvtdx x)
  | 0x102 => some (.undx x)
  | 0x103 => some (.maxabs x)
  | 0x104 => some (.blkscl x)
  | 0x105 => some (.qnt x)
  | 0x106 => some (.dqnt x)
  | 0x107 => some (.rmod x)
  | 0x108 => some (.rmad x)
  | 0x109 => some (.rsplit x)
  | 0x10A => some (.rmrc x)
  | 0x10B => some (.pack x)
  | 0x180 => some (.shfl x)
  | 0x181 => some (.vote x)
  | 0x182 => some (.redux x)
  | 0x183 => some (.scan x)
  | 0x184 => some (.matchL x)
  | 0x185 => some (.pand x)
  | 0x186 => some (.por x)
  | 0x187 => some (.pxor x)
  | 0x188 => some (.pmov x)
  | 0x200 => some (.bra x)
  | 0x201 => some (.brx x)
  | 0x202 => some (.call x)
  | 0x203 => some (.ret x)
  | 0x204 => some (.meet x)
  | 0x205 => some (.exit x)
  | 0x206 => some (.spawn x)
  | 0x207 => some (.rebask x)
  | 0x208 => some (.yield x)
  | 0x209 => some (.nop x)
  | 0x20A => some (.loop x)
  | 0x20B => some (.launch x)
  | 0x20C => some (.regacq x)
  | 0x20D => some (.regrel x)
  | 0x20E => some (.sleep x)
  | 0x20F => some (.send x)
  | 0x210 => some (.recv x)
  | 0x280 => some (.ld x)
  | 0x281 => some (.st x)
  | 0x282 => some (.sfill x)
  | 0x283 => some (.pref x)
  | 0x284 => some (.atom x)
  | 0x285 => some (.red x)
  | 0x286 => some (.lr x)
  | 0x287 => some (.sc x)
  | 0x288 => some (.fence x)
  | 0x289 => some (.cctl x)
  | 0x28A => some (.binit x)
  | 0x28B => some (.barrive x)
  | 0x28C => some (.bwait x)
  | 0x28D => some (.bexpect x)
  | 0x28E => some (.bdrop x)
  | 0x28F => some (.cbar x)
  | 0x290 => some (.qbar x)
  | 0x291 => some (.mwait x)
  | 0x300 => some (.cpy x)
  | 0x301 => some (.cpyj x)
  | 0x302 => some (.sadv x)
  | 0x303 => some (.twait x)
  | 0x304 => some (.twany x)
  | 0x305 => some (.tfirst x)
  | 0x306 => some (.tclr x)
  | 0x307 => some (.basis x)
  | 0x308 => some (.oclm x)
  | 0x309 => some (.orel x)
  | 0x30A => some (.oload x)
  | 0x30B => some (.qmma x)
  | 0x30C => some (.aclr x)
  | 0x30D => some (.adrain x)
  | 0x30E => some (.scld x)
  | 0x30F => some (.mjob x)
  | 0x310 => some (.mstat x)
  | 0x311 => some (.btjob x)
  | 0x380 => some (.trap x)
  | 0x381 => some (.eret x)
  | 0x382 => some (.csrr x)
  | 0x383 => some (.csrw x)
  | 0x384 => some (.csrs x)
  | 0x385 => some (.csrc x)
  | 0x386 => some (.ckpt x)
  | 0x387 => some (.rsto x)
  | 0x388 => some (if x.m 0 2 = 0 then .tlbiVa x else if x.m 0 2 = 1 then .tlbiAsid x else .tlbiAll x)
  | 0x389 => some (.time x)
  | 0x38A => some (.brk x)
  | 0x38B => some (.resize x)
  | 0x38C => some (.tierh x)
  | 0x38D => some (.perf x)
  | 0x38E => some (if x.m 0 2 = 0 then .parkHalt x else if x.m 0 2 = 1 then .parkRun x else .parkQuery x)
  | _ => none

/-- The OPC of an instruction (R202); an event has none. -/
def Instr.opc : Instr → Option (BitVec 10)
  | .iadd _ => some 0x000
  | .isub _ => some 0x001
  | .imul _ => some 0x002
  | .imulh _ => some 0x003
  | .imulhn _ => some 0x004
  | .imad _ => some 0x005
  | .idiv _ => some 0x006
  | .idivn _ => some 0x007
  | .irem _ => some 0x008
  | .iremn _ => some 0x009
  | .ineg _ => some 0x00A
  | .iabs _ => some 0x00B
  | .imin _ => some 0x00C
  | .imax _ => some 0x00D
  | .iminn _ => some 0x00E
  | .imaxn _ => some 0x00F
  | .and _ => some 0x010
  | .or _ => some 0x011
  | .xor _ => some 0x012
  | .andn _ => some 0x013
  | .shl _ => some 0x014
  | .shrl _ => some 0x015
  | .shra _ => some 0x016
  | .rotl _ => some 0x017
  | .popc _ => some 0x018
  | .clz _ => some 0x019
  | .ctz _ => some 0x01A
  | .brev _ => some 0x01B
  | .bfx _ => some 0x01C
  | .bfxn _ => some 0x01D
  | .bfi _ => some 0x01E
  | .isat _ => some 0x01F
  | .icmp _ => some 0x020
  | .sel _ => some 0x021
  | .mov _ => some 0x022
  | .ldi _ => some 0x023
  | .lea _ => some 0x024
  | .fadd _ => some 0x080
  | .fsub _ => some 0x081
  | .fmul _ => some 0x082
  | .ffma _ => some 0x083
  | .fmin _ => some 0x084
  | .fmax _ => some 0x085
  | .fdiv _ => some 0x086
  | .fsqrt _ => some 0x087
  | .frcp _ => some 0x088
  | .frsq _ => some 0x089
  | .fexp2 _ => some 0x08A
  | .flog2 _ => some 0x08B
  | .fsin _ => some 0x08C
  | .fcos _ => some 0x08D
  | .fcmp _ => some 0x08E
  | .fclass _ => some 0x08F
  | .frnd _ => some 0x090
  | .fdot2 _ => some 0x091
  | .fscale _ => some 0x092
  | .cvt _ => some 0x100
  | .cvtdx _ => some 0x101
  | .undx _ => some 0x102
  | .maxabs _ => some 0x103
  | .blkscl _ => some 0x104
  | .qnt _ => some 0x105
  | .dqnt _ => some 0x106
  | .rmod _ => some 0x107
  | .rmad _ => some 0x108
  | .rsplit _ => some 0x109
  | .rmrc _ => some 0x10A
  | .pack _ => some 0x10B
  | .shfl _ => some 0x180
  | .vote _ => some 0x181
  | .redux _ => some 0x182
  | .scan _ => some 0x183
  | .matchL _ => some 0x184
  | .pand _ => some 0x185
  | .por _ => some 0x186
  | .pxor _ => some 0x187
  | .pmov _ => some 0x188
  | .bra _ => some 0x200
  | .brx _ => some 0x201
  | .call _ => some 0x202
  | .ret _ => some 0x203
  | .meet _ => some 0x204
  | .exit _ => some 0x205
  | .spawn _ => some 0x206
  | .rebask _ => some 0x207
  | .yield _ => some 0x208
  | .nop _ => some 0x209
  | .loop _ => some 0x20A
  | .launch _ => some 0x20B
  | .regacq _ => some 0x20C
  | .regrel _ => some 0x20D
  | .sleep _ => some 0x20E
  | .send _ => some 0x20F
  | .recv _ => some 0x210
  | .ld _ => some 0x280
  | .st _ => some 0x281
  | .sfill _ => some 0x282
  | .pref _ => some 0x283
  | .atom _ => some 0x284
  | .red _ => some 0x285
  | .lr _ => some 0x286
  | .sc _ => some 0x287
  | .fence _ => some 0x288
  | .cctl _ => some 0x289
  | .binit _ => some 0x28A
  | .barrive _ => some 0x28B
  | .bwait _ => some 0x28C
  | .bexpect _ => some 0x28D
  | .bdrop _ => some 0x28E
  | .cbar _ => some 0x28F
  | .qbar _ => some 0x290
  | .mwait _ => some 0x291
  | .cpy _ => some 0x300
  | .cpyj _ => some 0x301
  | .sadv _ => some 0x302
  | .twait _ => some 0x303
  | .twany _ => some 0x304
  | .tfirst _ => some 0x305
  | .tclr _ => some 0x306
  | .basis _ => some 0x307
  | .oclm _ => some 0x308
  | .orel _ => some 0x309
  | .oload _ => some 0x30A
  | .qmma _ => some 0x30B
  | .aclr _ => some 0x30C
  | .adrain _ => some 0x30D
  | .scld _ => some 0x30E
  | .mjob _ => some 0x30F
  | .mstat _ => some 0x310
  | .btjob _ => some 0x311
  | .trap _ => some 0x380
  | .eret _ => some 0x381
  | .csrr _ => some 0x382
  | .csrw _ => some 0x383
  | .csrs _ => some 0x384
  | .csrc _ => some 0x385
  | .ckpt _ => some 0x386
  | .rsto _ => some 0x387
  | .tlbiVa _ | .tlbiAsid _ | .tlbiAll _ => some 0x388
  | .time _ => some 0x389
  | .brk _ => some 0x38A
  | .resize _ => some 0x38B
  | .tierh _ => some 0x38C
  | .perf _ => some 0x38D
  | .parkHalt _ | .parkRun _ | .parkQuery _ => some 0x38E
  | _ => none

/-- Steps 2 to 5 of R205 in their order: the first failing check decides. An unassigned OPC (step 2) is the row
ILLEGAL_OPCODE of the table. -/
def decode (st : Stream) (super : Bool) (w : IWord) : Except Reject Instr :=
  let x := Form.ofWord w
  match Instr.ofOpc (w.extractLsb' 86 10).toNat x with
  | none => .ok (.illegalOpcode w)
  | some i =>
    if !i.streamOk st x then .error .stream
    else
      match (if super then none else i.privInfo) with
      | some n => .error (.priv n)
      | none =>
        match i.encodingFault st x (w.getLsbD 0) with
        | some f => .error (.operand f)
        | none => .ok i

/-- The word of an OPC and its fields; the reserved bit is zero (R189). -/
def Form.toWord (opc : BitVec 10) (x : Form) : IWord :=
  opc ++ x.mod ++ BitVec.ofBool x.gn ++ x.gp ++ x.d.toBits ++ x.a.toBits ++ x.b.toBits ++ x.imm ++ x.stall ++
    BitVec.ofBool x.yld ++ BitVec.ofBool x.wb ++ (0 : BitVec 1)

/-- The word of an instruction (R189, R202); an unassigned word stands for itself, and an event has no word. -/
def encode (i : Instr) : Option IWord :=
  match i with
  | .illegalOpcode w => some w
  | _ =>
    match i.opc, i.form with
    | some o, some x => some (x.toWord o)
    | _, _ => none

/-- The 12 bytes of a word, lowest address first (R190). -/
def IWord.bytes (w : IWord) : List Byte := (List.range 12).map fun k => w.extractLsb' (8 * k) 8

/-- The word of 12 bytes, lowest address first (R190). -/
def IWord.ofBytes (bs : List Byte) : IWord :=
  BitVec.ofNat 96 (bs.foldr (fun b acc => b.toNat + 256 * acc) 0)

/-- What the decoder reads from a word whose low nbits bits are w and whose higher bits are zero: the wattle stream
in supervisor mode, and the FE stream for LOOP, which only the FE executes (R203). -/
def decodeTableWord (nbits w : Nat) : Option Instr :=
  let iw := IWord.ofBytes (IWord.bytes (BitVec.ofNat 96 (w % 2 ^ nbits)))
  match decode .wattle true iw with
  | .ok i => some i
  | .error .stream =>
    match decode .fe true iw with
    | .ok i => some i
    | .error _ => none
  | .error _ => none

end Sys2Proof
end

