-- ==== Sys2Proof/Machine/Issue.lean ====
section
/-! DEFINITION. Fetch (R190), the sets of a vote (R22, R25), the choice of a slot (R31), the turns of a cycle (R17), and
turning an issued set into the instruction it runs (R205 steps 1 to 5). -/

namespace Sys2Proof.Machine

/-! ## Fetch (R190) -/

/-- The physical address of a code byte, or the fault code. [DEDUCED: log 67] -/
def codePa (s : State) (c : Nat) (super : Bool) (va : Nat) : Except Nat Nat :=
  let g := grpOf s c
  if decide (2 ^ 52 ≤ va) || inReserved va then .error 0x05
  else match translate s c g.part g.asid super .exec va with
    | .error e => .error e
    | .ok (pa, _) => if !s.resets.isEmpty && homeDown s pa then .error notNow else .ok pa

/-- n code bytes from a virtual address; or the fault code and the faulting address (the lowest byte on the page). [DEDUCED: log 67] -/
def fetchBytes (s : State) (c : Nat) (super : Bool) (va : Nat) : Nat → Except (Nat × Nat) (List Byte)
  | 0 => .ok []
  | n + 1 =>
    match codePa s c super va with
    | .error e => .error (e, va)
    | .ok pa =>
      match fetchBytes s c super (va + 1) n with
      | .error e => .error e
      | .ok bs => .ok (codeByte s c pa :: bs)

/-- The instruction word at a PC (R189, R190). [DEDUCED: log 67] -/
def fetch (s : State) (c : Nat) (super : Bool) (pc : Addr) : Except (Nat × Nat) IWord :=
  match fetchBytes s c super pc.toNat 12 with
  | .error e => .error e
  | .ok bs => .ok (IWord.ofBytes bs)

/-- The fetch of a word reaches the walks and banks of its pages (R105, R379, R423); the thread does not wait for them. [DEDUCED: log 87] -/
def fetchTouch (s : State) (c : Nat) (super : Bool) (pc : Nat) : State :=
  let g := grpOf s c
  let part (s : State) (va n : Nat) : State :=
    match translate s c g.part g.asid super .exec va with
    | .ok (pa, a) => (touchRange (startWalk s c g.part g.asid va).1 c (dieOf c) pa n a.nhc).1
    | .error _ => s
  let n := min 12 (65536 - pc % 65536)
  if n < 12 then part (part s pc n) (pc + n) (12 - n) else part s pc 12

/-! ## Dual issue (R22) -/

/-- Class of an instruction word: OPC[9:7] (R202). -/
def wordClass (w : IWord) : Nat := (w.extractLsb' 93 3).toNat
/-- The word is a QMMA. -/
def wordQmma (w : IWord) : Bool := (w.extractLsb' 86 10).toNat = 0x30B
/-- The word is a CSR instruction. [DEDUCED: log 15] -/
def wordCsr (w : IWord) : Bool := decide (0x382 ≤ (w.extractLsb' 86 10).toNat) && decide ((w.extractLsb' 86 10).toNat ≤ 0x385)

/-- The word is a SEND. -/
def wordSend (w : IWord) : Bool := (w.extractLsb' 86 10).toNat = 0x20F

/-- Two sets cannot issue in one cycle: both class 5, or both class 6 and either not QMMA (R22). [DEDUCED: log 15] -/
def splitSets (a b : Except (Nat × Nat) IWord) : Bool :=
  match a, b with
  | .ok u, .ok v => (wordClass u = 5 && wordClass v = 5) ||
      (wordClass u = 6 && wordClass v = 6 && !(wordQmma u && wordQmma v))
  | _, _ => false

/-- A thread after an issue cycle without a vote counted by R25: starve is 0 when its highest set issued. -/
def countStarve (t : Thr) (p : Addr) : Thr :=
  if t.serial then t
  else
    let top := maxPc ((voters t).map fun l => (laneOf t l).pc)
    { t with starve := if top = some p then 0 else (t.starve + 1) % 4096 }

/-- The sets of a vote as agenda items: the other set of the cycle named in each; a CSR instruction goes first (R351);
the pc_b set waits for the next issue cycle where R22 splits them, and this cycle counts for the pc_a set alone (R25). [DEDUCED: log 15] -/
def issueSets (s : State) (c t : Nat) (v : Vote) : State :=
  match v.a with
  | none => setThr s c t v.t
  | some (ma, pa) =>
    match v.b with
    | none => pushActs (setThr s c t v.t) [.set c t ma pa none false]
    | some (mb, pb) =>
      let wa := fetch s c v.t.super pa
      let wb := fetch s c v.t.super pb
      if splitSets wa wb then
        let h := thrOf s c t
        let from0 := if h.fairsw = v.t.fairsw then h.starve else 0
        pushActs (setThr s c t { countStarve { v.t with starve := from0 } pa with second := some (mb, pb) })
          [.set c t ma pa none false]
      else
        let a : Act := .set c t ma pa (some (mb, pb)) false
        let b : Act := .set c t mb pb (some (ma, pa)) false
        let csrB := match wb with
          | .ok w => wordCsr w
          | .error _ => false
        pushActs (setThr s c t v.t) (if csrB then [b, a] else [a, b])

/-! ## Issue slots (R31) -/

/-- What a held thread brings to its turn in a cycle: its instruction again (R226, R167, R297, R54), or a blocked SEND
(R18). [DEDUCED: log 16] -/
def heldActs (s : State) (c t : Nat) : List Act :=
  match (thrOf s c t).hold with
  | some o => match o.why with
    | .retry => [.set c t o.mask o.pc none false]
    | .unissued => [.set c t o.mask o.pc none false]
    | .footprint => [.set c t o.mask o.pc none false]
    | .send => [.ev (.sendUnblock c t)]
    | _ => []
  | none => []

/-- Issue for a thread: the waiting pc_b set, or a new vote (R21, R22). [DEDUCED: log 16] -/
def issueThr (s : State) (c t : Nat) : State :=
  let h := thrOf s c t
  match h.second with
  | some (m, p) => pushActs (setThr s c t { countStarve h p with second := none }) [.set c t m p none false]
  | none =>
    if fairDue h then pushActs s [.ev (.fairnessSwitch c t)]
    else if rotateDue h then pushActs s [.ev (.serialRotate c t)]
    else issueSets s c t (vote h)

/-- A wattle waits in an instruction with the YLD hint (R32, R293). -/
def heldYld (t : Thr) : Bool := t.hold.any fun o => yldOf o.instr

/-- Leave actions that waited for a home register or for the other set of their cycle (R224); and a wattle that waits in an
instruction with the YLD hint leaves its place once another is ready and waits (R32). -/
def tryLeave (s : State) (c t : Nat) : State :=
  let s := if heldYld (thrOf s c t) && (thrOf s c t).slot.isSome && readyWaiter s c t
    then updThr s c t fun h => { h with slot := none } else s
  if (thrOf s c t).leaving && (thrOf s c t).hold.isNone then leaveNow s c t else s

/-- The wattle that a slot issues for: the ready one that issued least recently (R31). -/
def pickWattle (s : State) (c k : Nat) : Option Nat :=
  let ws := (grpOf s c).resident.filter fun w => (thrOf s c w).slot = some k && canIssue s c w
  ws.foldl (fun best w => match best with
    | none => some w
    | some b =>
      match (thrOf s c w).lastIssue, (thrOf s c b).lastIssue with
      | none, some _ => some w
      | none, none => if w < b then some w else some b
      | some _, none => some b
      | some x, some y => if x < y ∨ (x = y ∧ w < b) then some w else some b) none

/-- The turn of a wattle in a cycle: its held instruction, or its issue when a slot picked it. -/
def wattleTurn (c : Nat) (picked : List (Option Nat)) (w : Nat) (s : State) : State :=
  match heldActs s c w with
  | [] =>
    if picked.contains (some w) then issueThr (updThr s c w fun h => { h with lastIssue := some (coreOf s c).cycle }) c w else s
  | as => pushActs s as

/-- One cycle of a core's wattles: each slot picks one ready wattle (R31); held instructions and picked wattles take their
turns in ascending wattle index (R17). [DESIGN CHOICE: log 84] -/
def slotCycle (s : State) (c : Nat) : State :=
  if !((grpOf s c).st = .running) then s
  else
    let ws := (grpOf s c).resident
    let s := ws.foldl (fun s w => tryLeave s c w) s
    ws.foldr (wattleTurn c [pickWattle s c 0, pickWattle s c 1]) s

/-- One cycle of the front-end (R11). -/
def feCycle (s : State) (c : Nat) : State :=
  if !((grpOf s c).st = .running) then s
  else match heldActs s c feIdx with
  | [] => if canIssue s c feIdx then issueThr s c feIdx else s
  | as => pushActs s as

/-- The FE of a core has a SEND for this cycle: one it holds, or its next instruction (R17). -/
def feSends (s : State) (c : Nat) : Bool :=
  match (thrOf s c feIdx).hold with
  | some o => match o.instr with
    | .send _ => true
    | _ => false
  | none => canIssue s c feIdx && match (vote (thrOf s c feIdx)).a with
    | some (_, p) => match fetch s c (thrOf s c feIdx).super p with
      | .ok w => wordSend w
      | .error _ => false
    | none => false

/-- One cycle of cores of a quad, in the order of R17, R51 and R397: the FEs that send, then core by core the FE, the places
that are filled (R33) and the slots. [DESIGN CHOICE: log 7] -/
def quadActs (s : State) (cs : List Nat) : List Act :=
  let first := cs.filter (feSends s)
  first.map .fe ++ cs.flatMap fun c => (if first.contains c then [] else [.fe c]) ++ [.ev (.activeSetFill c), .slot c]

/-! ## From a set to its instruction -/

/-- What an item of the agenda comes to: an instruction or event to execute, or a state. -/
inductive Next where
  | run (i : Instr) (s : State)
  | done (s : State)

/-- An issued set: a held instruction again, or fetch and decode (R205 steps 1 to 5). [DEDUCED: log 13, 15] -/
def setNext (s : State) (c t : Nat) (mask : BitVec 32) (pc : Addr) (dual : Option (BitVec 32 × Addr)) (again : Bool) : Next :=
  let h := thrOf s c t
  let base : Issue := { core := c, thr := t, mask := mask, pc := pc, dual := dual, again := again }
  if !mhas s.thrs (tkey c t) then .done s
  else match h.hold.filter fun o => o.mask = mask && o.pc = pc with
  | some o =>
    let base : Issue := { base with word := o.word, dual := o.dual }
    .run o.instr { s with cur := if o.why = .unissued then base
                                 else { base with held := some (o.t0, o.yields, o.begun), cyc := some o.cyc, cost := o.cost } }
  | none =>
    let all := mask
    match fetch s c h.super pc with
    | .error (e, a) => .done (takeFault { s with cur := base } { code := e, mask := all, addr := a, fetch := true })
    | .ok w =>
      let s := { fetchTouch s c h.super pc.toNat with cur := { base with word := w } }
      match decode (curStream s) h.super w with
      | .ok i => .run i s
      | .error .stream => .done (takeFault s { code := 0x01, mask := all })
      | .error (.priv n) => .done (takeFault s { code := 0x03, mask := all, info := n })
      | .error (.operand n) => .done (takeFault s { code := 0x02, mask := all, info := n })

end Sys2Proof.Machine
end

