-- ==== Sys2Proof/Machine/Control.lean ====
section
/-! DEFINITION. Class 4: branches, meetings, exit, spawning, launches, register blocks and SLEEP (R292 to R303). -/

namespace Sys2Proof.Machine

/-! ## Shared by instructions that hold the thread -/

/-- The held instruction of a thread as the issuing one, with the fields of its word. -/
def resume (s : State) (c t : Nat) : Option (Instr × Form × State) :=
  match (thrOf s c t).hold with
  | none => none
  | some o =>
    match o.instr.form with
    | none => none
    | some x =>
      some (o.instr, x, { s with cur := { core := c, thr := t, mask := o.mask, pc := o.pc, word := o.word
                                          held := some (o.t0, o.yields, o.begun), dual := o.dual, cyc := some o.cyc, cost := o.cost } })

/-- The part of the instruction that is done at issue has been done. -/
def begun (s : State) : Bool :=
  match s.cur.held with
  | some (_, _, b) => b
  | none => false

/-- The lowest active lane. -/
def lowLane (s : State) (x : Form) : Nat := (lanesOf (actMask s x)).headD 0

/-- ILLEGAL_OPERAND for a value at execution (R403). [DEDUCED: log 14] -/
def badValue (m : BitVec 32) : FRec := { code := 0x02, mask := m, info := 8 }

/-- The first failing check of the lowest failing lane, with the lanes that fail with the same code (R292, R307). [DEDUCED: log 14] -/
def laneFault (ls : List Nat) (chk : Nat → Option FRec) : Option FRec :=
  match ls.findSome? chk with
  | none => none
  | some f => some { f with mask := maskOf (ls.filter fun l => match chk l with
      | some g => g.code = f.code
      | none => false) }

/-- Instructions that hold the thread write their result when they complete (R293). -/
def finishWith (i : Instr) (x : Form) (n : Nat) (s : State) (always : Bool) (res : Nat → Val) : State :=
  finish i x s always (putDone i x n s res (killDead i x s))

/-- The same on a state t that already has the instruction's other effects. -/
def finishPut (i : Instr) (x : Form) (n : Nat) (s : State) (always : Bool) (res : Nat → Val) (t : State) : State :=
  finish i x s always (putDone i x n s res (killDead i x t))

/-! ## Targets (R292) -/

/-- The relative target: PC + IMM × 4 (R292). -/
def relTarget (x : Form) (pc : Addr) : Addr := pc + BitVec.ofInt 52 (toSigned 28 x.imm.toNat * 4)

/-- Checks of a register target in a lane, in their order (R292). -/
def targetCheck (i : Instr) (x : Form) (s : State) (l : Nat) : Option FRec :=
  let v := srcNo i x s 3 l
  if v.p then some { code := 0x08, mask := 0, info := 3, addr := v.n }
  else if decide (2 ^ 52 ≤ v.n) then some { code := 0x05, mask := 0, addr := v.n }
  else if !(v.n % 4 = 0) then some { code := 0x04, mask := 0, addr := v.n }
  else none

/-- The target of a lane: from A, or relative. -/
def targetOf (i : Instr) (x : Form) (s : State) (reg : Bool) (l : Nat) : Addr :=
  if reg then BitVec.ofNat 52 (srcNo i x s 3 l).n else relTarget x s.cur.pc

/-- Branch the active lanes; the other issued lanes advance (R295). -/
def branchTo (i : Instr) (x : Form) (s t : State) (reg : Bool) : State :=
  setPcs t (lanesOf (actMask s x)) (targetOf i x s reg)

/-- A branch through a register, after the checks of R292. -/
def jumpReg (i : Instr) (x : Form) (s : State) (k : State) : State :=
  match laneFault (lanesOf (actMask s x)) (targetCheck i x s) with
  | some f => takeFault s f
  | none => k

/-- BRA (R295). -/
def execBra (x : Form) (s : State) : Host.Outcome State Fault Refusal :=
  let i := Instr.bra x
  run i x s (branchTo i x s (finish i x s false s) false)

/-- BRX (R295). -/
def execBrx (x : Form) (s : State) : Host.Outcome State Fault Refusal :=
  let i := Instr.brx x
  run i x s (jumpReg i x s (branchTo i x s (finish i x s false (killDead i x s)) true))

/-- CALL: D receives PC + 12 (R295). -/
def execCall (x : Form) (s : State) : Host.Outcome State Fault Refusal :=
  let i := Instr.call x
  let reg := x.m 0 1 = 1
  let go := branchTo i x s (fixed i x 2 s fun _ => { w := natWords 2 (s.cur.pc + 12).toNat }) reg
  run i x s (if reg then jumpReg i x s go else go)

/-- RET (R295). -/
def execRet (x : Form) (s : State) : Host.Outcome State Fault Refusal :=
  let i := Instr.ret x
  run i x s (jumpReg i x s (branchTo i x s (finish i x s false (killDead i x s)) true))

/-! ## Meetings (R24, R26, R27, R296) -/

/-- The thread after MEET with address a in the active lanes (R24, R26, R27). [DESIGN CHOICE: log 83, 106] -/
def meetThr (t : Thr) (ls : List Nat) (a : Addr) : Thr :=
  if t.serial then
    ls.foldl (fun t l => updLane t l fun n => if n.tgt = a then { n with nest := n.nest + 1 } else n) t
  else if ls.any fun l => decide (4 ≤ (laneOf t l).depth) then
    { t with
      serial := true
      running := 0
      starve := 0
      lanes := t.lanes.map fun n => if n.live then { n with tgt := n.mtg, nest := 0 } else { n with nest := 0 } }
  else
    ls.foldl (fun t l => updLane t l fun n =>
      { n with stk := n.mtg :: n.stk, depth := n.depth + 1, mtg := a }) t

/-- MEET (R296): a nest count above 255 raises ILLEGAL_OPERAND (R27), counted without the one that the lane uses up by going on
from its target. -/
def execMeet (x : Form) (s : State) : Host.Outcome State Fault Refusal :=
  let i := Instr.meet x
  let a := relTarget x s.cur.pc
  let ls := lanesOf (actMask s x)
  let full := ls.filter fun l => (curThr s).serial && (laneOf (curThr s) l).tgt = a &&
    decide (255 ≤ (laneOf (curThr s) l).nest - (if s.cur.pc = a then 1 else 0))
  run i x s (
    if !full.isEmpty then takeFault s (badValue (maskOf full))
    else finish i x s false (updCur s fun t => meetThr t ls a))

/-! ## Lost stores and discarded write-backs (R145, R154) -/

/-- The fault of those of a set of lanes that are still to be raised. [DEDUCED: log 17] -/
def lateFault (s : State) (ls : List Nat) : Option FRec :=
  let mine (k : Bool) := (curThr s).late.filter fun e => e.ack = k && ls.contains e.lane
  let pick (k : Bool) (code : Nat) (n : Nat) : FRec :=
    let es := mine k
    { code := code, mask := maskOf (es.map (·.lane)), addr := es.foldl (fun m e => min m e.va) (2 ^ 52), count := some n }
  if !(mine true).isEmpty then some (pick true 0x13 (mine true).length)
  else if !(mine false).isEmpty then some (pick false 0x14 (mine false |>.map (·.lane)).eraseDups.length)
  else none

/-- Raise that fault; what it raises is not raised again. -/
def takeLate (s : State) (f : FRec) (ls : List Nat) : State :=
  trapWith s fun u =>
    enterTrap (updCur u fun t => { t with late := t.late.filter fun e => !(e.ack = decide (f.code = 0x13) && ls.contains e.lane) }) f

/-- Atomics and conditional stores of lanes of a thread that are still under way. -/
def ownAtoms (s : State) (c t : Nat) (mask : BitVec 32) : Bool :=
  (s.mem.atoms.any fun a => a.core = c && a.thr = t && mask.getLsbD a.acc.lane) ||
    s.mem.fills.any fun f => f.core = c && f.thr = t && !(f.lanes &&& mask = 0) && match f.what with
      | .atomic _ => true
      | _ => false

/-! ## EXIT (R297) -/

/-- A wattle without a live lane leaves the group: its blocks and its place are free, its decision-queue entries are
discarded (R15, R231, R33). -/
def endWattle (s : State) (c w : Nat) : State :=
  let s := updThr s c w fun t => { t with blocks := 0, slices := [], slot := none, hold := none, second := none, leaving := false }
  updGrp s c fun g =>
    let gone := (g.dq.filter fun m => m.target = w).length
    { g with
      resident := g.resident.filter fun v => !(v = w)
      dq := g.dq.filter fun m => !(m.target = w)
      dqDropped := (g.dqDropped + gone) % 2 ^ 64
      regq := g.regq.filter fun e => !(e.1 = w) }

/-- Slices of quarters that still have a live lane (R230). -/
def keepSlices (t : Thr) : List Slice :=
  t.slices.filter fun sl => (List.range 8).any fun j => (laneOf t (8 * sl.qtr + j)).live

/-- Lanes have left a thread: slices, the wattle, barriers and the group are looked at again (R24, R297, R320). -/
def afterExit (s : State) (c t : Nat) : State :=
  let s := updThr s c t fun h => { h with slices := keepSlices h }
  let s := if !(t = feIdx) && !wattleLive s c t then endWattle s c t else s
  let s := cbarCheck s c
  let s := qbarCheck s (quadOf c)
  tryEnd s c

/-- Set the exited bits of lanes and discard the results still under way to them. -/
def exitLanes (s : State) (c t : Nat) (m : BitVec 32) : State :=
  let s := updThr s c t fun h => (lanesOf m).foldl (fun h l => updLane h l fun n => { n with exited := true }) h
  updMem s fun mm => { mm with
    fills := (mm.fills.map fun f => if f.core = c && f.thr = t then { f with lanes := f.lanes &&& ~~~m } else f).filter fun f =>
      !(f.core = c && f.thr = t && f.lanes = 0) }

/-- EXIT (R297): waits for the acknowledgements of the active lanes; lost stores are raised here. -/
def execExit (x : Form) (s : State) : Host.Outcome State Fault Refusal :=
  let i := Instr.exit x
  let act := actMask s x
  let c := s.cur.core
  let t := s.cur.thr
  run i x s (
    if !(ownStores s c t act).isEmpty || ownAtoms s c t act then holdOn i s .retry false false false
    else match lateFault s (lanesOf act) with
    | some f => takeLate s f (lanesOf act)
    | none => afterExit (exitLanes (finish i x s false s) c t act) c t)

/-! ## SPAWN and REBASK (R34 to R37, R298) -/

/-- The version of a carried register that SPAWN reads (R222). [DEDUCED: log 78] -/
def carryVer (s : State) (l n : Nat) : Ver := readVer (regOf (curThr s) l n) (readCycle s)

/-- A carried register of a lane is not full in the cycle of the read (R298). -/
def carryEmpty (s : State) (l : Nat) : Bool :=
  (List.range 8).any fun n => (carryVer s l n).empty || (regOf (curThr s) l n).absent

/-- The carried registers of a lane with their poison (R298). [DEDUCED: log 78] -/
def carried (s : State) (l : Nat) : List (Word × Bool) :=
  (List.range 8).map fun n => let v := carryVer s l n; (v.word, v.pois)

/-- Some active lane carries a dead register (R229). -/
def carriesDead (s : State) (x : Form) : Bool :=
  (lanesOf (actMask s x)).any fun l => (List.range 8).any fun n => (carryVer s l n).dead

/-- A new thread for lane k of a launched wattle (R36). -/
def freshLane (e : Addr) (on : Bool) (mark : Nat) : Lane := { pc := e, launch := on, fenced := mark }

/-- The lowest wattle index not in use. -/
def freeWattle (g : Group) : Nat := ((List.range 16).find? fun w => !(g.resident.contains w)).getD 0

/-- A basket becomes a wattle (R36). [DESIGN CHOICE: log 111] -/
def launchBasket (s : State) (c b : Nat) : State :=
  let g := grpOf s c
  match mget g.baskets b with
  | none => s
  | some bk =>
    let w := freeWattle g
    let n := bk.threads.length
    let lanes := (List.range 32).map fun l => freshLane bk.key (decide (l < n)) s.mem.wasN
    let cells := (List.range n).flatMap fun l =>
      ((bk.threads.getD l []).zipIdx).map fun ((v, p), k) =>
        (rkey l k, ({ cur := { v := v, poison := p }, dirty := true } : Reg))
    let t : Thr := { lanes := lanes, regs := cells, sstatus := if g.super then 0x10 else 0, readySince := (coreOf s c).cycle }
    let s := setThr s c w t
    updGrp s c fun g => { g with baskets := mdel g.baskets b, resident := (g.resident ++ [w]).mergeSort (fun a b => a ≤ b) }

/-- Put one thread into a basket (R35): the state, and whether it was placed. -/
def placeThread (s : State) (c : Nat) (e : Addr) (vs : List (Word × Bool)) : State × Bool :=
  let g := grpOf s c
  let put (b : Nat) (bk : Basket) : State × Bool :=
    let bk := { bk with threads := bk.threads ++ [vs] }
    let s := updGrp s c fun g => { g with baskets := mset g.baskets b bk }
    (if bk.threads.length = 32 then launchBasket s c b else s, true)
  match g.baskets.find? fun (_, bk) => bk.key = e && decide (bk.threads.length < 32) with
  | some (b, bk) => put b bk
  | none =>
    match (List.range 8).find? fun b => !mhas g.baskets b with
    | some b => if g.resident.length + g.baskets.length < 16 then put b { key := e, threads := [] } else (s, false)
    | none => (s, false)

/-- Place the threads of the active lanes in ascending order (R35): the state and the lanes placed. -/
def placeAll (i : Instr) (x : Form) (s : State) : State × List Nat :=
  let reg := x.m 0 1 = 1
  (lanesOf (actMask s x)).foldl (fun (r : State × List Nat) l =>
    let p := placeThread r.1 s.cur.core (targetOf i x s reg l) (carried s l)
    (p.1, if p.2 then r.2 ++ [l] else r.2)) (s, [])

/-- SPAWN and REBASK behind their wait and checks: the state with the statuses written, and the lanes placed. -/
def spawnNext (i : Instr) (x : Form) (s : State) : State × List Nat :=
  let r := placeAll i x s
  (finish i x s false (putDone i x 1 s (fun l => { w := [if r.2.contains l then 1 else 0] })
    (stickyIf (carriesDead s x) 1 (killDead i x r.1))), r.2)

/-- A carried register of some active lane is not full. -/
def spawnWaits (x : Form) (s : State) : Bool := (lanesOf (actMask s x)).any (carryEmpty s)

/-- SPAWN (R298). [DEDUCED: log 78] -/
def execSpawn (x : Form) (s : State) : Host.Outcome State Fault Refusal :=
  let i := Instr.spawn x
  run i x s (
    if spawnWaits x s then holdOn i s (holdFor s) false false false
    else
      let go := (spawnNext i x s).1
      if x.m 0 1 = 1 then jumpReg i x s go else go)

/-- REBASK (R37): the lanes placed exit the old wattle. [DEDUCED: log 17] -/
def execRebask (x : Form) (s : State) : Host.Outcome State Fault Refusal :=
  let i := Instr.rebask x
  run i x s (
    if spawnWaits x s then holdOn i s (holdFor s) false false false
    else
      let r := spawnNext i x s
      let c := s.cur.core
      let t := s.cur.thr
      -- the lanes placed exit as at EXIT: their stores are acknowledged first (R145, R297)
      let go := if !(ownStores s c t (maskOf r.2)).isEmpty || ownAtoms s c t (maskOf r.2) then holdOn i s .retry false false false
        else match lateFault s r.2 with
        | some f => takeLate s f r.2
        | none => afterExit (exitLanes r.1 c t (maskOf r.2)) c t
      if x.m 0 1 = 1 then jumpReg i x s go else go)

/-! ## YIELD, NOP, LOOP, LAUNCH -/

/-- YIELD acts as NOP with YLD (R299). -/
def execYield (x : Form) (s : State) : Host.Outcome State Fault Refusal :=
  let i := Instr.yield x
  let x := { x with yld := true }
  run i x s (finish i x s false s)

/-- NOP (R299). -/
def execNop (x : Form) (s : State) : Host.Outcome State Fault Refusal :=
  let i := Instr.nop x
  run i x s (finish i x s false s)

/-- LOOP counts down in the FE (R300). [DEDUCED: log 76] -/
def execLoop (x : Form) (s : State) : Host.Outcome State Fault Refusal :=
  let i := Instr.loop x
  run i x s (
    match poisonFault i x s [2] with
    | some f => takeFault s f
    | none =>
      let v : Word := BitVec.ofNat 32 (srcNo i x s 2 0).n - 1
      let t := finish i x s false (updCur (killDead i x s) fun t =>
        writeWord t 1 { reg := x.d.index.toNat } 0 0 (lastCycle i x s) v false)
      if v = 0 then t else setPcs t [0] fun _ => relTarget x s.cur.pc)

/-- Queue q takes a launch of the issuing thread (R397). -/
def takesLaunch (s : State) (q : Nat) : Bool :=
  let r := queueOf s q
  r.en && r.devl && decide (r.packets.length < 256) && r.asid = (grpOf s s.cur.core).asid && (!r.super || (curThr s).super)

/-- LAUNCH (R301, R397). -/
def execLaunch (x : Form) (s : State) : Host.Outcome State Fault Refusal :=
  let i := Instr.launch x
  run i x s (
    let l := lowLane s x
    let a := srcNo i x s 3 l
    let b := srcNo i x s 4 l
    let m := maskOf [l]
    if a.p then takeFault s { code := 0x08, mask := m, info := 3, addr := a.n }
    else if b.p then takeFault s { code := 0x08, mask := m, info := 4 }
    else if decide (2 ^ 52 ≤ a.n) then takeFault s { code := 0x05, mask := m, addr := a.n }
    else if !(a.n % 64 = 0) then takeFault s { code := 0x04, mask := m, addr := a.n }
    else if decide (63 < b.n) then takeFault s (badValue m)
    else
      let ok := takesLaunch s b.n
      let g := grpOf s s.cur.core
      let s' := if ok then updQueue s b.n fun q => { q with packets := q.packets ++ [{ va := a.n, parent := some g.grid, mark := s.mem.wasN }] } else s
      finish i x s false (putDone i x 1 s (fun _ => { w := [if ok then 1 else 0] }) (killDead i x s')))

/-! ## Register blocks (R64, R230, R231) -/

/-- Quarters with a live lane, ascending. -/
def liveQuarters (t : Thr) : List Nat :=
  (List.range 4).filter fun q => (List.range 8).any fun j => (laneOf t (8 * q + j)).live

/-- Bytes of a core's own register file in use (R230). [DESIGN CHOICE: log 111] -/
def fileUsed (s : State) (c : Nat) : Nat :=
  let g := grpOf s c
  (g.resident.map fun w =>
    let t := thrOf s c w
    (liveQuarters t).length * g.baseNeed * 32 + (t.slices.filter fun sl => sl.lender.isNone).length * 2048).sum

/-- Slices of a lender's file in use. -/
def lentUsed (s : State) (c l : Nat) : Nat :=
  ((grpOf s c).resident.map fun w => ((thrOf s c w).slices.filter fun sl => sl.lender = some l).length).sum

/-- Place slices one by one: the own file first, then the lenders (R64, R231); none when one has no room. -/
def placeSlices (s : State) (c : Nat) : List (Nat × Nat) → List Slice → Option (List Slice)
  | [], got => some got
  | (b, q) :: rest, got =>
    let own := fileUsed s c + (got.filter fun sl => sl.lender.isNone).length * 2048
    if own + 2048 ≤ 262144 then placeSlices s c rest (got ++ [{ blk := b, qtr := q, lender := none }])
    else
      match (grpOf s c).lenders.find? fun l => decide (lentUsed s c l + (got.filter fun sl => sl.lender = some l).length < 128) with
      | some l => placeSlices s c rest (got ++ [{ blk := b, qtr := q, lender := some l }])
      | none => none

/-- The blocks of a REGACQ mask, 1 to 3. -/
def maskBlocks (m : Nat) : List Nat := (List.range 3).filterMap fun k => if m.testBit k then some (k + 1) else none

/-- Registers of blocks hold 0, full, not poisoned, not dead and clean (R231). -/
def clearBlocks (t : Thr) (m : Nat) : Thr :=
  { t with regs := t.regs.filter fun (k, _) => !((maskBlocks m).contains (blockOf (k % 256))) }

/-- Grant a wattle a set of blocks, none when the slices are not there. -/
def grantBlocks (s : State) (c w m : Nat) : Option State :=
  let t := thrOf s c w
  match placeSlices s c ((maskBlocks m).flatMap fun b => (liveQuarters t).map fun q => (b, q)) [] with
  | none => none
  | some sl => some (setThr s c w (clearBlocks { t with blocks := t.blocks ||| m, slices := t.slices ++ sl } m))

/-- REGACQ (R231, R302): always a yield point; waiting REGACQs are granted in the order in which they began to wait. -/
def execRegacq (x : Form) (s : State) : Host.Outcome State Fault Refusal :=
  let i := Instr.regacq x
  let m := x.f 0 3
  let c := s.cur.core
  let w := s.cur.thr
  run i x s (
    if !((curThr s).blocks = 0) || decide ((grpOf s c).extMax < (maskBlocks m).length) then takeFault s (badValue (actMask s x))
    else
      let alone := (grpOf s c).regq.all fun e => e.1 = w
      match (if alone then grantBlocks s c w m else none) with
      | some s' =>
        let s' := updGrp s' c fun g => { g with regq := g.regq.filter fun e => !(e.1 = w) }
        finish i { x with yld := true } s false s'
      | none =>
        let s := if (grpOf s c).regq.any fun e => e.1 = w then s
          else updGrp s c fun g => { g with regq := g.regq ++ [(w, m)] }
        holdOn i s .regacq true (readyWaiter s c w) false)

/-- A pending result has a block of the mask as its destination. -/
def blockPending (s : State) (c w m : Nat) : Bool :=
  s.mem.fills.any fun f => f.core = c && f.thr = w && (List.range f.dst.n).any fun k =>
    (maskBlocks m).contains (blockOf (f.dst.reg + k))

/-- REGREL (R231, R302). -/
def execRegrel (x : Form) (s : State) : Host.Outcome State Fault Refusal :=
  let i := Instr.regrel x
  let m := x.f 0 3
  run i x s (
    if (maskBlocks m).any fun b => !((curThr s).blocks.testBit (b - 1)) then takeFault s (badValue (actMask s x))
    else if blockPending s s.cur.core s.cur.thr m then holdOn i s .retry false false false
    else finish i x s false (updCur s fun t =>
      let t := clearBlocks { t with blocks := t.blocks &&& (7 - m), slices := t.slices.filter fun sl => !((maskBlocks m).contains sl.blk) } m
      { t with slots := t.slots.filter fun (_, o) => !((maskBlocks m).contains (blockOf o.cur.home) && !(o.cur.st = .none)) }))

end Sys2Proof.Machine
end

