-- ==== Sys2Proof/Machine/Address.lean ====
section
/-! DEFINITION. Effective addresses and the checks of R307, lane by lane: spaces, windows, alignment, translation. -/

namespace Sys2Proof.Machine

/-- The offset of IMM[22:0] (R199). -/
def memOff (x : Form) : Int := toSigned 23 (x.f 0 23)

/-- A fault of one lane with an address; its mask is filled in by `laneFault`. [DEDUCED: log 14] -/
def laneErr (code addr : Nat) : FRec := { code := code, mask := 0, addr := addr }

/-- A window offset (R99, R100, R63) as an access; `shown` is the address a fault reports. -/
def windowAcc (s : State) (l size : Nat) (lent : Bool) (ea shown : Nat) : Except FRec Acc :=
  let c := s.cur.core
  match (if lent then lentLoc s c ea 1 else scrLoc s c ea 1) with
  | none => .error (laneErr 0x05 shown)
  | some loc =>
    if !(ea % size = 0) then .error (laneErr 0x04 shown)
    else .ok { lane := l, va := shown, loc := loc, size := size }

/-- One lane's access (R307): space 0 generic, 1 scratch, 2 lent window; n bytes with an alignment. -/
def accessOf (s : State) (sp : Nat) (off : Int) (size : Nat) (k : Need) (l : Nat) (a : Val) : Except FRec Acc :=
  let c := s.cur.core
  let g := grpOf s c
  if a.p then .error { laneErr 0x08 a.n with info := 3 }
  else
    let sum := (a.n : Int) + off
    if sp = 0 then
      let ea := ofSigned 64 sum
      if decide (2 ^ 52 ≤ ea) then .error (laneErr 0x05 ea)
      else if inReserved ea then
        if decide (lentWin ≤ ea) then windowAcc s l size true (ea - lentWin) ea
        else windowAcc s l size false (ea - scrWin) ea
      else if !(ea % size = 0) then .error (laneErr 0x04 ea)
      else match translate s c g.part g.asid (curThr s).super k ea with
        | .error e => .error { laneErr e ea with walked := true }
        | .ok (pa, at') => .ok { lane := l, va := ea, loc := .mem pa, attr := at', size := size }
    else if decide (sum < 0) then .error (laneErr 0x05 (ofSigned 64 sum))
    else windowAcc s l size (sp = 2) sum.toNat sum.toNat

/-- The fault of an access. [DEDUCED: log 14] -/
def accErr (r : Except FRec Acc) : Option FRec :=
  match r with
  | .error f => some f
  | .ok _ => none

/-- The access of a result. -/
def accGot (r : Except FRec Acc) : Option Acc :=
  match r with
  | .error _ => none
  | .ok a => some a

/-- An access that has to wait for a table read (R129, R421). -/
def accWaits (r : Except FRec Acc) : Bool :=
  match r with
  | .error f => f.code = notNow
  | .ok _ => false

/-- The accesses of lanes: all of them, or the fault of R307; all wait while a table read of one of them has to (R421). -/
def accessAll (ls : List Nat) (f : Nat → Except FRec Acc) : Except FRec (List Acc) :=
  if ls.any fun l => accWaits (f l) then .error (laneErr notNow 0)
  else match laneFault ls (fun l => accErr (f l)) with
  | some e => .error e
  | none => .ok (ls.filterMap fun l => accGot (f l))

/-- The accesses of the active lanes of a memory instruction whose address is in A. -/
def memAccs (i : Instr) (x : Form) (s : State) (sp size : Nat) (k : Need) : Except FRec (List Acc) :=
  accessAll (lanesOf (actMask s x)) fun l => accessOf s sp (memOff x) size k l (srcNo i x s 3 l)

/-- The access goes to memory. -/
def Acc.isMem (a : Acc) : Bool :=
  match a.loc with
  | .mem _ => true
  | .scr _ _ => false

/-- Its physical address (0 for scratch). -/
def Acc.pa (a : Acc) : Nat :=
  match a.loc with
  | .mem pa => pa
  | .scr _ _ => 0

/-- Walks that accesses to memory start or join (R423). -/
def walkAll (s : State) (accs : List Acc) : State × List Nat :=
  accs.foldl (fun (r : State × List Nat) a =>
    if a.isMem then
      let g := grpOf r.1 s.cur.core
      let (s', w) := startWalk r.1 s.cur.core g.part g.asid a.va
      (s', match w with
        | some id => if r.2.contains id then r.2 else r.2 ++ [id]
        | none => r.2)
    else r) (s, [])

/-- Accesses in space .x count in LENT_ACC (R357). -/
def countLent (s : State) (accs : List Acc) : State :=
  let c := s.cur.core
  let n := (accs.filter fun a => match a.loc with
    | .scr k _ => !(k = c)
    | .mem _ => false).length
  if n = 0 then s else updCore s c fun k => { k with lentAcc := (k.lentAcc + n) % 2 ^ 64 }

end Sys2Proof.Machine
end

