-- ==== Sys2Proof/Machine/Ports.lean ====
section
/-! DEFINITION. Ports: SEND and RECV (R13 to R20, R304, R305), their events, and SLEEP with its events (R303). -/

namespace Sys2Proof.Machine

/-! ## Channels -/

/-- The group of a core is part of a team (R14). -/
def inTeam (s : State) (c : Nat) : Bool := (grpOf s c).team.isSome

/-- A channel a message is sent to is full (R13). -/
def chanFull (s : State) (c p : Nat) : Bool :=
  let g := grpOf s c
  if p = 0 then decide (32 ≤ g.dq.length)
  else if p < 16 then decide (4 ≤ (mgetD g.chans p []).length)
  else decide (8 ≤ (mgetD (mgetD s.teams (quadOf c) {}).chans p []).length)

/-- Append a message to a channel. -/
def chanPut (s : State) (c p : Nat) (m : Msg) : State :=
  if p = 0 then updGrp s c fun g => { g with dq := g.dq ++ [m] }
  else if p < 16 then updGrp s c fun g => { g with chans := mupd g.chans p [] (· ++ [m]) }
  else { s with teams := mupd s.teams (quadOf c) {} fun t => { t with chans := mupd t.chans p [] (· ++ [m]) } }

/-- A decision-queue entry is for a wattle (R15). -/
def dqFor (w : Nat) (m : Msg) : Bool := m.target = w || m.target = 0xFFFFFFFF

/-- The oldest message of a port for a thread of a core, and the state without it (R15, R17, R19). -/
def chanTake (s : State) (c t p : Nat) : Option (Msg × State) :=
  let g := grpOf s c
  if p = 0 then
    match g.dq.find? (dqFor t) with
    | some m => some (m, updGrp s c fun g => { g with dq := g.dq.eraseP (dqFor t) })
    | none => none
  else if p < 16 then
    match mgetD g.chans p [] with
    | m :: rest => some (m, updGrp s c fun g => { g with chans := mset g.chans p rest })
    | [] => none
  else if p < 32 then
    match mgetD (mgetD s.teams (quadOf c) {}).chans p [] with
    | m :: rest => some (m, { s with teams := mupd s.teams (quadOf c) {} fun t => { t with chans := mset t.chans p rest } })
    | [] => none
  else
    match mgetD (coreOf s c).ports p [] with
    | w :: rest => some ({ words := [(w, false)] }, updCore s c fun k => { k with ports := mset k.ports p rest })
    | [] => none

/-- Port checks of R14. -/
def portBad (s : State) (send : Bool) (p : Nat) : Bool :=
  let fe := curFe s
  decide (48 ≤ p) || (send && decide (32 ≤ p)) || (!send && decide (36 ≤ p)) ||
    (p = 0 && (if send then !fe else fe)) || (fe && decide (1 ≤ p) && decide (p ≤ 15)) ||
    (decide (16 ≤ p) && decide (p ≤ 31) && !inTeam s s.cur.core)

/-! ## SEND (R304) -/

/-- The message of a SEND: its data by lane, and the target of port 0. -/
def sendMsg (i : Instr) (x : Form) (s : State) (p : Nat) : Msg :=
  let word (l : Nat) : Word × Bool := let v := srcNo i x s 3 l; (BitVec.ofNat 32 v.n, v.p)
  if 1 ≤ p ∧ p < 16 then
    let act := actMask s x
    { words := (List.range 32).map fun l => if act.getLsbD l then word l else (0, false) }
  else
    let l := lowLane s x
    { target := if p = 0 then (srcNo i x s 4 l).n else 0, words := [word l] }

/-- A decision-queue target that R15 does not allow. -/
def targetBad (n : Nat) : Bool := decide (16 ≤ n) && !(n = 0xFFFFFFFF)

/-- An entry aimed at a wattle that is not live (R15). -/
def targetGone (s : State) (c n : Nat) : Bool :=
  !(n = 0xFFFFFFFF) && !((grpOf s c).resident.contains n && wattleLive s c n)

/-- A SEND enters its message, or discards it and counts (R15). -/
def sendNow (i : Instr) (x : Form) (s : State) (p : Nat) : State :=
  let c := s.cur.core
  let m := sendMsg i x s p
  let t := killDead i x s
  let t := if p = 0 && targetGone s c m.target then
      updGrp t c fun g => { g with dqDropped := (g.dqDropped + 1) % 2 ^ 64 }
    else chanPut t c p m
  finish i x s false t

/-- SEND (R304). -/
def execSend (x : Form) (s : State) : Host.Outcome State Fault Refusal :=
  let i := Instr.send x
  let p := x.f 0 6
  run i x s (
    if portBad s true p then takeFault s (badValue (actMask s x))
    else if p = 0 && targetBad (sendMsg i x s p).target then takeFault s (badValue (maskOf [lowLane s x]))
    else if p = 0 && targetGone s s.cur.core (sendMsg i x s p).target then sendNow i x s p
    else if chanFull s s.cur.core p then holdOn i s .send false false false
    else sendNow i x s p)

/-- SEND_UNBLOCK (R18): a blocked SEND completes once its channel has room. -/
def execSendUnblock (core thr : Nat) (s : State) : Host.Outcome State Fault Refusal :=
  .next (match resume s core thr with
    | some (.send x, _, t) =>
      let p := x.f 0 6
      if ((thrOf s core thr).hold.map (·.why) = some .send) && !(chanFull t core p) then sendNow (.send x) x t p else s
    | _ => s)

/-! ## RECV (R305) -/

/-- The word of a message in a lane. -/
def Msg.word (m : Msg) (l : Nat) : Word × Bool :=
  match m.words with
  | [w] => w
  | ws => ws.getD l (0, false)

/-- The tags that an event on port 32 or 34 shows done to the thread that receives it (R138, R333). -/
def seenTags (p : Nat) (m : Msg) : List Nat :=
  if p = 34 then [(m.word 0).1.toNat % 65536] else if p = 32 then [(m.word 0).1.toNat % 256] else []

/-- D of a RECV is filled and the instruction ends, with the leave actions (R224, R305). -/
def recvDone (i : Instr) (x : Form) (s t : State) (m : Msg) : State :=
  let t := updCur t fun h => (lanesOf (actMask s x)).foldl (fun h l =>
    fillDst h (dstOf x 1) l [(m.word l).1] (m.word l).2) h
  finish i x s true (observe t s.cur.core s.cur.thr (seenTags (x.f 0 6) m))

/-- The destination of a RECV, the latches included, before it is marked empty. [DEDUCED: log 20] -/
def undoOf (x : Form) (h : Thr) (ls : List Nat) : FMap Reg × FMap Slot × FMap Latch :=
  let d := dstOf x 1
  (ls.map fun l => (rkey l d.reg, regOf h l d.reg),
    if d.cache then ls.map fun l => (l * 6 + d.slot, slotOf h l d.slot) else [],
    ls.flatMap fun l => [(l * 2, latOf h l 0), (l * 2 + 1, latOf h l 1)])

/-- A RECV waits: D is empty, and the wattle leaves its place (R18, R32). [DEDUCED: log 20] -/
def recvWait (i : Instr) (x : Form) (s : State) : State :=
  let u := undoOf x (curThr s) (lanesOf (actMask s x))
  let t := holdOn i s .recv true (!curFe s) true
  if otherHolds s then t
  else
    let t := emptyAll i x 1 s t
    updCur t fun h => { h with hold := h.hold.map fun o => { o with undoR := u.1, undoS := u.2.1, undoL := u.2.2 } }

/-- Another thread of the group or team waits on the port for a message that is there. -/
def waitsBefore (s : State) (c t p : Nat) : Bool :=
  let cs := if 16 ≤ p ∧ p < 32 then teamCores s (quadOf c) else [c]
  cs.any fun k => (feIdx :: (grpOf s k).resident).any fun w =>
    !(k = c && w = t) && match (thrOf s k w).hold with
      | some o => match o.why, o.instr with
        | .recv, .recv y => y.f 0 6 = p && (chanTake s k w p).isSome
        | _, _ => false
      | none => false

/-- RECV (R305). [DEDUCED: log 20] -/
def execRecv (x : Form) (s : State) : Host.Outcome State Fault Refusal :=
  let i := Instr.recv x
  let p := x.f 0 6
  let c := s.cur.core
  run i x s (
    if portBad s false p then takeFault s (badValue (actMask s x))
    else match (if waitsBefore s c s.cur.thr p then none else chanTake s c s.cur.thr p) with
    | some (m, t) => recvDone i x s (emptyAll i x 1 s t) m
    | none => recvWait i x s)

/-- RECV_DELIVER (R305): a blocked RECV takes the oldest message for it. -/
def execRecvDeliver (core thr : Nat) (s : State) : Host.Outcome State Fault Refusal :=
  .next (match resume s core thr with
    | some (.recv x, _, t) =>
      if (thrOf s core thr).hold.map (·.why) = some .recv then
        match chanTake t core thr (x.f 0 6) with
        | some (m, u) => recvDone (.recv x) x t u m
        | none => s
      else s
    | _ => s)

/-- A job card asks for an event on port 32 (R177). -/
def cardEvent (card : List Byte) : Bool := (leAt card 0x0C 1).testBit 0

/-- The port has a live sender for a receiver (R20). -/
def liveSender (s : State) (c t p : Nat) : Bool :=
  let g := grpOf s c
  let own := quadOf c
  if p = 0 then wattleLive s c feIdx
  else if p < 16 then (g.resident.any fun w => !(w = t)) || g.baskets.any fun (_, b) => !b.threads.isEmpty
  else if p < 32 then (teamCores s own).any fun k => !(k = c)
  else if p = 32 then s.engs.any fun (_, e) => e.table.any fun n => n.core = c && match n.op with
    | .job card _ _ _ => cardEvent card
    | _ => false
  else if p = 33 then s.engs.any fun (q, e) => e.table.any fun n => n.core = c && n.real && (q = own || n.isJob)
  else if p = 34 then (coreOf s c).jobs.any fun j => j.ev
  else s.hbm.btes.any fun (_, js) => js.any fun j => j.core = c && j.notice

/-- The port of a blocked RECV of a thread. -/
def recvPort (h : Thr) : Option Nat :=
  match h.hold with
  | some o => match o.why, o.instr with
    | .recv, .recv x => some (x.f 0 6)
    | _, _ => none
  | none => none

/-- A blocked RECV without a live sender is noted with the time since which it has had none (R20). -/
def noteOrphan (s : State) (c t : Nat) : State :=
  match recvPort (thrOf s c t) with
  | none => s
  | some p =>
    let live := liveSender s c t p
    updThr s c t fun h => { h with hold := h.hold.map fun o =>
      { o with orphanSince := if live then none else some (o.orphanSince.getD (nowNs s)) } }

/-- PORT_ORPHAN (R20): a RECV blocked for 1 ms without a live sender. -/
def execPortOrphan (core thr : Nat) (s : State) : Host.Outcome State Fault Refusal :=
  .next (match resume s core thr, recvPort (thrOf s core thr) with
    | some (i, x, t), some p =>
      let since := ((thrOf s core thr).hold.bind (·.orphanSince))
      match since with
      | some n => if decide (n + 1000000 ≤ nowNs s) && !liveSender s core thr p
          then (let _ := i; enterTrap t { code := 0x0B, mask := actMask t x, info := p }) else s
      | none => s
    | _, _ => s)

/-! ## SLEEP (R303) -/

/-- The poison of the timeout of the SLEEP that the issuing thread holds (R228). -/
def sleepPoison (s : State) : Bool :=
  match (curThr s).hold with
  | some o => o.vals.any (·.2.2)
  | none => false

/-- A held SLEEP ends with a status in every active lane; a poisoned timeout poisons it (R228). [DEDUCED: log 24] -/
def sleepEnd (i : Instr) (x : Form) (s : State) (status : Nat) : State :=
  finish i x s false (putDone i x 1 s (fun _ => { w := [BitVec.ofNat 32 status], p := sleepPoison s }) s)

/-- SLEEP (R303). [DEDUCED: log 24] -/
def execSleep (x : Form) (s : State) : Host.Outcome State Fault Refusal :=
  let i := Instr.sleep x
  run i x s (
    let l := lowLane s x
    match accessOf s 0 (memOff x) 1 .read l (srcNo i x s 3 l) with
    | .error f => takeFault s { f with mask := maskOf [l] }
    | .ok a =>
      let b := srcNo i x s 4 l
      if b.n = 0 then finishWith i x 1 s false fun _ => { w := [1], p := b.p }
      else if otherHolds s then holdOn i s .retry false false false
      else
        -- its sources are read, and die, at issue
        updCur (holdOn i (noteCost i x s (killDead i x s)) (.sleep a.loc l (nowNs s + b.n)) false false true) fun h =>
          { h with hold := h.hold.map fun o => { o with vals := [(l, [], b.p)] } })

/-- SLEEP_WAKE (R303): a write to the granule has become visible. -/
def execSleepWake (core thr : Nat) (s : State) : Host.Outcome State Fault Refusal :=
  .next (match resume s core thr, (thrOf s core thr).hold with
    | some (i, x, t), some o => match o.why with
      | .sleep _ _ _ => if o.woken then sleepEnd i x t 0 else s
      | _ => s
    | _, _ => s)

/-- The device ends the SLEEP of a thread early at this instant (an open choice, R303). [DEDUCED: log 24] -/
def sleepEarly (s : State) (c t : Nat) : Bool := Config.freeBit (openAt s 5 (tkey c t))

/-- SLEEP_TIMEOUT (R303): the timeout, or an early end with status 2. [DEDUCED: log 24] -/
def execSleepTimeout (core thr : Nat) (s : State) : Host.Outcome State Fault Refusal :=
  .next (match resume s core thr, (thrOf s core thr).hold with
    | some (i, x, t), some o => match o.why with
      | .sleep _ _ tEnd => if decide (tEnd ≤ nowNs s) then sleepEnd i x t (if o.woken then 0 else 1)
        else if sleepEarly s core thr then sleepEnd i x t 2
        else s
      | _ => s
    | _, _ => s)

end Sys2Proof.Machine
end

