-- ==== Sys2Proof/Machine/Sched.lean ====
section
/-! DEFINITION. Events of thread scheduling: fairness (R25), serial rotation (R27), the active set (R33), baskets (R36),
register blocks (R231). -/

namespace Sys2Proof.Machine

/-- The fairness switch of a thread: the highest set issues in the place of pc_b (R21, R25). -/
def fairSwitch (s : State) (c w : Nat) : State := issueSets s c w (voteNormal true (thrOf s c w))

/-- FAIRNESS_SWITCH (R25). -/
def execFairnessSwitch (core wat : Nat) (s : State) : Host.Outcome State Fault Refusal :=
  .next (if canIssue s core wat && fairDue (thrOf s core wat) then fairSwitch s core wat else s)

/-- Issue passes to the next unstopped lane, wrapping from lane 31 to lane 0 (R27). -/
def rotate (t : Thr) : Thr :=
  { t with running := nextLane ((unstopped t).filter fun l => !(laneOf t l).arrived.isSome) t.running, starve := 0 }

/-- SERIAL_ROTATE (R27). -/
def execSerialRotate (core wat : Nat) (s : State) : Host.Outcome State Fault Refusal :=
  .next (
    let h := thrOf s core wat
    if canIssue s core wat && rotateDue h then issueSets s core wat (vote (rotate h)) else s)

/-- Wattles of a group in an issue slot (R31). -/
def slotWats (s : State) (c k : Nat) : List Nat := (grpOf s c).resident.filter fun w => (thrOf s c w).slot = some k

/-- The slot with a free place that an entering wattle takes (R31, R33). [DEDUCED: log 12] -/
def freePlace (s : State) (c : Nat) : Option Nat := (List.range 2).find? fun k => decide ((slotWats s c k).length < 4)

/-- The waiting wattle that has been ready longest, the lowest index on ties (R33). -/
def longestReady (s : State) (c : Nat) : Option Nat :=
  ((grpOf s c).resident.filter fun w => (thrOf s c w).slot = none && canIssue s c w).foldl (fun best w =>
    match best with
    | none => some w
    | some b => if (thrOf s c w).readySince < (thrOf s c b).readySince then some w else some b) none

/-- Fill vacated places one wattle at a time, up to n (R33). [DEDUCED: log 12] -/
def fillPlaces (c : Nat) : Nat → State → State
  | 0, s => s
  | n + 1, s =>
    match freePlace s c, longestReady s c with
    | some k, some w =>
      -- a return to the active set: every fixed-latency result is ready (R222)
      fillPlaces c n (updThr s c w fun h => { settle h with slot := some k, lastIssue := none })
    | _, _ => s

/-- A wattle that is not ready in this cycle can be ready from the next one at the earliest (R33). -/
def noteReady (s : State) (c : Nat) : State :=
  (grpOf s c).resident.foldl (fun s w =>
    if (thrOf s c w).slot = none && canIssue s c w then s
    else updThr s c w fun h => { h with readySince := (coreOf s c).cycle + 1 }) s

/-- ACTIVE_SET_FILL (R33). -/
def execActiveSetFill (core : Nat) (s : State) : Host.Outcome State Fault Refusal :=
  .next (if (coreOf s core).group.isSome then fillPlaces core 8 (noteReady s core) else s)

/-- BASKET_PROOF_LAUNCH (R36): a basket's proofing timer has reached the proofing time. -/
def execBasketProofLaunch (core basket : Nat) (s : State) : Host.Outcome State Fault Refusal :=
  .next (match mget (grpOf s core).baskets basket with
    | some b => if (coreOf s core).proof.toNat ≤ b.elapsed && (grpOf s core).st = .running then launchBasket s core basket else s
    | none => s)

/-- Grant waiting REGACQs from the head of the queue, up to n (R231). -/
def grantQueue (c : Nat) : Nat → State → State
  | 0, s => s
  | n + 1, s =>
    match (grpOf s c).regq with
    | [] => s
    | (w, m) :: rest =>
      match grantBlocks s c w m with
      | none => s
      | some t =>
        let t := updGrp t c fun g => { g with regq := rest }
        match resume t c w with
        | some (i, x, u) => grantQueue c n (finish i { x with yld := true } u false u)
        | none => grantQueue c n t

/-- REGACQ_GRANT (R231). -/
def execRegacqGrant (core : Nat) (s : State) : Host.Outcome State Fault Refusal :=
  .next (if (grpOf s core).st = .running then grantQueue core 16 s else s)

end Sys2Proof.Machine
end

