-- ==== Sys2Proof/Machine/Memory.lean ====
section
/-! DEFINITION. Class 5 on memory: LD, ST, SFILL, PREF, FENCE, CCTL (R306 to R312, R317, R318) with the gates of acquire
and release (R134 to R137), and what reaches a register later (R226). -/

namespace Sys2Proof.Machine

/-! ## Acquire and release -/

/-- ORDER of IMM[27:26] (R126): 0 plain, 1 acquire or release, 2 seq-cst. -/
def orderOf (x : Form) : Nat := x.f 26 2
/-- SCOPE of IMM[25:23] (R126): 0 core to 5 system. [DEDUCED: log 80] -/
def scopeOf (x : Form) : Nat := x.f 23 3

/-- A fill that is a load or an atomic with a result. -/
def Fill.isMem (f : Fill) : Bool :=
  match f.what with
  | .value _ => false
  | .load _ _ => true
  | .atomic _ => true

/-- The pending loads and atomics of lanes of a thread. -/
def memFills (s : State) (c t : Nat) (m : BitVec 32) : List Fill :=
  s.mem.fills.filter fun f => f.core = c && f.thr = t && !(f.lanes &&& m = 0) && f.isMem

/-- An acquire of the lanes is still to be performed (R134). -/
def acqPending (s : State) (c t : Nat) (m : BitVec 32) : Bool := (memFills s c t m).any (·.acq)

/-- Every earlier load of the lanes has been performed. -/
def loadsDone (s : State) (c t : Nat) (m : BitVec 32) : Bool := (memFills s c t m).isEmpty

/-- Atomics of the lanes that no home has accepted yet. -/
def atomsOut (s : State) (c t : Nat) (m : BitVec 32) : Bool :=
  s.mem.atoms.any fun a => a.core = c && a.thr = t && m.getLsbD a.acc.lane && a.tw.isNone

/-- Every earlier store of the lanes is visible on the die (R135, core to die scope). -/
def storesOnDie (s : State) (c t : Nat) (m : BitVec 32) : Bool :=
  !atomsOut s c t m && (ownStores s c t m).all fun st => !st.pending || (st.ef && st.vis)

/-- Some lane read the value of an early forwarded store whose Tw is not yet known (R133). -/
def seenUnknown (s : State) (c t : Nat) (m : BitVec 32) : Bool :=
  s.mem.stores.any fun st => st.unaccepted && st.readers.any fun (c', t', l) => c' = c && t' = t && m.getLsbD l

/-- Every earlier store of the lanes has returned Tw, and now is 8 ns past every horizon (R135, package scope). [DEDUCED: log 80] -/
def storesHome (s : State) (c t : Nat) (m : BitVec 32) : Bool :=
  !atomsOut s c t m && !seenUnknown s c t m && (ownStores s c t m).all (fun st => !st.unaccepted) &&
    (lanesOf m).all fun l => decide ((laneOf (thrOf s c t) l).hc + 8 ≤ nowNs s)

/-- The release condition of a scope (R135). [DEDUCED: log 80] -/
def relReady (s : State) (c t : Nat) (m : BitVec 32) (scope : Nat) : Bool :=
  loadsDone s c t m && (if scope ≤ 2 then storesOnDie s c t m else storesHome s c t m)

/-- A release at package scope or wider starts the write-back of the buffered stores (R153). -/
def relStart (s : State) (c t : Nat) (m : BitVec 32) (scope : Nat) : State :=
  if scope ≤ 2 then s else writeBackThread s c t m

/-- Go on once a condition holds; lost stores and discarded write-backs are raised first (R145, R154). [DEDUCED: log 17] -/
def gate (i : Instr) (x : Form) (s : State) (ready : State → Bool) (go : State → State) : State :=
  match lateFault s (lanesOf (actMask s x)) with
  | some f => takeLate s f (lanesOf (actMask s x))
  | none => if ready s then go s else holdOn i s .fence false false (begun s)

/-- The gate of a release, a full fence or a seq-cst access at a scope. [DEDUCED: log 17] -/
def relGate (i : Instr) (x : Form) (s : State) (scope : Nat) (go : State → State) : State :=
  let c := s.cur.core
  let t := s.cur.thr
  let m := actMask s x
  gate i x (relStart s c t m scope) (fun s => relReady s c t m scope) go

/-! ## Order within one thread -/

/-- Lines of memory that an access touches. -/
def Acc.line (a : Acc) : Nat := a.pa / 64

/-- A pending load or atomic of the same lane touches the line of an access: a later store or atomic waits for it
(R127, R131). -/
def laneBusy (s : State) (c t : Nat) (a : Acc) : Bool :=
  (s.mem.atoms.any fun o => o.core = c && o.thr = t && o.acc.lane = a.lane && o.acc.isMem && a.isMem && o.acc.line = a.line &&
    o.tw.isNone) ||
  s.mem.fills.any fun f => f.core = c && f.thr = t && f.lanes.getLsbD a.lane && match f.what with
    | .load _ accs => accs.any fun b => b.lane = a.lane && a.isMem && b.isMem && b.line = a.line
    | _ => false

/-- Requests of a core to memory that are outstanding: lanes of loads, atomics, lanes of SFILLs (R2, R423). [DEDUCED: log 86] -/
def outstanding (s : State) (c : Nat) : Nat :=
  ((s.mem.fills.filter fun f => f.core = c).map fun f => match f.what with
    | .load _ accs => (accs.filter fun a => a.isMem && f.lanes.getLsbD a.lane).length
    | _ => 0).sum + (s.mem.atoms.filter fun a => a.core = c && a.old.isNone).length +
    ((coreOf s c).jobs.map fun j => match j.work with
      | .sfill _ _ lanes => (lanes.filter fun (_, a, _) => a.isMem).length
      | _ => 0).sum

/-- Requests that a core can have outstanding (R2). -/
def maxRequests : Nat := 4096

/-- The core has no room for the requests of some accesses (R2, R423). [DEDUCED: log 86] -/
def reqFull (s : State) (accs : List Acc) : Bool :=
  decide (maxRequests < outstanding s s.cur.core + (accs.filter Acc.isMem).length)

/-- Some access has to wait for an earlier one of its lane, or for room among the core's outstanding requests (R2). [DEDUCED: log 86] -/
def anyBusy (s : State) (accs : List Acc) : Bool := accs.any (laneBusy s s.cur.core s.cur.thr) || reqFull s accs

/-! ## Loads -/

/-- Bytes of a size code (R306). -/
def sizeBytes (k : Nat) : Nat := 2 ^ k

/-- The words of a load (R309). -/
def loadWords (sx : Bool) (bs : List Byte) : List Word :=
  let n := bs.length
  let v := leNat bs
  if n ≤ 4 then [BitVec.ofNat 32 (if sx then ofSigned 32 (toSigned (8 * n) v) else v)] else natWords (n / 4) v

/-- An address of the page of a row-management, boost or telemetry block (R384, R391, "Fleet operations"). [DEDUCED: log 26] -/
def inStatusPage (pa : Nat) : Bool :=
  match regionOf pa with
  | .reg off => (decide (capPage 1 ≤ off) && decide (off < capPage 13)) || (decide (capPage 27 ≤ off) && decide (off < capPage 28))
  | _ => false

/-- A load of a status block of another size than 32 or 64 bits (R384). [DEDUCED: log 26] -/
def statusLoad (a : Acc) : Option FRec :=
  if a.isMem && inStatusPage a.pa && !(a.size = 4 || a.size = 8) then some (laneErr 0x04 a.va) else none

/-- The checks of a load beyond R307: reduction cells (R149) and status blocks (R384). -/
def rcellLoad (a : Acc) : Option FRec :=
  if a.attr.rcell && (a.attr.tier = 0 || a.attr.tier = 2) then some (laneErr 0x06 a.va) else statusLoad a

/-- An access with a further check. -/
def thenChk (r : Except FRec Acc) (p : Acc → Option FRec) : Except FRec Acc :=
  match r with
  | .error f => .error f
  | .ok a => match p a with
    | some f => .error f
    | none => .ok a

/-- Bank requests of reads that no leased copy serves. -/
def touchAll (s : State) (accs : List Acc) (wr : Bool) : State × List Nat :=
  ((accs.filter Acc.isMem).map fun a => (a.line, a)).foldl (fun (r : State × List Nat × List Nat) (ln, a) =>
    let (s, ids, seen) := r
    if seen.contains ln || (!wr && (copyOf s (dieOf s.cur.core) ln).isSome) then (s, ids, seen)
    else
      let (s, new) := touchHome (countHeat s a.attr a.pa) s.cur.core a.pa a.attr.nhc wr
      (s, ids ++ new, ln :: seen)) (s, [], []) |> fun (s, ids, _) => (s, ids)

/-- A claim of an operand slot has still to take effect (R335). -/
def claimWaits (s : State) (id : Nat) : Bool :=
  s.engs.any fun (_, e) => e.table.any fun n => n.id = id && match n.op with
    | .oclm _ _ => true
    | _ => false

/-- A wait-id is still pending: a walk, a bank request or a claim. -/
def waiting (s : State) (ids : List Nat) : Bool :=
  ids.any fun id => (s.xl.walks.any fun w => w.id = id) || (s.mem.reqs.any fun r => r.id = id) || claimWaits s id

/-- What scratch loads return: they are performed at the port in the order of issue (R373). -/
def scrLoads (s : State) (sx : Bool) (accs : List Acc) : List (Nat × List Word × Bool) :=
  accs.filterMap fun a => match a.loc with
    | .scr k off =>
      let r := pastBytes s s.cur.core s.cur.thr a.loc (scrRead s k off a.size)
      some (a.lane, loadWords sx r.1, r.2)
    | .mem _ => none

/-- LR of a scratch granule sets its reservation at the port (R146, R151). -/
def scrResvs (s : State) (lr : Bool) (scope : Nat) (accs : List Acc) : State :=
  if !lr then s
  else accs.foldl (fun s a => if a.isMem then s else setResv s s.cur.core s.cur.thr a.lane a.loc scope) s

/-- The end of an access: a seq-cst one holds the thread until the fence after it is done (R136). -/
def seqEnd (i : Instr) (x : Form) (s0 s : State) : State :=
  if orderOf x = 2 then
    let u := relStart s s0.cur.core s0.cur.thr (actMask s0 x) (scopeOf x)
    if relReady u s0.cur.core s0.cur.thr (actMask s0 x) (scopeOf x) then finish i x s0 false u
    else holdOn i (noteCost i x s0 u) .fence false false true
  else finish i x s0 false s

/-- Issue a load or LR behind its gates: D is empty until the data arrives (R309, R316). -/
def issueLoad (i : Instr) (x : Form) (n : Nat) (sx lr : Bool) (accs : List Acc) (s : State) : State :=
  let (t, ws) := walkAll s accs
  let (t, bs) := touchAll t accs false
  let got := scrLoads s sx accs
  let t := scrResvs (countLent t accs) lr (scopeOf x) accs
  seqEnd i x s (addFill x n (actMask s x) (.load sx accs) (emptyAll i x n s (killDead i x t)) fun f =>
    { f with waits := ws ++ bs, acq := decide (0 < orderOf x), lr := lr, scope := scopeOf x, got := got })

/-- A load or LR after its accesses are known. -/
def loadGo (i : Instr) (x : Form) (n : Nat) (sx lr : Bool) (s : State) (accs : List Acc) : State :=
  if acqPending s s.cur.core s.cur.thr (actMask s x) || reqFull s accs then holdOn i s .retry false false false
  else if orderOf x = 2 then relGate i x s (scopeOf x) (issueLoad i x n sx lr accs)
  else issueLoad i x n sx lr accs s

/-- LD behind the shared checks. [DEDUCED: log 26] -/
def ldBody (x : Form) (s : State) : State :=
  let i := Instr.ld x
  let size := sizeBytes (x.m 0 3)
  if begun s then relGate i x s (scopeOf x) fun t => finish i x s false t
  else match accessAll (lanesOf (actMask s x)) fun l =>
      thenChk (accessOf s (x.m 3 2) (memOff x) size .read l (srcNo i x s 3 l)) rcellLoad with
  | .error f => takeFault s f
  | .ok accs => loadGo i x (sizeRegs (x.m 0 3)) (x.m 5 1 = 1) false s accs

/-- LD (R309). -/
def execLd (x : Form) (s : State) : Host.Outcome State Fault Refusal := run (.ld x) x s (ldBody x s)

/-! ## Stores -/

/-- A store that overlaps a live barrier object (R120). -/
def barrierChk (a : Acc) (s : State) : Option FRec :=
  if locBarrier s a.loc a.size then some (laneErr 0x0C a.va) else none

/-- Perform the stores of lanes in ascending order (R308). -/
def putStores (s : State) (ef : Bool) (ws : List (Acc × List (Byte × Bool))) : State :=
  let c := s.cur.core
  let t := s.cur.thr
  ws.foldl (fun s (a, bs) => match a.loc with
    | .scr k off => scrWrite s c k off bs (.thread c t a.lane)
    | .mem pa => postStore s (.thread c t a.lane) (dieOf c) (grpOf s c).asid a.va pa bs ef a.attr) s

/-- The bytes a lane stores: the low bytes of B with its poison (R310). -/
def storeBytes (i : Instr) (x : Form) (s : State) (a : Acc) : List (Byte × Bool) :=
  let v := srcNo i x s 4 a.lane
  (natLe a.size v.n).map fun b => (b, v.p)

/-- The stores of ST, then its end; a seq-cst store holds the thread until the fence after it is done (R136). [DEDUCED: log 18] -/
def stGo (x : Form) (accs : List Acc) (s : State) : State :=
  let i := Instr.st x
  let t := countLent (walkAll s accs).1 accs
  seqEnd i x s (killDead i x (putStores t (x.m 5 1 = 0) (accs.map fun a => (a, storeBytes i x s a))))

/-- ST behind the shared checks. -/
def stBody (x : Form) (s : State) : State :=
  let i := Instr.st x
  let size := sizeBytes (x.m 0 3)
  if begun s then relGate i x s (scopeOf x) fun t => finish i x s false t
  else
    match accessAll (lanesOf (actMask s x)) fun l =>
        thenChk (accessOf s (x.m 3 2) (memOff x) size .write l (srcNo i x s 3 l)) fun a => barrierChk a s with
    | .error f => takeFault s f
    | .ok accs =>
      if acqPending s s.cur.core s.cur.thr (actMask s x) || accs.any (laneBusy s s.cur.core s.cur.thr) then
        holdOn i s .retry false false false
      else if 0 < orderOf x then relGate i x s (scopeOf x) (stGo x accs)
      else stGo x accs s

/-- ST (R310). -/
def execSt (x : Form) (s : State) : Host.Outcome State Fault Refusal := run (.st x) x s (stBody x s)

/-! ## SFILL (R311, R122) -/

/-- The even half of B, and B + 1, in a lane. -/
def pairLo (v : Val) : Nat := (v.w.getD 0 0).toNat
/-- The odd half of a pair. -/
def pairHi (v : Val) : Nat := (v.w.getD 1 0).toNat

/-- Checks of a lane of SFILL: its source, then its destination. -/
def sfillAcc (i : Instr) (x : Form) (s : State) (size l : Nat) : Except FRec Acc :=
  let b := srcNo i x s 4 l
  let dst := pairLo b
  thenChk (accessOf s 0 (memOff x) size .read l (srcNo i x s 3 l)) fun a =>
    match rcellLoad a with
    | some f => some f
    | none =>
      if b.p then some { laneErr 0x08 0 with info := 4 }
      else if !(dst % size = 0) then some (laneErr 0x04 dst)
      else if decide (slimit (grpOf s s.cur.core) < dst + size) then some { laneErr 0x17 dst with info := 0xFF }
      else if overBarrier s s.cur.core dst size then some (laneErr 0x0C dst)
      else none

/-- Append a copy to the core's list (R330). [DEDUCED: log 10] -/
def addJob (s : State) (c : Nat) (g : Job → Job) (work : CopyWork) : State :=
  let (id, s) := freshId s
  let (d, s) := freeN s
  updCore s c fun k => { k with jobs := k.jobs ++ [g { id := id, tag := none, work := work, due := s.time + 1 + d }] }

/-- SFILL behind the shared checks. [DEDUCED: log 26] -/
def sfillBody (x : Form) (s : State) : State :=
  let i := Instr.sfill x
  let c := s.cur.core
  let size := sizeBytes (x.m 0 3)
  match accessAll (lanesOf (actMask s x)) (sfillAcc i x s size) with
  | .error f => takeFault s f
  | .ok accs =>
    let l := lowLane s x
    let bar := pairHi (srcNo i x s 4 l)
    if !(bar % 16 = 0) then takeFault s { laneErr 0x04 bar with mask := maskOf [l] }
    else if decide (slimit (grpOf s c) < bar + 16) || !overBarrier s c bar 16 then takeFault s (badValue (maskOf [l]))
    else if acqPending s c s.cur.thr (actMask s x) || reqFull s accs then holdOn i s .retry false false false
    else
      let (t, bs) := touchAll (countLent (walkAll s accs).1 accs) accs false
      let lanes := accs.map fun a => (a.lane, a, pairLo (srcNo i x s 4 a.lane))
      let t := addJob t c (fun j =>
        { j with super := (curThr s).super, thr := s.cur.thr, mark := taskMark s, waits := some bs }) (.sfill size bar lanes)
      finish i x s false (killDead i x t)

/-- SFILL (R311). -/
def execSfill (x : Form) (s : State) : Host.Outcome State Fault Refusal := run (.sfill x) x s (sfillBody x s)

/-! ## PREF and CCTL (R312, R318) -/

/-- The requests of PREF for one access. -/
def prefLine (s : State) (lvl : Nat) (a : Acc) : State :=
  let c := s.cur.core
  if !a.isMem || a.attr.rcell || leaseNs a.attr = 0 then s
  else if lvl = 2 then (touchHome s c a.pa a.attr.nhc false).1
  else
    let s := if (copyOf s (dieOf c) a.line).isSome then s else (touchHome s c a.pa a.attr.nhc false).1
    let s := grantLease s (dieOf c) a.pa a.attr
    if lvl = 0 then updCore s c fun k => { k with l1 := mset k.l1 a.line () } else s

/-- PREF (R312): a lane whose address fails translation or permission is dropped. -/
def execPref (x : Form) (s : State) : Host.Outcome State Fault Refusal :=
  let i := Instr.pref x
  run i x s (
    match poisonFault i x s [3] with
    | some f => takeFault s { f with addr := (srcNo i x s 3 (lanesOf f.mask |>.headD 0)).n }
    | none =>
      let accs := (lanesOf (actMask s x)).filterMap fun l => accGot (accessOf s 0 (memOff x) 1 .read l (srcNo i x s 3 l))
      let t := (walkAll s accs).1
      finish i x s false (accs.foldl (fun t a => prefLine t (x.m 0 2) a) (killDead i x t)))

/-- CCTL on one line. -/
def cctlLine (s : State) (op : Nat) (a : Acc) : State :=
  let c := s.cur.core
  let die := dieOf c
  let dropL1 (s : State) : State := updCore s c fun k => { k with l1 := mdel k.l1 a.line }
  if !a.isMem || a.attr.rcell || leaseNs a.attr = 0 then s
  else if op = 2 then dropL1 s
  else
    let s := writeBackLine s die a.line
    if op = 0 then s
    else
      let ef := s.mem.stores.any fun st => st.die = die && st.line = a.line && st.ef && st.pending
      dropL1 (if ef then s else dropCopy s die a.line)

/-- CCTL (R318). -/
def execCctl (x : Form) (s : State) : Host.Outcome State Fault Refusal :=
  let i := Instr.cctl x
  run i x s (
    match memAccs i x s 0 1 .read with
    | .error f => takeFault s f
    | .ok accs =>
      let t := (walkAll s accs).1
      finish i x s false (accs.foldl (fun t a => cctlLine t (x.m 0 2) a) (killDead i x t)))

/-! ## FENCE (R137, R317) -/

/-- FENCE behind the shared checks. [DEDUCED: log 80] -/
def fenceBody (x : Form) (s : State) : State :=
  let i := Instr.fence x
  let c := s.cur.core
  let t := s.cur.thr
  let m := actMask s x
  let go (u : State) : State := finish i x s false u
  match x.m 0 3 with
  | 0 => relGate i x s (scopeOf x) go
  | 1 => if loadsDone s c t m then go s else holdOn i s .fence false false false
  | 2 => relGate i x s (scopeOf x) go
  | 3 => gate i x (writeBackThread s c t m) (fun u => storesHome u c t m) fun u => go (passEngineFence u c t m)
  | _ => gate i x (writeBackThread s c t m) (fun u => storesHome u c t m) go

/-- FENCE (R317). -/
def execFence (x : Form) (s : State) : Host.Outcome State Fault Refusal := run (.fence x) x s (fenceBody x s)

end Sys2Proof.Machine
end

