-- ==== Sys2Proof/Machine/Atomics.lean ====
section
/-! DEFINITION. Atomics (R146 to R152, R313 to R316): ATOM, RED, LR, SC, reduction cells, the hearth, and the filling of
long-latency destinations (R226). -/

namespace Sys2Proof.Machine

/-! ## Reduction cells (R148 to R150) -/

/-- A contribution: a sum in units of 2^-160, and the marks NaN, +inf, -inf. -/
structure Contrib where
  v : Int := 0
  nan : Bool := false
  pinf : Bool := false
  ninf : Bool := false
  deriving DecidableEq, Repr

/-- The contribution of one float value (R87). -/
def contribOf (f : Fmt) (bits : Nat) : Contrib :=
  match fdec f false bits with
  | .fin n m e => { v := wfxOf n m e }
  | .inf n => if n then { ninf := true } else { pinf := true }
  | .nan => { nan := true }

/-- The contributions of an operation on a cell, in order (R149, R315). -/
def contribs (op : Nat) (b : DWord) : List Contrib :=
  match op with
  | 12 => [contribOf f32 (nbits b.toNat 0 32)]
  | 13 => [contribOf bf16 (nbits b.toNat 0 16), contribOf bf16 (nbits b.toNat 16 16)]
  | _ => [{ v := toSigned 64 b.toNat * 2 ^ 128 }]

/-- DONE of a cell's 512 bits. -/
def cellDone (v : Nat) : Bool := v.testBit 395

/-- Set a field of a cell. -/
def cellSet (v lo len x : Nat) : Nat := v - nbits v lo len * 2 ^ lo + x % 2 ^ len * 2 ^ lo

/-- Set a mark of a cell. -/
def cellMark (v lo : Nat) (b : Bool) : Nat := if b then cellSet v lo 1 1 else v

/-- A cell after one contribution; the flag says that it came too late (R150). -/
def cellAdd (v : Nat) (k : Contrib) : Nat × Bool :=
  if cellDone v then (v, true)
  else
    let n := satAdd 32 (nbits v 416 32) 1
    let v := cellSet v 0 384 (ofSigned 384 (toSigned 384 v + k.v))
    let v := cellMark (cellMark (cellMark v 392 k.nan) 393 k.pinf) 394 k.ninf
    let v := cellSet v 416 32 n
    let e := nbits v 448 32
    (cellMark v 395 (!(e = 0) && decide (e ≤ n)), false)

/-- Read-out of a cell (R87, R148). -/
def cellRead (f : Fmt) (v : Nat) : Nat := wfxRead f (toSigned 384 v) (v.testBit 392) (v.testBit 393) (v.testBit 394)

/-- The reduction tree entry that binds the page of a cell (R402). -/
def treeOf (s : State) (pa : Nat) : Option Tree :=
  (s.link.trees.find? fun (_, t) => t.lo.getLsbD 0 && t.base.toNat = pa / 65536 * 65536).map (·.2)

/-- The UALink port to a package: the lowest-numbered one up or degraded whose PEER it is, failing that the pod route of firmware,
an open one of the ports that work; none without one (R401). [DEDUCED: log 79] -/
def routeTo (s : State) (peer : Nat) : Option Nat :=
  let works := (List.range 12).filter fun k => let p := mgetD s.link.ports k {}; p.st = 2 || p.st = 3
  match works.find? fun k => (mgetD s.link.ports k {}).peer = peer with
  | some k => some k
  | none => works[Config.freeNat (openAt s 14 peer) % (works.length + 1)]?

/-- A cell that has just become DONE sends its sum to the parent package (R150, R402); without a route it is lost (R401).
[DEDUCED: log 79] -/
def cellForward (s : State) (pa v : Nat) : State :=
  match s.link.package, treeOf s pa with
  | some _, some t =>
    if t.lo.getLsbD 1 then s
    else match routeTo s (nbits t.lo.toNat 14 10) with
      | none => s
      | some port => updMem s fun m =>
        { m with
          sent := m.sent ++ [{ port := port, parent := nbits t.lo.toNat 14 10, tree := nbits t.lo.toNat 24 8, off := pa % 65536
                               sum := BitVec.ofNat 384 v, status := BitVec.ofNat 3 (nbits v 392 3) }] }
  | _, _ => s

/-- Contributions that came too late are counted at the hearth (R150). -/
def countLate (s : State) (pa n : Nat) : State :=
  if n = 0 then s
  else match homeOf s pa with
    | .mdie d => updMem s fun m => { m with rcellLate := mupd m.rcellLate d 0 (· + n) }
    | _ => s

/-! ## Operations of ATOM and RED (R313) -/

/-- The operation of a lane; a float B takes its modifier (R191, R315). -/
def rmwOf (i : Instr) (x : Form) (s : State) (wide : Bool) (l : Nat) : Rmw :=
  let b := srcNo i x s 4 l
  let d := srcNo i x s 2 l
  let v := if x.rmwFlt then fsrc i x s 4 (if x.m 0 4 = 12 then 0 else 2) l else b.n
  { op := x.m 0 4, wide := wide, b := BitVec.ofNat 64 v, cmp := BitVec.ofNat 64 d.n, poison := b.p || (x.m 0 4 = 9 && d.p) }

/-- The checks of R149, R120 and R315 for ATOM and RED. -/
def atomChk (s : State) (op : Nat) (wide : Bool) (a : Acc) : Option FRec :=
  if a.attr.rcell then
    if a.attr.tier = 0 || a.attr.tier = 2 then some (laneErr 0x06 a.va)
    else if decide (op < 12) || wide then some (badValue 0)
    else if !(a.pa % 64 = 0) then some (laneErr 0x04 a.va)
    else none
  else if op = 14 then some (badValue 0)
  else barrierChk a s

/-- The access is performed in the die's L2 (R146). [DEDUCED: log 22] -/
def inL2 (scope : Nat) (a : Acc) : Bool := a.isMem && decide (scope ≤ 1) && !a.attr.rcell

/-- The access goes to a hearth or home agent (R146). [DEDUCED: log 22] -/
def atHearth (scope : Nat) (a : Acc) : Bool := a.isMem && !inL2 scope a

/-- An atomic can be performed in the die's L2 now: no store of the die to the line is still invisible there, and the
line can be read. [DEDUCED: log 22] -/
def l2Ready (s : State) (a : Acc) : Bool :=
  let die := dieOf s.cur.core
  viewReady s die (readerOf s.cur.core s.cur.thr a.lane) a.pa a.size &&
    s.mem.stores.all fun st => !(st.die = die && st.line = a.line && st.pending) || st.vis

/-- A write performed in the die's L2 is visible to the die's agents at once, and reaches the home as an EF store, whichever die
the home is (R130, R146). [DEDUCED: log 22] -/
def l2Visible (s : State) (n : Nat) (a : Acc) : State :=
  if a.isMem then
    let mark (st : Store) : Store := if n ≤ st.id ∧ st.pa = a.pa then { st with ef := true, vis := true } else st
    let s := updMem s fun m => { m with stores := m.stores.map mark }
    wakeSleepers s (fun c => dieOf c = dieOf s.cur.core) (.mem a.line) (.thread s.cur.core s.cur.thr a.lane)
  else s

/-- Perform an operation in scratch or the L2: the new state and the old value, poisoned by a poisoned memory word or operand
(R228, R308, R313). [DEDUCED: log 22] -/
def atomNow (s : State) (a : Acc) (r : Rmw) : State × (List Word × Bool) :=
  let c := s.cur.core
  let t := s.cur.thr
  let (bs, p) := readLoc s c t a.lane a.loc a.size
  let old := BitVec.ofNat 64 (leNat bs)
  let new := (natLe a.size (rmwNew r old).toNat).map fun b => (b, p || r.poison)
  (l2Visible (putStores s true [(a, new)]) s.nextId a, natWords (a.size / 4) old.toNat, p || r.poison)

/-- Put an atomic on its way to a hearth (R146): the issuing die's copy is written back and dropped. [DEDUCED: log 10, 22] -/
def atomSend (s : State) (a : Acc) (r : Rmw) (sc : Option (List Byte)) (ret : Bool) (waits : List Nat) : State × Nat :=
  let c := s.cur.core
  let s := writeBackLine s (dieOf c) a.line
  let s := dropCopy s (dieOf c) a.line
  let (id, s) := freshId s
  let (d, s) := freeN s
  let o : AtomOp := { id := id, core := c, thr := s.cur.thr, acc := a, rmw := r, sc := sc, ret := ret
                      asid := (grpOf s c).asid, due := s.time + 1 + d, waits := waits }
  (updMem s fun m => { m with atoms := m.atoms ++ [o] }, id)

/-- What the lanes of an atomic have come to: values known at issue, and operations under way. -/
structure AtomRun where
  s : State
  got : List (Nat × List Word × Bool) := []
  ops : List Nat := []
  /-- lanes of an SC that have stored. -/
  won : List Nat := []

/-- The lanes of ATOM or RED in ascending order (R308). -/
def atomLanes (i : Instr) (x : Form) (s0 : State) (wide ret : Bool) (waits : List Nat) (accs : List Acc) (s : State) : AtomRun :=
  accs.foldl (fun r a =>
    let m := rmwOf i x s0 wide a.lane
    if atHearth (scopeOf x) a then
      let (t, id) := atomSend r.s a m none ret waits
      { r with s := t, ops := r.ops ++ [id] }
    else
      let (t, w) := atomNow r.s a m
      { r with s := t, got := r.got ++ [(a.lane, w)] }) { s := s }

/-- An atomic has to wait (R127, R134, R146). -/
def atomWaits (x : Form) (s : State) (accs : List Acc) : Bool :=
  acqPending s s.cur.core s.cur.thr (actMask s x) || anyBusy s accs || accs.any fun a => inL2 (scopeOf x) a && !l2Ready s a

/-- Wait for the L2: stores of the die to the line that are still invisible are written back. -/
def atomHold (i : Instr) (s : State) (scope : Nat) (accs : List Acc) : State :=
  holdOn i (accs.foldl (fun s a => if inL2 scope a && !l2Ready s a then writeBackLine s (dieOf s.cur.core) a.line else s) s)
    .retry false false false

/-- Behind the gates: perform, and leave D empty until the old values are there. [DEDUCED: log 18] -/
def atomGo (i : Instr) (x : Form) (n : Nat) (wide : Bool) (accs : List Acc) (s : State) : State :=
  let (t, ws) := walkAll s accs
  -- those performed in the L2 read the lines it does not hold from their homes
  let (t, bs) := touchAll t (accs.filter (inL2 (scopeOf x))) false
  let ret := decide (0 < n)
  let r := atomLanes i x s wide ret ws accs (countLent t accs)
  let t := if ret then
      addFill x n (actMask s x) (.atomic r.ops) (emptyAll i x n s (killDead i x r.s)) fun f =>
        { f with waits := bs, acq := decide (0 < orderOf x), scope := scopeOf x, got := r.got }
    else killDead i x r.s
  seqEnd i x s t

/-- ATOM and RED behind the shared checks: n registers of D. -/
def atomBody (i : Instr) (x : Form) (n : Nat) (s : State) : State :=
  let wide := x.m 4 1 = 1
  if begun s then relGate i x s (scopeOf x) fun t => finish i x s false t
  else
    match accessAll (lanesOf (actMask s x)) fun l =>
        thenChk (accessOf s 0 (memOff x) (if wide then 8 else 4) .both l (srcNo i x s 3 l)) (atomChk s (x.m 0 4) wide) with
    | .error f => takeFault s f
    | .ok accs =>
      if atomWaits x s accs then atomHold i s (scopeOf x) accs
      else if 0 < orderOf x then relGate i x s (scopeOf x) (atomGo i x n wide accs)
      else atomGo i x n wide accs s

/-- Registers of D of ATOM (R306, R315). -/
def atomRegs (x : Form) : Nat := if x.m 4 1 = 1 then 2 else 1

/-- ATOM (R313). -/
def execAtom (x : Form) (s : State) : Host.Outcome State Fault Refusal := run (.atom x) x s (atomBody (.atom x) x (atomRegs x) s)

/-- RED (R313). -/
def execRed (x : Form) (s : State) : Host.Outcome State Fault Refusal := run (.red x) x s (atomBody (.red x) x 0 s)

/-! ## LR and SC (R151, R316) -/

/-- The checks of R149 for LR and SC, of R384 for LR, and of R120 for SC. -/
def resvChk (s : State) (store : Bool) (a : Acc) : Option FRec :=
  if a.attr.rcell then (if a.attr.tier = 0 || a.attr.tier = 2 then some (laneErr 0x06 a.va) else some (badValue 0))
  else if store then barrierChk a s
  else statusLoad a

/-- Accesses of LR or SC. -/
def resvAccs (i : Instr) (x : Form) (s : State) (store : Bool) : Except FRec (List Acc) :=
  accessAll (lanesOf (actMask s x)) fun l =>
    thenChk (accessOf s 0 (memOff x) (sizeBytes (x.m 0 3)) .both l (srcNo i x s 3 l)) (resvChk s store)

/-- LR behind the shared checks. [DEDUCED: log 26] -/
def lrBody (x : Form) (s : State) : State :=
  let i := Instr.lr x
  if begun s then relGate i x s (scopeOf x) fun t => finish i x s false t
  else match resvAccs i x s false with
  | .error f => takeFault s f
  | .ok accs =>
    if anyBusy s accs then holdOn i s .retry false false false
    else
      -- performed at the hearth for scope die or wider: the die's copy is written back and dropped (R146)
      let t := accs.foldl (fun t a => if a.isMem && decide (2 ≤ scopeOf x) then
        dropCopy (writeBackLine t (dieOf s.cur.core) a.line) (dieOf s.cur.core) a.line else t) s
      loadGo i x (sizeRegs (x.m 0 3)) false true t accs

/-- LR (R316). -/
def execLr (x : Form) (s : State) : Host.Outcome State Fault Refusal := run (.lr x) x s (lrBody x s)

/-- SC of one lane in scratch or the L2: 0 when it stored, 1 when it failed. [DEDUCED: log 23] -/
def scNow (s : State) (scope : Nat) (a : Acc) (bs : List (Byte × Bool)) : State × Word :=
  let c := s.cur.core
  let t := s.cur.thr
  if resvIntact s c t a.lane a.loc scope then (clearResv (l2Visible (putStores s true [(a, bs)]) s.nextId a) c t a.lane, 0) else (s, 1)

/-- The lanes of SC in ascending order: of the lanes that name one granule, the lowest with an intact reservation stores (R151); a
poisoned B poisons its D (R228). [DEDUCED: log 23] -/
def scLanes (i : Instr) (x : Form) (s0 : State) (waits : List Nat) (accs : List Acc) (s : State) : AtomRun :=
  accs.foldl (fun r a =>
    let bs := storeBytes i x s0 a
    if atHearth (scopeOf x) a then
      let m : Rmw := { op := 8, wide := a.size = 8, b := 0, cmp := 0, poison := bs.any (·.2) }
      let (t, id) := atomSend r.s a m (some (bs.map (·.1))) true waits
      { r with s := t, ops := r.ops ++ [id] }
    else
      let lost := accs.any fun b => r.won.contains b.lane && granOf b.loc = granOf a.loc
      let (t, w) := if lost then (r.s, 1#32) else scNow r.s (scopeOf x) a bs
      { r with s := t, got := r.got ++ [(a.lane, [w], bs.any (·.2))], won := if w = 0 then a.lane :: r.won else r.won }) { s := s }

/-- Behind the gates of SC. [DEDUCED: log 18] -/
def scGo (i : Instr) (x : Form) (accs : List Acc) (s : State) : State :=
  let (t, ws) := walkAll s accs
  let r := scLanes i x s ws accs (countLent t accs)
  seqEnd i x s (addFill x 1 (actMask s x) (.atomic r.ops) (emptyAll i x 1 s (killDead i x r.s)) fun f =>
    { f with acq := decide (0 < orderOf x), scope := scopeOf x, got := r.got })

/-- SC behind the shared checks. -/
def scBody (x : Form) (s : State) : State :=
  let i := Instr.sc x
  if begun s then relGate i x s (scopeOf x) fun t => finish i x s false t
  else
    match resvAccs i x s true with
    | .error f => takeFault s f
    | .ok accs =>
      if atomWaits x s accs then atomHold i s (scopeOf x) accs
      else if 0 < orderOf x then relGate i x s (scopeOf x) (scGo i x accs)
      else scGo i x accs s

/-- SC (R316). -/
def execSc (x : Form) (s : State) : Host.Outcome State Fault Refusal := run (.sc x) x s (scBody x s)

/-! ## At the hearth (R146) -/

/-- Change an atomic under way. -/
def updAtom (s : State) (id : Nat) (f : AtomOp → AtomOp) : State :=
  updMem s fun m => { m with atoms := m.atoms.map fun o => if o.id = id then f o else o }

/-- The hearth can perform an atomic now. -/
def atomReady (s : State) (o : AtomOp) : Bool :=
  o.tw.isNone && decide (o.due ≤ s.time) && !waiting s o.waits && !moving s o.acc.pa && !homeDown s o.acc.pa &&
    !(s.mem.stores.any fun st => st.line = o.acc.line && (st.isAccepted || (st.unaccepted && st.die = dieOf o.core && decide (st.id < o.id)))) &&
    !((s.mem.atoms.takeWhile fun p => !(p.id = o.id)).any fun p =>
      p.core = o.core && p.thr = o.thr && p.acc.line = o.acc.line && p.tw.isNone)

/-- The atomic's write is accepted at the home as a GA store (R129, R146). -/
def atomStore (s : State) (o : AtomOp) (pa : Nat) (bs : List (Byte × Bool)) : State :=
  let tw := twFor s (pa / 64)
  let st : Store := { id := o.id, by' := .thread o.core o.thr o.acc.lane, die := 4, asid := o.asid, va := o.acc.va, pa := pa
                      bytes := bs, t := nowNs s, attr := o.acc.attr }
  let s := updMem s fun m => { m with stores := m.stores ++ [st] }
  updAtom (acceptStore s st) o.id fun a => { a with tw := some tw }

/-- Perform a contribution to a reduction cell (R149). -/
def cellPerform (s : State) (o : AtomOp) : State :=
  let pa := o.acc.pa
  let (bs, p) := viewBytes s 4 nobody pa 64
  let v := leNat bs
  let ks := contribs o.rmw.op o.rmw.b
  let r := ks.foldl (fun (r : Nat × Nat) k => let q := cellAdd r.1 k; (q.1, r.2 + (if q.2 then 1 else 0))) (v, 0)
  let out := if o.rmw.op = 13 then cellRead bf16 v * 65537 else cellRead f32 v
  let s := noteCell (countLate s pa r.2) o.acc.attr pa
  let s := if cellDone r.1 && !cellDone v then cellForward s pa r.1 else s
  let s := if r.1 = v then updAtom s o.id fun a => { a with tw := some (nowNs s) }
    else atomStore s o pa ((natLe 64 r.1).map fun b => (b, p || o.rmw.poison))
  updAtom s o.id fun a => { a with old := some ([BitVec.ofNat 32 out], p || o.rmw.poison) }

/-- Perform an atomic or a conditional store at its home. -/
def homePerform (s : State) (o : AtomOp) : State :=
  let pa := o.acc.pa
  let n := o.acc.size
  let (bs, p) := viewBytes s 4 nobody pa n
  let old := BitVec.ofNat 64 (leNat bs)
  match o.sc with
  | some new =>
    if resvIntact s o.core o.thr o.acc.lane o.acc.loc 2 then
      let s := clearResv (atomStore s o pa (new.map fun b => (b, o.rmw.poison))) o.core o.thr o.acc.lane
      updAtom s o.id fun a => { a with old := some ([0], o.rmw.poison) }
    else updAtom s o.id fun a => { a with tw := some (nowNs s), old := some ([1], o.rmw.poison) }
  | none =>
    let new := natLe n (rmwNew o.rmw old).toNat
    let s := atomStore s o pa (new.map fun b => (b, p || o.rmw.poison))
    updAtom s o.id fun a => { a with old := some (natWords (n / 4) old.toNat, p || o.rmw.poison) }

/-- Perform an atomic that is ready. -/
def atomPerform (s : State) (op : Nat) : State :=
  match s.mem.atoms.find? fun o => o.id = op with
  | none => s
  | some o =>
    if atomReady s o then
      let s := if o.acc.attr.rcell then cellPerform s o else homePerform s o
      -- EF stores of the die behind it can show, once nothing of it is pending (R132)
      let s := refreshVis s (dieOf o.core) o.acc.line
      -- without a result there is nothing more to return
      if o.ret then s else updMem s fun m => { m with atoms := m.atoms.filter fun a => !(a.id = op) }
    else s

/-- HEARTH_ATOMIC (R146): the access reaches its bank and, once it is served there, is performed at its home, or NACKed by a page
move (R106, R152, R379). -/
def execHearthAtomic (op : Nat) (s : State) : Host.Outcome State Fault Refusal :=
  .next (match s.mem.atoms.find? fun o => o.id = op with
    | none => s
    | some o =>
      if atomReady s o && !o.touched then
        let (s, ids) := touchHome (countHeat s o.acc.attr o.acc.pa) o.core o.acc.pa o.acc.attr.nhc true
        atomPerform (updAtom s op fun a => { a with waits := ids, touched := true }) op
      else atomPerform s op)

/-- A child's sum is one contribution to the cell of its tree (R150, R402); one for a tree that no entry binds comes too late. -/
def partialAt (s : State) (pa : Nat) (sum : BitVec 384) (status : BitVec 3) : State :=
  let (bs, p) := viewBytes s 4 nobody pa 64
  let v := leNat bs
  let k : Contrib := { v := toSigned 384 sum.toNat, nan := status.getLsbD 0, pinf := status.getLsbD 1, ninf := status.getLsbD 2 }
  let r := cellAdd v k
  if r.2 then countLate s pa 1
  else
    let s := if cellDone r.1 then cellForward s pa r.1 else s
    postHome s .host 0 0 pa ((natLe 64 r.1).map fun b => (b, p)) {}

/-- Contributions of child packages reach their cells in order, each once no accepted store of its cell keeps it waiting (R129,
R402). -/
def servePartials (s : State) : State :=
  s.mem.partials.foldl (fun s m =>
    let (tree, off, sum, status) := m
    let gone (s : State) : State := updMem s fun u => { u with partials := u.partials.erase m }
    match (s.link.trees.find? fun (_, t) => t.lo.getLsbD 0 && nbits t.lo.toNat 24 8 = tree).map (·.2) with
    | none => gone (updMem s fun u => { u with rcellLate := mupd u.rcellLate 0 0 (· + 1) })
    | some t =>
      let pa := t.base.toNat + off % 65536 / 64 * 64
      if lineStalls s (pa / 64) then s else gone (partialAt (touchHome s fabricReq pa true true).1 pa sum status)) s

/-- RCELL_PARTIAL_ARRIVE (R402). -/
def execRcellPartialArrive (tree off : Nat) (sum : BitVec 384) (status : BitVec 3) (s : State) :
    Host.Outcome State Fault Refusal :=
  .next (servePartials (updMem s fun m => { m with partials := m.partials ++ [(tree, off, sum, status)] }))

/-! ## Results that arrive (R226) -/

/-- The value of an atomic is back: it was performed, its Tw has come, and its write is applied. -/
def atomBack (s : State) (id : Nat) : Bool :=
  match s.mem.atoms.find? fun o => o.id = id with
  | none => true
  | some o => o.old.isSome && (match o.tw with
      | some w => decide (w ≤ nowNs s)
      | none => false) && !(s.mem.stores.any fun st => st.id = id && st.pending)

/-- A load of a lane can be performed now (R129, R131, R146). -/
def loadReady (s : State) (f : Fill) (a : Acc) : Bool :=
  match a.loc with
  | .scr _ _ => true
  | .mem pa =>
    let c := f.core
    let die := dieOf c
    let far := f.lr && decide (2 ≤ f.scope)
    (if far then viewReady s 4 nobody pa a.size && !(s.mem.stores.any fun st => st.die = die && st.line = a.line && st.pending)
     else viewReady s die (readerOf c f.thr a.lane) pa a.size) &&
    !((s.mem.fills.takeWhile fun g => !(g.id = f.id)).any fun g => g.core = c && g.thr = f.thr && g.lanes.getLsbD a.lane &&
      match g.what with
      | .load _ accs => accs.any fun b => b.lane = a.lane && b.isMem && b.line = a.line
      | _ => false) &&
    !(s.mem.atoms.any fun o => o.core = c && o.thr = f.thr && o.acc.lane = a.lane && o.acc.line = a.line && decide (o.id < f.id) && o.tw.isNone)

/-- A pending result can be filled now. -/
def fillReady (s : State) (f : Fill) : Bool :=
  decide (f.due ≤ s.time) && !waiting s f.waits && !(s.mem.fills.any fun g => f.behind.contains g.id) &&
    match f.what with
    | .value _ => true
    | .load _ accs => accs.all fun a => !(f.lanes.getLsbD a.lane) || loadReady s f a
    | .atomic ops => ops.all (atomBack s)

/-- The bytes a load of a lane returns; a 32- or 16-bit load at byte 0 of a reduction cell returns its read-out (R149). [DEDUCED: log 21] -/
def loadBytes (s : State) (f : Fill) (a : Acc) : List Byte × Bool :=
  let pa := a.pa
  let r := if f.lr && decide (2 ≤ f.scope) then viewBytes s 4 nobody pa a.size
    else viewBytes s (dieOf f.core) (readerOf f.core f.thr a.lane) pa a.size
  if a.attr.rcell && pa % 64 = 0 && (a.size = 4 || a.size = 2) then
    let w := viewBytes s (dieOf f.core) (readerOf f.core f.thr a.lane) pa 64
    (natLe a.size (cellRead (if a.size = 4 then f32 else bf16) (leNat w.1)), w.2)
  else if f.lr then r
  else pastBytes s f.core f.thr a.loc r

/-- What the lanes of a pending result receive: lane, words, poison. -/
def fillVals (s : State) (f : Fill) : List (Nat × List Word × Bool) :=
  match f.what with
  | .value vals => vals
  | .load sx accs => f.got ++ (accs.filter Acc.isMem).map fun a => let b := loadBytes s f a; (a.lane, loadWords sx b.1, b.2)
  | .atomic ops => f.got ++ ops.filterMap fun id => match s.mem.atoms.find? fun o => o.id = id with
      | some o => o.old.map fun w => (o.acc.lane, w)
      | none => none

/-- Performing a load of a lane: early forwarding noted (R133), a lease (R128), a reservation (R151). -/
def loadDone (s : State) (f : Fill) (a : Acc) : State :=
  match a.loc with
  | .scr _ _ => s
  | .mem pa =>
    let c := f.core
    let s := raiseSeen (noteReaders s c f.thr a.lane pa a.size) c f.thr a.lane pa a.size
    let s := if f.lr && !f.noResv then setResv s c f.thr a.lane a.loc f.scope else s
    if f.lr && decide (2 ≤ f.scope) then s else grantLease s (dieOf c) pa a.attr

/-- Fill one lane of a thread's destination; while a trap is open, a slot of the interrupted level is filled in the
level's shadow (R225, R407). -/
def fillLane (h : Thr) (f : Fill) (l : Nat) (ws : List Word) (p : Bool) : Thr :=
  if !f.dst.cache || f.depth = h.tdepth then fillDst h f.dst l ws p
  else
    let h := if f.dst.wb then fillDst h { f.dst with cache := false } l ws p else h
    if h.tdepth < f.depth then h
    else
      let k := h.tdepth - 1 - f.depth
      let sh := h.shadows.getD k {}
      let sh := (List.range f.dst.n).foldl (fun (sh : Shadow) j =>
        let key := l * 6 + f.dst.slot + j
        let o := (mgetD sh.slots key {}).cur
        { sh with slots := mset sh.slots key { cur := { o with ver := { v := ws.getD j 0, full := true, poison := p } } }
                  filled := mset sh.filled key () }) sh
      { h with shadows := lset h.shadows k sh }

/-- A pending result is delivered and forgotten; a home register that a later result still has to fill stays empty (R224). -/
def deliver (s : State) (f : Fill) (vals : List (Nat × List Word × Bool)) : State :=
  let later := s.mem.fills.filter fun g => g.core = f.core && g.thr = f.thr && g.behind.contains f.id
  let s := if mhas s.thrs (tkey f.core f.thr) then
      updThr s f.core f.thr fun h =>
        let h := vals.foldl (fun h (l, ws, p) => if f.lanes.getLsbD l then fillLane h f l ws p else h) h
        later.foldl (fun h g => (lanesOf g.lanes).foldl (fun h l => emptyDst h g.dst l) h) h
    else s
  updMem s fun m => { m with fills := m.fills.filter fun g => !(g.id = f.id) }

/-- Deliver a pending result that is ready. -/
def fillNow (s : State) (f : Fill) : State :=
  let vals := fillVals s f
  let s := match f.what with
    | .load _ accs => (accs.filter fun a => f.lanes.getLsbD a.lane).foldl (fun s a => loadDone s f a) s
    | .atomic ops => updMem s fun m => { m with atoms := m.atoms.filter fun o => !(ops.contains o.id) }
    | .value _ => s
  deliver s f vals

/-- RESULT_FILL (R226). [DEDUCED: log 21] -/
def execResultFill (fill : Nat) (s : State) : Host.Outcome State Fault Refusal :=
  .next (match s.mem.fills.find? fun f => f.id = fill with
    | some f => if fillReady s f then fillNow s f else s
    | none => s)

end Sys2Proof.Machine
end

