-- ==== Sys2Proof/Machine/Barrier.lean ====
section
/-! DEFINITION. Barrier objects in scratch (R120 to R122, R319), hardware barriers (R320, R321), MWAIT (R322), and the
events that end the waits of class 5. -/

namespace Sys2Proof.Machine

/-! ## The object (R120) -/

/-- The words of a barrier object. -/
structure Bar where
  expect : Nat
  arrived : Nat
  fills : Int
  landed : Nat
  phase : Nat
  deriving DecidableEq, Repr

/-- The object is live. -/
def barLive (s : State) (k off : Nat) : Bool := mhas (coreOf s k).scrT (off / 16)

/-- Read the object. -/
def barGet (s : State) (k off : Nat) : Bar :=
  let w (j : Nat) : Nat := leNat (scrRead s k (off + 4 * j) 4).1
  { expect := w 0 / 65536, arrived := w 0 % 65536, fills := toSigned 32 (w 1), landed := w 2, phase := w 3 }

/-- Write the object. -/
def barPut (s : State) (k off : Nat) (b : Bar) (w : Writer) : State :=
  scrWrite s k k off (plain (natLe 4 (b.expect * 65536 + b.arrived) ++ natLe 4 (ofSigned 32 b.fills) ++ natLe 4 b.landed ++
    natLe 4 b.phase)) w

/-- Set or clear the type bit. -/
def barType (s : State) (k off : Nat) (b : Bool) : State := updCore s k fun c => { c with scrT := mflag c.scrT (off / 16) b }

/-- Threads of a group, the FE first. -/
def threadsOf (s : State) (c : Nat) : List Nat := feIdx :: (grpOf s c).resident

/-- A thread waits at BWAIT on an object. -/
def bwaitsOn (s : State) (c off t : Nat) : Option Nat :=
  match (thrOf s c t).hold with
  | some o => match o.why with
    | .bwait off' q => if off' = off then some q else none
    | _ => none
  | none => none

/-- Release the BWAITs on a phase that has passed (R121). -/
def releaseBwaits (s : State) (c off : Nat) : State :=
  let cur := s.cur
  let s := (threadsOf s c).foldl (fun s t =>
    match bwaitsOn s c off t with
    | some q => if (barGet s c off).phase = q then s
        else match resume s c t with
          | some (i, x, u) => finish i x u true (killDead i x u)
          | none => s
    | none => s) s
  { s with cur := cur }

/-- Store the object and complete its phase when it is due (R121). -/
def barTest (s : State) (k off : Nat) (b : Bar) (w : Writer) : State :=
  if b.arrived = b.expect && b.fills = 0 then
    releaseBwaits (barPut s k off { b with arrived := 0, fills := 0, landed := 0, phase := (b.phase + 1) % 2 ^ 32 } w) k off
  else barPut s k off b w

/-! ## The barrier instructions (R319) -/

/-- Checks shared by the five: address, then B, its range, and whether the object is live. -/
def barChk (i : Instr) (x : Form) (s : State) (b : Option (Nat × Nat)) (live : Bool) : Except FRec Nat :=
  let l := lowLane s x
  let m := maskOf [l]
  match accessOf s 1 (memOff x) 16 .read l (srcNo i x s 3 l) with
  | .error f => .error { f with mask := m }
  | .ok a =>
    let off := match a.loc with
      | .scr _ o => o
      | .mem _ => 0
    let v := srcNo i x s 4 l
    let bad : Bool := match b with
      | some (lo, hi) => decide (v.n < lo) || decide (hi < v.n)
      | none => false
    if b.isSome && v.p then .error { code := 0x08, mask := m, info := 4 }
    else if bad then .error (badValue m)
    else if !(barLive s s.cur.core off = live) then .error (badValue m)
    else .ok off

/-- The writer of the issuing thread. -/
def curWriter (s : State) (x : Form) : Writer := .thread s.cur.core s.cur.thr (lowLane s x)

/-- BINIT (R121, R319). -/
def execBinit (x : Form) (s : State) : Host.Outcome State Fault Refusal :=
  let i := Instr.binit x
  run i x s (
    match barChk i x s (some (1, 65535)) false with
    | .error f => takeFault s f
    | .ok off =>
      let c := s.cur.core
      let e := (srcNo i x s 4 (lowLane s x)).n
      finish i x s false (killDead i x
        (barType (barPut s c off { expect := e, arrived := 0, fills := 0, landed := 0, phase := 0 } (curWriter s x)) c off true)))

/-- BARRIVE behind the shared checks: a release at core scope (R319). -/
def barriveBody (x : Form) (s : State) : State :=
  let i := Instr.barrive x
  match barChk i x s (some (1, 65535)) true with
  | .error f => takeFault s f
  | .ok off =>
    let c := s.cur.core
    let n := (srcNo i x s 4 (lowLane s x)).n
    let b := barGet s c off
    if decide (b.expect < b.arrived + n) then takeFault s (badValue (maskOf [lowLane s x]))
    else relGate i x s 0 fun t =>
      finishPut i x 1 s false (fun _ => { w := [BitVec.ofNat 32 b.phase] })
        (barTest t c off { b with arrived := b.arrived + n } (curWriter s x))

/-- BARRIVE (R319). -/
def execBarrive (x : Form) (s : State) : Host.Outcome State Fault Refusal := run (.barrive x) x s (barriveBody x s)

/-- BEXPECT (R319). -/
def execBexpect (x : Form) (s : State) : Host.Outcome State Fault Refusal :=
  let i := Instr.bexpect x
  run i x s (
    match barChk i x s (some (1, 65535)) true with
    | .error f => takeFault s f
    | .ok off =>
      let c := s.cur.core
      let n := (srcNo i x s 4 (lowLane s x)).n
      let b := barGet s c off
      if decide (2 ^ 31 - 1 < b.fills + n) then takeFault s (badValue (maskOf [lowLane s x]))
      else finish i x s false (killDead i x (barTest s c off { b with fills := b.fills + n } (curWriter s x))))

/-- BWAIT (R121, R319): always a yield point, and an acquire at core scope when it returns. -/
def execBwait (x : Form) (s : State) : Host.Outcome State Fault Refusal :=
  let i := Instr.bwait x
  run i x s (
    match barChk i x s (some (0, 2 ^ 32)) true with
    | .error f => takeFault s f
    | .ok off =>
      let q := (srcNo i x s 4 (lowLane s x)).n
      if (barGet s s.cur.core off).phase = q then holdOn i s (.bwait off q) true (!curFe s) false
      else finish i x s true (killDead i x s))

/-- An SFILL in flight names the object. -/
def sfillOn (s : State) (c off : Nat) : Bool :=
  (coreOf s c).jobs.any fun j => match j.work with
    | .sfill _ bar _ => bar = off
    | _ => false

/-- BDROP (R121, R319). -/
def execBdrop (x : Form) (s : State) : Host.Outcome State Fault Refusal :=
  let i := Instr.bdrop x
  run i x s (
    match barChk i x s none true with
    | .error f => takeFault s f
    | .ok off =>
      let c := s.cur.core
      if sfillOn s c off || (threadsOf s c).any fun t => (bwaitsOn s c off t).isSome then
        takeFault s (badValue (maskOf [lowLane s x]))
      else finish i x s false (killDead i x (barType s c off false)))

/-! ## SFILL lands (R122, R311) -/

/-- A job of a core by number. -/
def jobOf (s : State) (c id : Nat) : Option Job := (coreOf s c).jobs.find? fun j => j.id = id
/-- Change a job. -/
def updJob (s : State) (c id : Nat) (f : Job → Job) : State :=
  updCore s c fun k => { k with jobs := k.jobs.map fun j => if j.id = id then f j else j }
/-- Forget a job. -/
def delJob (s : State) (c id : Nat) : State := updCore s c fun k => { k with jobs := k.jobs.filter fun j => !(j.id = id) }

/-- A copy agent of a core can read a place now (R138). -/
def agentReady (s : State) (c : Nat) (loc : Loc) (n : Nat) : Bool :=
  match loc with
  | .scr _ _ => true
  | .mem pa => viewReady s (dieOf c) nobody pa n

/-- What a copy agent of a core reads. -/
def agentRead (s : State) (c : Nat) (loc : Loc) (n : Nat) : List Byte × Bool :=
  match loc with
  | .scr k off => scrRead s k off n
  | .mem pa => viewBytes s (dieOf c) nobody pa n

/-- Bytes with the poison of each one's own word, as an agent of the core reads them. -/
def agentBytes (s : State) (c : Nat) (since : Option (Nat × Nat)) (loc : Loc) (n : Nat) : List (Byte × Bool) :=
  (List.range n).map fun k =>
    let (at', key, b) := match loc with
      | .scr q off => (Loc.scr q (off + k), scrKey q (off + k), (off + k) % 8)
      | .mem pa => (Loc.mem (pa + k), (pa + k) / 8, (pa + k) % 8)
    let r := agentRead s c at' 1
    taskSees s since key b (r.1.headD 0, r.2)

/-- The bytes of an SFILL's lanes are written; where lanes overlap, which lane's byte stays is open (R311). [DESIGN CHOICE: log 28] -/
def sfillLanes (s : State) (c : Nat) (since : Nat × Nat) (size : Nat) (lanes : List (Nat × Acc × Nat)) : State :=
  (lanes.foldl (fun (r : State × List Nat) (l, a, dst) =>
    let bs := (agentBytes r.1 c (some since) a.loc size).zipIdx.map fun (b, k) =>
      if r.2.any fun d => decide (d ≤ dst + k) && decide (dst + k < d + size) then
        if Config.freeBit (openAt s 4 ((since.2 * 32 + l) * 2 ^ 62 + dst + k)) then
          let o := scrRead r.1 c (dst + k) 1
          (o.1.headD 0, o.2)
        else b
      else b
    (scrWrite r.1 c c dst bs (.engine c), dst :: r.2)) (s, [])).1

/-- The bytes of an SFILL are written and its barrier learns of it. -/
def sfillWrite (s : State) (c : Nat) (since : Nat × Nat) (bar size : Nat) (lanes : List (Nat × Acc × Nat)) : State :=
  let s := sfillLanes s c since size lanes
  if barLive s c bar then
    let b := barGet s c bar
    barTest s c bar { b with fills := b.fills - 1, landed := (b.landed + 1) % 2 ^ 32 } (.engine c)
  else s

/-- SFILL_LAND (R122). -/
def execSfillLand (core job : Nat) (s : State) : Host.Outcome State Fault Refusal :=
  .next (match jobOf s core job with
    | some j => match j.work with
      | .sfill size bar lanes =>
        if j.running && !j.paused && decide (j.due ≤ s.time) && !waiting s (j.waits.getD []) && lanes.all fun (_, a, _) => agentReady s core a.loc size then
          delJob (sfillWrite s core (j.mark, j.id) bar size lanes) core job
        else s
      | _ => s
    | none => s)

/-! ## CBAR and QBAR (R320, R321) -/

/-- The active lanes become arrived at a hardware barrier. -/
def arrive (s : State) (m : BitVec 32) (kind id : Nat) : State :=
  updCur s fun t => (lanesOf m).foldl (fun t l => updLane t l fun n => { n with arrived := some (kind, id) }) t

/-- Every live lane of the issuing wattle waits: it leaves its place (R32). [DESIGN CHOICE: log 85] -/
def leaveIfHeld (s : State) (c t : Nat) : State :=
  let h := thrOf s c t
  if laneMask h (fun l => l.live && !l.held) = 0 && mhas s.thrs (tkey c t) then setThr s c t { h with slot := none } else s

/-- The scope of the release of a hardware barrier: core for CBAR (kind 0), quad for QBAR (R320, R321). -/
def hbScope (kind : Nat) : Nat := kind

/-- The lanes of a barrier instruction whose release condition does not hold yet wait alone, at its PC: the other issued lanes
go on, and the other live lanes vote (R22, R320). They count as arrived only once the condition holds. [DEDUCED: log 93] -/
def hbWait (i : Instr) (x : Form) (s : State) (kind id : Nat) : State :=
  let act := actMask s x
  let o : Hold := { why := .fence, instr := i, word := s.cur.word, mask := act, pc := s.cur.pc, t0 := nowNs s
                    cyc := curCycle s, dual := s.cur.dual }
  let u := updCur s fun t => { passLanes t (lanesOf (s.cur.mask &&& ~~~act)) with cbars := t.cbars ++ [o] }
  let u := account x (endCycle i x s) (if curFe s then 0 else conflicts i x s) (arrive u act (kind + 2) id)
  leaveIfHeld (if curFe s then u else if x.yld then yieldNow u else leaveSoon u) s.cur.core s.cur.thr

/-- The generations of the barrier that an arrival can complete. -/
def hbCheck (s : State) (c kind : Nat) : State := if kind = 0 then cbarCheck s c else qbarCheck s (quadOf c)

/-- The count of the generation of a CBAR is noted at its first arrival (R320). -/
def hbNote (s : State) (c kind id n : Nat) : State :=
  if kind = 0 then updGrp s c fun g => { g with cbar := mset g.cbar id n } else s

/-- A hardware barrier behind its checks: a release, then the arrival of the active lanes at PC + 12 (R320, R321). -/
def hbBody (i : Instr) (x : Form) (s : State) (kind id n : Nat) : State :=
  let c := s.cur.core
  let m := actMask s x
  let s := relStart s c s.cur.thr m (hbScope kind)
  match lateFault s (lanesOf m) with
  | some f => takeLate s f (lanesOf m)
  | none =>
    if relReady s c s.cur.thr m (hbScope kind) then
      let t := hbNote (arrive (finish i x s true s) m kind id) c kind id n
      leaveIfHeld (hbCheck t c kind) c s.cur.thr
    else hbWait i x s kind id

/-- An arrival at CBAR with another count than the generation's first (R320). -/
def cbarOther (s : State) (c id n : Nat) : Bool :=
  match mget (grpOf s c).cbar id with
  | some m => !(m = n)
  | none => false

/-- CBAR behind the shared checks: a release at core scope on arrival. -/
def cbarBody (x : Form) (s : State) : State :=
  if cbarOther s s.cur.core (x.f 0 4) (x.f 4 5) then takeFault s (badValue (actMask s x))
  else hbBody (.cbar x) x s 0 (x.f 0 4) (x.f 4 5)

/-- CBAR (R320). -/
def execCbar (x : Form) (s : State) : Host.Outcome State Fault Refusal := run (.cbar x) x s (cbarBody x s)

/-- QBAR behind the shared checks: a release at quad scope. -/
def qbarBody (x : Form) (s : State) : State :=
  if !inTeam s s.cur.core then takeFault s (badValue (actMask s x)) else hbBody (.qbar x) x s 1 (x.f 0 4) 0

/-- QBAR (R321). -/
def execQbar (x : Form) (s : State) : Host.Outcome State Fault Refusal := run (.qbar x) x s (qbarBody x s)

/-! ## MWAIT (R322) -/

/-- The condition of MWAIT. -/
def mwaitCond (x : Form) (v b : Nat) : Bool :=
  match x.m 0 2 with
  | 0 => v = b
  | 1 => !(v = b)
  | _ => decide (b ≤ v)

/-- Read the lanes that are not done; those that meet the condition are done (R322). -/
def mwaitRead (i : Instr) (x : Form) (s : State) (accs : List Acc) (vals : List (Nat × List Word × Bool)) :
    State × List (Nat × List Word × Bool) :=
  let c := s.cur.core
  let t := s.cur.thr
  (accs.filter fun a => !(vals.any fun v => v.1 = a.lane)).foldl (fun (r : State × List (Nat × List Word × Bool)) a =>
    let (u, vals) := r
    if !locReady u c t a.lane a.loc a.size || laneBusy u c t a then r
    else
      -- the read reaches the bank of its line; it does not wait for it
      let u := if a.isMem then (touchRange u c (dieOf c) a.pa a.size a.attr.nhc).1 else u
      let f : Fill := { id := 0, core := c, thr := t, lanes := 1#32 <<< a.lane, dst := {}, what := .value [], due := 0 }
      let b := if a.isMem then loadBytes u f a else pastBytes u c t a.loc (readLoc u c t a.lane a.loc a.size)
      let u := loadDone u f a
      let v := leNat b.1
      if b.2 || mwaitCond x v (srcNo i x s 4 a.lane).n then (u, vals ++ [(a.lane, natWords (a.size / 4) v, b.2)])
      else (u, vals)) (s, vals)

/-- The values of the lanes of MWAIT. -/
def laneVal (vals : List (Nat × List Word × Bool)) (p : Nat → Bool) (l : Nat) : Val :=
  match vals.find? fun v => v.1 = l with
  | some (_, w, q) => { w := w, p := q || p l }
  | none => {}

/-- MWAIT on known accesses: done, or held until the next re-read; its leave actions always take place (R224). [DESIGN CHOICE: log 25; DEDUCED: log 26] -/
def mwaitStep (i : Instr) (x : Form) (s : State) (accs : List Acc) (vals : List (Nat × List Word × Bool)) : State :=
  let n := if x.m 2 1 = 1 then 2 else 1
  let (t, vals) := mwaitRead i x s accs vals
  if accs.all fun a => vals.any fun v => v.1 = a.lane then
    finishPut i x n s true (laneVal vals fun l => (srcNo i x s 4 l).p) t
  else
    let u := holdOn i t .mwait true (!curFe s) true
    updCur u fun h => { h with hold := h.hold.map fun o =>
      if o.mask = s.cur.mask ∧ o.pc = s.cur.pc then { o with accs := accs, vals := vals, next := s.time + ticks 100 } else o }

/-- The accesses of MWAIT: of lanes that are done as they were, of the others by the translation that stands (R322, R360). -/
def mwaitAccs (i : Instr) (x : Form) (s : State) (old : List Acc) (vals : List (Nat × List Word × Bool)) : Except FRec (List Acc) :=
  accessAll (lanesOf (actMask s x)) fun l =>
    match old.find? fun a => a.lane = l && vals.any fun v => v.1 = l with
    | some a => .ok a
    | none => thenChk (accessOf s 0 (memOff x) (if x.m 2 1 = 1 then 8 else 4) .read l (srcNo i x s 3 l)) rcellLoad

/-- MWAIT (R322). -/
def execMwait (x : Form) (s : State) : Host.Outcome State Fault Refusal :=
  let i := Instr.mwait x
  run i x s (
    match mwaitAccs i x s [] [] with
    | .error f => takeFault s f
    | .ok accs =>
      if acqPending s s.cur.core s.cur.thr (actMask s x) then holdOn i s .retry true (!curFe s) false
      else mwaitStep i x (countLent (walkAll s accs).1 accs) accs [])

/-- MWAIT_REREAD (R322). [DESIGN CHOICE: log 25] -/
def execMwaitReread (core thr : Nat) (s : State) : Host.Outcome State Fault Refusal :=
  .next (match resume s core thr, (thrOf s core thr).hold with
    | some (i, x, t), some o => match o.why with
      | .mwait =>
        if o.next ≤ s.time then
          match mwaitAccs i x t o.accs o.vals with
          | .error f => if f.code = notNow then s else takeFault t f
          | .ok accs => mwaitStep i x (walkAll t accs).1 accs o.vals
        else s
      | _ => s
    | _, _ => s)

/-! ## The end of a fence's wait (R135, R137) -/

/-- Lanes that wait at a hardware barrier for their release condition arrive once it holds (R320, R321). [DEDUCED: log 93] -/
def hbGo (c t : Nat) (s : State) (o : Hold) : State :=
  let u := { s with cur := { core := c, thr := t, mask := o.mask, pc := o.pc, word := o.word, dual := o.dual, cyc := some o.cyc, cost := o.cost } }
  let (kind, id, n) : Nat × Nat × Nat := match o.instr with
    | .cbar x => (0, x.f 0 4, x.f 4 5)
    | .qbar x => (1, x.f 0 4, 0)
    | _ => (0, 0, 0)
  if !((thrOf s c t).cbars.contains o) then s
  else match lateFault u (lanesOf o.mask) with
  | some f => takeLate u f (lanesOf o.mask)
  | none =>
    if !relReady u c t o.mask (hbScope kind) then s
    else if kind = 0 && cbarOther u c id n then takeFault u (badValue o.mask)
    else
      let v := advance (updCur u fun h => { h with cbars := h.cbars.filter fun p => !(p = o) })
      leaveIfHeld (hbCheck (hbNote (arrive v o.mask kind id) c kind id n) c kind) c t

/-- The held instruction of a thread whose wait is for a release, a fence or a seq-cst access, tried again. -/
def fenceAgain (s : State) (core thr : Nat) : State :=
  match resume s core thr, (thrOf s core thr).hold with
  | some (i, _, t), some o =>
    if o.why = .fence then
      match i with
      | .fence x => fenceBody x t
      | .ld x => ldBody x t
      | .st x => stBody x t
      | .atom x => atomBody i x (atomRegs x) t
      | .red x => atomBody i x 0 t
      | .lr x => lrBody x t
      | .sc x => scBody x t
      | .barrive x => barriveBody x t
      | _ => s
    else s
  | _, _ => s

/-- COMPLETION_HORIZON_PASSED (R135): a thread held at a release, a fence or a seq-cst access goes on when its condition
holds, and so do the lanes that wait at a hardware barrier. -/
def execCompletionHorizonPassed (core thr : Nat) (s : State) : Host.Outcome State Fault Refusal :=
  .next (fenceAgain ((thrOf s core thr).cbars.foldl (hbGo core thr) s) core thr)

end Sys2Proof.Machine
end

