-- ==== Sys2Proof/Machine/Convert.lean ====
section
/-! DEFINITION. Class 2: conversion and residue lane instructions (R275 to R290). -/

namespace Sys2Proof.Machine

/-- Next state of a lane-wise conversion with a SAT flag (R79). -/
def cvtNext (i : Instr) (x : Form) (s : State) (n : Nat) (f : Nat → Nat × Bool) (p : Nat → Bool) : State :=
  stickyIf ((lanesOf (actMask s x)).any fun l => (f l).2) 0
    (fixed i x n s fun l => { w := natWords n (f l).1, p := p l })

/-- Width and signedness of an integer type code 3 to 10 (R276). -/
def cvtInt (k : Nat) : Nat × Bool :=
  match k with
  | 3 => (32, true)
  | 4 => (32, false)
  | 5 => (16, true)
  | 6 => (16, false)
  | 7 => (8, true)
  | 8 => (8, false)
  | 9 => (64, true)
  | _ => (64, false)

/-- Registers' bits of an integer result: extended to 32 bits, or the 64 bits of a pair (R276). -/
def cvtPut (k : Nat) (v : Int) : Nat := if k = 9 ∨ k = 10 then ofSigned 64 v else ofSigned 32 v

/-- CVT of one value: source code, destination code, source bits (R276, R277). -/
def cvtVal (st dt : Nat) (r : Rnd) (ftz : Bool) (md v : Nat) : Nat × Bool :=
  if st ≤ 2 then
    let f := fmtOf st
    let x := fdec f ftz (fmodBits f md v)
    if dt ≤ 2 then (fround (fmtOf dt) r ftz x, false)
    else
      let (w, sg) := cvtInt dt
      let (lo, hi) := intRange w sg
      let (k, c) := toIntClamp r lo hi x
      (cvtPut dt k, c)
  else
    let (w, sg) := cvtInt st
    let k : Int := if sg then toSigned w v else ((v % 2 ^ w : Nat) : Int)
    if dt ≤ 2 then (fround (fmtOf dt) r ftz (.fin (decide (k < 0)) k.natAbs 0), false)
    else
      let (w', sg') := cvtInt dt
      let (lo, hi) := intRange w' sg'
      let k' := max lo (min hi k)
      (cvtPut dt k', !(k' = k))

/-- CVT (R277). -/
def execCvt (x : Form) (s : State) : Host.Outcome State Fault Refusal :=
  let i := Instr.cvt x
  run i x s (cvtNext i x s (cvtRegs (x.f 4 4))
    (fun l => cvtVal (x.f 0 4) (x.f 4 4) x.rnd x.ftz x.a.fmod (srcNo i x s 3 l).n) (poisonedIn i x s))

/-- The f32 values of the active lanes as a block, +0 elsewhere (R278). -/
def block32 (i : Instr) (x : Form) (s : State) : List FV :=
  (List.range 32).map fun k =>
    if (actMask s x).getLsbD k then fdec f32 false (fsrc i x s 3 0 k) else .fin false 0 0

/-- CVTDX (R278). -/
def execCvtdx (x : Form) (s : State) : Host.Outcome State Fault Refusal :=
  let i := Instr.cvtdx x
  run i x s (
    let e := dxEncode (x.m 0 1 = 1) (block32 i x s)
    stickyIf e.2.2 0 (fixed i x 1 s fun l =>
      { w := [BitVec.ofNat 32 (e.1 * 65536 + e.2.1.getD l 0)], p := (lanesOf (actMask s x)).any fun k => poisonedIn i x s k }))

/-- UNDX (R279). -/
def execUndx (x : Form) (s : State) : Host.Outcome State Fault Refusal :=
  fltFixed (.undx x) x s fun l =>
    let v := (srcNo (.undx x) x s 3 l).n
    fround f32 .rne x.ftz (dxValue (x.m 0 1 = 1) (nbits v 16 16) (nbits v 0 8))

/-- Magnitudes of the elements of a lane, as exact values (R280). -/
def magsOf (ty : Nat) (ftz : Bool) (v : Nat) : List FV :=
  let f := fmtOf ty
  (if ty = 0 then [v % 2 ^ 32] else [nbits v 0 16, nbits v 16 16]).map fun e => fdec f ftz (fmodBits f 2 e)

/-- The larger of two magnitudes, NaN above all (R280). -/
def maxMag (a b : FV) : FV :=
  match a, b with
  | .nan, _ => .nan
  | _, .nan => .nan
  | x, y => if fvLt x y then y else x

/-- MAXABS (R280). -/
def execMaxabs (x : Form) (s : State) : Host.Outcome State Fault Refusal :=
  let i := Instr.maxabs x
  run i x s (
    let m := ((lanesOf (actMask s x)).flatMap fun l => magsOf x.ty x.ftz (fsrc i x s 3 x.ty l)).foldl maxMag (.fin false 0 0)
    fixed i x 1 s fun _ =>
      { w := [BitVec.ofNat 32 (fround f32 .rne false m)], p := (lanesOf (actMask s x)).any fun k => poisonedIn i x s k })

/-- BLKSCL: the block scale S (R281). -/
def blkS (vs : List FV) : Nat :=
  if vs.any fun v => !v.isFin then 255
  else match imaxOf (vs.filterMap FV.lg) with
    | none => 0
    | some g => (min 254 (max 0 (g + 127))).toNat

/-- One element of BLKSCL and whether it saturated (R281). -/
def blkEl (x : Form) (sc : Nat) (v : FV) : Nat × Bool :=
  let f : Int := (sc : Int) - 127
  let scaled (k : Int) : FV := match v with
    | .fin n m e => .fin n m (if m = 0 then e else e + k)
    | y => y
  if sc = 255 then (if x.m 0 1 = 0 then 0x7FC0 else 0, false)
  else if x.m 0 1 = 0 then (fround bf16 x.rnd x.ftz (scaled (-f)), false)
  else
    let (q, c) := toIntClamp x.rnd (-127) 127 (scaled (6 - f))
    (ofSigned 8 q, c)

/-- BLKSCL (R281). A poisoned A poisons every active lane, a poisoned B its own. -/
def execBlkscl (x : Form) (s : State) : Host.Outcome State Fault Refusal :=
  let i := Instr.blkscl x
  run i x s (
    let val (l : Nat) : FV := fdec f32 x.ftz (fsrc i x s 3 0 l)
    let sc := blkS ((lanesOf (actMask s x)).map val)
    let pa := (lanesOf (actMask s x)).any fun l => (srcNo i x s 3 l).p
    cvtNext i x s 1 (fun l =>
      let e := blkEl x sc (val l)
      (((srcNo i x s 4 l).n % 16 * 256 + sc) * 65536 + e.1, e.2)) fun l => pa || (srcNo i x s 4 l).p)

/-- Width and signedness of the types of QNT and DQNT (R275). -/
def qType (x : Form) : Nat × Bool :=
  if x.m 0 2 = 0 then (8, true) else if x.m 0 2 = 1 then (16, true) else if x.m 0 2 = 2 then (32, true) else (8, false)

/-- QNT (R282). -/
def execQnt (x : Form) (s : State) : Host.Outcome State Fault Refusal :=
  let i := Instr.qnt x
  run i x s (cvtNext i x s 1 (fun l =>
    let e := fvMul (fdec f32 x.ftz (fsrc i x s 3 0 l)) (fdec f32 x.ftz (fsrc i x s 4 0 l))
    let (lo, hi) := intRange (qType x).1 (qType x).2
    let (q, c) := toIntClamp x.rnd lo hi e
    (ofSigned 32 q, c)) (poisonedIn i x s))

/-- DQNT (R283). -/
def execDqnt (x : Form) (s : State) : Host.Outcome State Fault Refusal :=
  fltFixed (.dqnt x) x s fun l =>
    let (w, sg) := qType x
    let v := (srcNo (.dqnt x) x s 3 l).n
    let k : Int := if sg then toSigned w v else ((v % 2 ^ w : Nat) : Int)
    fround f32 x.rnd x.ftz (fvMul (.fin (decide (k < 0)) k.natAbs 0) (fdec f32 x.ftz (fsrc (.dqnt x) x s 4 0 l)))

/-- A 32-bit or 64-bit operand as an integer, signed, or unsigned with .n (R286). -/
def rInt (x : Form) (v : Nat) : Int :=
  if x.m 0 1 = 1 then (v : Int) else toSigned (elemW (x.m 4 2)) v

/-- RMOD (R286): a modulus outside 3 to 511 in an active lane raises ILLEGAL_OPERAND. -/
def execRmod (x : Form) (s : State) : Host.Outcome State Fault Refusal :=
  let i := Instr.rmod x
  run i x s (
    let bad := (lanesOf (actMask s x)).filter fun l => decide ((srcNo i x s 4 l).n < 3) || decide (511 < (srcNo i x s 4 l).n)
    if !bad.isEmpty then takeFault s { code := 0x02, mask := maskOf bad, info := 8 }
    else fixed i x 1 s fun l =>
      { w := [BitVec.ofNat 32 (imod (rInt x (srcNo i x s 3 l).n) (srcNo i x s 4 l).n)], p := poisonedIn i x s l })

/-- RMAD (R287). -/
def execRmad (x : Form) (s : State) : Host.Outcome State Fault Refusal :=
  fltFixed (.rmad x) x s fun l =>
    let v (no : Nat) : Int := if x.m 0 1 = 1 then ((srcNo (.rmad x) x s no l).n : Int) else toSigned 32 (srcNo (.rmad x) x s no l).n
    imod (v 3 * v 4 + v 5) (x.f 14 9)

/-- RSPLIT (R288). -/
def execRsplit (x : Form) (s : State) : Host.Outcome State Fault Refusal :=
  let i := Instr.rsplit x
  run i x s (
    match basisOf s s.cur.core (x.f 0 4) with
    | none => takeFault s { code := 0x02, mask := actMask s x, info := 8 }
    | some b =>
      if b.n + 2 ≤ x.f 4 4 then takeFault s { code := 0x02, mask := actMask s x, info := 8 }
      else fixed i x 1 s fun l =>
        let v := imod (rInt x (srcNo i x s 3 l).n) (b.moduli.getD (x.f 4 4) 1)
        let p := (srcNo i x s 3 l).p
        { w := [BitVec.ofNat 32 (v + if p then 32768 else 0)], p := p })

/-- What RMRC finds in a half: value, poison, corrected, clamped (R289). -/
def rmrcHalf (x : Form) (s : State) (b : BasisEnt) (g : Nat) : Nat × Bool × Bool × Bool :=
  let i := Instr.rmrc x
  let lane (c : Nat) : Nat := 16 * g + c
  let chs := List.range (b.n + 2)
  let v (c : Nat) : Nat := (srcNo i x s 3 (lane c)).n
  let on (c : Nat) : Bool := (actMask s x).getLsbD (lane c)
  let bad := chs.any fun c => !on c || (srcNo i x s 3 (lane c)).p || nbits (v c) 15 1 = 1 ||
    !(nbits (v c) 9 6 = 0) || decide (b.moduli.getD c 1 ≤ nbits (v c) 0 9)
  let res := chs.map fun c => nbits (v c) 0 9
  match drainElement b.n b.moduli res bad (x.m 0 1 = 1) with
  | .value k =>
    let k' := max (smin 64) (min (smax 64) k)
    (ofSigned 64 k', false, false, !(k' = k))
  | .corrected k _ _ =>
    let k' := max (smin 64) (min (smax 64) k)
    (ofSigned 64 k', false, true, !(k' = k))
  | _ => (0, true, false, false)

/-- RMRC (R289). -/
def execRmrc (x : Form) (s : State) : Host.Outcome State Fault Refusal :=
  let i := Instr.rmrc x
  run i x s (
    match basisOf s s.cur.core (x.f 0 4) with
    | none => takeFault s { code := 0x02, mask := actMask s x, info := 8 }
    | some b =>
      let halves := [0, 1].filter fun g => (lanesOf (actMask s x)).any fun l => l / 16 = g
      let r (g : Nat) := rmrcHalf x s b g
      let t := fixed i x 2 s fun l => { w := natWords 2 (r (l / 16)).1, p := (r (l / 16)).2.1 }
      stickyIf (halves.any fun g => (r g).2.1) 3
        (stickyIf (halves.any fun g => (r g).2.2.1) 2 (stickyIf (halves.any fun g => (r g).2.2.2) 0 t)))

/-- PACK (R284). -/
def execPack (x : Form) (s : State) : Host.Outcome State Fault Refusal :=
  fltFixed (.pack x) x s fun l =>
    let a := (srcNo (.pack x) x s 3 l).n
    let b := (srcNo (.pack x) x s 4 l).n
    if x.m 0 2 = 0 then nbits b 0 16 * 65536 + nbits a 0 16
    else if x.m 0 2 = 1 then nbits b 16 16 * 65536 + nbits a 16 16
    else nbits b 16 8 * 2 ^ 24 + nbits b 0 8 * 2 ^ 16 + nbits a 16 8 * 256 + nbits a 0 8

end Sys2Proof.Machine
end

