-- ==== Sys2Proof/Machine/Agent.lean ====
section
/-! DEFINITION. What the agents beside the threads share: reading and writing virtual addresses for a core (R99, R102,
R138), the records and cards that an instruction reads at issue (R81, R89, R324, R376), the stall on the footprint table
(R54), and tags (R110, R326). -/

namespace Sys2Proof.Machine

/-! ## Agents -/

/-- An agent that works for a core: its address space, mode, die of its view (4 for the homes), windows allowed. -/
structure Agent where
  core : Nat
  part : Nat
  asid : Nat
  super : Bool
  win : Bool := true
  die : Nat
  /-- translations made earlier: VA / 64 KiB, PA of the page, attributes (R337). -/
  pages : List (Nat × Nat × Attr) := []
  /-- the task reads as an engine that misses no write below the first number; its own number (R138). -/
  since : Option (Nat × Nat) := none
  /-- die whose translations it shares: a compute die, or 4 + a memory-side die; none for the issuing thread's (R423). -/
  cache : Option Nat := none
  /-- the tag that shows its writes done (R332). -/
  tag : Option Nat := none
  deriving DecidableEq, Repr

/-- The copy engine, or the quad's engine, working for a core in a mode. -/
def agentOf (s : State) (c : Nat) (super : Bool) : Agent :=
  { core := c, part := (grpOf s c).part, asid := (grpOf s c).asid, super := super, die := dieOf c }

/-- The requester of an agent's accesses (R106): its core, or the block-transfer engine of a memory-side die. -/
def Agent.requester (a : Agent) : Nat :=
  match a.cache with
  | some d => if d < 4 then a.core else bteReq (d - 4)
  | none => a.core

/-- The translation of an address outside the windows for an agent (R422, R423). [DESIGN CHOICE: log 66] -/
def Agent.translate (s : State) (a : Agent) (k : Need) (va : Nat) : XRes :=
  match a.cache with
  | none => Machine.translate s a.core a.part a.asid a.super k va
  | some d => translateVia s (dieFind s d a.asid va) a.part a.asid a.super k va

/-- The place of n bytes at a virtual address for an agent. -/
def agentLoc (s : State) (a : Agent) (k : Need) (va n : Nat) : Except Nat (Loc × Attr) :=
  if decide (2 ^ 52 ≤ va) then .error 0x05
  else if inReserved va then
    if !a.win then .error 0x05
    else match (if decide (lentWin ≤ va) then lentLoc s a.core (va - lentWin) n else scrLoc s a.core (va - scrWin) n) with
      | some l => .ok (l, {})
      | none => .error 0x05
  else match a.pages.find? fun p => p.1 = va / 65536 with
  | some (_, pa, at') => .ok (.mem (pa + va % 65536), at')
  | none =>
    match a.translate s k va with
    | .error e => .error e
    | .ok (pa, at') => .ok (.mem pa, at')

/-- One byte with its poison at a place, none when it cannot be read now. [DEDUCED: log 27] -/
def placeByte (s : State) (a : Agent) : Loc → Option (Byte × Bool)
  | .scr k off => let r := scrRead s k off 1; some (taskSees s a.since (scrKey k off) (off % 8) (r.1.headD 0, r.2))
  | .mem pa =>
    if viewReady s a.die nobody pa 1 then
      some (taskSees s a.since (pa / 8) (pa % 8) (viewByte s a.die nobody pa, viewPoison s a.die nobody pa))
    else none

/-- n bytes with their poison from a virtual address; or the status code and the address of the first byte that cannot
be read. -/
def agentGet (s : State) (a : Agent) (va : Nat) : Nat → Except (Nat × Nat) (List (Byte × Bool))
  | 0 => .ok []
  | n + 1 =>
    match agentLoc s a .read va 1 with
    | .error e => .error (e, va)
    | .ok (l, _) => match placeByte s a l with
      | none => .error (notNow, va)
      | some b => match agentGet s a (va + 1) n with
        | .error e => .error e
        | .ok bs => .ok (b :: bs)

/-- The status code of a write of one byte, 0 when it can be done (R112, R120). -/
def agentWrCode (s : State) (a : Agent) (va : Nat) : Nat :=
  match agentLoc s a .write va 1 with
  | .error e => e
  | .ok (.scr k off, _) => if overBarrier s k off 1 then 0x0C else 0
  | .ok (.mem _, _) => 0

/-- The walk that an agent's access to a page starts or joins on its die, when no cache of the die holds the page (R423). -/
def agentWalk (s : State) (a : Agent) (va : Nat) : State × List Nat :=
  if inReserved va || a.pages.any fun p => p.1 = va / 65536 then (s, [])
  else match a.cache with
  | none => let (t, w) := startWalk s a.core a.part a.asid va; (t, w.toList)
  | some d => if (dieFind s d a.asid va).isSome then (s, []) else let (t, id) := walkFrom s d [] a.part a.asid va; (t, [id])

/-- An access that the tables do not allow walks them all the same, and the walk is logged when it reads poison (R421, R430); of a
read at issue the fault itself tells it. -/
def agentMiss (s : State) (a : Agent) (k : Need) (va : Nat) : State × List Nat :=
  match a.cache, agentLoc s a k va 1 with
  | some _, .error e => if e = 0x05 && decide (va < 2 ^ 52) then agentWalk s a va else (s, [])
  | _, _ => (s, [])

/-- Reads of n bytes at a virtual address reach the walks and the banks: what they wait on (R105, R106, R379, R423). -/
def agentTouch (s : State) (a : Agent) (va n : Nat) : State × List Nat :=
  ((List.range ((va + n - 1) / 64 + 1 - va / 64)).map fun k => max va (64 * (va / 64 + k))).foldl
    (fun (r : State × List Nat) v =>
      match agentLoc r.1 a .read v 1 with
      | .ok (.mem pa, at') =>
        let (s, ws) := agentWalk r.1 a v
        let (s, bs) := touchRange (countHeat s at' pa) (a.requester) a.die pa 1 at'.nhc
        (s, r.2 ++ ws ++ bs)
      | .ok (.scr _ _, _) => r
      | .error _ => let (s, ws) := agentMiss r.1 a .read v; (s, r.2 ++ ws)) (s, [])

/-- The reads of a list of ranges (address, bytes). -/
def agentReads (s : State) (a : Agent) (rs : List (Nat × Nat)) : State × List Nat :=
  rs.foldl (fun r (va, n) => if n = 0 then r else let (s, ids) := agentTouch r.1 a va n; (s, r.2 ++ ids)) (s, [])

/-- Write bytes that can all be written, line by line (R138). fuel bounds the lines. -/
def agentPutN (s : State) (a : Agent) : Nat → Nat → List (Byte × Bool) → State
  | 0, _, _ => s
  | fuel + 1, va, bs =>
    if bs.isEmpty then s
    else
      let n := 64 - va % 64
      let s := match agentLoc s a .write va 1 with
        | .error _ => (agentMiss s a .write va).1
        | .ok (.scr k off, _) => scrWrite (notePastTag s a.core a.tag (.scr k off) (bs.take n).length) a.core k off (bs.take n) (.engine a.core)
        | .ok (.mem pa, at') =>
          postHome (notePastTag (agentWalk s a va).1 a.core a.tag (.mem pa) (bs.take n).length) (.engine a.core) a.asid va pa (bs.take n) at'
      agentPutN s a fuel (va + n) (bs.drop n)

/-- Write bytes that can all be written. [DEDUCED: log 27] -/
def agentPut (s : State) (a : Agent) (va : Nat) (bs : List (Byte × Bool)) : State := agentPutN s a (bs.length + 1) va bs

/-- Every engine store of a core numbered below n has been applied (R138). -/
def agentDone (s : State) (c n : Nat) : Bool :=
  s.mem.stores.all fun st => !(decide (st.by' = .engine c) && decide (st.id < n) && st.pending)

/-- The bytes alone. -/
def rawBytes (bs : List (Byte × Bool)) : List Byte := bs.map (·.1)
/-- Some byte is poisoned. -/
def anyPoison (bs : List (Byte × Bool)) : Bool := bs.any (·.2)

/-! ## What an instruction reads at issue (R324) -/

/-- Outcome of a read at issue: wait, a precise fault, or the bytes. -/
inductive CardRes where
  | wait
  | bad (f : FRec)
  | got (bs : List Byte)

/-- Read n bytes at issue for the issuing thread (R324): translation faults and poisoned words are precise. [DEDUCED: log 81] -/
def readCard (s : State) (m : BitVec 32) (va n : Nat) : CardRes :=
  match agentGet s { agentOf s s.cur.core (curThr s).super with since := some (taskMark s, s.nextId) } va n with
  | .error (e, at') => if e = notNow then .wait else .bad { code := e, mask := m, addr := at', walked := true }
  | .ok bs =>
    match (List.range n).find? fun k => (bs.getD k (0, false)).2 with
    | some k => .bad { code := 0x08, mask := m, info := 3, addr := (va + k) / 4 * 4 }
    | none => .got (rawBytes bs)

/-- The walks and bank requests of the reads at issue (address, bytes) of the issuing thread: those it has started, or new ones
(R105, R106, R324, R379, R423). [DEDUCED: log 87] -/
def cardReads (s : State) (rs : List (Nat × Nat)) : State × List Nat :=
  match ((curThr s).hold.filter fun o => o.mask = s.cur.mask && o.pc = s.cur.pc).bind (·.waits) with
  | some ids => (s, ids)
  | none => agentReads s (agentOf s s.cur.core (curThr s).super) rs

/-- Go on once the walks and banks have served the reads at issue; the thread stalls meanwhile, without yielding. [DEDUCED: log 87] -/
def cardWait (i : Instr) (s : State) (rs : List (Nat × Nat)) (go : State → State) : State :=
  let (t, ids) := cardReads s rs
  if waiting t ids then
    updCur (holdOn i t .retry false false (begun t)) fun h => { h with hold := h.hold.map fun o =>
      if o.mask = s.cur.mask ∧ o.pc = s.cur.pc then { o with waits := some ids } else o }
  else go t

/-- Go on with the bytes of a read at issue. [DEDUCED: log 31, 87] -/
def withCard (i : Instr) (s : State) (r : CardRes) (go : List Byte → State) : State :=
  match r with
  | .wait => holdOn i s .retry false false (begun s)
  | .bad f => takeFault s f
  | .got bs => go bs

/-- Read a further record only where one is named. -/
def cardIf (b : Bool) (r : CardRes) : CardRes := if b then r else .got []

/-- A plane record (R89). -/
structure Planes where
  base : Nat
  rows : Nat
  cols : Nat
  rstride : Nat
  nch : Nat
  basis : Nat
  pstride : Nat
  deriving DecidableEq, Repr

/-- A plane record from its 32 bytes. [DEDUCED: log 32] -/
def Planes.of (bs : List Byte) : Planes :=
  { base := leAt bs 0 8, rows := leAt bs 8 4, cols := leAt bs 12 4, rstride := leAt bs 16 4, nch := leAt bs 20 1
    basis := leAt bs 21 1, pstride := leAt bs 24 8 }

/-- Address of element (i, j) of a channel (R89). -/
def Planes.at' (p : Planes) (c i j : Nat) : Nat := p.base + c * p.pstride + i * p.rstride + 2 * j

/-- A plane record is judged for a named basis (R89): a fault, if it has one. [DEDUCED: log 32] -/
def planeChk (m : BitVec 32) (bs : List Byte) (basis : Nat) (b : Option BasisEnt) : Option FRec :=
  let p := Planes.of bs
  let ok := decide (1 ≤ p.rows) && decide (p.rows ≤ 0x100000) && decide (1 ≤ p.cols) && decide (p.cols ≤ 0x100000) &&
    p.rstride % 2 = 0 && decide (2 * p.cols ≤ p.rstride) && p.basis = basis && leAt bs 22 2 = 0 &&
    p.pstride % 64 = 0 && decide (p.rstride * p.rows ≤ p.pstride) && (match b with
      | some e => p.nch = e.n + 2
      | none => false)
  if !ok then some (badValue m)
  else if !(p.base % 64 = 0) then some { code := 0x04, mask := m, addr := p.base }
  else none

/-- A scale layout record (R81). -/
structure Scales where
  base : Nat
  rows : Nat
  blocks : Nat
  rstride : Nat
  deriving DecidableEq, Repr

/-- A scale layout record from its 32 bytes. -/
def Scales.of (bs : List Byte) : Scales :=
  { base := leAt bs 0 8, rows := leAt bs 8 4, blocks := leAt bs 12 4, rstride := leAt bs 16 4 }

/-- Address of the record of block (row, b) (R81). -/
def Scales.at' (p : Scales) (row b : Nat) : Nat := p.base + row * p.rstride + 2 * b

/-- A scale layout record is judged (R81). -/
def scaleChk (m : BitVec 32) (bs : List Byte) : Option FRec :=
  let p := Scales.of bs
  let ok := decide (1 ≤ p.rows) && decide (p.rows ≤ 0x100000) && decide (1 ≤ p.blocks) && decide (p.blocks ≤ 0x8000) &&
    p.rstride % 2 = 0 && decide (2 * p.blocks ≤ p.rstride) && leAt bs 20 12 = 0
  if !ok then some (badValue m)
  else if !(p.base % 2 = 0) then some { code := 0x04, mask := m, addr := p.base }
  else none

/-- The first of some faults. [DEDUCED: log 13, 31] -/
def firstBad (fs : List (Option FRec)) : Option FRec := fs.findSome? id

/-- Check, then go on. -/
def checked (s : State) (f : Option FRec) (go : State) : State :=
  match f with
  | some f => takeFault s f
  | none => go

/-! ## Shared checks -/

/-- A fault when a condition holds. [DEDUCED: log 81] -/
def badIf (b : Bool) (f : FRec) : Option FRec := if b then some f else none

/-- POISON_CONSUMED for the fields named, ADDR the operand for those that are addresses (R228, R324, R403). [DEDUCED: log 81] -/
def poisonAddr (i : Instr) (x : Form) (s : State) (nos addrs : List Nat) : Option FRec :=
  match poisonFault i x s nos with
  | some f => some (if addrs.contains f.info then { f with addr := (srcNo i x s f.info (lowLane s x)).n } else f)
  | none => none

/-- Checks of an address operand: its range, then its alignment. [DEDUCED: log 81] -/
def addrChk (m : BitVec 32) (va align : Nat) : Option FRec :=
  firstBad [badIf (decide (2 ^ 52 ≤ va)) { code := 0x05, mask := m, addr := va },
    badIf (!(va % align = 0)) { code := 0x04, mask := m, addr := va }]

/-- TAG_BUSY (R110). -/
def tagChk (s : State) (m : BitVec 32) (t : Nat) : Option FRec :=
  badIf (tagOf s s.cur.core t = .busy) { code := 0x18, mask := m, info := t }

/-- Hold an engine instruction on the full footprint table; the stall is timed from its own beginning (R54). -/
def holdFoot (i : Instr) (s : State) : State :=
  let since := match (curThr s).hold with
    | some o => if o.mask = s.cur.mask ∧ o.pc = s.cur.pc ∧ o.why = .footprint then o.t0 else nowNs s
    | none => nowNs s
  let t := holdOn i s .footprint false false false
  updCur t fun h => { h with hold := h.hold.map fun o =>
    if o.mask = s.cur.mask ∧ o.pc = s.cur.pc then { o with t0 := since } else o }

/-- FOOTPRINT_FULL (R54): an engine instruction has stalled on the table for 4 us. -/
def execFootprintFull (core thr : Nat) (s : State) : Host.Outcome State Fault Refusal :=
  .next (match resume s core thr, (thrOf s core thr).hold with
    | some (_, x, t), some o =>
      if o.why = .footprint ∧ o.t0 + 4000 ≤ nowNs s then enterTrap t { code := 0x16, mask := maskOf [lowLane t x] } else s
    | _, _ => s)

/-- An optional tag becomes busy (R326, R372). -/
def tagStart (s : State) (c : Nat) : Option Nat → State
  | some t => tagBusy s c t
  | none => s

/-- An optional tag becomes done. -/
def tagEnd (s : State) (c : Nat) (t : Option Nat) (status : Nat) : State :=
  match t with
  | some t => tagDone s c t status
  | none => s

/-- A long-latency result that is there when the instruction completes (R331): D is written and h0 is invalid. -/
def putLong (i : Instr) (x : Form) (n : Nat) (s0 : State) (v : Val) (s : State) : State :=
  updCur (emptyAll i x n s0 s) fun t => (lanesOf (actMask s0 x)).foldl (fun t l => fillDst t (dstOf x n) l v.w v.p) t

/-! ## Statuses of work that moves data -/

/-- What one unit of a copy comes to: its destination bytes, saturation and range events; or a status code, and whether
it is a fault of an access (R112) or a stop between units. -/
inductive Made where
  | ok (bs : List (Byte × Bool)) (sat : Bool) (ev : Nat)
  | bad (code : Nat) (gran : Bool)
  deriving DecidableEq, Repr

/-- A copy so far: destination pieces in order, where it stopped, SAT, range events. -/
structure CopyRun where
  out : List (Nat × List (Byte × Bool)) := []
  stop : Option (Nat × Option Nat) := none
  sat : Bool := false
  events : Nat := 0
  /-- the address at which a write stopped it. -/
  miss : Option Nat := none
  deriving DecidableEq, Repr

/-- Pieces that follow one another in memory are one piece: it is written as a whole (R310). -/
def joinPieces (ps : List (Nat × List (Byte × Bool))) : List (Nat × List (Byte × Bool)) :=
  (ps.foldl (fun (r : List (Nat × List (Byte × Bool))) (d, bs) =>
    match r with
    | (d0, b0) :: rest => if d = d0 + b0.length then (d0, b0 ++ bs) :: rest else (d, bs) :: r
    | [] => [(d, bs)]) []).reverse

/-- The bytes of pieces from position lo on and below hi, counted in the order of the pieces. -/
def cutPieces (lo hi : Nat) (ps : List (Nat × List (Byte × Bool))) : List (Nat × List (Byte × Bool)) :=
  (ps.foldl (fun (r : Nat × List (Nat × List (Byte × Bool))) (d, bs) =>
    (r.1 + bs.length, r.2 ++ [(d + (lo - r.1), (bs.take (hi - r.1)).drop (lo - r.1))])) (0, [])).2.filter fun p => !p.2.isEmpty

/-- The next unit of a copy; `gran` says that a fault stops at a 64-byte granule (R112), else at the unit (R118). -/
def CopyRun.add (s : State) (a : Agent) (gran : Bool) (r : CopyRun) (d : Nat) (u : Made) : CopyRun :=
  if r.stop.isSome then r
  else match u with
  | .bad code g => { r with stop := some (code, if g && gran then some d else none) }
  | .ok bs sat ev =>
    let r' : CopyRun := { out := r.out ++ [(d, bs)], sat := r.sat || sat, events := r.events + ev }
    match (List.range bs.length).find? fun k => !(agentWrCode s a (d + k) = 0) with
    | none => r'
    | some k =>
      if gran then { r' with out := r.out ++ [(d, bs.take k)], stop := some (agentWrCode s a (d + k), some (d + k)), miss := some (d + k) }
      else { r with stop := some (agentWrCode s a (d + k), none), miss := some (d + k) }

/-- The pieces that a copy writes (R112): nothing at or above the granule at which it stopped. [DEDUCED: log 30] -/
def CopyRun.kept (r : CopyRun) : List (Nat × List (Byte × Bool)) :=
  match r.stop with
  | some (_, some f) => r.out.map fun (d, bs) => (d, bs.take (f / 64 * 64 - d))
  | _ => r.out

/-- The status byte (R112). [DEDUCED: log 30] -/
def CopyRun.status (r : CopyRun) : Nat := (r.stop.map (·.1)).getD 0 + (if r.sat then 128 else 0)

/-- It has to wait for a read. -/
def CopyRun.waits (r : CopyRun) : Bool := r.stop.map (·.1) = some notNow

/-- Positions of output bytes at which a copy can pause: those at a 64-byte boundary of the destination (R110). -/
def CopyRun.pauses (r : CopyRun) : List Nat :=
  (r.kept.flatMap fun (d, bs) => (List.range bs.length).map (d + ·)).zipIdx.filterMap fun (a, p) => if a % 64 = 0 then some p else none

/-- Write the bytes of a copy from position lo on and below hi. -/
def CopyRun.writePart (r : CopyRun) (s : State) (a : Agent) (lo hi : Nat) : State :=
  (joinPieces (cutPieces lo hi r.kept)).foldl (fun s (d, bs) => agentPut s a d bs) s

/-- Bytes that a copy writes. -/
def CopyRun.total (r : CopyRun) : Nat := (r.kept.map fun p => p.2.length).sum

/-- The walk of the address at which a write stopped a copy (R421, R430). -/
def CopyRun.walkMiss (r : CopyRun) (s : State) (a : Agent) : State :=
  match r.miss with
  | some va => (agentMiss s a .write va).1
  | none => s

/-- Write the pieces of a copy. -/
def CopyRun.write (r : CopyRun) (s : State) (a : Agent) : State := r.writePart s a 0 r.total

/-- Bytes read for a unit, or the unit that stops. -/
def fetched (s : State) (a : Agent) (va n : Nat) (k : List (Byte × Bool) → Made) : Made :=
  match agentGet s a va n with
  | .error (e, _) => .bad e true
  | .ok bs => k bs

/-! ## Segments of 32 elements (R83, R84, R117) -/

/-- Bytes of a segment of a format of R117 in memory (R336). -/
def segBytes (fmt : Nat) : Nat :=
  if fmt = 0 then 128 else if fmt = 4 then 34 else if fmt = 5 then 26 else if fmt = 6 then 32 else if fmt = 9 then 132
  else if fmt = 8 then 128 else 64

/-- Alignment of data of a format of R117 (R336, R452). -/
def fmtAlign (fmt : Nat) : Nat := if fmt = 0 ∨ fmt = 8 ∨ fmt = 9 then 4 else if fmt = 6 then 1 else if fmt = 10 then 8 else 2

/-- Element k of a segment as an integer (i8, i16, i32). -/
def segInt (fmt : Nat) (bs : List Byte) (k : Nat) : Int :=
  if fmt = 6 then toSigned 8 (leAt bs k 1) else if fmt = 7 then toSigned 16 (leAt bs (2 * k) 2) else toSigned 32 (leAt bs (4 * k) 4)

/-- An integer as an exact value. -/
def intFV (v : Int) : FV := .fin (decide (v < 0)) v.natAbs 0

/-- Element k of a segment as an exact value; S is the block scale of SBF16. -/
def segVal (fmt scale : Nat) (ftz : Bool) (bs : List Byte) (k : Nat) : FV :=
  match fmt with
  | 0 => fdec f32 ftz (leAt bs (4 * k) 4)
  | 1 => fdec f16 ftz (leAt bs (2 * k) 2)
  | 2 => fdec bf16 ftz (leAt bs (2 * k) 2)
  | 3 => sbfValue scale (leAt bs (2 * k) 2)
  | 4 => let e := dxOfBytes false bs; dxValue false e.1 (e.2.getD k 0)
  | 5 => let e := dxOfBytes true bs; dxValue true e.1 (e.2.getD k 0)
  | _ => intFV (segInt fmt bs k)

/-- The carriers of a carrier segment with their exponent and width, none when it is malformed (R117). -/
def carrierOf (bs : List Byte) : Option (List Int × Int × Nat) :=
  let h := leAt bs 0 4
  let w := nbits h 8 5
  let cs := (List.range 32).map fun k => toSigned 32 (leAt bs (4 + 4 * k) 4)
  if decide (0 < h / 8192) || decide (w < 8) || decide (24 < w) || cs.any (fun c => decide (2 ^ (w - 1) - 1 < c.natAbs)) then none
  else some (cs, toSigned 8 h, w)

/-- The memory image of a carrier segment (R117). -/
def carrierBytes (cs : List Int) (e : Int) (w : Nat) : List Byte :=
  natLe 4 (ofSigned 8 e + 256 * w) ++ cs.flatMap fun c => natLe 4 (ofSigned 32 c)

/-- A segment as carriers of width w: carriers, exponent, SAT, poison of the segment (R83, R84, R336). [DEDUCED: log 43] -/
def segCarriers (fmt scale w : Nat) (bs : List (Byte × Bool)) : List Int × Int × Bool × Bool :=
  let raw := rawBytes bs
  let p := anyPoison bs
  if fmt = 9 then
    match carrierOf raw with
    | some (cs, e, _) => (cs, e, false, p)
    | none => (List.replicate 32 0, 0, false, true)
  else
    let r := if fmt = 6 ∨ fmt = 7 then toCarriersInt ((List.range 32).map (segInt fmt raw)) w
      else toCarriers ((List.range 32).map (segVal fmt scale false raw)) w
    (r.1, r.2.1, r.2.2.1, r.2.2.2 || p)

/-- An element of a plane set in every channel: residues, poison, and whether R88 makes it poisoned. [DEDUCED: log 44] -/
def planeEl (ms : List Nat) (vs : List (Nat × Bool)) : List Nat × Bool × Bool :=
  let bad := (vs.zip ms).any fun (v, m) => !(nbits v.1 9 6 = 0) || decide (m ≤ nbits v.1 0 9)
  let p := vs.any fun v => v.2 || v.1.testBit 15
  (vs.map fun v => nbits v.1 0 9, p || bad, bad)

/-- The step tag and the poison of a scale record agree with its block (R82). -/
def scaleGood (rec' : Option Nat) (lin : Nat) : Bool :=
  match rec' with
  | some r => scaleOk r lin
  | none => false

end Sys2Proof.Machine
end

