-- ==== Sys2Proof/Machine/Copy.lean ====
section
/-! DEFINITION. The copy engine: CPY, CPYJ, static schedules and SADV, the tag instructions, and the events of copies
(R110 to R119, R327 to R333, R452). -/

namespace Sys2Proof.Machine

/-! ## Submitting -/

/-- A scratch target that reaches the limit (R108). -/
def retired (s : State) (va ext : Nat) : Bool :=
  decide (scrWin ≤ va) && decide (va < lentWin) && decide (slimit (grpOf s s.cur.core) < va - scrWin + ext)

/-- COPY_TARGET_RETIRED (R108). -/
def retiredChk (s : State) (m : BitVec 32) (va ext tag : Nat) : Option FRec :=
  badIf (retired s va ext) { code := 0x17, mask := m, info := tag, addr := va }

/-- A range that leaves the window its address lies in (R328). -/
def leavesWindow (s : State) (va n : Nat) : Bool :=
  inReserved va &&
    if decide (lentWin ≤ va) then decide (lentBytes (grpOf s s.cur.core) < va - lentWin + n)
    else decide (slimit (grpOf s s.cur.core) < va - scrWin + n)

/-- A copy on a tag is submitted (R330, R372). [DEDUCED: log 10] -/
def submitCopy (s : State) (c tag : Nat) (ev super : Bool) (task : Option Nat) (mark : Nat) (w : CopyWork) : State :=
  addJob (tagBusy s c tag) c (fun j => { j with tag := some tag, ev := ev, super := super, task := task, mark := mark }) w

/-- The faults of CPY in the order of R328: source a, destination d, n bytes, tag. -/
def cpyChk (s : State) (m : BitVec 32) (a d n tag : Nat) : Option FRec :=
  firstBad [badIf (!(n % 16 = 0) || decide (n < 16) || decide (0x40000000 < n)) (badValue m),
    badIf (decide (2 ^ 52 ≤ a)) { code := 0x05, mask := m, addr := a },
    badIf (decide (2 ^ 52 ≤ d)) { code := 0x05, mask := m, addr := d },
    badIf (!(a % 16 = 0)) { code := 0x04, mask := m, addr := a },
    badIf (!(d % 16 = 0)) { code := 0x04, mask := m, addr := d },
    tagChk s m tag,
    retiredChk s m d n tag,
    badIf (leavesWindow s a n) { code := 0x05, mask := m, addr := a },
    badIf (leavesWindow s d n) { code := 0x05, mask := m, addr := d }]

/-- CPY (R328). -/
def execCpy (x : Form) (s : State) : Host.Outcome State Fault Refusal :=
  let i := Instr.cpy x
  run i x s (
    let l := lowLane s x
    let d := (srcNo i x s 2 l).n
    let a := (srcNo i x s 3 l).n
    let n := (srcNo i x s 4 l).n
    checked s (firstBad [poisonAddr i x s [2, 3, 4] [2, 3], cpyChk s (maskOf [l]) a d n (x.f 0 6)])
      (finish i x s false (submitCopy (killDead i x s) s.cur.core (x.f 0 6) (x.f 6 1 = 1) (curThr s).super none (taskMark s) (.plain a d n))))

/-! ## Copy job cards (R116, R117, R375, R452) -/

/-- The fields of a copy job card. -/
structure CopyCard where
  kind : Nat
  sfmt : Nat
  dfmt : Nat
  tag : Nat
  width : Nat
  round : Nat
  basis : Nat
  flags : Nat
  src : Nat
  dst : Nat
  count : Nat
  dlimit : Nat
  aux : Nat
  elem : Nat
  deriving DecidableEq, Repr

/-- A card from its bytes. -/
def CopyCard.of (b : List Byte) : CopyCard :=
  { kind := leAt b 0 1, sfmt := leAt b 1 1, dfmt := leAt b 2 1, tag := leAt b 3 1, width := leAt b 4 1, round := leAt b 5 1
    basis := leAt b 6 1, flags := leAt b 7 1, src := leAt b 8 8, dst := leAt b 16 8, count := leAt b 24 4
    dlimit := leAt b 28 4, aux := leAt b 32 8, elem := leAt b 40 4 }

/-- FTZ of the card, for float-to-float conversions only (R116). [DESIGN CHOICE: log 89] -/
def CopyCard.ftz (k : CopyCard) : Bool := k.flags.testBit 0 && decide (k.sfmt ≤ 5) && decide (k.dfmt ≤ 2)
/-- The conversion reads or writes residue planes. -/
def CopyCard.res (k : CopyCard) : Bool := k.sfmt = 10 || k.dfmt = 10

/-- A pair of formats that a conversion copy knows (R117). -/
def convPair (s d : Nat) : Bool :=
  (d = 9 && decide (s ≤ 7)) || (d = 10 && decide (6 ≤ s) && decide (s ≤ 8)) || (s = 9 && (d = 0 || d = 2)) ||
    (s = 10 && (d = 8 || d = 0)) || (s = 0 && (d = 1 || d = 2 || d = 4 || d = 5)) || (d = 0 && decide (1 ≤ s) && decide (s ≤ 5))

/-- The fields hold values that the card's kind allows (R116, R117, R375). [DEDUCED: log 31; DESIGN CHOICE: log 108] -/
def CopyCard.fieldsOk (k : CopyCard) (b : List Byte) : Bool :=
  let gs := k.kind = 2 ∨ k.kind = 3
  let pow := (List.range 9).any fun e => k.elem = 2 ^ e
  decide (k.kind ≤ 4) && decide (k.tag ≤ 63) && decide (k.flags < 4) && leAt b 0x2C 4 = 0 && leAt b 0x70 16 = 0 &&
    (footsAt b 0x30 4).isSome &&
    (if k.kind = 1 then
      convPair k.sfmt k.dfmt && (if k.dfmt = 9 then decide (8 ≤ k.width) && decide (k.width ≤ 24) else k.width = 0) &&
        decide (k.round ≤ 3) && decide (k.basis ≤ 15) && (k.res || decide (1 ≤ k.count)) && k.dlimit = 0 && k.elem = 0 &&
        (k.sfmt = 3 || k.aux = 0) && (!(k.dfmt = 9 || k.dfmt = 4 || k.dfmt = 5) || k.count % 32 = 0)
    else
      k.sfmt = 0 && k.dfmt = 0 && k.width = 0 && k.round = 0 && k.basis = 0 && decide (1 ≤ k.count) &&
        (k.kind = 4 || !k.flags.testBit 0) && (if k.kind = 4 then decide (1 ≤ k.dlimit) else k.dlimit = 0) &&
        (if gs then pow else k.elem = 0) && (gs || k.aux = 0))

/-- The addresses are aligned (R452): the first that is not. [DEDUCED: log 31] -/
def CopyCard.misaligned (k : CopyCard) : Option Nat :=
  let al (f : Nat) : Nat := match k.kind with
    | 0 => 16
    | 1 => fmtAlign f
    | 4 => 1
    | _ => min k.elem 16
  let aux := if k.kind = 1 then (if k.sfmt = 3 then 8 else 1) else 4
  [(k.src, al k.sfmt), (k.dst, al k.dfmt), (k.aux, aux)].findSome? fun (v, n) => if v % n = 0 then none else some v

/-- Bytes of destination from its base that the card is known to reach at issue; src and dst hold the plane records (R117). -/
def CopyCard.extent (k : CopyCard) (src dst : List Byte) : Nat :=
  match k.kind with
  | 0 => k.count
  | 2 => k.count * k.elem
  | 3 => k.elem
  | 4 => k.dlimit
  | _ =>
    if k.dfmt = 10 then
      let p := Planes.of dst
      p.at' (p.nch - 1) (p.rows - 1) p.cols - p.base
    else if k.dfmt = 4 ∨ k.dfmt = 5 ∨ k.dfmt = 9 then k.count / 32 * segBytes k.dfmt
    else if k.sfmt = 10 then 4 * ((Planes.of src).rows * (Planes.of src).cols) else k.count * (segBytes k.dfmt / 32)

/-- Base of the destination. -/
def CopyCard.target (k : CopyCard) (dst : List Byte) : Nat := if k.dfmt = 10 then (Planes.of dst).base else k.dst

/-- Submit a card whose records are read (R329): src, dst, aux hold the plane and scale records it names. [DEDUCED: log 31] -/
def cardSubmit (i : Instr) (x : Form) (s : State) (b src dst aux : List Byte) : State :=
  let m := maskOf [lowLane s x]
  let c := s.cur.core
  let g := grpOf s c
  let k := CopyCard.of b
  let bas := basisOf s c k.basis
  let foots := (footsAt b 0x30 4).getD []
  checked s (firstBad [
      if k.kind = 1 && k.sfmt = 10 then planeChk m src k.basis bas else none,
      if k.kind = 1 && k.dfmt = 10 then planeChk m dst k.basis bas else none,
      if k.kind = 1 && k.sfmt = 3 then scaleChk m aux else none,
      tagChk s m k.tag,
      retiredChk s m (k.target dst) (k.extent src dst) k.tag])
    (let recs := [((srcNo i x s 3 (lowLane s x)).n, 128), (k.src, src.length), (k.dst, dst.length), (k.aux, aux.length)]
    cardWait i s recs fun s =>
    if !fpRoom s g.part foots.length then holdFoot i s
    else
      let (t, task) := fpEnter (killDead i x s) g.asid g.part g.grid false foots
      finish i x s false
        (submitCopy t c k.tag (k.flags.testBit 1) (curThr s).super task (taskMark s)
          (.card b src dst aux (match bas with
            | some e => if k.res then e.moduli else []
            | none => []))))

/-- CPYJ (R329). -/
def execCpyj (x : Form) (s : State) : Host.Outcome State Fault Refusal :=
  let i := Instr.cpyj x
  run i x s (
    let l := lowLane s x
    let m := maskOf [l]
    let a := (srcNo i x s 3 l).n
    checked s (firstBad [poisonAddr i x s [3] [3], addrChk m a 64]) (
      withCard i s (readCard s m a 128) fun b =>
        let k := CopyCard.of b
        checked s (firstBad [badIf (!k.fieldsOk b) (badValue m),
            (k.misaligned).map fun v => { code := 0x04, mask := m, addr := v }]) (
          withCard i s (cardIf (k.kind = 1 && k.sfmt = 10) (readCard s m k.src 32)) fun src =>
          withCard i s (cardIf (k.kind = 1 && k.dfmt = 10) (readCard s m k.dst 32)) fun dst =>
          withCard i s (cardIf (k.kind = 1 && k.sfmt = 3) (readCard s m k.aux 32)) fun aux =>
            cardSubmit i x s b src dst aux)))

/-! ## Performing a copy -/

/-- Bytes that are moved as they are. -/
def movedByte (s : State) (a : Agent) (src : Nat) : Made := fetched s a src 1 fun bs => .ok bs false 0

/-- The position whose old source byte reaches position k of a copy of len bytes: k itself, or, where its source lies in
the destination, by an open choice for each 16 bytes, the position that was written there (R328). [DESIGN CHOICE: log 28] -/
def hopFrom (pick : Nat → Bool) (src dst len : Nat) : Nat → Nat → Nat
  | 0, k => k
  | fuel + 1, k =>
    if decide (dst ≤ src + k) && decide (src + k < dst + len) && !(src = dst) then
      if pick (k / 16) then hopFrom pick src dst len fuel (src + k - dst) else k
    else k

/-- A plain copy of rows (R112, R114, R328). [DESIGN CHOICE: log 28; DEDUCED: log 29, 30] -/
def runPlain (s : State) (a : Agent) (src dst len stride rows : Nat) : CopyRun :=
  let pick (u : Nat) : Bool := Config.freeBit (openAt s 2 ((a.since.getD (0, 0)).2 * 2 ^ 62 + u))
  (List.range (len * rows)).foldl (fun r k =>
    let from' := if rows = 1 then src + hopFrom pick src dst len len k else src + k / len * stride + k % len
    r.add s a true (dst + k) (movedByte s a from')) {}

/-- Gather and scatter (R118): a poisoned index stops the copy with status 0x08 (R113). [DEDUCED: log 29, 30] -/
def runIndexed (s : State) (a : Agent) (k : CopyCard) : CopyRun :=
  (List.range k.count).foldl (fun r i =>
    match agentGet s a (k.aux + 4 * i) 4 with
    | .error (e, _) => r.add s a false 0 (.bad e false)
    | .ok ix =>
      if anyPoison ix then r.add s a false 0 (.bad 0x08 false)
      else
        let n := leNat (rawBytes ix)
        let (src, dst) := if k.kind = 2 then (k.src + n * k.elem, k.dst + i * k.elem) else (k.src + i * k.elem, k.dst + n * k.elem)
        r.add s a false dst (fetched s a src k.elem fun bs => .ok bs false 0)) {}

/-- The readable part of a stream, and why it ends: none, or a status code with whether it is a fault of the read. -/
def streamOf (s : State) (a : Agent) (src : Nat) : Nat → List Byte × Option (Nat × Bool)
  | 0 => ([], none)
  | n + 1 =>
    match agentGet s a src 1 with
    | .error (e, _) => ([], some (e, true))
    | .ok bs =>
      if anyPoison bs then ([], some (0x08, false))
      else
        let r := streamOf s a (src + 1) n
        (rawBytes bs ++ r.1, r.2)

/-- Decompression (R119, R375): a stream byte that the job has already written over is the old or the new one. [DESIGN CHOICE: log 28, 100; DEDUCED: log 30] -/
def runTbr (s : State) (a : Agent) (k : CopyCard) : CopyRun :=
  let (src, why) := streamOf s a k.src k.count
  let re (p : Nat) (o : List Byte) (b : Byte) : Byte :=
    if decide (k.dst ≤ k.src + p) && decide (k.src + p < k.dst + o.length) then
      if Config.freeBit (openAt s 3 ((a.since.getD (0, 0)).2 * 2 ^ 62 + p)) then o.getD (k.src + p - k.dst) 0 else b
    else b
  let (st, out, part) := tbrDecode re k.dlimit (k.count + 1) k.count 0 src []
  let (code, gran) := match st with
    | some n => (n, false)
    | none => why.getD (0, false)
  let out := if gran then out ++ part else out
  let r := out.zipIdx.foldl (fun (r : CopyRun) (b, j) => r.add s a true (k.dst + j) (.ok [(b, false)] false 0)) {}
  if code = 0 then r else r.add s a true (k.dst + out.length) (.bad code gran)

/-! ## Conversions (R117) -/

/-- A source element: exact value, poison, range event. -/
structure SrcEl where
  v : FV
  p : Bool := false
  ev : Nat := 0
  deriving DecidableEq, Repr

/-- The block scale of block b of an SBF16 source: a mismatch stops the copy with status 0x0F (R82). -/
def blockScale (s : State) (a : Agent) (aux : List Byte) (b : Nat) : Except (Nat × Bool) Nat :=
  let p := Scales.of aux
  match agentGet s a (p.at' (b / p.blocks) (b % p.blocks)) 2 with
  | .error (e, _) => .error (e, true)
  | .ok bs =>
    let v := leNat (rawBytes bs)
    if anyPoison bs || !scaleOk v b then .error (0x0F, false) else .ok (nbits v 0 8)

/-- Element idx of a residue source, drained with certified = 0 (R94, R117). -/
def planeSrc (s : State) (a : Agent) (ms : List Nat) (p : Planes) (idx : Nat) : Except (Nat × Bool) SrcEl :=
  let vs := (List.range p.nch).map fun c => agentGet s a (p.at' c (idx / p.cols) (idx % p.cols)) 2
  match vs.findSome? fun v => match v with
      | .error (e, _) => some e
      | .ok _ => none with
  | some e => .error (e, true)
  | none =>
    let els := vs.map fun v => match v with
      | .ok bs => (leNat (rawBytes bs), anyPoison bs)
      | .error _ => (0, true)
    let (res, bad, odd) := planeEl ms els
    if bad then .ok { v := .nan, p := true, ev := if odd then 1 else 0 }
    else match drainElement (ms.length - 2) ms res false false with
      | .value v => .ok { v := intFV v }
      | _ => .ok { v := .nan, p := true, ev := 1 }

/-- Element i of the source of a conversion. [DEDUCED: log 33; DESIGN CHOICE: log 89] -/
def srcEl (s : State) (a : Agent) (k : CopyCard) (src aux : List Byte) (ms : List Nat) (i : Nat) : Except (Nat × Bool) SrcEl :=
  let from' (va n : Nat) (f : List Byte → FV) : Except (Nat × Bool) SrcEl :=
    match agentGet s a va n with
    | .error (e, _) => .error (e, true)
    | .ok bs => .ok { v := f (rawBytes bs), p := anyPoison bs }
  -- an element of a DX block is made of the header and its own bytes, n at offset o of n0 (R76, R112, R113)
  let inBlock (va n0 o n : Nat) : Except (Nat × Bool) SrcEl :=
    match agentGet s a va 2, agentGet s a (va + o) n with
    | .ok h, .ok b =>
      let bs := rawBytes h ++ List.replicate (o - 2) 0 ++ rawBytes b ++ List.replicate (n0 - o - n) 0
      .ok { v := segVal k.sfmt 0 false bs (i % 32), p := anyPoison h || anyPoison b }
    | .error (e, _), _ => .error (e, true)
    | _, .error (e, _) => .error (e, true)
  match k.sfmt with
  | 3 =>
    match blockScale s a aux (i / 32) with
    | .error e => .error e
    | .ok sc => from' (k.src + 2 * i) 2 fun bs => segVal 3 sc false bs 0
  | 4 => inBlock (k.src + 34 * (i / 32)) 34 (2 + i % 32) 1
  | 5 => inBlock (k.src + 26 * (i / 32)) 26 (2 + 6 * (i % 32) / 8) (if 6 * (i % 32) % 8 ≤ 2 then 1 else 2)
  | 9 =>
    match agentGet s a (k.src + 132 * (i / 32)) 132 with
    | .error (e, _) => .error (e, true)
    | .ok bs =>
      match carrierOf (rawBytes bs) with
      | none => .ok { v := .fin false 0 0, p := true }
      | some (cs, e, _) =>
        .ok { v := drainFV (cs.getD (i % 32) 0) e, p := anyPoison (bs.take 4) || anyPoison ((bs.drop (4 + 4 * (i % 32))).take 4) }
  | 10 => planeSrc s a ms (Planes.of src) i
  | f => let n := segBytes f / 32; from' (k.src + n * i) n fun bs => segVal f 0 k.ftz bs 0

/-- A range of source elements, or the stop of the first that cannot be had. [DEDUCED: log 33] -/
def srcEls (s : State) (a : Agent) (k : CopyCard) (src aux : List Byte) (ms : List Nat) (i : Nat) : Nat → Except (Nat × Bool) (List SrcEl)
  | 0 => .ok []
  | n + 1 =>
    match srcEl s a k src aux ms i with
    | .error e => .error e
    | .ok e => match srcEls s a k src aux ms (i + 1) n with
      | .error e => .error e
      | .ok es => .ok (e :: es)

/-- Bytes of one poison. [DEDUCED: log 33] -/
def marked (p : Bool) (bs : List Byte) : List (Byte × Bool) := bs.map fun b => (b, p)

/-- One destination element of a conversion: float or i32; a poisoned residue becomes the pattern of R182. A carrier or a block
element beyond the range gives ±∞ (R77, R117). -/
def dstEl (k : CopyCard) (e : SrcEl) : Made :=
  if k.dfmt = 8 then
    if e.p then .ok (marked true (natLe 4 0x80000000)) false e.ev
    else
      let r := toIntClamp .rne (smin 32) (smax 32) e.v
      .ok (marked false (natLe 4 (ofSigned 32 r.1))) r.2 e.ev
  else
    let f := fmtOf k.dfmt
    let bits := if k.sfmt = 10 ∧ e.p = true then f32.nan
      else if k.sfmt = 3 ∨ k.sfmt = 4 ∨ k.sfmt = 5 ∨ k.sfmt = 9 then froundInf f (Rnd.ofCode k.round) k.ftz e.v
      else fround f (Rnd.ofCode k.round) k.ftz e.v
    .ok (marked e.p (natLe (f.width / 8) bits)) false e.ev

/-- One unit of a conversion: number u, with its destination. [DEDUCED: log 33] -/
def convUnit (s : State) (a : Agent) (k : CopyCard) (src dst aux : List Byte) (ms : List Nat) (u : Nat) : Nat × Made :=
  let els (i n : Nat) (f : List SrcEl → Made) : Made :=
    match srcEls s a k src aux ms i n with
    | .error (e, g) => .bad e g
    | .ok es => f es
  if k.dfmt = 9 then
    (k.dst + 132 * u,
      if k.sfmt = 3 then
        match blockScale s a aux u with
        | .error (e, g) => .bad e g
        | .ok sc => fetched s a (k.src + 64 * u) 64 fun bs => seg sc bs
      else fetched s a (k.src + segBytes k.sfmt * u) (segBytes k.sfmt) fun bs => seg 0 bs)
  else if k.dfmt = 4 ∨ k.dfmt = 5 then
    (k.dst + segBytes k.dfmt * u, els (32 * u) 32 fun es =>
      let r := dxEncode (k.dfmt = 5) (es.map (·.v))
      .ok (marked (es.any (·.p)) (dxBytes (k.dfmt = 5) r.1 r.2.1)) r.2.2 0)
  else if k.dfmt = 10 then
    let p := Planes.of dst
    let n := p.rows * p.cols
    let c := u / n
    (p.at' c (u % n / p.cols) (u % n % p.cols), els (u % n) 1 fun es =>
      let e := es.headD { v := .nan }
      let r := imod (FV.roundInt .rne 0 e.v) (ms.getD c 1)
      .ok (marked e.p (natLe 2 (r + if e.p then 32768 else 0))) false 0)
  else (k.dst + (fmtOf k.dfmt).width / 8 * u, els u 1 fun es => dstEl k (es.headD { v := .nan }))
where
  /-- A carrier segment from its source bytes (R83, R84). -/
  seg (sc : Nat) (bs : List (Byte × Bool)) : Made :=
    let r := segCarriers k.sfmt sc k.width bs
    .ok (marked r.2.2.2 (carrierBytes r.1 r.2.1 k.width)) r.2.2.1 0

/-- Units of a conversion. -/
def convUnits (k : CopyCard) (src dst : List Byte) (ms : List Nat) : Nat :=
  if k.dfmt = 10 then (Planes.of dst).rows * (Planes.of dst).cols * ms.length
  else if k.sfmt = 10 then (Planes.of src).rows * (Planes.of src).cols
  else if k.dfmt = 4 ∨ k.dfmt = 5 ∨ k.dfmt = 9 then k.count / 32
  else k.count

/-- A conversion copy. [DEDUCED: log 29, 30] -/
def runConv (s : State) (a : Agent) (k : CopyCard) (src dst aux : List Byte) (ms : List Nat) : CopyRun :=
  (List.range (convUnits k src dst ms)).foldl (fun r u =>
    let p := convUnit s a k src dst aux ms u
    r.add s a true p.1 p.2) {}

/-- A copy as a whole: what it writes and how it ends. -/
def runWork (s : State) (a : Agent) : CopyWork → CopyRun
  | .plain src dst len => runPlain s a src dst len len 1
  | .rows src dst len stride rows => runPlain s a src dst len stride rows
  | .card b src dst aux ms =>
    let k := CopyCard.of b
    match k.kind with
    | 0 => runPlain s a k.src k.dst k.count k.count 1
    | 1 => runConv s a k src dst aux ms
    | 4 => runTbr s a k
    | _ => runIndexed s a k
  | .sfill _ _ _ => {}

/-- The ranges of plane sets: one for each row of each channel. -/
def planeRanges (p : Planes) : List (Nat × Nat) :=
  (List.range p.nch).flatMap fun c => (List.range p.rows).map fun i => (p.at' c i 0, 2 * p.cols)

/-- Address ranges that a copy reads, as far as it is known when it starts to read. -/
def workReads (s : State) (a : Agent) : CopyWork → List (Nat × Nat)
  | .plain src _ len => [(src, len)]
  | .rows src _ len stride rows => (List.range rows).map fun r => (src + r * stride, len)
  | .card b src dst aux _ =>
    let k := CopyCard.of b
    let n := if k.dfmt = 10 then (Planes.of dst).rows * (Planes.of dst).cols else k.count
    match k.kind with
    | 1 =>
      if k.sfmt = 10 then planeRanges (Planes.of src)
      else (k.src, if k.sfmt = 4 ∨ k.sfmt = 5 ∨ k.sfmt = 9 then ceilDiv n 32 * segBytes k.sfmt else n * (segBytes k.sfmt / 32)) ::
        if k.sfmt = 3 then (List.range (ceilDiv n 32)).map fun j =>
          let p := Scales.of aux
          (p.at' (j / p.blocks) (j % p.blocks), 2)
        else []
    | 2 => (k.aux, 4 * k.count) :: (List.range k.count).filterMap fun i => match agentGet s a (k.aux + 4 * i) 4 with
        | .ok ix => some (k.src + leNat (rawBytes ix) * k.elem, k.elem)
        | .error _ => none
    | 3 => [(k.aux, 4 * k.count), (k.src, k.count * k.elem)]
    | _ => [(k.src, k.count)]
  | .sfill _ _ _ => []

/-- Range events of res16 copies count in the engine's CCR and change nothing else there (R117, R187). -/
def countEvents (s : State) (c n : Nat) : State :=
  if n = 0 then s
  else updEng s (quadOf c) fun e =>
    { e with ccr := BitVec.ofNat 64 (e.ccr.toNat % 2 ^ 56 + min 255 (e.ccr.toNat / 2 ^ 56 + n) * 2 ^ 56) }

/-! ## Events of copies -/

/-- The group of a core goes on with copies: it is neither halting nor halted. [DEDUCED: log 34] -/
def copiesRun (s : State) (c : Nat) : Bool := (grpOf s c).st = .running || (grpOf s c).st = .ended

/-- The copy that starts next, if one of the 16 places is free: the first waiting one, once it is not held (R52, R111). [DEDUCED: log 34] -/
def nextCopy (s : State) (c : Nat) : Option Job :=
  let js := (coreOf s c).jobs
  if decide (16 ≤ (js.filter (·.running)).length) then none
  else match js.find? fun j => !j.running with
    | some j => if fpClear s j.task && !j.paused then some j else none
    | none => none

/-- COPY_START (R111). [DEDUCED: log 34] -/
def execCopyStart (core : Nat) (s : State) : Host.Outcome State Fault Refusal :=
  .next (match nextCopy s core with
    | some j =>
      if copiesRun s core then
        let (d, s) := freeN s
        updJob s core j.id fun j => { j with running := true, due := s.time + 1 + d }
      else s
    | none => s)

/-- The event word of a copy on port 34 (R333). -/
def copyWord (tag status : Nat) : Word := BitVec.ofNat 32 (status * 65536 + tag)

/-- A copy is over: its tag, its event, its footprint, its place; then the group may have left its core (R59). -/
def endCopy (s : State) (c : Nat) (j : Job) (status : Nat) : State :=
  let s := tagEnd (fpLeave (delJob s c j.id) j.task) c j.tag status
  let s := if j.ev then pushEvent s c 34 (copyWord (j.tag.getD 0) status) else s
  tryEnd s c

/-- A copy whose writes are performed completes once they are applied (R138). -/
def tryEndCopy (s : State) (c : Nat) (j : Job) : State :=
  match j.fin with
  | some (n, st) => if agentDone s c n then endCopy s c j st else s
  | none => s

/-- The agent of a copy. -/
def copyAgent (s : State) (c : Nat) (j : Job) : Agent :=
  { agentOf s c j.super with since := some (j.mark, j.id), cache := some (dieOf c), tag := j.tag }

/-- A running copy performs its reads and writes, from where it was paused on (R110, R112, R113). [DEDUCED: log 27] -/
def moveCopy (s : State) (c : Nat) (j : Job) : State :=
  let a := copyAgent s c j
  let r := runWork s a j.work
  if r.waits then s
  else
    let s := countEvents (r.walkMiss (r.writePart s a j.done r.total) a) c r.events
    let s := updJob s c j.id fun j => { j with fin := some (s.nextId, r.status) }
    match jobOf s c j.id with
    | some j => tryEndCopy s c j
    | none => s

/-- A running copy: its reads reach the banks, then, once these have served them, it is performed (R106, R379). [DEDUCED: log 27] -/
def performCopy (s : State) (c : Nat) (j : Job) : State :=
  match j.waits with
  | some ids => if waiting s ids then s else moveCopy s c j
  | none =>
    let (s, ids) := agentReads s (copyAgent s c j) (workReads s (copyAgent s c j) j.work)
    let s := updJob s c j.id fun j => { j with waits := some ids }
    if waiting s ids then s else moveCopy s c j

/-- A running copy pauses: what it has written by then ends at a 64-byte boundary of its destination, at an open place (R110).
[DESIGN CHOICE: log 90] -/
def pauseCopy (s : State) (c : Nat) (j : Job) : State :=
  match j.work with
  | .sfill _ _ _ => s
  | _ =>
    let a := copyAgent s c j
    let r := runWork s a j.work
    if !j.running || j.fin.isSome || r.waits then s
    else
      let at' := r.pauses.filter (j.done ≤ ·)
      match at'[Config.freeNat (openAt s 12 j.id) % (at'.length + 1)]? with
      | none => s
      | some p => updJob (r.writePart s a j.done p) c j.id fun j => { j with done := p }

/-- A job is an SFILL, which lands by SFILL_LAND. -/
def Job.isSfill (j : Job) : Bool :=
  match j.work with
  | .sfill _ _ _ => true
  | _ => false

/-- COPY_COMPLETE (R112). -/
def execCopyComplete (core job : Nat) (s : State) : Host.Outcome State Fault Refusal :=
  .next (match jobOf s core job with
    | some j =>
      if !j.running || j.paused || j.isSfill || decide (s.time < j.due) then s
      else if j.fin.isSome then tryEndCopy s core j
      else performCopy s core j
    | none => s)

/-! ## Static schedules (R114, R115) -/

/-- A released entry goes behind those released in earlier cycles and those of its cycle with a lower index (R115). -/
def insertSched (e : Sched) : List Sched → List Sched
  | [] => [e]
  | f :: fs => if f.released && (decide (f.relAt < e.relAt) || (f.relAt = e.relAt && decide (f.idx < e.idx))) then f :: insertSched e fs
    else e :: f :: fs

/-- Release the entries whose stage has come (R115). -/
def releaseSched (mark now : Nat) (g : Group) : Group :=
  let new := (g.sched.filter fun e => !e.released && decide (e.stage ≤ g.stage)).map fun e =>
    { e with released := true, mark := mark, relAt := now }
  { g with sched := new.foldl (fun l e => insertSched e l) (g.sched.filter fun e => e.released || !(decide (e.stage ≤ g.stage))) }

/-- SADV (R330). -/
def execSadv (x : Form) (s : State) : Host.Outcome State Fault Refusal :=
  let i := Instr.sadv x
  run i x s (finish i x s false
    (updGrp s s.cur.core fun g => releaseSched (taskMark s) s.time { g with stage := min 255 (g.stage + x.f 0 8) }))

/-- Submit the first released entry: a retired target ends it at once on its tag (R108). -/
def submitEntry (s : State) (c : Nat) (e : Sched) : State :=
  let g := grpOf s c
  let s := updGrp s c fun g => { g with sched := g.sched.tail }
  if decide (scrWin ≤ e.dst) && decide (e.dst < lentWin) && decide (slimit g < e.dst - scrWin + e.len * e.rows) then
    tagDone (tagBusy s c e.tag) c e.tag 0x17
  else submitCopy s c e.tag false g.super none e.mark (.rows e.src e.dst e.len e.stride e.rows)

/-- SCHED_ENTRY_SUBMIT (R115). -/
def execSchedEntrySubmit (core : Nat) (s : State) : Host.Outcome State Fault Refusal :=
  .next (match (grpOf s core).sched with
    | e :: _ => if e.released && !(tagOf s core e.tag = .busy) && copiesRun s core then tryEnd (submitEntry s core e) core else s
    | [] => s)

/-! ## Tag instructions (R331) -/

/-- The tags of a core in a state, as a bitmap. -/
def tagMask (s : State) (c : Nat) (st : TagSt) : DWord :=
  (coreOf s c).tags.foldl (fun (b : DWord) (k, v) => if v = st then b ||| (1#64 <<< k) else b) 0

/-- The mask of a tag instruction: A of the lowest lane. -/
def tagArg (i : Instr) (x : Form) (s : State) : DWord := BitVec.ofNat 64 (srcNo i x s 3 (lowLane s x)).n

/-- The condition on which TWAIT (or TWANY) returns. -/
def tagsCome (s : State) (c : Nat) (anyOf : Bool) (m : DWord) : Bool :=
  tagMask s c .busy &&& m = 0 || (anyOf && !(tagBits s c &&& m = 0))

/-- What TWAIT (or TWANY) returns. -/
def tagsValue (s : State) (c : Nat) (anyOf : Bool) (m : DWord) : Val :=
  { w := natWords 2 ((if anyOf then tagBits s c else (coreOf s c).tagerr) &&& m).toNat }

/-- The tags of a mask that are done, as a list. -/
def doneTags (s : State) (c : Nat) (m : DWord) : List Nat := (List.range 64).filter fun t => (tagBits s c &&& m).getLsbD t

/-- TWAIT and TWANY behind the shared checks; the tags found done are observed (R332). -/
def tagWait (i : Instr) (x : Form) (anyOf : Bool) (s : State) : State :=
  let c := s.cur.core
  let m := tagArg i x s
  checked s (poisonFault i x s [3])
    (if tagsCome s c anyOf m then
      finish i x s true (putLong i x 2 s (tagsValue s c anyOf m) (killDead i x (observe s c s.cur.thr (doneTags s c m))))
    else holdOn i s .tags true (!curFe s) false)

/-- TWAIT (R331). -/
def execTwait (x : Form) (s : State) : Host.Outcome State Fault Refusal := run (.twait x) x s (tagWait (.twait x) x false s)

/-- TWANY (R331). -/
def execTwany (x : Form) (s : State) : Host.Outcome State Fault Refusal := run (.twany x) x s (tagWait (.twany x) x true s)

/-- TAG_WAIT_RETURN (R331): a blocked TWAIT or TWANY returns when its condition holds. -/
def execTagWaitReturn (core thr : Nat) (s : State) : Host.Outcome State Fault Refusal :=
  .next (match resume s core thr, (thrOf s core thr).hold with
    | some (i, x, t), some o =>
      let anyOf : Bool := match i with
        | .twany _ => true
        | _ => false
      if o.why = .tags ∧ tagsCome t core anyOf (tagArg i x t) = true then tagWait i x anyOf t else s
    | _, _ => s)

/-- The lowest done tag of a mask. -/
def firstDone (s : State) (c : Nat) (m : DWord) : Option Nat := (List.range 64).find? fun t => (tagBits s c &&& m).getLsbD t

/-- TFIRST (R331): every tag of the mask that it finds done is observed (R332). -/
def execTfirst (x : Form) (s : State) : Host.Outcome State Fault Refusal :=
  let i := Instr.tfirst x
  run i x s (
    let c := s.cur.core
    let f := firstDone s c (tagArg i x s)
    let v : Nat := match f with
      | some t => t + (if (coreOf s c).tagerr.getLsbD t then 64 else 0)
      | none => 0x80000000
    let t := match f with
      | some t => let u := observe s c s.cur.thr (doneTags s c (tagArg i x s)); if x.m 0 1 = 1 then tagIdle u c t else u
      | none => s
    checked s (poisonFault i x s [3])
      (finish i x s false (addFill x 1 (actMask s x) (.value ((lanesOf (actMask s x)).map fun l => (l, [BitVec.ofNat 32 v], false)))
        (emptyAll i x 1 s (killDead i x t)) id)))

/-- TCLR (R331). -/
def execTclr (x : Form) (s : State) : Host.Outcome State Fault Refusal :=
  let i := Instr.tclr x
  run i x s (
    let c := s.cur.core
    let m := tagArg i x s
    let busy := (List.range 64).find? fun t => (tagMask s c .busy &&& m).getLsbD t
    checked s (firstBad [poisonFault i x s [3],
        busy.map fun t => { code := 0x18, mask := maskOf [lowLane s x], info := t }])
      (finish i x s false (killDead i x
        (((List.range 64).filter fun t => (tagBits s c &&& m).getLsbD t).foldl (fun s t => tagIdle s c t) s))))

end Sys2Proof.Machine
end

