-- ==== Sys2Proof/Machine/Bte.lean ====
section
/-! DEFINITION. Block transfers: BTJOB (R123, R344) and the completion of a job on its ring (R124). -/

namespace Sys2Proof.Machine

/-- A BTE descriptor's fields lie within their limits (R344). [DEDUCED: log 51] -/
def bteOk (b : List Byte) : Bool :=
  decide (leAt b 0 8 < 2 ^ 52) && decide (leAt b 8 8 < 2 ^ 52) && decide (1 ≤ leAt b 0x10 4) && leAt b 0x14 4 = 0 &&
    (footsAt b 0x20 2).isSome

/-- A ring descriptor's fields lie within their limits (R123). [DEDUCED: log 51] -/
def ringOk (r : List Byte) : Bool :=
  decide (4 ≤ leAt r 8 1) && decide (leAt r 8 1 ≤ 16) && leAt r 9 7 = 0 && (r.drop 0x20).all (· = 0)

/-- Submit a transfer, or answer that the queue is full or the die away (R344). [DEDUCED: log 10] -/
def bteSubmit (i : Instr) (x : Form) (s : State) (b : List Byte) : State :=
  let l := lowLane s x
  let c := s.cur.core
  let g := grpOf s c
  let die := x.f 0 3
  let q := mgetD s.hbm.btes die []
  let answer (t : State) (v : Nat) : State :=
    finish i x s false (addFill x 1 (actMask s x) (.value ((lanesOf (actMask s x)).map fun l => (l, [BitVec.ofNat 32 v], false)))
      (emptyAll i x 1 s (killDead i x t)) id)
  if mdieInReset s die || !((mdiesOf (partWord s g.part)).contains die && partEn s g.part) then answer s 2
  else if 256 ≤ q.length then answer s 0
  else
    let foots := (footsAt b 0x20 2).getD []
    if !fpRoom s g.part foots.length then holdFoot i s
    else
      let (t, task) := fpEnter s g.asid g.part g.grid false foots
      let (d, t) := freeN t
      let j : BteJob :=
        { src := leAt b 0 8, dst := leAt b 8 8, len := leAt b 0x10 4, ring := leAt b 0x18 8
          jobId := (srcNo i x s 4 l).n, notice := x.f 3 1 = 1, core := c, asid := g.asid, super := (curThr s).super
          grid := g.grid, task := task, due := s.time + 1 + d, mark := taskMark s }
      let t := updHbm t fun h => { h with btes := mset h.btes die (q ++ [j]) }
      let t := updDisp t fun d => { d with grids := match mget d.grids g.grid with
        | some r => mset d.grids g.grid { r with btes := r.btes + 1 }
        | none => d.grids }
      answer t 1

/-- BTJOB (R344). [DEDUCED: log 51] -/
def execBtjob (x : Form) (s : State) : Host.Outcome State Fault Refusal :=
  let i := Instr.btjob x
  run i x s (
    let l := lowLane s x
    let m := maskOf [l]
    let a := (srcNo i x s 3 l).n
    checked s (firstBad [poisonAddr i x s [3, 4] [3], addrChk m a 64])
      (withCard i s (readCard s m a 64) fun b =>
        checked s (firstBad [badIf (!bteOk b) (badValue m), addrChk m (leAt b 0x18 8) 64])
          (withCard i s (readCard s m (leAt b 0x18 8) 64) fun r =>
            checked s (firstBad [badIf (!ringOk r) (badValue m), addrChk m (leAt r 0 8) (32 * 2 ^ leAt r 8 1)])
              (cardWait i s [(a, 64), (leAt b 0x18 8, 64)] fun s => bteSubmit i x s b))))

/-! ## BTE_COMPLETE (R124) -/

/-- The agent of a job of a memory-side die's engine (R344): the homes' view, no windows, the die's translations (R423). -/
def bteAgent (s : State) (die : Nat) (j : BteJob) : Agent :=
  { core := j.core, part := (match mget s.disp.grids j.grid with
      | some g => g.part
      | none => 0), asid := j.asid, super := j.super, win := false, die := 4
    since := some (j.mark, j.due), cache := some (4 + die) }

/-- Replace a job of a die's queue. -/
def setBte (s : State) (die : Nat) (j : BteJob) (f : BteJob → BteJob) : State :=
  updHbm s fun h => { h with btes := mset h.btes die ((mgetD h.btes die []).map fun o => if o = j then f o else o) }

/-- The transfer of a job: its state afterwards, with status, fault, bytes and address of its record; none while a read
has to wait. -/
def bteTransfer (s : State) (die : Nat) (j : BteJob) : Option State :=
  let a := bteAgent s die j
  let r := runPlain s a j.src j.dst j.len j.len 1
  if r.waits then none
  else
    let addr := match r.stop with
      | some (_, some d) => match agentGet s a (j.src + (d - j.dst)) 1 with
        | .error _ => j.src + (d - j.dst)
        | .ok _ => d
      | _ => 0
    let t := r.walkMiss (r.write s a) a
    some (setBte t die j fun j => { j with fin := some (t.nextId, r.status, r.status % 128, r.total, addr) })

/-- The completion record (R124). [DEDUCED: log 51] -/
def bteRecord (s : State) (j : BteJob) (prod lg status fault bytes addr : Nat) : List Byte :=
  natLe 1 status ++ natLe 1 fault ++ natLe 1 (prod / 2 ^ lg % 2) ++ natLe 1 0 ++ natLe 4 j.jobId ++ natLe 8 bytes ++
    natLe 8 (nowNs s) ++ natLe 8 addr

/-- A job leaves its queue: notice, footprint, grid. -/
def bteLeave (s : State) (die : Nat) (j : BteJob) (status : Nat) : State :=
  let s := updHbm s fun h => { h with btes := mset h.btes die ((mgetD h.btes die []).erase j) }
  let s := fpLeave s j.task
  let s := updDisp s fun d => { d with grids := match mget d.grids j.grid with
    | some r => mset d.grids j.grid { r with btes := r.btes - 1 }
    | none => d.grids }
  if j.notice && (coreOf s j.core).group.any (fun g => g.grid = j.grid) then
    pushEvent s j.core 35 (BitVec.ofNat 32 (die * 2 ^ 24 + status % 256 * 65536 + j.jobId % 65536))
  else s

/-- A write of n bytes of one page has to wait for its walk (R129, R421, R431). -/
def writeWaits (s : State) (a : Agent) (va n : Nat) : Bool :=
  agentWrCode s a va = notNow || agentWrCode s a (va + (n - 1)) = notNow

/-- PROD counts the record of a job, which then leaves (R124); none while a read has to wait. -/
def bteProd (s : State) (die : Nat) (j : BteJob) (status : Nat) : Option State :=
  if writeWaits s (bteAgent s die j) (j.ring + 0x10) 8 then none
  else match agentGet s (bteAgent s die j) (j.ring + 0x10) 8 with
  | .error (e, _) => if e = notNow then none else some (bteLeave s die j status)
  | .ok p => some (bteLeave (agentPut s (bteAgent s die j) (j.ring + 0x10) (plain (natLe 8 (leNat (rawBytes p) + 1)))) die j status)

/-- A transferred job writes its record once its data is in place and the ring has room, then PROD, then leaves; none while it
has to wait. [DEDUCED: log 51] -/
def bteRing (s : State) (die : Nat) (j : BteJob) (n status fault bytes addr : Nat) : Option State :=
  match j.recd with
  | some k => if agentDone s j.core k then bteProd s die j status else none
  | none =>
    if !agentDone s j.core n then none
    else match agentGet s (bteAgent s die j) j.ring 64 with
      | .error (e, va) => if e = notNow then none else some (bteLeave (agentMiss s (bteAgent s die j) .read va).1 die j status)
      | .ok r =>
        let r := rawBytes r
        let lg := leAt r 8 1
        let prod := leAt r 0x10 8
        if 2 ^ lg ≤ prod - leAt r 0x18 8 then none
        else if writeWaits s (bteAgent s die j) (leAt r 0 8 + 32 * (prod % 2 ^ lg)) 32 then none
        else
          let s := agentPut s (bteAgent s die j) (leAt r 0 8 + 32 * (prod % 2 ^ lg))
            (plain (bteRecord s j prod lg status fault bytes addr))
          some (setBte s die j fun j => { j with recd := some s.nextId })

/-- The next thing a job does, none while it has to wait: its reads reach the banks, then it transfers (R106, R379), then it
completes on its ring. -/
def bteStep (s : State) (die : Nat) (j : BteJob) : Option State :=
  match j.fin, j.waits with
  | some (n, status, fault, bytes, addr), _ => bteRing s die j n status fault bytes addr
  | none, some ids => if waiting s ids then none else bteTransfer s die j
  | none, none =>
    let (t, ids) := agentReads s (bteAgent s die j) [(j.src, j.len)]
    some (setBte t die j fun j => { j with waits := some ids })

/-- The jobs of a die's queue that head their rings and are not held (R52, R124). -/
def bteHeads (s : State) (die : Nat) : List BteJob :=
  let q := mgetD s.hbm.btes die []
  (q.zipIdx.filter fun (j, k) => (q.take k).all (fun o => !(o.ring = j.ring && o.asid = j.asid)) && fpClear s j.task && decide (j.due ≤ s.time)).map (·.1)

/-- BTE_COMPLETE (R124): the first job that heads its ring and has not to wait goes on; a full ring keeps no other ring's jobs. -/
def execBteComplete (die : Nat) (s : State) : Host.Outcome State Fault Refusal :=
  .next (if mdieInReset s die then s else ((bteHeads s die).findSome? (bteStep s die)).getD s)

end Sys2Proof.Machine
end

