-- ==== Sys2Proof/Machine/Log.lean ====
section
/-! DEFINITION. The containment register of an engine with its event words and telemetry (R186, R187, R333, R446). -/

namespace Sys2Proof.Machine

/-! ## The containment register (R186, R187) -/

/-- The CCR after an event. -/
def ccrWord (old : DWord) (slot row col grp kind pass synd : Nat) : DWord :=
  BitVec.ofNat 64 (min 255 (old.toNat / 2 ^ 56 + 1) * 2 ^ 56 + slot % 16 * 2 ^ 52 + row % 256 * 2 ^ 44 + col % 128 * 2 ^ 37 +
    grp % 8 * 2 ^ 34 + kind % 4 * 2 ^ 32 + pass % 65536 * 2 ^ 16 + synd % 65536)

/-- The event word of a CCR event on port 33 (R333). -/
def ccrEventWord (kind slot row col grp code : Nat) : Word :=
  BitVec.ofNat 32 (kind % 4 * 2 ^ 29 + slot % 16 * 2 ^ 25 + row % 256 * 2 ^ 17 + col % 128 * 2 ^ 10 +
    (if grp = 0 then 512 else 0) + code % 512)

/-- One CCR event. -/
structure CcrEv where
  kind : Nat
  slot : Nat := 15
  row : Nat := 0
  col : Nat := 0
  pass : Nat := 0
  synd : Nat := 0
  /-- CODE of the event word. -/
  code : Nat := 0
  deriving DecidableEq, Repr

/-- The logical quad of an engine for its issuing core's partition. -/
def logQuad (s : State) (c q : Nat) : Nat := ((mgetD s.xl.lquads (grpOf s c).part []).findIdx? (· = q)).getD q

/-- A CCR event of the engine of quad q for a core's work: register, port 33, telemetry, log (R187, R333, R437, R446). -/
def ccrEvent (s : State) (q core asid grp : Nat) (v : CcrEv) : State :=
  let s := updEng s q fun e =>
    { e with
      ccr := ccrWord e.ccr v.slot v.row v.col grp v.kind v.pass v.synd
      ccrAsid := some asid
      corr := if v.kind = 1 then satAdd 32 e.corr 1 else e.corr
      uncorr := if v.code = 0x11 ∨ v.code = 0x12 then satAdd 32 e.uncorr 1 else e.uncorr
      reproofN := if v.kind = 0 then satAdd 16 e.reproofN 1 else e.reproofN
      skew := if v.kind = 2 ∧ v.code = 0x0F then satAdd 16 e.skew 1 else e.skew }
  let s := pushEvent s core 33 (ccrEventWord v.kind v.slot v.row v.col grp v.code)
  let lq := logQuad s core q
  if v.kind = 1 then logErr s 6 9 asid lq 0 v.synd
  else if v.code = 0x11 ∨ v.code = 0x12 then logErr s 7 9 asid lq 0 v.synd
  else if v.kind = 2 ∧ v.code = 0x0F then logErr s 9 10 asid lq 0 v.synd
  else if v.kind = 0 ∧ v.synd / 16384 = 2 then logErr s 8 4 asid lq 0 v.synd
  else s

end Sys2Proof.Machine
end

