-- ==== Sys2Proof/Machine/Engine.lean ====
section
/-! DEFINITION. The instructions of the Chrovia engine at their issue: BASIS, OCLM, OREL, OLOAD, QMMA, ACLR, ADRAIN,
SCLD, MJOB and MSTAT (R158 to R179, R324 to R343, R414). -/

namespace Sys2Proof.Machine

/-! ## Shared by engine instructions -/

/-- The quad of the issuing core. -/
def curQuad (s : State) : Nat := quadOf s.cur.core
/-- The issuing group. -/
def curGrp (s : State) : Group := grpOf s s.cur.core
/-- The engine as every older entry will leave it (R163). [DEDUCED: log 35] -/
def laterEng (s : State) : Eng := foreseen (engOf s (curQuad s))

/-- ILLEGAL_OPERAND on an engine out of service (R160). -/
def serviceChk (s : State) (m : BitVec 32) : Option FRec := badIf (outOfService (engOf s (curQuad s))) (badValue m)

/-- Go on when the table has room, else stall without yielding (R167). -/
def withRoom (i : Instr) (s : State) (q : Nat) (go : State) : State :=
  if tableFull (engOf s q) || engineDown s q then holdOn i s .retry false false (begun s) else go

/-- The entry of the issuing thread with an operation (R167). -/
def entry (s : State) (op : EntOp) : Ent :=
  let g := curGrp s
  { id := 0, core := s.cur.core, asid := g.asid, part := g.part, prio := g.prio, t := nowNs s, super := (curThr s).super, op := op
    mark := taskMark s }

/-- The entry of a load or staging, due after an open time (R453). -/
def submitDue (s : State) (q : Nat) (n : Ent) : State :=
  let (d, s) := freeN s
  enterEnt s q { n with due := s.time + 1 + d }

/-- An optional tag of an instruction: number and enable (R326). -/
def optTag (no en : Nat) : Option Nat := if en = 1 then some no else none

/-- TAG_BUSY of an optional tag. -/
def optTagChk (s : State) (m : BitVec 32) (t : Option Nat) : Option FRec :=
  match t with
  | some k => tagChk s m k
  | none => none

/-- The page translations of pieces (address, bytes) for an agent, or the fault of the first byte that has none
(R337, R341). [DEDUCED: log 47] -/
def capture (s : State) (a : Agent) (k : Need) : List (Nat × Nat) → Except (Nat × Nat) (List (Nat × Nat × Attr))
  | [] => .ok []
  | (va, n) :: rest =>
    match (List.range n).findSome? fun j => match agentLoc s a k (va + j) 1 with
        | .error e => some (e, va + j)
        | .ok _ => none with
    | some e => .error e
    | none =>
      match capture s a k rest with
      | .error e => .error e
      | .ok ps =>
        .ok ([va, va + (n - 1)].foldl (fun ps v =>
          if ps.any fun p => p.1 = v / 65536 then ps
          else match agentLoc s a k v 1 with
            | .ok (.mem pa, at') => (v / 65536, pa - v % 65536, at') :: ps
            | _ => ps) ps)

/-- Capture translations for the issuing thread, with precise faults. -/
def withPages (s : State) (m : BitVec 32) (k : Need) (segs : List (Nat × Nat)) (go : List (Nat × Nat × Attr) → State) : State :=
  match capture s (agentOf s s.cur.core (curThr s).super) k segs with
  | .error (e, va) => takeFault s { code := e, mask := m, addr := va, walked := true }
  | .ok ps => go ps

/-- A basis entry fits a group of an engine (R92, R160). [DEDUCED: log 45] -/
def basisFits (e : Eng) (grp : Nat) (b : Option BasisEnt) : Bool :=
  match b with
  | some b => decide (b.n ≤ profN e grp)
  | none => false

/-- Moduli of a basis entry. -/
def moduliOf (b : Option BasisEnt) : List Nat :=
  match b with
  | some b => b.moduli
  | none => []

/-! ## Slots: OCLM, OREL (R335) -/

/-- The slot an OCLM claims, and the value of its D. [DEDUCED: log 35] -/
def oclmResult (any : Bool) (f : Eng) (a : Nat) : Option Nat × Nat :=
  if any then
    match (List.range 64).find? fun k => !(mhas f.slots k) with
    | some k => (some k, k)
    | none => (none, 0xFFFFFFFF)
  else if mhas f.slots a then (none, 0) else (some a, 1)

/-- OCLM (R335). D fills once the claim has taken effect. -/
def execOclm (x : Form) (s : State) : Host.Outcome State Fault Refusal :=
  let i := Instr.oclm x
  run i x s (
    let m := maskOf [lowLane s x]
    let a := (srcNo i x s 3 (lowLane s x)).n
    let any : Bool := x.m 0 1 = 1
    let r := oclmResult any (laterEng s) a
    checked s (firstBad [poisonFault i x s [3], serviceChk s m,
        badIf (!any && decide (63 < a)) (badValue m)])
      (let t := match r.1 with
        | some k => enterEnt s (curQuad s) (entry s (.oclm any k))
        | none => s
      finish i x s false (addFill x 1 (actMask s x) (.value ((lanesOf (actMask s x)).map fun l => (l, [BitVec.ofNat 32 r.2], false)))
        (emptyAll i x 1 s (killDead i x t)) fun f => { f with waits := if r.1.isSome then [s.nextId] else [] })))

/-- OREL of a slot that is free or a job's, or another ASID's (R335, R414). -/
def orelChk (f : Eng) (asid k : Nat) (m : BitVec 32) : Option FRec :=
  match mget f.slots k with
  | some o => if o.use = .job then some (badValue m) else badIf (!(o.asid = asid)) { code := 0x0E, mask := m, info := k }
  | none => some (badValue m)

/-- OREL (R335). -/
def execOrel (x : Form) (s : State) : Host.Outcome State Fault Refusal :=
  let i := Instr.orel x
  run i x s (
    let m := maskOf [lowLane s x]
    let a := (srcNo i x s 3 (lowLane s x)).n
    checked s (firstBad [poisonFault i x s [3], serviceChk s m, badIf (decide (63 < a)) (badValue m),
        orelChk (laterEng s) (curGrp s).asid a m])
      (finish i x s false (enterEnt (killDead i x s) (curQuad s) (entry s (.orel a)))))

/-! ## BASIS (R334) -/

/-- The basis entry that a list of 32 bytes loads, none when it is not valid (R90, R217, R334). -/
def basisFrom (bs : List Byte) (asid : Option Nat) : Option BasisEnt :=
  let n := leAt bs 0 1
  let ms := (List.range (n + 2)).map fun k => leAt bs (2 + 2 * k) 2
  if decide (2 ≤ n) && decide (n ≤ 10) && leAt bs 1 1 = 0 && (bs.drop (2 + 2 * (n + 2))).all (· = 0) && basisOk n ms then
    some { moduli := ms, n := n, asid := asid }
  else none

/-- BASIS at issue: the list is read and judged, and the entry takes its place in the order. [DEDUCED: log 49] -/
def basisBody (x : Form) (s : State) : State :=
  let i := Instr.basis x
  let m := maskOf [lowLane s x]
  let a := (srcNo i x s 3 (lowLane s x)).n
  let id := x.f 0 4
  checked s (firstBad [poisonAddr i x s [3] [3], addrChk m a 2])
    (withCard i s (readCard s m a 32) fun bs =>
      match basisFrom bs (some (curGrp s).asid) with
      | none => takeFault s { code := 0x10, mask := m, info := id, addr := a }
      | some b =>
        cardWait i s [(a, 32)] fun s =>
          let t := holdOn i s .basis false false true
          -- a second set of the cycle that finds the thread held waits its turn (R22)
          if (curThr t).hold.any fun o => o.why = .basis && o.mask = s.cur.mask && o.pc = s.cur.pc then
            submitDue t (curQuad s) (entry s (.basis id s.cur.thr b))
          else t)

/-- BASIS (R334). -/
def execBasis (x : Form) (s : State) : Host.Outcome State Fault Refusal := run (.basis x) x s (basisBody x s)

/-- The BASIS entry of a thread. -/
def basisEntOf (e : Eng) (c t : Nat) : Option (Ent × Nat × BasisEnt) :=
  e.table.findSome? fun n => match n.op with
    | .basis id th b => if n.core = c ∧ th = t then some (n, id, b) else none
    | _ => none

/-- An entry that waited behind a BASIS of an id takes the moduli of the basis that now stands (R334). -/
def relist (e : Eng) (id : Nat) (ms : List Nat) : EntOp → EntOp
  | .oload g fmt slot kind half b w a st old pl tag => .oload g fmt slot kind half b w a st (if b = id then ms else old) pl tag
  | .job b recs id' old => .job b recs id' (if id' = id then ms else old)
  | .adrain g fmt n rnd ftz stats dst sta stride old pl tag =>
    let zero : Bool := match accOf e g n with
      | some t => t.basis.isNone
      | none => false
    .adrain g fmt n rnd ftz stats dst sta stride (if fmt = 1 ∧ leAt pl 21 1 = id ∧ zero then ms else old) pl tag
  | op => op

/-- The entries of a quad's own cores behind a BASIS of an id follow the basis that now stands. -/
def relisted (q id : Nat) (e : Eng) : Eng :=
  match mget e.bases id with
  | some b => { e with table := e.table.map fun n => if quadOf n.core = q then { n with op := relist e id b.moduli n.op } else n }
  | none => e

/-- BASIS_COMPLETE (R334). [DEDUCED: log 49] -/
def execBasisComplete (core thr : Nat) (s : State) : Host.Outcome State Fault Refusal :=
  .next (
    let q := quadOf core
    match basisEntOf (engOf s q) core thr, resume s core thr with
    | some (n, id, b), some (i, x, t) =>
      if !eligible (engOf s q) n || decide (s.time < n.due) || !((grpOf s core).st = .running) then s
      else
        let drop (s : State) (f : Eng → Eng) : State := updEng s q fun e => settleSlots (relisted q id (f (e.delEnt n.id)))
        if basisInUse (engOf s q) id then enterTrap (drop t fun e => e) (badValue (maskOf [lowLane t x]))
        else finish i x t false (killDead i x (drop t fun e => { e with bases := mset e.bases id b }))
    | _, _ => s)

/-! ## OLOAD (R336, R337) -/

/-- The pieces of memory that an OLOAD reads: segments of lines, or rows of planes clipped to ROWS and COLS. -/
def oloadSegs (fmt kind a b : Nat) (plane : List Byte) : List (Nat × Nat) :=
  if fmt = 10 then
    let p := Planes.of plane
    let rows := min p.rows (if kind = 0 then 256 else 32)
    let cols := min p.cols (if kind = 0 then 32 else 128)
    (List.range p.nch).flatMap fun c => (List.range rows).map fun i => (p.at' c i 0, 2 * cols)
  else (List.range (tileLines kind)).map fun i => (a + i * b, segBytes fmt)

/-- Alignment of an OLOAD's A (R336). -/
def oloadAlign (fmt : Nat) : Nat := if fmt = 10 then 64 else fmtAlign fmt

/-- A slot that is free, a job's or another ASID's raises SLOT_NOT_CLAIMED (R163, R414). -/
def slotChk (f : Eng) (asid k : Nat) (m : BitVec 32) : Option FRec :=
  match mget f.slots k with
  | some o => badIf (o.use = .job || !(o.asid = asid)) { code := 0x0E, mask := m, info := k }
  | none => some { code := 0x0E, mask := m, info := k }

/-- OLOAD behind the shared checks. [DEDUCED: log 32] -/
def oloadBody (x : Form) (s : State) : State :=
  let i := Instr.oload x
  let m := maskOf [lowLane s x]
  let a := (srcNo i x s 3 (lowLane s x)).n
  let b := if x.m 2 4 = 10 then 0 else (srcNo i x s 4 (lowLane s x)).n
  let fmt := x.m 2 4
  let f := laterEng s
  let bas := basisIn f (curGrp s).asid (x.f 8 4)
  let tag := optTag (x.f 17 6) (x.f 23 1)
  checked s (firstBad [poisonAddr i x s [3, 4] [3], serviceChk s m,
      badIf (!(fmt = 10) && (decide (b < segBytes fmt) || !(b % fmtAlign fmt = 0))) (badValue m)])
    (checked s (firstBad [badIf (!basisFits f (x.m 0 2) bas) (badValue m), addrChk m a (oloadAlign fmt)])
    (withCard i s (cardIf (fmt = 10) (readCard s m a 32)) fun pl =>
      checked s (firstBad [if fmt = 10 then planeChk m pl (x.f 8 4) bas else none, slotChk f (curGrp s).asid (x.f 0 6) m,
          optTagChk s m tag])
        (withPages s m .read (oloadSegs fmt (x.f 6 1) a b pl) fun ps => cardWait i s [(a, pl.length)] fun s =>
          withRoom i s (curQuad s)
            (let op : EntOp := .oload (x.m 0 2) fmt (x.f 0 6) (x.f 6 1) (x.f 7 1) (x.f 8 4) (x.f 12 5 + 8) a b (moduliOf bas) pl tag
            finish i x s false (submitDue (tagStart (killDead i x s) s.cur.core tag) (curQuad s)
              { entry s op with pages := ps })))))

/-- OLOAD (R336, R337). -/
def execOload (x : Form) (s : State) : Host.Outcome State Fault Refusal := run (.oload x) x s (oloadBody x s)

/-! ## SCLD (R338) -/

/-- The pieces that an SCLD reads: one record each. [DEDUCED: log 46] -/
def scldSegs (p : Scales) (row col count : Nat) : List (Nat × Nat) := (List.range count).map fun r => (p.at' (row + r) col, 2)

/-- SCLD behind the shared checks. -/
def scldBody (x : Form) (s : State) : State :=
  let i := Instr.scld x
  let l := lowLane s x
  let m := maskOf [l]
  let col := (srcNo i x s 2 l).n
  let a := (srcNo i x s 3 l).n
  let row := (srcNo i x s 4 l).n
  let n := x.f 0 9 + 1
  let tag := optTag (x.f 9 6) (x.f 15 1)
  checked s (firstBad [poisonAddr i x s [2, 3, 4] [3], serviceChk s m, addrChk m a 1])
    (withCard i s (readCard s m a 32) fun bs =>
      let p := Scales.of bs
      checked s (firstBad [scaleChk m bs, badIf (decide (p.rows < row + n) || decide (p.blocks ≤ col)) (badValue m),
          badIf (decide (512 < (mgetD (laterEng s).staged (x.m 0 2) []).length + n)) (badValue m), optTagChk s m tag])
        (withPages s m .read (scldSegs p row col n) fun ps => cardWait i s [(a, 32)] fun s =>
          withRoom i s (curQuad s)
            (finish i x s false (submitDue (tagStart (killDead i x s) s.cur.core tag) (curQuad s)
              { entry s (.scld (x.m 0 2) bs col row n tag) with pages := ps }))))

/-- SCLD (R338). -/
def execScld (x : Form) (s : State) : Host.Outcome State Fault Refusal := run (.scld x) x s (scldBody x s)

/-! ## QMMA (R170, R171, R339) -/

/-- The lanes of quarter q in a mask. -/
def quarter (m : BitVec 32) (q : Nat) : BitVec 32 := (m >>> (8 * q)) &&& 0xFF#32

/-- The other QMMA set of the cycle: its active lanes, and whether its MOD and IMM equal this word's. -/
def otherQmma (s : State) : Option (BitVec 32 × Bool) :=
  match s.cur.dual with
  | none => none
  | some (m, pc) =>
    match fetch s s.cur.core (curThr s).super pc with
    | .error _ => none
    | .ok w =>
      match decode (curStream s) (curThr s).super w with
      | .ok (.qmma y) =>
        let t := curThr s
        let o := maskOf ((lanesOf m).filter fun l => (laneOf t l).live && guardOf t y l)
        -- a set without active lanes takes no part (R170)
        if o = 0 then none else some (o, s.cur.word.extractLsb' 80 6 = w.extractLsb' 80 6 && s.cur.word.extractLsb' 6 28 = w.extractLsb' 6 28)
      | _ => none

/-- The set is the one of the smaller PC. -/
def isFirstSet (s : State) : Bool :=
  match s.cur.dual with
  | some (_, pc) => decide (s.cur.pc < pc)
  | none => true

/-- Quarters that raise MMA_PARTIAL_QUARTER, and quarters that take part (R170, R171). -/
def qmmaQuarters (mine : BitVec 32) (other : Option (BitVec 32 × Bool)) (first : Bool) : BitVec 4 × BitVec 4 :=
  let pick (p : Nat → Bool) : BitVec 4 := (List.range 4).foldl (fun (b : BitVec 4) q => if p q then b ||| (1#4 <<< q) else b) 0
  let full (m : BitVec 32) (q : Nat) : Bool := quarter m q = 0xFF
  let some' (m : BitVec 32) (q : Nat) : Bool := !(quarter m q = 0)
  match other with
  | none => (pick fun q => some' mine q && !full mine q, pick (full mine))
  | some (o, same) =>
    if same then
      let u := mine ||| o
      let part (q : Nat) : Bool := some' u q && !full u q
      if first then (pick part, pick (full u))
      else (0, if (List.range 4).any part then pick (full mine) else 0)
    else
      let split (q : Nat) : Bool := some' mine q && some' o q
      (pick fun q => if split q then first else some' mine q && !full mine q, pick (full mine))

/-- The faults of the slots that a QMMA names (R163, R339, R414). -/
def qmmaSlots (f : Eng) (asid g a b h k : Nat) (m : BitVec 32) : Option FRec :=
  let basis := match mget f.slots a with
    | some o => o.basis
    | none => 0
  let good (k : Nat) (isB : Bool) : Bool := match mget f.slots k with
    | some o => o.grp = g && o.basis = basis && (match o.use with
      | .loadedA _ => !isB
      | .loadedB t0 t1 => isB && (if h = 0 then t0.isSome else t1.isSome)
      | _ => false)
    | none => false
  let ks := ((List.range k).map fun j => (a + j, false)) ++ (List.range k).map fun j => (b + j, true)
  firstBad ((ks.map fun (k, _) => slotChk f asid k m) ++ ks.map fun (k, isB) => badIf (!good k isB) (badValue m))

/-- The fault of the accumulator that a pass names (R166, R414). [DEDUCED: log 50] -/
def accChk (f : Eng) (asid g n : Nat) (basis : Option Nat) (m : BitVec 32) : Option FRec :=
  match accOf f g n with
  | none => some (badValue m)
  | some t => badIf (!(t.asid = asid) || (t.basis.isSome && basis.isSome && !(t.basis = basis))) (badValue m)

/-- QMMA behind the shared checks. -/
def qmmaBody (x : Form) (s : State) : State :=
  let i := Instr.qmma x
  let m := actMask s x
  let r := qmmaQuarters m (otherQmma s) (isFirstSet s)
  let f := laterEng s
  let g := x.m 0 2
  let a := x.f 0 6
  let basis := (mget f.slots a).map (·.basis)
  if !(r.1 = 0) then takeFault s { code := 0x0D, mask := m, info := r.1.toNat }
  else
    checked s (firstBad [serviceChk s m, qmmaSlots f (curGrp s).asid g a (x.f 6 6) (x.f 12 1) (x.f 15 3 + 1) m,
        accChk f (curGrp s).asid g (x.f 13 2) basis m])
      (if r.2 = 0 then finish i x s false s
      else withRoom i s (curQuad s)
        (finish i x s false (enterEnt s (curQuad s)
          (entry s (.qmma g (x.f 13 2) a (x.f 6 6) (x.f 12 1) (x.f 15 3 + 1) r.2)))))

/-- QMMA (R339). -/
def execQmma (x : Form) (s : State) : Host.Outcome State Fault Refusal := run (.qmma x) x s (qmmaBody x s)

/-! ## ACLR, ADRAIN (R340, R341) -/

/-- The clear of an accumulator that another ASID holds raises ILLEGAL_OPERAND (R414). -/
def aclrChk (f : Eng) (asid g n : Nat) (m : BitVec 32) : Option FRec :=
  match accOf f g n with
  | some t => badIf (!(t.asid = asid)) (badValue m)
  | none => none

/-- ACLR (R340). -/
def execAclr (x : Form) (s : State) : Host.Outcome State Fault Refusal :=
  let i := Instr.aclr x
  run i x s (
    let m := maskOf [lowLane s x]
    checked s (firstBad [serviceChk s m, aclrChk (laterEng s) (curGrp s).asid (x.m 0 2) (x.f 0 1) m])
      (withRoom i s (curQuad s)
        (finish i x s false (enterEnt s (curQuad s) (entry s (.aclr (x.m 0 2) (x.f 0 1)))))))

/-- Bytes of a drained row of a format (R341). -/
def drainRow (fmt : Nat) : Nat :=
  if fmt = 2 ∨ fmt = 4 then 512 else if fmt = 3 then 1024 else if fmt = 5 then 256 else 136

/-- Alignment of a drain's destination (R341). [DEDUCED: log 46] -/
def drainAlign (fmt : Nat) : Nat := if fmt = 1 then 64 else if fmt = 3 then 8 else if fmt = 2 ∨ fmt = 4 then 4 else 2

/-- The pieces of memory that a drain of tile 0 writes. -/
def drainSegs (fmt dst sta stride : Nat) (stats : Bool) (plane : List Byte) : List (Nat × Nat) :=
  (if fmt = 1 then
      let p := Planes.of plane
      (List.range p.nch).flatMap fun c => (List.range (min 256 p.rows)).map fun i => (p.at' c i 0, 2 * min 128 p.cols)
    else (List.range 256).map fun i => (dst + i * stride, drainRow fmt)) ++
  if stats then (List.range 256).map fun i => (sta + i * 16, 16) else []

/-- The basis a res16 drain writes in: the accumulator's, or in the zero state the record's (R341). [DEDUCED: log 32] -/
def drainBasis (e f : Eng) (asid g n : Nat) (plane : List Byte) : Nat × Option BasisEnt :=
  match accOf f g n with
  | some t =>
    match t.basis with
    | some id => (id, some { moduli := t.ms, n := t.ms.length - 2 })
    | none =>
      let id := (Planes.of plane).basis
      let b := basisIn f asid id
      (id, if basisFits e g b then b else none)
  | none => (0, none)

/-- ADRAIN behind the shared checks. -/
def adrainBody (x : Form) (s : State) : State :=
  let i := Instr.adrain x
  let l := lowLane s x
  let m := maskOf [l]
  let fmt := x.f 1 3
  let stats := x.m 5 1 = 1 || fmt = 6
  let d := (srcNo i x s 2 l).n
  let a := if stats then (srcNo i x s 3 l).n else 0
  let b := if fmt = 1 then 0 else (srcNo i x s 4 l).n
  let g := x.m 0 2
  let f := laterEng s
  let tag := optTag (x.f 4 6) (x.f 10 1)
  checked s (firstBad [poisonAddr i x s [2, 3, 4] [2, 3], serviceChk s m, accChk f (curGrp s).asid g (x.f 0 1) none m,
      badIf (!(fmt = 1) && (decide (b < drainRow fmt) || !(b % drainAlign fmt = 0))) (badValue m),
      addrChk m d (drainAlign fmt), if stats then addrChk m a 16 else none])
    (withCard i s (cardIf (fmt = 1) (readCard s m d 32)) fun pl =>
      let (id, bas) := drainBasis (engOf s (curQuad s)) f (curGrp s).asid g (x.f 0 1) pl
      checked s (firstBad [if fmt = 1 then planeChk m pl id bas else none, optTagChk s m tag])
        (withPages s m .write (drainSegs fmt d a b stats pl) fun ps => cardWait i s [(d, pl.length)] fun s =>
          withRoom i s (curQuad s)
            (let op : EntOp := .adrain g fmt (x.f 0 1) (x.m 2 2) (x.m 4 1 = 1) stats d a b (moduliOf bas) pl tag
            finish i x s false (enterEnt (tagStart (killDead i x s) s.cur.core tag) (curQuad s)
              { entry s op with pages := ps }))))

/-- ADRAIN (R341). -/
def execAdrain (x : Form) (s : State) : Host.Outcome State Fault Refusal := run (.adrain x) x s (adrainBody x s)

/-! ## MJOB (R177, R179, R342) -/

/-- An operand format of a card. -/
def jobFmt (f : Nat) : Bool := decide (f ≤ 7) || f = 9 || f = 10

/-- The fields of a card lie within their limits (R177). [DEDUCED: log 31] -/
def JobCard.fieldsOk (k : JobCard) (b : List Byte) : Bool :=
  let st := k.flags.testBit 4
  decide (k.grp ≤ 2) && decide (k.basis ≤ 15) && (decide (k.alt ≤ 15) || k.alt = 0xFF) && decide (k.rfloor ≤ 79) &&
    jobFmt k.afmt && jobFmt k.bfmt && decide (8 ≤ k.wa) && decide (k.wa ≤ 24) && decide (8 ≤ k.wb) && decide (k.wb ≤ 24) &&
    decide (k.dfmt ≤ 6) && decide (k.round ≤ 3) && decide (k.acc ≤ 1) && decide (k.tag ≤ 63) && decide (k.flags < 32) &&
    decide (1 ≤ k.levels) && decide (k.levels ≤ 5) && leAt b 0x0E 2 = 0 && leAt b 0x4C 4 = 0 && leAt b 0xB4 12 = 0 &&
    (!st || k.dfmt = 4 || k.dfmt = 5) && k.sbase % 16 = 0 && (!(k.sbase = 0) == (k.dfmt = 6 || st)) &&
    (k.afmt = 3 || k.ascale = 0) && (k.bfmt = 3 || k.bscale = 0) &&
    ((List.range 5).all fun l => if l < k.levels then decide (1 ≤ lvCount b l) else leAt b (0x50 + 20 * l) 20 = 0) &&
    (footsAt b 0xC0 4).isSome

/-- The first misaligned record of a card: plane records lie at multiples of 64 (R89, R177). [DEDUCED: log 31] -/
def JobCard.misaligned (k : JobCard) : Option Nat :=
  [(k.abase, k.afmt, 10), (k.bbase, k.bfmt, 10), (k.cbase, k.dfmt, 1)].findSome?
    fun (v, f, r) => if f = r ∧ v % 64 ≠ 0 then some v else none

/-- An address lies in one of the two windows of a group (R99). -/
def inWindows (g : Group) (va : Nat) : Bool :=
  (decide (scrWin ≤ va) && decide (va < scrWin + slimit g)) || (decide (lentWin ≤ va) && decide (va < lentWin + lentBytes g))

/-- An address of the card lies in a window (R179). -/
def JobCard.inWindow (k : JobCard) (g : Group) : Bool :=
  [k.abase, k.bbase, k.cbase, k.sbase, k.ascale, k.bscale].any (inWindows g)

/-- floor(log2 H) of a basis is at least r (R179). [DEDUCED: log 45] -/
def hAtLeast (b : Option BasisEnt) (r : Nat) : Bool :=
  match b with
  | some b => decide (r ≤ Nat.log2 (basisH b.n b.moduli))
  | none => false

/-- Where a job runs and with which basis: engine, basis id, basis; none for RANGE_UNMET (R179). [DEDUCED: log 40] -/
def jobPlace (s : State) (k : JobCard) (bas alt : Option BasisEnt) : Option (Nat × Nat × Option BasisEnt) :=
  let q := curQuad s
  if basisFits (engOf s q) k.grp bas then some (q, k.basis, bas)
  else if !(k.alt = 0xFF) && basisFits (engOf s q) k.grp alt && hAtLeast alt k.rfloor then some (q, k.alt, alt)
  else if k.inWindow (curGrp s) then none
  else match (mgetD s.xl.lquads (curGrp s).part []).find? fun p => basisFits (engOf s p) k.grp bas with
    | some p => some (p, k.basis, bas)
    | none => none

/-- The event word of a job on port 32 (R333). -/
def jobWord (k : JobCard) (status : Nat) : Word := BitVec.ofNat 32 (status % 256 * 65536 + k.grp * 256 + k.tag)

/-- A job ends for its issuer: tag and event (R180, R333). -/
def jobEnds (s : State) (c : Nat) (k : JobCard) (status : Nat) : State :=
  let s := tagDone s c k.tag status
  if k.flags.testBit 0 then pushEvent s c 32 (jobWord k status) else s

/-- Submit a job whose records are read: plane records of A, B, C and scale layout records of A, B. [DEDUCED: log 31, 47, 50] -/
def jobSubmit (i : Instr) (x : Form) (s : State) (b : List Byte) (recs : List (List Byte)) : State :=
  let m := maskOf [lowLane s x]
  let c := s.cur.core
  let g := curGrp s
  let k := JobCard.of b
  let f := laterEng s
  let bas := basisIn f g.asid k.basis
  let place := jobPlace s k bas (basisIn f g.asid k.alt)
  let (id, use) := match place with
    | some (_, id, use) => (id, use)
    | none => (k.basis, bas)
  let q := match place with
    | some (q, _, _) => q
    | none => curQuad s
  let rec' (n : Nat) : List Byte := recs.getD n []
  let foots := (footsAt b 0xC0 4).getD []
  checked s (firstBad [badIf (match bas with
        | some e => decide ((if k.grp = 0 then 10 else 4) < e.n)
        | none => true) (badValue m),
      if k.afmt = 10 then planeChk m (rec' 0) id use else none,
      if k.bfmt = 10 then planeChk m (rec' 1) id use else none,
      if k.dfmt = 1 then planeChk m (rec' 2) id use else none,
      if k.afmt = 3 then scaleChk m (rec' 3) else none,
      if k.bfmt = 3 then scaleChk m (rec' 4) else none,
      if k.keep && place.isSome then accChk (foreseen (engOf s q)) g.asid k.grp k.acc (some id) m else none,
      tagChk s m k.tag])
    (let cards := [((srcNo i x s 3 (lowLane s x)).n, 256), (k.abase, (rec' 0).length), (k.bbase, (rec' 1).length),
      (k.cbase, (rec' 2).length), (k.ascale, (rec' 3).length), (k.bscale, (rec' 4).length)]
    cardWait i s cards fun s =>
    if place.isNone then finish i x s false (jobEnds (tagBusy (killDead i x s) c k.tag) c k 0x25)
    else withRoom i s q
      (if !fpRoom s g.part foots.length then holdFoot i s
      else
        let (t, task) := fpEnter (tagBusy (killDead i x s) c k.tag) g.asid g.part g.grid false foots
        finish i x s false (enterEnt t q { entry s (.job b recs id (moduliOf use)) with task := task })))

/-- MJOB (R342). [DEDUCED: log 47] -/
def execMjob (x : Form) (s : State) : Host.Outcome State Fault Refusal :=
  let i := Instr.mjob x
  run i x s (
    let m := maskOf [lowLane s x]
    let a := (srcNo i x s 3 (lowLane s x)).n
    checked s (firstBad [poisonAddr i x s [3] [3], addrChk m a 64])
      (withCard i s (readCard s m a 256) fun b =>
        let k := JobCard.of b
        checked s (firstBad [badIf (!k.fieldsOk b) (badValue m),
            k.misaligned.map fun v => { code := 0x04, mask := m, addr := v }])
          (withCard i s (cardIf (k.afmt = 10) (readCard s m k.abase 32)) fun pa =>
          withCard i s (cardIf (k.bfmt = 10) (readCard s m k.bbase 32)) fun pb =>
          withCard i s (cardIf (k.dfmt = 1) (readCard s m k.cbase 32)) fun pc =>
          withCard i s (cardIf (k.afmt = 3) (readCard s m k.ascale 32)) fun sa =>
          withCard i s (cardIf (k.bfmt = 3) (readCard s m k.bscale 32)) fun sb =>
            jobSubmit i x s b [pa, pb, pc, sa, sb])))

/-! ## MSTAT (R343, R414) -/

/-- The CCR as a thread reads it: in user mode ROW, COL, PASS and SYND of another ASID's event read 0. -/
def ccrSeen (e : Eng) (super : Bool) (asid : Nat) : Nat :=
  let v := e.ccr.toNat
  if super || e.ccrAsid = none || e.ccrAsid = some asid then v
  else v / 2 ^ 52 * 2 ^ 52 + nbits v 32 5 * 2 ^ 32

/-- The occupancy word (R343). -/
def occWord (e : Eng) : Nat :=
  let st (g : Nat) : Nat := (mgetD e.staged g []).length
  st 2 * 2 ^ 37 + st 1 * 2 ^ 27 + st 0 * 2 ^ 17 +
    (e.table.filter fun n => n.run.isSome).length * 2 ^ 12 + (64 - e.slots.length) * 32 + entriesUsed e

/-- Code of a certification state. -/
def Cert.code : Cert → Nat
  | .zero => 1
  | .certified => 2
  | .unbounded => 3

/-- The accumulator state word (R343). -/
def accWord (e : Eng) (super : Bool) (asid : Nat) : Nat :=
  (List.range 6).foldl (fun v k => v + (match mget e.accs k with
    | some a => if super || a.asid = asid then a.cert.code else 0
    | none => 0) * 4 ^ k) 0

/-- The word of an MSTAT selector. [DEDUCED: log 76] -/
def mstatWord (e : Eng) (super : Bool) (asid sel : Nat) : Nat :=
  if sel ≤ 1 then ccrSeen e super asid else if sel = 2 then engProf e else if sel = 3 then occWord e else accWord e super asid

/-- MSTAT (R343). -/
def execMstat (x : Form) (s : State) : Host.Outcome State Fault Refusal :=
  let i := Instr.mstat x
  run i x s (
    let v := mstatWord (engOf s (curQuad s)) (curThr s).super (curGrp s).asid (x.f 0 3)
    let t := if x.f 0 3 = 1 then updEng s (curQuad s) fun e => { e with ccr := 0, ccrAsid := none } else s
    finish i x s false (putLong i x 2 s { w := natWords 2 v } (killDead i x t)))

end Sys2Proof.Machine
end

