-- ==== Sys2Proof/Machine/EngRun.lean ====
section
/-! DEFINITION. The Chrovia engine at work: loading tiles (R174 to R176), passes (R85, R96, R166), the arbiter (R168 to
R173), drains (R94, R181 to R183), re-proof (R184, R185), job cards (R178, R180), and the events of its entries. -/

namespace Sys2Proof.Machine

/-! ## Loading a tile -/

/-- One line of an operand: its carriers' residues, exponent, magnitudes, poison, saturation. -/
structure Line where
  el : List (List Nat)
  exp : Int := 0
  mag : List Nat := []
  bad : Bool := false
  sat : Bool := false
  deriving DecidableEq, Repr

/-- A loaded operand: tile, saturation, the elements that load poisoned with an event (line, k), and the first line of
a scale mismatch. -/
structure Loaded where
  tile : Tile
  sat : Bool := false
  odd : List (Nat × Nat) := []
  skew : Option Nat := none
  deriving DecidableEq, Repr

/-- Lines as a tile, with the maxima of R96. [DEDUCED: log 44] -/
def tileOf (ls : List Line) : Tile :=
  { el := ls.map (·.el)
    bad := (List.range ls.length).filter fun i => ((ls.getD i { el := [] }).bad)
    exp := ls.map (·.exp)
    mx := (List.range 32).map fun k => (ls.map fun l => l.mag.getD k 0).foldl max 0 }

/-- A line from the bytes of its segment (R83, R84, R174). -/
def lineOf (fmt scale w : Nat) (ms : List Nat) (bs : List (Byte × Bool)) : Line :=
  let r := segCarriers fmt scale w bs
  { el := r.1.map (residues ms), exp := r.2.1, mag := r.1.map Int.natAbs, sat := r.2.2.1, bad := r.2.2.2 }

/-- A line that has no data: zeros, poisoned. [DEDUCED: log 43] -/
def lostLine (ms : List Nat) : Line := { el := List.replicate 32 (residues ms 0), exp := -128, bad := true }

/-- Lines read one after another: a line, or the code that stops. [DEDUCED: log 43] -/
def linesFrom (f : Nat → Except Nat Line) (i : Nat) : Nat → Except Nat (List Line)
  | 0 => .ok []
  | n + 1 =>
    match f i with
    | .error e => .error e
    | .ok l => match linesFrom f (i + 1) n with
      | .error e => .error e
      | .ok ls => .ok (l :: ls)

/-- The segment of line i as a line. -/
def readLineAt (s : State) (a : Agent) (fmt scale w : Nat) (ms : List Nat) (va : Int) : Except Nat Line :=
  if va < 0 then .error 0x05
  else match agentGet s a va.toNat (segBytes fmt) with
    | .error (e, _) => .error e
    | .ok bs => .ok (lineOf fmt scale w ms bs)

/-- An element of a plane set at (i, j) of a tile whose base is moved by off bytes; (residues, poison, event, |v|) (R176). [DEDUCED: log 44] -/
def planeElem (s : State) (a : Agent) (ms : List Nat) (p : Planes) (off : Int) (i j : Nat) :
    Except Nat (List Nat × Bool × Bool × Nat) :=
  if p.rows ≤ i ∨ p.cols ≤ j then .ok (residues ms 0, false, false, 0)
  else
    let vs := (List.range p.nch).map fun c =>
      let va : Int := (p.at' c i j : Nat) + off
      if va < 0 then .error (0x05, 0) else agentGet s a va.toNat 2
    match vs.findSome? fun v => match v with
        | .error (e, _) => some e
        | .ok _ => none with
    | some e => .error e
    | none =>
      let els := vs.map fun v => match v with
        | .ok bs => (leNat (rawBytes bs), anyPoison bs)
        | .error _ => (0, true)
      let (res, bad, odd) := planeEl ms els
      let n := ms.length - 2
      let (x, m) := reconstruct ((ms.zip res).take n)
      let v := signedOf x m ((m - 1) / 2)
      let ok := ((ms.zip res).drop n).all fun c => imod v c.1 = c.2
      .ok (res, bad || !ok, odd || !ok, v.natAbs)

/-- A line of a plane set with the elements that load poisoned. [DEDUCED: log 44] -/
def planeLine (s : State) (a : Agent) (kind : Nat) (ms : List Nat) (p : Planes) (off : Int) (l : Nat) : Nat →
    Except Nat (Line × List Nat)
  | 0 => .ok ({ el := [] }, [])
  | k + 1 =>
    match planeLine s a kind ms p off l k with
    | .error e => .error e
    | .ok (ln, odd) =>
      match (if kind = 0 then planeElem s a ms p off l k else planeElem s a ms p off k l) with
      | .error e => .error e
      | .ok (r, bad, ev, v) =>
        .ok ({ ln with el := ln.el ++ [r], mag := ln.mag ++ [v], bad := ln.bad || bad }, if ev then odd ++ [k] else odd)

/-- A tile of a plane set (R176). -/
def loadPlane (s : State) (a : Agent) (kind : Nat) (ms : List Nat) (plane : List Byte) (off : Int) : Except Nat Loaded :=
  let p := Planes.of plane
  let rs := (List.range (tileLines kind)).map fun l => planeLine s a kind ms p off l 32
  match rs.findSome? fun r => match r with
      | .error e => some e
      | .ok _ => none with
  | some e => .error e
  | none =>
    let ls := rs.filterMap fun r => match r with
      | .ok v => some v
      | .error _ => none
    let odd := ls.zipIdx.flatMap fun (v, l) => v.2.map fun k => (l, k)
    .ok { tile := tileOf (ls.map (·.1)), odd := odd }

/-- A tile of segments; scale i gives the scale of line i, or none where it has none. [DEDUCED: log 43] -/
def loadSegs (s : State) (a : Agent) (fmt w kind : Nat) (ms : List Nat) (addr : Nat → Int) (scale : Nat → Option Nat)
    (skew : Option Nat) : Except Nat Loaded :=
  let one (i : Nat) : Except Nat Line :=
    if fmt = 3 then
      match scale i with
      | none => .ok (lostLine ms)
      | some sc => match readLineAt s a fmt sc w ms (addr i) with
        | .error e => .error e
        | .ok l => .ok (match skew with
          | some j => { l with bad := l.bad || decide (j ≤ i) }
          | none => l)
    else readLineAt s a fmt 0 w ms (addr i)
  match linesFrom one 0 (tileLines kind) with
  | .error e => .error e
  | .ok ls => .ok { tile := tileOf ls, sat := ls.any (·.sat), skew := skew }

/-- The first staged record that is missing or does not match (R175). [DEDUCED: log 40, 43] -/
def firstSkew (recs : List Staged) (n : Nat) : Option Nat :=
  (List.range n).find? fun i => match recs[i]? with
    | some r => !scaleGood r.rec' r.lin
    | none => true

/-- The scale of line i from staged records. [DEDUCED: log 40] -/
def stagedScale (recs : List Staged) (i : Nat) : Option Nat :=
  match recs[i]? with
  | some r => r.rec'.map fun v => nbits v 0 8
  | none => none

/-- The event of a scale mismatch in line l of an operand: kind 0 A, 1 B (R187). -/
def skewEvent (kind l : Nat) : CcrEv :=
  { kind := 2, row := if kind = 0 then l else 0, col := if kind = 0 then 0 else l, pass := 0xFFFF, synd := 15, code := 15 }

/-- The events of a load (R175, R176, R187): poisoned elements in the order of rows and columns, then the mismatch. -/
def loadEvents (kind : Nat) (r : Loaded) : List CcrEv :=
  let at' (p : Nat × Nat) : Nat × Nat := if kind = 0 then p else (p.2, p.1)
  let evs := r.odd.map at'
  let evs := if kind = 0 then evs else (List.range 32).flatMap fun k => evs.filter fun p => p.1 = k
  (evs.map fun p => ({ kind := 2, row := p.1, col := p.2, pass := 0xFFFF, synd := 8, code := 8 } : CcrEv)) ++
    match r.skew with
    | some l => [skewEvent kind l]
    | none => []

/-- Deliver events. -/
def ccrEvents (s : State) (q core asid grp : Nat) (evs : List CcrEv) : State :=
  evs.foldl (fun s v => ccrEvent s q core asid grp v) s

/-! ## A pass (R85, R96, R166) -/

/-- Up-shifts of the accumulator and of the pass when exponent n meets a recorded one. -/
def upShift (old : Option Int) (n : Int) : Nat × Nat :=
  match old with
  | none => (0, 0)
  | some e => if n < e then ((e - n).toNat, 0) else (0, (n - e).toNat)

/-- The exponent after a pass. -/
def lowExp (old : Option Int) (n : Int) : Int :=
  match old with
  | none => n
  | some e => min e n

/-- The tile of each quarter band of a pass, none where the band idles. -/
abbrev Bands := List (Option Tile)

/-- The A tile of a row in a pass. -/
def bandTile (bands : Bands) (i : Nat) : Option Tile := (bands.getD (i / 64) none)

/-- Residue c of an element (absent ones read 0). -/
def resAt (el : List Nat) (c : Nat) : Nat := el.getD c 0

/-- Sum over k of A[i][k] × B[k][j] in channel c, modulo m. -/
def dotMod (a b : List (List Nat)) (c m : Nat) : Nat :=
  ((List.range 32).foldl (fun t k => t + resAt (a.getD k []) c * resAt (b.getD k []) c) 0) % m

/-- Element (i, j) after a pass. -/
def passElem (ms : List Nat) (old : Elem) (cs as bs : Nat) (a : Option (List (List Nat))) (b : List (List Nat)) (bad : Bool) : Elem :=
  { res := ms.zipIdx.map fun (m, c) =>
      let o := resAt old.res c * 2 ^ cs
      match a with
      | some a => (o + dotMod a b c m * 2 ^ (as + bs)) % m
      | none => o % m
    poison := old.poison || bad }

/-- The up-shifts of a row of a pass: of the accumulator, of A; none in a band that idles. -/
def rowShift (t : AccT) (bands : Bands) (i : Nat) : Nat × Nat :=
  match bandTile bands i with
  | some a => upShift (t.er.getD i none) (a.exp.getD i 0)
  | none => (0, 0)

/-- The largest of a function over a range. [DEDUCED: log 44] -/
def maxOver (n : Nat) (f : Nat → Nat) : Nat := ((List.range n).map f).foldl max 0

/-- The bound after a pass (R96). -/
def passBound (t : AccT) (bands : Bands) (b : Tile) : Nat :=
  let col (j : Nat) := upShift (t.ec.getD j none) (b.exp.getD j 0)
  let tAcc := maxOver 256 (fun i => (rowShift t bands i).1) + maxOver 128 fun j => (col j).1
  let tIn := maxOver 256 (fun i => (rowShift t bands i).2) + maxOver 128 fun j => (col j).2
  let maxA (k : Nat) : Nat := (bands.map fun a => match a with
    | some a => a.mx.getD k 0
    | none => 0).foldl max 0
  let sum := ((List.range 32).map fun k => maxA k * b.mx.getD k 0).sum
  min (2 ^ 96 - 1) (t.bound * 2 ^ tAcc + 2 ^ tIn * sum)

/-- The accumulator after a pass of bands over a B tile (R85, R96, R166). -/
def passAcc (t : AccT) (basis : Nat) (ms : List Nat) (count : Nat) (bands : Bands) (b : Tile) : AccT :=
  let col (j : Nat) := upShift (t.ec.getD j none) (b.exp.getD j 0)
  let bound := passBound t bands b
  let rows := (List.range 256).map fun i =>
    let a := bandTile bands i
    let r := rowShift t bands i
    let old := t.el.getD i []
    let badA := match a with
      | some a => a.bad.contains i
      | none => false
    (List.range 128).map fun j =>
      passElem ms (old.getD j {}) (r.1 + (col j).1) r.2 (col j).2 (a.map fun a => a.el.getD i []) (b.el.getD j [])
        (a.isSome && (badA || b.bad.contains j))
  { t with
    el := rows
    er := (List.range 256).map fun i => match bandTile bands i with
      | some a => some (lowExp (t.er.getD i none) (a.exp.getD i 0))
      | none => t.er.getD i none
    ec := (List.range 128).map fun j => some (lowExp (t.ec.getD j none) (b.exp.getD j 0))
    bound := bound
    basis := some basis
    ms := ms
    cert := if t.cert = .unbounded ∨ basisH (ms.length - 2) ms < bound then .unbounded else .certified
    pass := count % 65536 }

/-! ## The arbiter (R168 to R172) -/

/-- Σ idx[l] × stride over the levels: 0 a, 1 b, 2 c (R178). -/
def jobSum (b : List Byte) (idx : List Nat) (w : Nat) : Int :=
  ((List.range (JobCard.of b).levels).map fun l => (idx.getD l 0 : Int) * lvStride b l w).sum

/-- The next thing a running job does is a drain (R178). -/
def jobDrains (b : List Byte) (r : JobRun) : Bool :=
  !((JobCard.of b).dfmt = 0) && !r.drained && (r.last || (!r.first && !(jobSum b r.idx 2 = r.cPrev)))

/-- The array group of an entry that uses the arrays now. -/
def onArrays (n : Ent) : Option Nat :=
  if n.granted = none then none
  else match n.op with
  | .qmma g _ _ _ _ _ _ => some g
  | .job b _ _ _ => match n.run with
    | some r => if jobDrains b r then none else some (JobCard.of b).grp
    | none => none
  | _ => none

/-- The entry uses the RXU now. -/
def onRxu (n : Ent) : Bool :=
  n.granted.isSome && match n.op with
  | .adrain _ _ _ _ _ _ _ _ _ _ _ _ => true
  | .job b _ _ _ => match n.run with
    | some r => jobDrains b r
    | none => false
  | _ => false

/-- Two array groups cannot run at once (R159). -/
def groupsMeet (g h : Nat) : Bool := g = h || g = 0 || h = 0

/-- An array group is free. -/
def arrayFree (e : Eng) (g : Nat) : Bool :=
  (e.table.all fun n => match onArrays n with
    | some h => !groupsMeet g h
    | none => true) && e.reproof.all fun (h, _) => !groupsMeet g h

/-- The RXU is free. -/
def rxuFree (e : Eng) : Bool := !(e.table.any onRxu)

/-- The entry waits for a grant and no older one keeps it from its effect. -/
def waitsGrant (e : Eng) (n : Ent) : Bool :=
  n.granted = none && n.fin = none && !n.paused &&
    (match n.op with
      | .qmma _ _ _ _ _ _ _ => eligible e n
      | .aclr _ _ => eligible e n
      | .adrain _ _ _ _ _ _ _ _ _ _ _ _ => eligible e n
      | .job _ _ _ _ => match n.run with
        | some _ => true
        | none => false
      | _ => false)

/-- What the entry needs is free. [DEDUCED: log 38] -/
def unitFree (e : Eng) (n : Ent) : Bool :=
  match n.op with
  | .qmma g _ _ _ _ _ _ => arrayFree e g
  | .adrain _ _ _ _ _ _ _ _ _ _ _ _ => rxuFree e
  | .job b _ _ _ => match n.run with
    | some r => if jobDrains b r then rxuFree e else arrayFree e (JobCard.of b).grp
    | none => false
  | _ => true

/-- The entry has waited 64 us (R169). [DEDUCED: log 38] -/
def aged (now : Nat) (n : Ent) : Bool := decide (n.t + 64000 ≤ now)

/-- The entry that is granted next: an aged one before every younger entry, else the highest PRIO, else the oldest. [DEDUCED: log 38] -/
def nextGrant (e : Eng) (now : Nat) : Option Ent :=
  let w := e.table.filter (waitsGrant e)
  match w.find? (aged now) with
  | some m => if unitFree e m then some m
      else (w.takeWhile fun n => !(n.id = m.id)).foldl (best e) none
  | none => w.foldl (best e) none
where
  /-- The better of the best so far and a candidate whose unit is free. -/
  best (e : Eng) (b : Option Ent) (n : Ent) : Option Ent :=
    if !unitFree e n then b
    else match b with
      | none => some n
      | some m => if m.prio < n.prio then some n else some m

/-- Entries fused into the pass of an entry, oldest first, with the quarters taken (R172). -/
def fuseWith (e : Eng) (n : Ent) : List Nat :=
  match n.op with
  | .qmma g acc _ b h k q0 =>
    (e.table.foldl (fun (r : List Nat × BitVec 4) m =>
      match m.op with
      | .qmma g' acc' _ b' h' k' q =>
        if !(m.id = n.id) && waitsGrant e m && g' = g && acc' = acc && b' = b && h' = h && k' = k && (q &&& r.2) = 0 then
          (r.1 ++ [m.id], r.2 ||| q)
        else r
      | _ => r) ([], q0)).1
  | _ => []

/-! ## Drains (R94, R181 to R183) -/

/-- What element (i, j) of an accumulator drains as (R94, R166). -/
def drainAt (t : AccT) (i j : Nat) : Drained :=
  let el := (t.el.getD i []).getD j {}
  if t.bad || el.poison then .poison
  else if t.cert = .zero then .value 0
  else drainElement (t.ms.length - 2) t.ms ((List.range t.ms.length).map (resAt el.res)) false !(t.cert = .unbounded)

/-- The integer of a drained element, none when it is poisoned. -/
def Drained.val : Drained → Option Int
  | .value v => some v
  | .corrected v _ _ => some v
  | _ => none

/-- The row needs a candidate search (R94, R181). -/
def Drained.searched : Drained → Bool
  | .corrected _ _ _ => true
  | .uncorrectable => true
  | _ => false

/-- Rows 0 to 255 of drained elements. -/
def drainRows (t : AccT) : List (List Drained) := (List.range 256).map fun i => (List.range 128).map fun j => drainAt t i j

/-- Cycles of a drain (R181); a res16 drain rebuilds nothing (R95). -/
def drainCycles (fmt : Nat) (t : AccT) : Nat :=
  if fmt = 1 then 256 else 256 + 12 * ((drainRows t).filter fun r => r.any Drained.searched).length

/-- The physical slot of a channel (R92, R160). -/
def physSlot (e : Eng) (g n ch : Nat) : Nat :=
  match e.retired with
  | [r] =>
    if g = 0 then
      let sl := (List.range 12).filter fun k => !(k = r)
      if ch < n then sl.getD ch 15 else sl.getD (9 + (ch - n)) 15
    else
      let lo := if g = 1 then 0 else 6
      if decide (lo ≤ r) && decide (r < lo + 6) then
        let sl := ((List.range 6).map (lo + ·)).filter fun k => !(k = r)
        if ch < n then sl.getD ch 15 else sl.getD (3 + (ch - n)) 15
      else whole lo ch n
  | _ => if g = 0 then (if ch < n then ch else 10 + (ch - n)) else whole (if g = 1 then 0 else 6) ch n
where
  /-- A pair group with its six slots. -/
  whole (lo ch n : Nat) : Nat := if ch < n then lo + ch else lo + 4 + (ch - n)

/-- The events of a drain, rows and columns ascending (R94, R187). -/
def drainEvents (e : Eng) (g : Nat) (t : AccT) : List CcrEv :=
  let n := t.ms.length - 2
  (drainRows t).zipIdx.flatMap fun (r, i) => r.zipIdx.filterMap fun (d, j) => match d with
    | .corrected _ ch syn =>
      some { kind := 1, slot := physSlot e g n ch, row := i, col := j, pass := t.pass, synd := syn % 512, code := syn }
    | .uncorrectable => some { kind := 2, row := i, col := j, pass := t.pass, code := 0x11 }
    | .range => some { kind := 3, row := i, col := j, pass := t.pass, code := 0x12 }
    | _ => none

/-- The exact value of a drained element (R95), NaN when it is poisoned. [DEDUCED: log 33] -/
def drainFv (t : AccT) (i j : Nat) (d : Drained) : FV :=
  match d.val with
  | some v => drainFV v ((t.er.getD i none).getD 0 + (t.ec.getD j none).getD 0)
  | none => .nan

/-- A drained row as bytes, with SAT (R182). -/
def rowBytes (fmt rnd : Nat) (ftz : Bool) (t : AccT) (i : Nat) (r : List Drained) : List (Byte × Bool) × Bool :=
  let vs := r.zipIdx.map fun (d, j) => (drainFv t i j d, d.val.isNone)
  let mk (p : Bool) (bs : List Byte) : List (Byte × Bool) := bs.map fun b => (b, p)
  if fmt = 2 ∨ fmt = 3 then
    let w := if fmt = 2 then 32 else 64
    let els := vs.map fun (v, p) =>
      if p then (mk true (natLe (w / 8) (2 ^ (w - 1))), false)
      else
        let c := toIntClamp .rne (smin w) (smax w) v
        (mk false (natLe (w / 8) (ofSigned w c.1)), c.2)
    (els.flatMap (·.1), els.any (·.2))
  else if fmt = 6 then
    let els := (List.range 4).map fun b =>
      let blk := (vs.drop (32 * b)).take 32
      let e := dxEncode false (blk.map (·.1))
      (mk (blk.any (·.2)) (dxBytes false e.1 e.2.1), e.2.2)
    (els.flatMap (·.1), els.any (·.2))
  else
    let f := if fmt = 4 then f32 else bf16
    (vs.flatMap fun (v, p) => mk p (natLe (f.width / 8) (if p then f.nan else fround f (Rnd.ofCode rnd) ftz v)), false)

/-- The statistics of a row: four f32 (R183). [DEDUCED: log 46] -/
def statBytes (t : AccT) (i : Nat) (r : List Drained) : List (Byte × Bool) :=
  let vs := r.zipIdx.map fun (d, j) => (drainFv t i j d, d.val.isNone)
  (List.range 4).flatMap fun b =>
    let blk := ((vs.drop (32 * b)).take 32).filter fun v => !v.2
    if blk.isEmpty then (natLe 4 0x7FC00000).map fun c => (c, true)
    else
      let m := blk.foldl (fun (m : FV) v =>
        let a : FV := match v.1 with
          | .fin _ k e => .fin false k e
          | x => x
        if fvLt m a then a else m) (.fin false 0 0)
      (natLe 4 (fround f32 .rup false m)).map fun c => (c, false)

/-- What a drain writes: pieces (address, bytes), and SAT. `off` moves a plane set's base, t is the tile number. [DEDUCED: log 42] -/
def drainPieces (fmt rnd : Nat) (ftz stats : Bool) (a : AccT) (ms : List Nat) (dst : Int) (sta stride tile : Nat)
    (plane : List Byte) : List (Int × List (Byte × Bool)) × Bool :=
  let rows := drainRows a
  if fmt = 1 then
    let p := Planes.of plane
    (((List.range ms.length).flatMap fun c => (List.range (min 256 p.rows)).map fun i =>
      let cols := (List.range (min 128 p.cols)).flatMap fun j =>
        let el := (a.el.getD i []).getD j {}
        plain (natLe 2 (resAt el.res c + if a.bad || el.poison then 32768 else 0))
      (dst + ((p.at' c i 0 - p.base : Nat) : Int), cols)), false)
  else
    let rs := rows.zipIdx.map fun (r, i) => (i, rowBytes fmt rnd ftz a i r)
    let sts := if stats then rows.zipIdx.map fun (r, i) => (((sta + tile * 4096 + i * 16 : Nat) : Int), statBytes a i r) else []
    (rs.map (fun (i, b) => (dst + ((i * stride : Nat) : Int), b.1)) ++ sts, rs.any fun (_, b) => b.2)

/-- The first address of some pieces that cannot be written, with its code. [DEDUCED: log 41] -/
def piecesStop (s : State) (a : Agent) (ps : List (Int × List (Byte × Bool))) : Option (Nat × Nat) :=
  ps.findSome? fun (va, bs) =>
    if va < 0 then some (0x05, 2 ^ 52)
    else (List.range bs.length).findSome? fun k => match agentLoc s a .write (va.toNat + k) 1 with
      | .error e => some (e, va.toNat + k)
      | .ok _ => none

/-- Write pieces. [DEDUCED: log 41, 42] -/
def putPieces (s : State) (a : Agent) (ps : List (Int × List (Byte × Bool))) : State :=
  ps.foldl (fun s (va, bs) => agentPut s a va.toNat bs) s

/-! ## Agents and ends of entries -/

/-- The tag that shows an entry done. -/
def EntOp.tag : EntOp → Option Nat
  | .oload _ _ _ _ _ _ _ _ _ _ _ tag => tag
  | .adrain _ _ _ _ _ _ _ _ _ _ _ tag => tag
  | .scld _ _ _ _ _ tag => tag
  | .job b _ _ _ => some (JobCard.of b).tag
  | _ => none

/-- The agent of an entry of the engine of a quad. -/
def entAgent (q : Nat) (n : Ent) : Agent :=
  { core := n.core, part := n.part, asid := n.asid, super := n.super, win := true, die := q / 21, pages := n.pages
    since := some (n.mark, n.id), cache := some (q / 21), tag := n.op.tag }

/-- An entry leaves the table: its tag, the claims that waited behind it, and perhaps its group (R59). -/
def endEntry (s : State) (q : Nat) (n : Ent) (tag : Option Nat) (status : Nat) : State :=
  let s := fpLeave s n.task
  let s := updEng s q fun e => settleSlots (e.delEnt n.id)
  tryEnd (tagEnd s n.core tag status) n.core

/-- Change an entry. -/
def updEntry (s : State) (q id : Nat) (f : Ent → Ent) : State := updEng s q fun e => e.updEnt id f

/-! ## ENGINE_GRANT -/

/-- Ticks of some cycles of a quad. [DEDUCED: log 10] -/
def cyclesOf (s : State) (q n : Nat) : Nat := n * periodOf s q

/-- Cycles until a pass ends that starts now: 32, and 8 more when the arrays change mode (R159). -/
def passCycles (e : Eng) (g : Nat) : Nat := if e.pair = !(g = 0) then 32 else 40

/-- The accumulator that a drain works on. -/
def drainedAcc (e : Eng) (n : Ent) : AccT :=
  (match n.op with
  | .adrain g _ acc _ _ _ _ _ _ _ _ _ => accOf e g acc
  | .job b _ _ _ => match n.run with
    | some r => accOf e (JobCard.of b).grp r.acc
    | none => none
  | _ => none).getD {}

/-- Grant an entry (R169, R172). -/
def grantEntry (s : State) (q : Nat) (n : Ent) : State :=
  let e := engOf s q
  let start (s : State) (cyc k : Nat) : State :=
    updEntry s q n.id fun n => { n with granted := some k, due := s.time + cyclesOf s q cyc }
  let pass (s : State) (g k : Nat) : State :=
    let s := start s (passCycles e g) k
    updEng s q fun e => { e with pair := !(g = 0) }
  match n.op with
  | .qmma g _ _ _ _ k _ =>
    let fs := fuseWith e n
    let s := pass s g k
    fs.foldl (fun s f => updEntry s q f fun m => { m with granted := some k, fusedInto := some n.id }) s
  | .aclr _ _ => start s 8 1
  | .adrain _ fmt _ _ _ _ _ _ _ _ _ _ => start s (drainCycles fmt (drainedAcc e n)) 1
  | .job b _ _ _ => match n.run with
    | some r => if jobDrains b r then start s (drainCycles (JobCard.of b).dfmt (drainedAcc e n)) 1 else pass s (JobCard.of b).grp 1
    | none => s
  | _ => s

/-- ENGINE_GRANT (R169). -/
def execEngineGrant (quad : Nat) (s : State) : Host.Outcome State Fault Refusal :=
  .next (match nextGrant (engOf s quad) (nowNs s) with
    | some n => grantEntry s quad n
    | none => s)

/-- ACLR_COMPLETE (R169, R340). -/
def execAclrComplete (quad ent : Nat) (s : State) : Host.Outcome State Fault Refusal :=
  .next (match entOf (engOf s quad) ent with
    | some n => match n.op, n.granted with
      | .aclr g acc, some _ =>
        if s.time < n.due then s
        else endEntry (updEng s quad fun e => clearAcc e g acc n.asid n.core) quad n none 0
      | _, _ => s
    | none => s)

/-! ## OLOAD_COMPLETE, SCLD_COMPLETE -/

/-- The load of an entry: what it comes to, and the staged records that it takes. -/
def oloadRun (s : State) (e : Eng) (a : Agent) (n : Ent) : Except Nat Loaded :=
  match n.op with
  | .oload g fmt _ kind _ _ w addr stride ms pl _ =>
    if fmt = 10 then loadPlane s a kind ms pl 0
    else
      let recs := (takeStaged n.asid (tileLines kind) (mgetD e.staged g [])).1
      loadSegs s a fmt w kind ms (fun i => ((addr + i * stride : Nat) : Int)) (stagedScale recs)
        (if fmt = 3 then firstSkew recs (tileLines kind) else none)
  | _ => .error notNow

/-- The reads of an entry reach the walks and the banks once; the state, and whether it still has to wait for them (R105, R106,
R379, R423). -/
def entReads (s : State) (q : Nat) (n : Ent) (rs : List (Nat × Nat)) : State × Bool :=
  match n.waits with
  | some ids => (s, waiting s ids)
  | none =>
    let (t, ids) := agentReads s (entAgent q n) rs
    (updEntry t q n.id fun n => { n with waits := some ids }, waiting t ids)

/-- OLOAD_COMPLETE (R174 to R176, R337). A read that fails after its issue checks waits. -/
def execOloadComplete (quad ent : Nat) (s : State) : Host.Outcome State Fault Refusal :=
  .next (
    let e := engOf s quad
    match entOf e ent with
    | none => s
    | some n => match n.op with
      | .oload g fmt slot kind half basis _ addr stride ms pl tag =>
        if !eligible e n || decide (s.time < n.due) then s
        else
        let (s, wait) := entReads s quad n (oloadSegs fmt kind addr stride pl)
        if wait then s
        else match oloadRun s e (entAgent quad n) n with
        | .error _ => s
        | .ok r =>
          let s := updEng s quad fun e =>
            { e with
              slots := match mget e.slots slot with
                | some o => mset e.slots slot (loadSlot o g kind half basis ms r.tile)
                | none => e.slots
              staged := if fmt = 3 then mset e.staged g (takeStaged n.asid (tileLines kind) (mgetD e.staged g [])).2 else e.staged }
          let s := ccrEvents s quad n.core n.asid g (loadEvents kind r)
          endEntry s quad n tag (if r.sat then 128 else 0)
      | _ => s)

/-- The records that an SCLD stages, none while one cannot be read (R338). -/
def scldRecs (s : State) (a : Agent) (asid core : Nat) (p : Scales) (col row : Nat) : Nat → Option (List Staged)
  | 0 => some []
  | n + 1 =>
    match scldRecs s a asid core p col row n, agentGet s a (p.at' (row + n) col) 2 with
    | some rs, .ok bs =>
      some (rs ++ [{ asid := asid, core := core, rec' := if anyPoison bs then none else some (leNat (rawBytes bs)), lin := (row + n) * p.blocks + col }])
    | _, _ => none

/-- SCLD_COMPLETE (R338). [DEDUCED: log 37] -/
def execScldComplete (quad ent : Nat) (s : State) : Host.Outcome State Fault Refusal :=
  .next (
    let e := engOf s quad
    match entOf e ent with
    | none => s
    | some n => match n.op with
      | .scld g bs col row count tag =>
        if !eligible e n || decide (s.time < n.due) then s
        else
        let (s, wait) := entReads s quad n (scldSegs (Scales.of bs) row col count)
        if wait then s
        else match scldRecs s (entAgent quad n) n.asid n.core (Scales.of bs) col row count with
        | none => s
        | some rs => endEntry (updEng s quad fun e => { e with staged := mset e.staged g (mgetD e.staged g [] ++ rs) }) quad n tag 0
      | _ => s)

/-! ## Jobs (R178, R180) -/

/-- The address of a job's line: its base, the segment's offset, the line's offset. [DEDUCED: log 40] -/
def jobAddr (base : Nat) (off : Int) (i ld : Nat) : Int := base + off + ((i * ld : Nat) : Int)

/-- The scale of a job's line (R80, R82): the record of the block that the line lies in. [DEDUCED: log 40] -/
def jobScale (s : State) (a : Agent) (p : Scales) (off : Int) (i ld : Nat) : Except Nat Nat :=
  let o : Int := off + ((i * ld : Nat) : Int)
  if o < 0 then .error 0x0F
  else
    let row := if ld = 0 then 0 else o.toNat / ld
    let b := (if ld = 0 then o.toNat else o.toNat % ld) / 64
    match agentGet s a (p.at' row b) 2 with
    | .error (e, _) => .error e
    | .ok bs =>
      let v := leNat (rawBytes bs)
      if anyPoison bs || !scaleOk v (row * p.blocks + b) then .error 0x0F else .ok (nbits v 0 8)

/-- Line i of an operand of a job. -/
def jobLine (s : State) (a : Agent) (fmt w base ld : Nat) (off : Int) (ms : List Nat) (scale : List Byte) (i : Nat) : Except Nat Line :=
  match (if fmt = 3 then jobScale s a (Scales.of scale) off i ld else .ok 0) with
  | .error e => .error e
  | .ok sc => readLineAt s a fmt sc w ms (jobAddr base off i ld)

/-- A segment of an operand of a job: kind 0 A, 1 B. [DEDUCED: log 36, 39] -/
def jobLoad (s : State) (a : Agent) (kind fmt w base ld : Nat) (off : Int) (ms : List Nat) (plane scale : List Byte) :
    Except Nat Loaded :=
  if fmt = 10 then loadPlane s a kind ms plane off
  else
    match linesFrom (jobLine s a fmt w base ld off ms scale) 0 (tileLines kind) with
    | .error e => .error e
    | .ok ls => .ok { tile := tileOf ls, sat := ls.any (·.sat) }

/-- The next index vector, none after the last (R178). -/
def nextIdx (b : List Byte) : Nat → List Nat → Option (List Nat)
  | _, [] => none
  | l, i :: is =>
    if i + 1 < lvCount b l then some ((i + 1) :: is)
    else match nextIdx b (l + 1) is with
      | some is => some (0 :: is)
      | none => none

/-- A job stops with a status, whose bit 7 tells of saturation: its accumulator is poisoned (R112, R166, R180). [DEDUCED: log 36] -/
def stopJob (s : State) (q : Nat) (n : Ent) (g acc status : Nat) (sat : Bool) : State :=
  let s := updEng s q fun e => { e with accs := match mget e.accs (accKey g acc) with
    | some t => mset e.accs (accKey g acc) { t with bad := true }
    | none => e.accs }
  updEntry s q n.id fun n => { n with granted := none, fin := some (s.nextId, status + if sat then 128 else 0) }

/-- The first line of an operand whose load stops. -/
def firstStop (f : Nat → Except Nat Line) (n : Nat) : Nat :=
  ((List.range n).find? fun i => match f i with
    | .error _ => true
    | .ok _ => false).getD 0

/-- A job that has nothing left to do waits for its writes. -/
def jobDone (s : State) (q : Nat) (id : Nat) : State :=
  updEntry s q id fun n => match n.op, n.run with
    | .job _ _ _ _, some r => if r.last && r.drained then { n with fin := some (s.nextId, if r.sat then 128 else 0) } else n
    | _, _ => n

/-- The engine after a pass into an accumulator, its group's count raised (R173, R184). -/
def passEng (e : Eng) (g acc basis : Nat) (ms : List Nat) (t : AccT) (bands : Bands) (b : Tile) : Eng :=
  let c := mgetD e.passes g 0 + 1
  let e := { e with passes := mset e.passes g c }
  putAcc e g acc (passAcc t basis ms c bands b)

/-- After every Nth pass a re-proof pass runs (R184). [DESIGN CHOICE: log 48] -/
def reproofDue (s : State) (q g core asid acc : Nat) : State :=
  let n := policy s 0x01
  if n ≠ 0 ∧ mgetD (engOf s q).passes g 0 % n = 0 then
    updEng s q fun e => { e with reproof := mset e.reproof g (s.time + cyclesOf s q 32, core, asid, acc) }
  else s

/-- The ranges that a segment of an operand of a job reads. -/
def jobRanges (kind fmt base ld : Nat) (off : Int) (plane scale : List Byte) : List (Nat × Nat) :=
  if fmt = 10 then (oloadSegs fmt kind 0 0 plane).filterMap fun (va, n) => if 0 ≤ (va : Int) + off then some (((va : Int) + off).toNat, n) else none
  else (List.range (tileLines kind)).flatMap fun i =>
    let va := jobAddr base off i ld
    let o := off + ((i * ld : Nat) : Int)
    (if va < 0 then [] else [(va.toNat, segBytes fmt)]) ++
      if fmt = 3 ∧ 0 ≤ o then [((Scales.of scale).at' (if ld = 0 then 0 else o.toNat / ld) ((if ld = 0 then o.toNat else o.toNat % ld) / 64), 2)]
      else []

/-- What the next pass of a job reads. -/
def jobReads (b : List Byte) (recs : List (List Byte)) (r : JobRun) : List (Nat × Nat) :=
  let k := JobCard.of b
  jobRanges 0 k.afmt k.abase k.ald (jobSum b r.idx 0) (recs.getD 0 []) (recs.getD 3 []) ++
    jobRanges 1 k.bfmt k.bbase k.bld (jobSum b r.idx 1) (recs.getD 1 []) (recs.getD 4 [])

/-- The pass of a job: clear, load, pass, next index vector (R178). [DEDUCED: log 39] -/
def jobPass (s : State) (q : Nat) (n : Ent) (b : List Byte) (recs : List (List Byte)) (basis : Nat) (ms : List Nat) (r : JobRun) :
    State :=
  let k := JobCard.of b
  let a := entAgent q n
  let oa := jobSum b r.idx 0
  let ob := jobSum b r.idx 1
  let fresh := !r.first && !(k.dfmt = 0) && !(jobSum b r.idx 2 = r.cPrev)
  let acc := if fresh && k.altAcc then 1 - r.acc else r.acc
  let clear := fresh || (r.first && !k.keep)
  match jobLoad s a 0 k.afmt k.wa k.abase k.ald oa ms (recs.getD 0 []) (recs.getD 3 []),
      jobLoad s a 1 k.bfmt k.wb k.bbase k.bld ob ms (recs.getD 1 []) (recs.getD 4 []) with
  | .ok ta, .ok tb =>
    let s := updEng s q fun e => if clear then clearAcc e k.grp acc n.asid n.core else e
    let s := ccrEvents s q n.core n.asid k.grp (loadEvents 0 ta ++ loadEvents 1 tb)
    let t := (accOf (engOf s q) k.grp acc).getD { asid := n.asid, core := n.core }
    let s := updEng s q fun e => passEng e k.grp acc basis ms t (List.replicate 4 (some ta.tile)) tb.tile
    let r := { r with acc := acc, first := false, cPrev := jobSum b r.idx 2, sat := r.sat || ta.sat || tb.sat, drained := false }
    let r := match nextIdx b 0 r.idx with
      | some idx => { r with idx := idx }
      | none => { r with last := true, drained := k.dfmt = 0 }
    let s := updEntry s q n.id fun n => { n with granted := none, run := some r, waits := none }
    reproofDue (jobDone s q n.id) q k.grp n.core n.asid acc
  | .error e, _ => stop s k acc clear e r.sat 0 (firstStop (jobLine s a k.afmt k.wa k.abase k.ald oa ms (recs.getD 3 [])) 256)
  | .ok ta, .error e => stop s k acc clear e (r.sat || ta.sat) 1 (firstStop (jobLine s a k.bfmt k.wb k.bbase k.bld ob ms (recs.getD 4 [])) 128)
where
  /-- The job stops unless the read only has to wait; a scale mismatch in a line of an operand is an event (R180, R187). -/
  stop (s : State) (k : JobCard) (acc : Nat) (clear : Bool) (e : Nat) (sat : Bool) (kind l : Nat) : State :=
    if e = notNow then s
    else
      let s := updEng s q fun e => if clear then clearAcc e k.grp acc n.asid n.core else e
      let s := if e = 0x0F then ccrEvent s q n.core n.asid k.grp (skewEvent kind l) else s
      stopJob s q n k.grp acc e sat

/-- The drain of a job (R178, R180): a tile that faults writes nothing. [DEDUCED: log 41] -/
def jobDrain (s : State) (q : Nat) (n : Ent) (b : List Byte) (recs : List (List Byte)) (ms : List Nat) (r : JobRun) : State :=
  let k := JobCard.of b
  let e := engOf s q
  let t := (accOf e k.grp r.acc).getD {}
  let pl := recs.getD 2 []
  let base : Int := if k.dfmt = 1 then ((Planes.of pl).base : Nat) else (k.cbase : Nat)
  let w := drainPieces k.dfmt k.round (k.flags.testBit 3) k.stats t ms (base + r.cPrev) k.sbase k.cld r.tile pl
  let a := entAgent q n
  let (code, va) := (piecesStop s a w.1).getD (0, 0)
  if code = notNow then s
  else
  let s := if k.dfmt = 1 then s else ccrEvents s q n.core n.asid k.grp (drainEvents e k.grp t)
  if !(code = 0) then stopJob (agentMiss s a .write va).1 q n k.grp r.acc code (r.sat || w.2)
  else
    let s := putPieces s a w.1
    let s := updEntry s q n.id fun n =>
      { n with granted := none, run := some { r with drained := true, tile := r.tile + 1, sat := r.sat || w.2 } }
    jobDone s q n.id

/-- JOB_START (R178): a waiting job whose turn has come reserves the four lowest free slots. -/
def execJobStart (quad ent : Nat) (s : State) : Host.Outcome State Fault Refusal :=
  .next (
    let e := engOf s quad
    match entOf e ent with
    | none => s
    | some n => match n.op with
      | .job b _ _ _ =>
        let free := (List.range 64).filter fun k => !(mhas e.slots k)
        if n.run.isSome || n.paused || n.fin.isSome || !eligible e n || !fpClear s n.task || decide (free.length < 4) then s
        else
          let mine := free.take 4
          updEng s quad fun e =>
            let e := { e with slots := mine.foldl (fun m k => mset m k { use := .job, core := n.core, asid := n.asid }) e.slots }
            e.updEnt ent fun n =>
              { n with run := some { slots := mine, idx := List.replicate (JobCard.of b).levels 0, acc := (JobCard.of b).acc } }
      | _ => s)

/-- JOB_COMPLETE (R180). -/
def execJobComplete (quad ent : Nat) (s : State) : Host.Outcome State Fault Refusal :=
  .next (match entOf (engOf s quad) ent with
    | some n => match n.op, n.fin with
      | .job b _ _ _, some (k, st) =>
        if !agentDone s n.core k then s
        else
          let mine := match n.run with
            | some r => r.slots
            | none => []
          let s := updEng s quad fun e => { e with slots := mine.foldl mdel e.slots }
          endEntry (jobEnds s n.core (JobCard.of b) st) quad n none 0
      | _, _ => s
    | none => s)

/-! ## PASS_COMPLETE -/

/-- The A tile of a slot. -/
def tileA (e : Eng) (k : Nat) : Tile :=
  match mget e.slots k with
  | some o => match o.use with
    | .loadedA t => t
    | _ => {}
  | none => {}

/-- A half of a B slot. -/
def tileB (e : Eng) (k h : Nat) : Tile :=
  match mget e.slots k with
  | some o => match o.use with
    | .loadedB t0 t1 => (if h = 0 then t0 else t1).getD {}
    | _ => {}
  | none => {}

/-- The bands of pass p of an entry and those fused into it (R170, R172). -/
def passBands (e : Eng) (n : Ent) (p : Nat) : Bands :=
  let mine := e.table.filter fun m => m.id = n.id || m.fusedInto = some n.id
  (List.range 4).map fun q => mine.findSome? fun m => match m.op with
    | .qmma _ _ a _ _ _ qs => if qs.getLsbD q then some (tileA e (a + p)) else none
    | _ => none

/-- One pass of a granted QMMA; the last one ends its entries. -/
def qmmaPass (s : State) (q : Nat) (n : Ent) (left : Nat) : State :=
  match n.op with
  | .qmma g acc a b h k _ =>
    let e := engOf s q
    let p := k - left
    let o := mget e.slots a
    let t := (accOf e g acc).getD { asid := n.asid, core := n.core }
    let bands := passBands e n p
    let bt := tileB e (b + p) h
    let s := updEng s q fun e => passEng e g acc (match o with
      | some o => o.basis
      | none => 0) (match o with
      | some o => o.ms
      | none => []) t bands bt
    let s := reproofDue s q g n.core n.asid acc
    if 1 < left then
      let wait := if mhas (engOf s q).reproof g then 64 else 32
      updEntry s q n.id fun n => { n with granted := some (left - 1), due := s.time + cyclesOf s q wait }
    else
      let mine := e.table.filter fun m => m.id = n.id || m.fusedInto = some n.id
      mine.foldl (fun s m => endEntry s q m none 0) s
  | _ => s

/-- PASS_COMPLETE (R85, R169, R173). [DEDUCED: log 39] -/
def execPassComplete (quad grp : Nat) (s : State) : Host.Outcome State Fault Refusal :=
  .next (match (engOf s quad).table.find? fun n => onArrays n = some grp && n.fusedInto = none && decide (n.due ≤ s.time) with
    | some n => match n.op, n.run, n.granted with
      | .job b recs basis ms, some r, _ =>
        let (s, wait) := entReads s quad n (jobReads b recs r)
        if wait then s else jobPass s quad n b recs basis ms r
      | .qmma _ _ _ _ _ _ _, _, some left => if mhas (engOf s quad).reproof grp then s else qmmaPass s quad n left
      | _, _, _ => s
    | none => s)

/-! ## DRAIN_COMPLETE -/

/-- The drain of an ADRAIN: events and writes (R181). -/
def adrainRun (s : State) (q : Nat) (n : Ent) : State :=
  match n.op with
  | .adrain g fmt acc rnd ftz stats dst sta stride ms pl _ =>
    let e := engOf s q
    let t := (accOf e g acc).getD {}
    let base : Int := if fmt = 1 then ((Planes.of pl).base : Nat) else (dst : Nat)
    let w := drainPieces fmt rnd ftz stats t ms base sta stride 0 pl
    let s := if fmt = 1 then s else ccrEvents s q n.core n.asid g (drainEvents e g t)
    let s := putPieces s (entAgent q n) w.1
    updEntry s q n.id fun n => { n with granted := none, fin := some (s.nextId, if w.2 then 128 else 0) }
  | _ => s

/-- DRAIN_COMPLETE (R181, R341): the drain is written; an ADRAIN completes once its writes are applied. -/
def execDrainComplete (quad ent : Nat) (s : State) : Host.Outcome State Fault Refusal :=
  .next (
    let fin (s : State) : State := match entOf (engOf s quad) ent with
      | some n => match n.op, n.fin with
        | .adrain _ _ _ _ _ _ _ _ _ _ _ tag, some (k, st) => if agentDone s n.core k then endEntry s quad n tag st else s
        | _, _ => s
      | none => s
    match entOf (engOf s quad) ent with
    | none => s
    | some n =>
      if n.fin.isSome then fin s
      else if n.granted = none ∨ s.time < n.due then s
      else match n.op, n.run with
        | .adrain _ _ _ _ _ _ _ _ _ _ _ _, _ => fin (adrainRun s quad n)
        | .job b recs _ ms, some r => if jobDrains b r then jobDrain s quad n b recs ms r else s
        | _, _ => s)

/-! ## REPROOF_PASS (R184, R185) -/

/-- Poison elements of an accumulator. -/
def poisonAt (t : AccT) (ps : List (Nat × Nat)) : AccT :=
  { t with el := (List.range 256).map fun i => (List.range 128).map fun j =>
      let el := (t.el.getD i []).getD j {}
      if ps.contains (i, j) then { el with poison := true } else el }

/-- The elements that mismatch in a re-proof of another pattern: an open set, rows and columns ascending (R185). -/
def oddElems (k : Nat) : List (Nat × Nat) :=
  (List.range 256).flatMap fun i => ((List.range 128).filter fun j => Config.freeBit (2 ^ 298 + k * 2 ^ 20 + i * 128 + j)).map fun j => (i, j)

/-- What a re-proof finds is the array's own affair: no mismatch, one element in one slot, a stuck cell, an upstream fault, or
another pattern, at an open place. [DESIGN CHOICE: log 48] -/
def reproofFind (s : State) (q g core asid acc : Nat) : State :=
  let (k, s) := freeN s
  let (i, s) := freeN s
  let (j, s) := freeN s
  let (c, s) := freeN s
  let pass := mgetD (engOf s q).passes g 0 % 65536
  let i := i % 256
  let j := j % 128
  let sl := if g = 0 then c % 12 else if g = 1 then c % 6 else 6 + c % 6
  let ev (cls slot : Nat) : CcrEv := { kind := 0, slot := slot, row := i, col := j, pass := pass, synd := cls * 16384, code := cls }
  let spoil (s : State) (ps : List (Nat × Nat)) : State :=
    updEng s q fun e => { e with accs := match mget e.accs (accKey g acc) with
      | some t => mset e.accs (accKey g acc) (poisonAt t ps)
      | none => e.accs }
  match k % 5 with
  | 0 => s
  | 1 => ccrEvent s q core asid g (ev 1 sl)
  | 2 =>
    let s := ccrEvent s q core asid g (ev 2 sl)
    updEng s q fun e => { e with stuck := (nowNs s, sl) :: e.stuck }
  | 3 => spoil (ccrEvent s q core asid g (ev 3 15)) [((i + 255) % 256, j), (i, j)]
  | _ => match oddElems s.choice with
    | [] => s
    | (r, c) :: ps => spoil (ccrEvent s q core asid g { ev 3 15 with row := r, col := c }) ((r, c) :: ps)

/-- REPROOF_PASS (R184). [DESIGN CHOICE: log 48] -/
def execReproofPass (quad grp : Nat) (s : State) : Host.Outcome State Fault Refusal :=
  .next (match mget (engOf s quad).reproof grp with
    | some (due, core, asid, acc) =>
      if s.time < due then s
      else reproofFind (updEng s quad fun e => { e with reproof := mdel e.reproof grp }) quad grp core asid acc
    | none => s)

end Sys2Proof.Machine
end

