-- ==== Sys2Proof/Machine/Place.lean ====
section
/-! DEFINITION. Placement: the traversal of a grid (R55), the columns and colours of cores (R57, R58), which core a group
can go to (R59, R65), lenders (R62), checkpoint areas (R411), and the start of a group (R43, R219, R413). -/

namespace Sys2Proof.Machine

/-! ## Traversal (R55) -/

/-- Row-major in panels of w columns over a plane of gx by gy. -/
def panels (w gx gy : Nat) : Nat → Nat → Nat → Nat × Nat
  | 0, p, n => (p * w, n)
  | fuel + 1, p, n =>
    let width := min w (gx - p * w)
    if width * gy ≤ n then panels w gx gy fuel (p + 1) (n - width * gy)
    else (p * w + n % max 1 width, n / max 1 width)

/-- The bits of a number at even places, k of them. -/
def evenBits (n : Nat) : Nat → Nat
  | 0 => 0
  | k + 1 => n % 2 + 2 * evenBits (n / 4) k

/-- Hilbert step loop of R55. -/
def hilbertGo : Nat → Nat → Nat → Nat → Nat → Nat × Nat
  | 0, _, _, x, y => (x, y)
  | k + 1, s, t, x, y =>
    let rx := t / 2 % 2
    let ry := (t % 2 + rx) % 2
    let (x, y) := if ry = 0 then
        let (x, y) := if rx = 1 then (s - 1 - x, s - 1 - y) else (x, y)
        (y, x)
      else (x, y)
    hilbertGo k (2 * s) (t / 4) (x + s * rx) (y + s * ry)

/-- Least k with 2^k at least n. -/
def log2Up (n : Nat) : Nat := if n ≤ 1 then 0 else Nat.log2 (n - 1) + 1

/-- The n-th point of a curve that lies in the plane, from curve position i on. -/
def curvePoint (f : Nat → Nat × Nat) (gx gy : Nat) : Nat → Nat → Nat → Nat × Nat
  | 0, _, _ => (0, 0)
  | fuel + 1, i, n =>
    let p := f i
    if p.1 < gx ∧ p.2 < gy then (if n = 0 then p else curvePoint f gx gy fuel (i + 1) (n - 1))
    else curvePoint f gx gy fuel (i + 1) n

/-- Coordinates of the n-th group of a grid (R55). -/
def groupAt (order swz gx gy n : Nat) : Nat × Nat × Nat :=
  let plane := gx * gy
  let z := n / max 1 plane
  let n := n % max 1 plane
  let k := log2Up (max gx gy)
  let (x, y) := match order with
    | 0 => panels (if swz = 0 then gx else 2 ^ swz) gx gy (gx + 1) 0 n
    | 1 => let p := panels (if swz = 0 then gy else 2 ^ swz) gy gx (gy + 1) 0 n; (p.2, p.1)
    | 2 => curvePoint (fun i => (evenBits i k, evenBits (i / 2) k)) gx gy (4 ^ k) 0 n
    | _ => curvePoint (fun i => hilbertGo k 1 i 0 0) gx gy (4 ^ k) 0 n
  (x, y, z)

/-! ## Cores, colours, neighbours (R57, R58) -/

/-- Row of a core's quad on its die. -/
def quadRow (c : Nat) : Nat := c % 84 / 4 / 7
/-- Column of a core's quad on its die. -/
def quadCol (c : Nat) : Nat := c % 84 / 4 % 7
/-- The core at a quad row, quad column and in-quad position of a die. -/
def coreAt (die r k j : Nat) : Nat := die * 84 + (r * 7 + k) * 4 + j
/-- A core of the same quad, j places on. -/
def quadMate (c j : Nat) : Nat := c / 4 * 4 + (c + j) % 4

/-- The column neighbours of a core that are enabled (R58). -/
def neighbours (s : State) (c : Nat) : List Nat :=
  let r := quadRow c
  let k := quadCol c
  let d := dieOf c
  let j := inQuad c
  ([quadMate c 1, quadMate c 3] ++ (if 0 < r then [coreAt d (r - 1) k j] else []) ++ (if r < 2 then [coreAt d (r + 1) k j] else []) ++
    (if 0 < k then [coreAt d r (k - 1) j] else []) ++ (if k < 6 then [coreAt d r (k + 1) j] else [])).filter (coreEnabled s)

/-- White (R58). -/
def isWhite (c : Nat) : Bool := (quadRow c + quadCol c + inQuad c) % 2 = 0
/-- A class-3 seat (R58). -/
def isSeat (c : Nat) : Bool := inQuad c = (quadRow c + quadCol c) % 2

/-! ## Eligibility (R59, R65) -/

/-- A core is free (R59). -/
def coreFree (s : State) (c : Nat) : Bool := (coreOf s c).group.isNone && (coreOf s c).lendsTo.isNone

/-- The core can be dealt groups of a partition at all. -/
def corePresent (s : State) (part c : Nat) : Bool :=
  coreEnabled s c && partHasDie s part (dieOf c) && !cdieInReset s (dieOf c)

/-- The core runs a group of one of these classes. -/
def runsClass (s : State) (hs : List Nat) (c : Nat) : Bool := (coreOf s c).group.any fun g => hs.contains g.heat

/-- The lenders of a group of a class on a core (R62). -/
def lendersFor (s : State) (c heat : Nat) : List Nat :=
  if heat = 2 then (([1, 3].map (quadMate c)).filter (coreEnabled s)).take 1
  else if heat = 3 then ([1, 2, 3].map (quadMate c)).filter (coreEnabled s)
  else []

/-- The conditions of a heat class on a core (R59). -/
def classOk (s : State) (c heat : Nat) : Bool :=
  let ns := neighbours s c
  let ls := lendersFor s c heat
  match heat with
  | 0 => true
  | 1 => !(ns.any (runsClass s [2, 3]))
  | 2 => isWhite c && !ls.isEmpty && ls.all (coreFree s) && !(ns.any (runsClass s [1]))
  | _ => isSeat c && !ls.isEmpty && ls.all (coreFree s) && !(ns.any (runsClass s [1]))

/-- A column is at or above a firmware threshold in force: 0x10 dispatch, 0x11 migration, 0x12 hard limit (R65, R443). -/
def atLimit (s : State) (thr c : Nat) : Bool := decide (8 * policyHeld s thr ≤ (mgetD s.cols c {}).temp)

/-- A core is eligible for a class but for the temperature of its column (R59). -/
def eligibleCold (s : State) (part heat c : Nat) : Bool := corePresent s part c && coreFree s c && classOk s c heat

/-- A core is eligible (R59, R65). -/
def eligibleCore (s : State) (part heat c : Nat) : Bool := eligibleCold s part heat c && !atLimit s 0x10 c

/-- Logical cores of a partition in order, those with a valid entry (R57). -/
def logCores (s : State) (part : Nat) : List Nat := (l2pOf s part).filterMap fun (v, c) => if v then some c else none

/-- A quad that can take a team (R59). -/
def eligibleQuad (s : State) (part heat q : Nat) : Bool := (coresOf q).all fun c => eligibleCore s part heat c

/-- Quads of a partition in logical order (R366). -/
def logQuads (s : State) (part : Nat) : List Nat := mgetD s.xl.lquads part []

/-! ## Checkpoint areas (R411, R427) -/

/-- Sizes of sections 1 to 6 at their largest for a number of lenders (R411). -/
def secSizes (lend : Nat) : List Nat := [8192, 69632, 524544, 131136, (1 + lend) * 817152, 8454144]

/-- Offset of section k (1 to 6) in an area. -/
def secOff (lend k : Nat) : Nat := 0x180 + ((secSizes lend).take (k - 1)).sum

/-- BYTES of an area (R411). -/
def areaBytes (lend : Nat) : Nat := ceilDiv (0x180 + (secSizes lend).sum) 65536 * 65536

/-- VQUOTA and CKRES (R427). -/
def vquota (s : State) : Nat := nbits s.xl.tpcfg.toNat 23 9
/-- CKRES (R427). -/
def ckres (s : State) : Nat := nbits s.xl.tpcfg.toNat 14 9

/-- A free run of n pages in the checkpoint pool of a vault: its first page in the vault. -/
def poolPlace (s : State) (v n : Nat) : Option Nat :=
  let lo := 288 - vquota s - ckres s
  let base := (vaultBase + v * vaultStep) / 65536
  (List.range (ckres s + 1 - n)).findSome? fun i =>
    let p := base + lo + i
    if n ≤ ckres s ∧ (s.xl.ckAreas.all fun (a, k) => decide (a + k ≤ p) || decide (p + n ≤ a)) then some p else none

/-- Distance of two columns of a die. -/
def colDist (a b : Nat) : Nat :=
  ((quadRow a : Int) - quadRow b).natAbs + ((quadCol a : Int) - quadCol b).natAbs

/-- Vaults of a core's die by distance, its own first (R411). [DESIGN CHOICE: log 99] -/
def vaultsNear (c : Nat) : List Nat :=
  c :: (List.range 10).flatMap fun d => ((List.range 84).map (dieOf c * 84 + ·)).filter fun v => !(v = c) && colDist c v = d

/-- Take a checkpoint area for a group on a core, BYTES for its lender count: its base page, none when no vault of the die has
room. What an earlier group left there is no checkpoint of this one (R411). [DEDUCED: log 53] -/
def takeArea (s : State) (c lend : Nat) : State × Option Nat :=
  let n := areaBytes lend / 65536
  match (vaultsNear c).findSome? fun v => poolPlace s v n with
  | some p => (updXl s fun x => { x with ckAreas := mset x.ckAreas p n, ckLast := mdel x.ckLast p }, some p)
  | none => (s, none)

/-! ## The start of a group -/

/-- A thread at its start (R9, R219). -/
def startThr (n : Nat) (pc : Addr) (super : Bool) (slot : Option Nat) (cyc mark : Nat) : Thr :=
  { lanes := List.replicate n { pc := pc, fenced := mark }, sstatus := if super then 0x10 else 0, slot := slot, nextIssue := cyc, readySince := cyc }

/-- The core counts its cycles up to now (R357). -/
def syncCore (s : State) (c : Nat) : State :=
  let p := periodOf s (quadOf c)
  updCore s c fun k =>
    let n := (s.time + p - k.edge) / p
    if k.edge < s.time then { k with cycle := (k.cycle + n) % 2 ^ 64, edge := k.edge + n * p } else k

/-- Put a group on a core with its lenders: scratch is zero, tags idle, event ports empty (R59, R62, R101, R330, R413). [DEDUCED: log 12] -/
def seatGroup (s : State) (c : Nat) (g : Group) (lenders : List Nat) : State :=
  let s := syncCore s c
  let s := updCore s c fun k =>
    { k with group := some { g with lenders := lenders, seat := if g.isRestoring then g.seat else c }, scr := [], scrP := [], scrT := [], l1 := [], tags := [], tagerr := 0
             jobs := [], ports := [], lost := [], lostN := [] }
  let s := lenders.foldl (fun s l => updCore s l fun k =>
    { k with lendsTo := some c, scr := [], scrP := [], scrT := [], l1 := [] }) s
  updEng s (quadOf c) fun e => { e with idle := false }

/-- The n-th group of a grid as its record gives it (R43). -/
def groupOf (num : Nat) (r : Grid) (n : Nat) : Group :=
  let b := r.rec'.bytes
  let (x, y, z) := groupAt (leAt b 0x26 1) (leAt b 0x27 1) (leAt b 0x10 4) (leAt b 0x14 4) n
  { grid := num, pos := n, gx := x, gy := y, gz := z, asid := r.asid, part := r.part, queue := r.queue, super := r.super
    team := if (leAt b 0x28 1).testBit 0 then some (n / 4) else none
    feEntry := BitVec.ofNat 52 (leAt b 0 8), wEntry := BitVec.ofNat 52 (leAt b 8 8), args := BitVec.ofNat 64 (leAt b 0x38 8)
    dims := (leAt b 0x10 4, leAt b 0x14 4, leAt b 0x18 4), wattles := leAt b 0x1C 1, baseNeed := leAt b 0x1D 1
    extMax := leAt b 0x1E 1, scratchNeed := leAt b 0x20 4, l1 := leAt b 0x24 1, heat := leAt b 0x1F 1, prio := leAt b 0x25 1
    record := r.va, sched := r.rec'.sched, resident := List.range (leAt b 0x1C 1) }

/-- Start a new group on a core: threads at their entries, lenders, checkpoint area, static schedule (R43, R62, R114). [DEDUCED: log 12] -/
def startGroup (s : State) (c : Nat) (g : Group) : State :=
  let ls := lendersFor s c g.heat
  let (s, page) := takeArea s c ls.length
  let g := releaseSched s.mem.wasN s.time { g with
    ckbase := BitVec.ofNat 64 (page.getD 0 * 65536), area := page.isSome, pool := page, born := (s.time, s.disp.dealt) }
  let s := seatGroup s c g ls
  let s := updDisp s fun d => { d with dealt := d.dealt + 1 }
  let cyc := (coreOf s c).cycle
  let s := setThr s c feIdx (startThr 1 g.feEntry g.super none cyc s.mem.wasN)
  g.resident.foldl (fun s w => setThr s c w (startThr 32 g.wEntry g.super (if w < 8 then some (w % 2) else none) cyc s.mem.wasN)) s

end Sys2Proof.Machine
end

