-- ==== Sys2Proof/Machine/Ckpt.lean ====
section
/-! DEFINITION. Pre-emption, checkpoints and restores (R410 to R412), and a group that leaves one core for another
(R66, R68). -/

namespace Sys2Proof.Machine

/-! ## The request (R410 step 1, step 3) -/

/-- The pre-emption of a group begins (R410). [UNVERIFIED: log 104] -/
def requestHalt (s : State) (c : Nat) (park brk : Bool) : State := updGrp (beginDrain s c (.halting (nowNs s) park brk)) c fun g => { g with asked := s.time }

/-- A group that a request can name: it runs. -/
def canHalt (s : State) (c : Nat) : Bool := match (coreOf s c).group with
  | some g => g.st = .running
  | none => false

/-- Request the pre-emption of the group of a core. -/
def preempt (s : State) (c : Nat) : State := if canHalt s c then requestHalt s c false false else s

/-- PREEMPT_REQUEST (R410). -/
def execPreemptRequest (core : Nat) (s : State) : Host.Outcome State Fault Refusal := .next (preempt s core)

/-! ## The halt (R410 steps 2 to 4) -/

/-- A load's pending result. -/
def Fill.isLoad (f : Fill) : Bool :=
  match f.what with
  | .load _ _ => true
  | _ => false

/-- A store of a thread of a core. -/
def Store.ofCore (st : Store) (c : Nat) : Bool :=
  match st.by' with
  | .thread c' _ _ => c' = c
  | _ => false

/-- The drain steps are done: results other than loads have filled, stores are acknowledged, copies stand still, the
engine holds nothing of the group but jobs between passes and claims and releases to come (R410, R188, R345). [UNVERIFIED: log 104] -/
def haltReady (s : State) (c : Nat) : Bool :=
  (s.mem.fills.all fun f => !(f.core = c) || f.isLoad || f.waits.any (claimWaits s)) && (s.mem.atoms.all fun a => !(a.core = c)) &&
    (s.mem.stores.all fun st => !(st.ofCore c)) && ((coreOf s c).jobs.all fun j => j.fin = none) &&
    s.engs.all fun (_, e) => e.table.all fun n => !(n.core = c) || n.slotOp || (n.isJob && n.granted = none && n.fin = none)

/-- The group is halted: every fixed-latency result is ready (R222), loads go to the replay list, reservations are dropped, copies and jobs are paused. -/
def haltGroup (s : State) (c : Nat) : State :=
  let s := (groupThreads s c).foldl (fun s t => updThr (dropHold s c t false) c t settle) s
  let loads := s.mem.fills.filter fun f => f.core = c
  let s := updMem s fun m =>
    { m with fills := m.fills.filter fun f => !(f.core = c), resvs := m.resvs.filter fun r => !(r.core = c) }
  let s := (coreOf s c).jobs.foldl (fun s j => pauseCopy s c j) s
  let s := updCore s c fun k => { k with jobs := k.jobs.map fun j => { j with paused := true, running := false, waits := if j.isSfill then j.waits else none } }
  let s := { s with engs := s.engs.map fun (q, e) =>
    (q, { e with table := e.table.map fun n => if n.core = c then { n with paused := true } else n }) }
  updGrp s c fun g => { g with replay := g.replay ++ loads, preempts := (g.preempts + 1) % 2 ^ 64 }

/-! ## The checkpoint (R411) -/

/-- Bytes at a physical address past the L2, line by line, with their poison; fuel bounds the lines. -/
def physPutN (s : State) (w : Writer) : Nat → Nat → List (Byte × Bool) → State
  | 0, _, _ => s
  | fuel + 1, pa, bs =>
    if bs.isEmpty then s
    else physPutN (postHome s w 0 0 pa (bs.take (64 - pa % 64)) {}) w fuel (pa + (64 - pa % 64)) (bs.drop (64 - pa % 64))

/-- Write bytes at a physical address past the L2. [DEDUCED: log 53] -/
def physPut (s : State) (w : Writer) (pa : Nat) (bs : List (Byte × Bool)) : State := physPutN s w (bs.length + 1) pa bs

/-- A core's share of an engine, with the OCLMs and ORELs that have not taken effect (R345, R411 section 6). -/
def shareOf (e : Eng) (c : Nat) : EngShare :=
  { slots := e.slots.filter fun (_, o) => o.core = c && !(o.use = .job)
    accs := e.accs.filter fun (_, a) => a.core = c
    staged := (e.staged.map fun (g, rs) => (g, rs.filter fun r => r.core = c)).filter fun (_, rs) => !rs.isEmpty
    ents := e.table.filter fun n => n.core = c && (n.isJob || n.slotOp) }

/-- A share that holds something. -/
def EngShare.some? (h : EngShare) : Bool := !(h = {})

/-- What sections 1 and 6 save (R411); lenders' scratch only where no area holds it. [DEDUCED: log 54] -/
def imageOf (s : State) (c : Nat) : Image6 :=
  let k := coreOf s c
  let scr (k : Core) : Core := { scr := k.scr, scrP := k.scrP, scrT := k.scrT }
  { group := grpOf s c
    core := { tags := k.tags, tagerr := k.tagerr, jobs := k.jobs, ports := k.ports, lost := k.lost, lostN := k.lostN
              scr := k.scr, scrP := k.scrP, scrT := k.scrT, past := k.past }
    thrs := (groupThreads s c).map fun t => (t, thrOf s c t)
    near := shareOf (engOf s (quadOf c)) c
    far := (s.engs.filter fun (q, e) => !(q = quadOf c) && (shareOf e c).some?).map fun (q, e) => (q, shareOf e c)
    lent := (grpOf s c).lenders.map fun l => scr (coreOf s l) }

/-- Threads of the image in the order of their frames: wattles by index, then the FE. -/
def imageThr (m : Image6) (t : Nat) : Thr := ((m.thrs.find? fun p => p.1 = t).map (·.2)).getD {}

/-- Offset of a register of a lane in section 3 (R411). -/
def regSlot (t l n : Nat) : Nat := if t = feIdx then 0x80000 + 4 * n else ((t * 256 + n) * 32 + l) * 4

/-- The byte of a register in section 4 (R411). -/
def regBits (g : Group) (h : Thr) (t l n : Nat) : Nat :=
  let v := (regOf h l n).cur
  (if v.full then 1 else 0) + (if v.poison then 2 else 0) + (if v.dead then 4 else 0) +
    (if t = feIdx || (n < 64 && n < g.baseNeed) || h.blocks.testBit (blockOf n - 1) && decide (64 ≤ n) then 8 else 0)

/-- The scratchpad (0 own, 1 and up the lenders) and offset of a byte of section 5's data: own scratch below the limit, then the
lent window. [DEDUCED: log 54] -/
def sec5At (g : Group) (o : Nat) : Nat × Nat :=
  if o < slimit g then (0, o) else (1 + (o - slimit g) / scrBytes, (o - slimit g) % scrBytes)

/-- The core of a scratchpad of section 5. -/
def sec5Core (g : Group) (c i : Nat) : Nat := (c :: g.lenders).getD i c

/-- Data bytes of section 5. -/
def sec5Bytes (g : Group) : Nat := slimit g + lentBytes g

/-- The blocks of section 5 that a checkpoint writes: those written since the last one, all of them at the first. -/
def sec5Blocks (s : State) (c : Nat) (first : Bool) : List Nat :=
  let g := grpOf s c
  (List.range (ceilDiv (sec5Bytes g) 4096)).filter fun b =>
    first || (let (k, o) := sec5At g (4096 * b); g.scrDirty.contains (blockNo s c (sec5Core g c k) o))

/-- Eight bits as a byte. -/
def bitByte (f : Nat → Bool) (i : Nat) : Byte :=
  BitVec.ofNat 8 ((List.range 8).foldl (fun v k => v + if f (8 * i + k) then 2 ^ k else 0) 0)

/-- The sideband of section 5: a poison bit for each word, a type bit for each 16 bytes. -/
def sec5Side (s : State) (c : Nat) : List Byte :=
  let g := grpOf s c
  let n := sec5Bytes g
  let poison (w : Nat) : Bool := let (k, o) := sec5At g (4 * w); mhas (coreOf s (sec5Core g c k)).scrP (o / 4)
  let type (w : Nat) : Bool := let (k, o) := sec5At g (16 * w); mhas (coreOf s (sec5Core g c k)).scrT (o / 16)
  (List.range (n / 32)).map (bitByte poison) ++ (List.range (n / 128)).map (bitByte type)

/-- The directory of an area (R411). [DEDUCED: log 54] -/
def ckDirectory (lend : Nat) : List Byte :=
  (List.range 16).flatMap fun i =>
    if i < 6 then natLe 2 (i + 1) ++ natLe 2 0 ++ natLe 4 ((secSizes lend).getD i 0) ++ natLe 8 (secOff lend (i + 1)) else natLe 16 0

/-- Byte o of section k of the n-th checkpoint, where the manual gives the section no layout: sections 1 and 6. [DEDUCED: log 54] -/
def openByte (n k o : Nat) : Byte := BitVec.ofNat 8 (Config.freeNat (2 ^ 297 + n * 2 ^ 64 + k * 2 ^ 32 + o))

/-- Bytes of section 6 of the n-th checkpoint: none when the core holds nothing of the engine. [DEDUCED: log 54] -/
def sec6Bytes (n : Nat) (m : Image6) : Nat :=
  if m.near.some? || m.far.any (·.2.some?) then Config.freeNat (2 ^ 297 + n * 2 ^ 64 + 7 * 2 ^ 32) % 8454145 else 0

/-- The pieces (offset, bytes) of the n-th checkpoint but for its header (R411). [DEDUCED: log 53, 54] -/
def ckPieces (s : State) (c n : Nat) (first : Bool) : List (Nat × List (Byte × Bool)) :=
  let g := grpOf s c
  let lend := g.lenders.length
  let ts := (List.range 16).filter (g.resident.contains ·) ++ [feIdx]
  let sec1 := (secOff lend 1, plain ((List.range 8192).map (openByte n 1)))
  let frames := ts.map fun t => (secOff lend 2 + 4096 * t, frameBytes (thrOf s c t) (t = feIdx) (natLe 64 0))
  let dirty := ts.flatMap fun t => ((thrOf s c t).regs.filter fun r => r.2.dirty).map fun (k, r) =>
    (secOff lend 3 + regSlot t (k / 256) (k % 256), plain (natLe 4 r.cur.v.toNat))
  let bits := (List.range 16).flatMap fun t => (List.range 8192).map fun k =>
    BitVec.ofNat 8 (if g.resident.contains t then regBits g (thrOf s c t) t (k % 32) (k / 32) else 0)
  let feBits := (List.range 64).map fun n => BitVec.ofNat 8 (regBits g (thrOf s c feIdx) feIdx 0 n)
  let blocks := (sec5Blocks s c first).map fun b => (secOff lend 5 + 4096 * b,
    (List.range (min 4096 (sec5Bytes g - 4096 * b))).map fun o =>
      let (k, p) := sec5At g (4096 * b + o)
      (bget (coreOf s (sec5Core g c k)).scr p, false))
  let sec6 := (secOff lend 6, plain ((List.range (sec6Bytes n (imageOf s c))).map (openByte n 6)))
  (if first then [(0x80, plain (ckDirectory lend))] else []) ++ sec1 :: frames ++ dirty ++
    [(secOff lend 4, plain (bits ++ feBits))] ++ blocks ++ [(secOff lend 5 + sec5Bytes g, plain (sec5Side s c)), sec6]

/-- Bytes at the home. [DEDUCED: log 53] -/
def homeBytes (s : State) (pa n : Nat) : List (Byte × Bool) :=
  (List.range n).map fun k => (homeByte s (pa + k), mhas s.mem.poison ((pa + k) / 4))

/-- The header that stands in an area (R364). -/
def areaHeader (s : State) (base : Nat) : List Byte := (homeBytes s base 64).map (·.1)

/-- The area is laid out for this many lenders: VALID is set and LENDERS names them (R364, R411). -/
def laidOut (s : State) (base lend : Nat) : Bool :=
  let h := areaHeader s base
  (leAt h 0x0F 1).testBit 0 && leAt h 0x0E 1 = lend

/-- The 64 bytes of the header (R364); BYTES stays as it was laid down (R411). [DEDUCED: log 54] -/
def ckHeader (s : State) (c : Nat) : List Byte :=
  let g := grpOf s c
  let base := g.ckbase.toNat
  let h := areaHeader s base
  let lend := g.lenders.length
  natLe 4 1 ++ natLe 4 g.asid ++ natLe 4 (leAt h 8 4 + 1) ++ natLe 1 g.heat ++ natLe 1 g.resident.length ++ natLe 1 lend ++
    natLe 1 (1 + if g.team.isSome then 2 else 0) ++ natLe 8 (if laidOut s base lend then leAt h 0x10 8 else areaBytes lend) ++
    natLe 8 g.record ++ natLe 8 (nowNs s) ++ natLe 24 0

/-- The registers of a thread that are still to be restored take their values from section 3 (R412). -/
def loadRegs (s : State) (c t : Nat) (want : Nat → Bool) : State :=
  let g := grpOf s c
  let base := g.ckbase.toNat + secOff g.lenders.length 3
  let value (k : Nat) : Word :=
    BitVec.ofNat 32 (leNat ((List.range 4).map fun i => homeByte s (base + regSlot t (k / 256) (k % 256) + i)))
  let load (e : Nat × Reg) : Nat × Reg :=
    if want (e.1 % 256) && e.2.absent then (e.1, { e.2 with cur := { e.2.cur with v := value e.1 }, absent := false }) else e
  updThr s c t fun h => { h with regs := h.regs.map load }

/-- A group that has come to more lenders than its pool area has room for takes another area, into which its next checkpoint
goes whole (R411). [DEDUCED: log 53] -/
def moveArea (s : State) (c : Nat) : State :=
  let g := grpOf s c
  match g.pool with
  | none => s
  | some p =>
    if !(g.ckbase = BitVec.ofNat 64 (65536 * p)) || decide (areaBytes g.lenders.length ≤ 65536 * mgetD s.xl.ckAreas p 0) then s
    else
      let s := (groupThreads s c).foldl (fun s t => updThr (loadRegs s c t fun _ => true) c t fun h =>
        { h with regs := h.regs.map fun (k, r) => (k, { r with dirty := true }) }) s
      let (s, page) := takeArea (updXl s fun x => { x with ckAreas := mdel x.ckAreas p }) c g.lenders.length
      updGrp s c fun g => { g with ckbase := BitVec.ofNat 64 (page.getD 0 * 65536), area := page.isSome, pool := page }

/-- Write a checkpoint of a halted group (R362, R411): its stores enter, its image is kept, dirty bits are cleared. A group
without an area has its image only. [DEDUCED: log 53, 54] -/
def writeCkpt (s : State) (c : Nat) : State :=
  let s := moveArea s c
  let g := grpOf s c
  let (n, s) := freshId s
  let first := !(laidOut s g.ckbase.toNat g.lenders.length) || !(mhas s.xl.ckLast (areaKey g))
  let ps := if g.area then ckPieces s c n first else []
  let s := ps.foldl (fun s (o, bs) => physPut s (.engine c) (g.ckbase.toNat + o) bs) s
  let bytes := if g.area then (ps.map fun p => p.2.length).sum + 64 else 0
  let clean (r : Reg) : Reg := { r with dirty := r.dirty && !g.area }
  let s := (groupThreads s c).foldl (fun s t => updThr s c t fun h => { h with regs := h.regs.map fun (k, r) => (k, clean r) }) s
  let s := updGrp s c fun g => { g with scrDirty := [], ckptBytes := bytes % 2 ^ 64, ck := some (s.nextId, false) }
  updXl s fun x => { x with ckImages := mset x.ckImages n (imageOf s c), ckLast := mset x.ckLast (areaKey g) n }

/-! ## A group that a fault ends (R408) -/

/-- A drained group's copies and engine work complete with status 0x24, its record goes to CKBASE + 0x40, and it is gone (R408). [DEDUCED: log 58] -/
def failGroup (s : State) (c : Nat) (r : List Byte) : State :=
  let g := grpOf s c
  let s := (coreOf s c).jobs.foldl (fun s j => tagEnd s c j.tag 0x24) s
  let s := s.engs.foldl (fun s (_, e) => (e.table.filter fun n => n.core = c).foldl (fun s n => tagEnd s c n.op.tag 0x24) s) s
  let s := if g.area then postHome s (.engine c) g.asid 0 (g.ckbase.toNat + 0x40) (plain r) {} else s
  killGroup s c

/-- PREEMPT_HALT (R410): a group that has drained is halted; a pre-empted one has its checkpoint written, one that a fault ends
is gone (R408). [UNVERIFIED: log 104] -/
def execPreemptHalt (core : Nat) (s : State) : Host.Outcome State Fault Refusal :=
  .next (match (coreOf s core).group with
    | some g => match g.st with
      | .halting _ park brk =>
        if !haltReady s core then s
        else
          let s := haltGroup s core
          if park then updGrp s core fun g => { g with st := .parked brk }
          else writeCkpt (updGrp s core fun g => { g with st := .saving }) core
      | .failing r => if haltReady s core then failGroup (haltGroup s core) core r else s
      | _ => s
    | none => s)

/-! ## Leaving the core (R66, R68, R410) -/

/-- Take a core's share out of its quad's engine (R411 section 6). [DEDUCED: log 55] -/
def takeEngine (s : State) (c : Nat) : State :=
  { s with engs := s.engs.map fun (q, e) =>
      (q, settleSlots (unfuse
        { e with table := e.table.filter fun n => !(n.core = c)
                 slots := e.slots.filter fun (_, o) => !(o.core = c)
                 accs := e.accs.filter fun (_, a) => !(a.core = c)
                 staged := e.staged.map fun (g, rs) => (g, rs.filter fun r => !(r.core = c)) })) }

/-- A team's channels leave the quad when its last group has left (R68). [DEDUCED: log 55] -/
def leaveTeam (s : State) (q grid team : Nat) : State :=
  if !(teamCores s q).isEmpty then s
  else match mget s.teams q with
    | none => s
    | some t =>
      let s := updDisp s fun d => { d with grids := match mget d.grids grid with
        | some r => mset d.grids grid { r with teams := mset r.teams team t }
        | none => d.grids }
      { s with teams := mdel s.teams q }

/-- A saved group leaves its core and waits to be placed again (R66, R68). -/
def vacate (s : State) (c : Nat) : State :=
  let g := grpOf s c
  let q := quadOf c
  let s := updDisp s fun d => { d with grids := match mget d.grids g.grid with
    | some r => mset d.grids g.grid
        { r with again := (g.pos, areaKey g) :: r.again
                 regain := if r.left && !r.dealing && r.regain.isNone then some g.asked else r.regain }
    | none => d.grids }
  let s := clearCore (takeEngine s c) c
  match g.team with
  | none => s
  | some t => leaveTeam { s with teams := mupd s.teams q {} fun v => { v with away := g.pos :: v.away } } q g.grid t

/-! ## Restoring (R412) -/

/-- A register as section 4 gives it; its value comes later from section 3. -/
def regFrom (s : State) (base lend t l n : Nat) (r : Reg) : Reg :=
  let b := (homeByte s (base + secOff lend 4 + (if t = feIdx then 131072 + n else (t * 256 + n) * 32 + l))).toNat
  { cur := { v := r.cur.v, full := b.testBit 0, poison := b.testBit 1, dead := b.testBit 2 }, old := [], dirty := false, absent := true }

/-- A thread as its frame, section 4 and section 1 give it. -/
def thrFrom (s : State) (g : Group) (t : Nat) (h : Thr) : Thr :=
  let h := { h with nextIssue := 0, lastIssue := none, readySince := 0 }
  if !g.area then settle h
  else
    let base := g.ckbase.toNat
    let lend := g.lenders.length
    let sh : Shadow := { lat := h.lat, slots := h.slots, arrived := h.lanes.map (·.arrived) }
    let u := frameThr h (t = feIdx) sh (homeBytes s (base + secOff lend 2 + 4096 * t) 4096)
    { u with regs := u.regs.map fun (k, r) => (k, regFrom s base lend t (k / 256) (k % 256) r) }

/-- The lenders of a saved group and those of its new core, in order (R66). -/
structure Moved where
  /-- core that held it. -/
  old : Nat
  /-- its lenders there. -/
  oldL : List Nat
  /-- core it is restored on. -/
  new : Nat
  /-- its lenders now. -/
  newL : List Nat

/-- The core that stands for one of the old place. -/
def Moved.core (v : Moved) (k : Nat) : Nat := if k = v.old then v.new else v.newL.getD ((v.oldL.findIdx? (· = k)).getD 0) v.new

/-- A place of the old core as a place of the new one. -/
def Moved.loc (v : Moved) : Loc → Loc
  | .scr k off => .scr (v.core k) off
  | l => l

/-- A thread's register slices in lenders' files move with them (R64, R66). -/
def Moved.thr (v : Moved) (h : Thr) : Thr := { h with slices := h.slices.map fun c => { c with lender := c.lender.map v.core } }

/-- A saved copy or SFILL on its new core, its numbers of other agents forgotten (R412). -/
def Moved.job (v : Moved) (j : Job) : Job :=
  { j with paused := false
           work := match j.work with
             | .sfill bar ph ls => .sfill bar ph (ls.map fun (l, a, d) => (l, { a with loc := v.loc a.loc }, d))
             | w => w }

/-- The page of an access of a replayed load cannot be walked yet (R129, R421). -/
def pageWaits (s : State) (g : Group) (a : Acc) : Bool := a.isMem && walkWaits s g.part g.asid a.va

/-- The replay list of a core's group cannot issue yet. -/
def replayWaits (s : State) (c : Nat) : Bool :=
  (grpOf s c).replay.any fun f => match f.what with
    | .load _ accs => accs.any (pageWaits s (grpOf s c))
    | _ => false

/-- An access of a replayed load, translated anew: its place, or none when its page no longer allows it. -/
def replayAcc (s : State) (c : Nat) (super : Bool) (a : Acc) : Option Acc :=
  match a.loc with
  | .scr _ _ => some a
  | .mem _ => match translate s c (grpOf s c).part (grpOf s c).asid super .read a.va with
    | .ok (pa, at') => some { a with loc := .mem pa, attr := at' }
    | .error _ => none

/-- A load of the replay list issues again under a number of its own: its pages are translated anew, an access whose page no
longer allows it fills with an open, poisoned value, and no reservation follows (R151, R412). [DESIGN CHOICE: log 91] -/
def replayFill (s : State) (c id : Nat) (num : Nat → Option Nat) (f : Fill) : State :=
  match f.what with
  | .load sx accs =>
    let g := grpOf s c
    let ok := accs.filterMap (replayAcc s c (thrOf s c f.thr).super)
    let lost := accs.filter fun a => (replayAcc s c (thrOf s c f.thr).super a).isNone
    let (gone, s) := lost.foldl (fun (r : List (Nat × List Word × Bool) × State) a =>
      let (ws, s) := freeWords r.2 (if a.size ≤ 4 then 1 else a.size / 4)
      (r.1 ++ [(a.lane, ws, true)], (startWalk s c g.part g.asid a.va).1)) ([], s)
    let (s, ws) := (ok.filter Acc.isMem).foldl (fun (r : State × List Nat) a =>
      let (s, w) := startWalk r.1 c g.part g.asid a.va
      let (s, bs) := touchRange s c (dieOf c) a.pa a.size a.attr.nhc
      (s, r.2 ++ w.toList ++ bs)) (s, [])
    let f := { f with id := id, core := c, due := s.time + 1, waits := ws, behind := f.behind.filterMap num, noResv := true
                      what := .load sx ok, got := f.got ++ gone }
    updMem s fun m => { m with fills := m.fills ++ [f] }
  | _ => updMem s fun m => { m with fills := m.fills ++ [{ f with id := id, core := c, due := s.time + 1, behind := f.behind.filterMap num }] }

/-- The replay list of a core's group issues again in program order (R410, R412). -/
def replayAll (s : State) (c : Nat) : State :=
  let fs := (grpOf s c).replay
  let base := s.nextId
  let num (k : Nat) : Option Nat := (fs.findIdx? fun f => f.id = k).map (base + ·)
  let s := { s with nextId := base + fs.length }
  let s := fs.zipIdx.foldl (fun s (f, k) => replayFill s c (base + k) num f) s
  updGrp s c fun g => { g with replay := [] }

/-- Scratch of a core and its lenders from section 5, laid out as the saved group had it. -/
def scratchFrom (s : State) (c : Nat) (saved : Group) : State :=
  let g := grpOf s c
  let base := g.ckbase.toNat + secOff saved.lenders.length 5
  let n := sec5Bytes saved
  let bit (o i : Nat) : Bool := (homeByte s (base + o + i / 8)).toNat.testBit (i % 8)
  (c :: g.lenders).zipIdx.foldl (fun s' (k, j) =>
    let idx := (List.range n).filter fun o => (sec5At saved o).1 = j
    updCore s' k fun v =>
      { v with
        scr := idx.foldl (fun m o => bset m (sec5At saved o).2 (homeByte s (base + o))) []
        scrP := (idx.filter fun o => o % 4 = 0).foldl (fun m o => mflag m ((sec5At saved o).2 / 4) (bit n (o / 4))) []
        scrT := (idx.filter fun o => o % 16 = 0).foldl (fun m o => mflag m ((sec5At saved o).2 / 16) (bit (n + n / 32) (o / 16))) [] }) s

/-- Scratch of a core and its lenders from the image of a group without an area. -/
def scratchImage (s : State) (c : Nat) (m : Image6) : State :=
  (c :: (grpOf s c).lenders).zipIdx.foldl (fun s (k, j) =>
    match (m.core :: m.lent)[j]? with
    | some v => updCore s k fun u => { u with scr := v.scr, scrP := v.scrP, scrT := v.scrT }
    | none => s) s

/-- A share returns to an engine for a core: jobs take their slots again, or free ones where another has taken them
(R178, R411 section 6). [DEDUCED: log 55] -/
def putShare (c : Nat) (h : EngShare) (e : Eng) : Eng :=
  let e := { e with
    slots := h.slots.foldl (fun t (k, o) => mset t k { o with core := c }) e.slots
    staged := h.staged.foldl (fun t (g, rs) => mset t g (mgetD t g [] ++ rs.map fun r => { r with core := c })) e.staged }
  let e := h.accs.foldl (fun e (k, a) => putAcc e (k / 2) (k % 2) { a with core := c }) e
  (h.ents.filter Ent.isJob).foldl (fun e n =>
    let n := { n with core := c, paused := false }
    match n.run with
    | none => { e with table := e.table ++ [n] }
    | some r =>
      let (ks, slots) := r.slots.foldl (fun (a : List Nat × FMap OSlot) k =>
        let k := if !mhas a.2 k then k
          else ((List.range 64).find? fun j => !mhas a.2 j && !e.retired.contains j).getD k
        (a.1 ++ [k], mset a.2 k { use := .job, core := c, asid := n.asid })) ([], e.slots)
      { e with table := e.table ++ [{ n with run := some { r with slots := ks } }], slots := slots }) e

/-- The value of an OCLM's result in every lane. -/
def FillWhat.revalue (v : Nat) : FillWhat → FillWhat
  | .value vs => .value (vs.map fun (l, _, p) => (l, [BitVec.ofNat 32 v], p))
  | w => w

/-- A waiting OCLM or OREL of a saved group executes again (R335, R345): a claim is judged anew, and its result with it; a slot
that is no longer there to release is left as it is. [DESIGN CHOICE: log 105] -/
def claimAgain (c : Nat) (s : State) (n : Ent) : State :=
  let q := quadOf c
  let f := foreseen (engOf s q)
  let put (op : EntOp) (s : State) : State :=
    updEng s q fun e => settleSlots { e with table := e.table ++ [{ n with core := c, paused := false, op := op }], idle := false }
  match n.op with
  | .oclm any k =>
    let r := oclmResult any f k
    let s := updGrp s c fun g =>
      { g with replay := g.replay.map fun h => if h.waits = [n.id] then { h with what := h.what.revalue r.2 } else h }
    match r.1 with
    | some k => put (.oclm any k) s
    | none => s
  | .orel k =>
    match mget f.slots k with
    | some o => if o.use = .job ∨ ¬ o.asid = n.asid then s else put (.orel k) s
    | none => s
  | _ => s

/-- The engines' shares of an image return: to the quad of the new core, and those of forwarded jobs to their engines
(R411 section 6). [DEDUCED: log 55] -/
def engineFrom (s : State) (c : Nat) (m : Image6) : State :=
  let s := updEng s (quadOf c) fun e => settleSlots (putShare c m.near e)
  let s := (m.near.ents.filter Ent.slotOp).foldl (claimAgain c) s
  m.far.foldl (fun s (q, h) => updEng s q fun e => { settleSlots (putShare c h e) with idle := false }) s

/-! ## What an area holds (R363, R411) -/

/-- An accepted store is still to be applied in an area of a size, or a home of it is in reset: a read of the area waits
(R129, R431). [DEDUCED: log 53] -/
def areaBusy (s : State) (base n : Nat) : Bool :=
  rangeDown s base n || s.mem.stores.any fun st => st.isAccepted && decide (base < 64 * st.line + 64) && decide (64 * st.line < base + n)

/-- The sections 1 and 6 that stand in an area are those of the n-th checkpoint, and the header names its lender count.
[DEDUCED: log 54] -/
def standsAt (s : State) (base n : Nat) (m : Image6) : Bool :=
  let has (off k len : Nat) : Bool := (List.range len).all fun o => homeByte s (base + off + o) = openByte n k o
  leAt (areaHeader s base) 0x0E 1 = m.group.lenders.length && has (secOff 0 1) 1 8192 && has (secOff m.group.lenders.length 6) 6 (sec6Bytes n m)

/-- A thread whose section 1 nothing tells: its frame and section 4 stand for it. [DESIGN CHOICE: log 96] -/
def bareThr (s : State) (base lend t : Nat) : Thr :=
  let fe : Bool := t = feIdx
  let ls := if fe then 1 else 32
  let byte (l n : Nat) : Nat := (homeByte s (base + secOff lend 4 + (if fe then 131072 + n else (t * 256 + n) * 32 + l))).toNat
  let held := (List.range ls).flatMap fun l => (List.range (if fe then 64 else 256)).filterMap fun n =>
    if (byte l n).testBit 3 then some (rkey l n, ({} : Reg)) else none
  { lanes := List.replicate ls {}
    regs := held.foldl (fun m (k, r) => mset m k r) []
    blocks := [1, 2, 3].foldl (fun v b => if !fe && (byte 0 (64 * b)).testBit 3 then v + 2 ^ (b - 1) else v) 0
    sstatus := BitVec.ofNat 32 (leNat ((homeBytes s (base + secOff lend 2 + 4096 * t + 0x40) 4).map (·.1)))
    slot := if t < 8 then some (t % 2) else none }

/-- An area whose section 1 is no checkpoint's: the group is what its header, frames, registers and scratch say, of the grid that its
launch record names. [DESIGN CHOICE: log 96] -/
def bareImage (s : State) (base : Nat) : Image6 :=
  let h := areaHeader s base
  let asid := leAt h 4 4
  let lend := leAt h 0x0E 1
  let g0 : Group := match s.disp.grids.find? fun (_, r) => r.asid = asid && r.va = leAt h 0x18 8 with
    | some (n, r) => groupOf n r (Config.freeNat (openAt s 13 base) % 2 ^ 32)
    | none => { grid := 2 ^ 64 + base, part := ((asidFresh s 0 asid).map (·.1)).getD 0 }
  let ws := List.range (leAt h 0x0D 1)
  { group := { g0 with
      asid := asid, heat := leAt h 0x0C 1, record := leAt h 0x18 8, resident := ws, lenders := List.replicate lend 0, sched := []
      team := if (leAt h 0x0F 1).testBit 1 then g0.team else none, ckbase := BitVec.ofNat 64 base, area := true }
    core := {}
    thrs := (ws ++ [feIdx]).map fun t => (t, bareThr s base lend t) }

/-- The group that an area holds: that of its last checkpoint or of another one whose sections stand there, else what the rest
of it says; its ASID, heat class and launch record are those of the header (R364). [DEDUCED: log 54] -/
def areaImage (s : State) (base : Nat) : Image6 :=
  let h := areaHeader s base
  let last := match mget s.xl.ckLast (base / 65536) with
    | some n => (s.xl.ckImages.filter fun e => e.1 = n)
    | none => []
  match (last ++ s.xl.ckImages.reverse).find? fun (n, m) => standsAt s base n m with
  | some (_, m) => { m with group := { m.group with asid := leAt h 4 4, heat := leAt h 0x0C 1, record := leAt h 0x18 8 } }
  | none => bareImage s base

/-- The last checkpoint behind a key of areaKey, as the dispatcher that wrote it knows it. -/
def lastImage (s : State) (key : Nat) : Image6 :=
  ((mget s.xl.ckLast key).bind (mget s.xl.ckImages)).getD { group := {}, core := {}, thrs := [] }

/-- What a restore reads behind a key of areaKey (R412). -/
def savedImage (s : State) (key : Nat) : Image6 := if key < 2 ^ 60 then areaImage s (65536 * key) else lastImage s key

/-- Seat a saved group on a core, its restore still to come (R66, R363). [DEDUCED: log 53, 54] -/
def seatSaved (s : State) (c : Nat) (m : Image6) (park : Bool) : State :=
  let ls := lendersFor s c m.group.heat
  let q := quadOf c
  let s := seatGroup s c { m.group with st := .restoring park false, ck := none, moving := false } ls
  match m.group.team with
  | none => s
  | some t =>
    let t0 := ((mget s.disp.grids m.group.grid).bind fun r => mget r.teams t).getD {}
    let cur := (mget s.teams q).getD t0
    { s with teams := mset s.teams q { cur with away := cur.away.filter fun p => !(p = m.group.pos) } }

/-- The grid of a saved group counts it: it no longer waits to be dealt again, or one more group of the grid is live. [DEDUCED: log 55] -/
def claimSaved (s : State) (g : Group) : State :=
  updDisp s fun d => { d with grids := match mget d.grids g.grid with
    | some r =>
      if r.again.any fun e => e.1 = g.pos then
        let rest := r.again.filter fun e => !(e.1 = g.pos)
        mset d.grids g.grid { r with again := rest, regain := if rest.isEmpty then none else r.regain }
      else mset d.grids g.grid { r with live := r.live + 1 }
    | none => d.grids }

/-- The image of a group of a grid that waits to be placed again. -/
def ownImage (s : State) (grid pos key : Nat) : Image6 :=
  let m := lastImage s key
  { m with group := { m.group with grid := grid, pos := pos } }

/-- A migrating group is placed on the lowest eligible logical core at once; a team, or a group without a place, waits to
be dealt again (R66). [DEDUCED: log 61; DESIGN CHOICE: log 99] -/
def migrate (s : State) (g : Group) : State :=
  match g.team, (logCores s g.part).find? (eligibleCore s g.part g.heat) with
  | none, some c => seatSaved (claimSaved s g) c (ownImage s g.grid g.pos (areaKey g)) g.parkedBy.isSome
  | _, _ => s

/-- CHECKPOINT_WRITE_COMPLETE (R410, R411): once every section is past Tw the header is written; once that is past Tw the
checkpoint is complete, and the core of a pre-empted group is free. [DEDUCED: log 54] -/
def execCheckpointWriteComplete (core : Nat) (s : State) : Host.Outcome State Fault Refusal :=
  .next (match (coreOf s core).group with
    | some g => match g.ck with
      | some (n, hdr) =>
        if !agentDone s core n || (g.area && areaBusy s g.ckbase.toNat 64) then s
        else if !hdr then
          let s := if g.area then physPut s (.engine core) g.ckbase.toNat (plain (ckHeader s core)) else s
          updGrp s core fun g => { g with ck := some (s.nextId, true) }
        else
          let s := updGrp s core fun g => { g with ck := none }
          if g.st = .saving then (if g.moving then migrate (vacate s core) g else vacate s core) else s
      | none => s
    | none => s)

/-- Sections 1, 2, 4, 5 and 6 of a saved group are read on its core (R412). -/
def restoreFrom (s : State) (c : Nat) (m : Image6) : State :=
  let g := grpOf s c
  let v : Moved := { old := m.group.seat, oldL := m.group.lenders, new := c, newL := g.lenders }
  let s := updCore s c fun k =>
    { k with tags := m.core.tags, tagerr := m.core.tagerr, ports := m.core.ports, lost := m.core.lost, lostN := m.core.lostN
             jobs := m.core.jobs.map v.job, past := m.core.past.map fun p => { p with loc := v.loc p.loc } }
  let saved := { g with lenders := m.group.lenders }
  let s := m.thrs.foldl (fun s (t, h) => setThr s c t (v.thr (thrFrom s saved t h))) s
  engineFrom (if g.area then scratchFrom s c saved else scratchImage s c m) c m

/-- The dispatcher looks at its grids again: a group that runs can be pre-empted for an URGENT one (R60, R68). -/
def dealSoon (s : State) : State := updDisp s fun d => { d with dealDue := true }

/-- GROUP_RESTORE (R412): sections 1, 2, 4, 5 and 6 are read, the replay list issues again, and the group runs or stays
parked. -/
def execGroupRestore (core : Nat) (s : State) : Host.Outcome State Fault Refusal :=
  .next (match (coreOf s core).group with
    | some g => match g.st with
      | .restoring park halt =>
        if replayWaits s core || (g.area && areaBusy s g.ckbase.toNat (areaBytes g.lenders.length)) then s
        else
          let s := qbarCheck (updGrp (restoreFrom s core (savedImage s (areaKey g))) core fun h => { h with st := .running }) (quadOf core)
          if park || halt then updGrp s core fun g => { g with st := .parked (g.parkedBy.getD false), parkedBy := none, seat := core }
          else tryEnd (dealSoon (updGrp (replayAll s core) core fun g => { g with seat := core })) core
      | _ => s
    | none => s)

/-- REGISTER_RESTORE_BACKGROUND (R412): a register of a thread takes its value from section 3 in every lane. -/
def execRegisterRestoreBackground (core thr reg : Nat) (s : State) : Host.Outcome State Fault Refusal :=
  .next (match (coreOf s core).group with
    | some g =>
      if !g.area || g.isRestoring || areaBusy s (g.ckbase.toNat + secOff 0 3) 524544 then s
      else loadRegs s core thr (· = reg)
    | none => s)

end Sys2Proof.Machine
end

