-- ==== Sys2Proof/Machine/System.lean ====
section
/-! DEFINITION. Class 7: traps and their return, control and status registers, time and counters, the scratch split, tier
hints, translation invalidation, and halting, saving and restoring groups (R346 to R364); and the issue of a word whose
OPC is unassigned (R202). -/

namespace Sys2Proof.Machine

/-! ## Traps (R348 to R350) -/

/-- ILLEGAL_OPCODE (R202). -/
def execIllegalOpcode (w : IWord) (s : State) : Host.Outcome State Fault Refusal :=
  let _ := w
  .next (takeFault s { code := 0x01, mask := s.cur.mask })

/-- The record of TRAP and BRK: SOFTWARE_TRAP with the code, for the active lanes. [DEDUCED: log 14] -/
def trapRec (x : Form) (s : State) (brk : Bool) : FRec :=
  { code := 0x1A, mask := actMask s x, info := x.f 0 16, brk := brk }

/-- Trap after the instruction: the saved PCs are PC + 12 (R348). -/
def trapAfter (i : Instr) (x : Form) (s : State) (brk : Bool) : State :=
  trapWith s fun u => enterTrap (finish i x u false u) (trapRec x s brk)

/-- TRAP (R348). -/
def execTrap (x : Form) (s : State) : Host.Outcome State Fault Refusal :=
  let i := Instr.trap x
  run i x s (trapAfter i x s false)

/-- BRK (R349): a trap, or a halt of the group when BRKH is set. -/
def execBrk (x : Form) (s : State) : Host.Outcome State Fault Refusal :=
  let i := Instr.brk x
  run i x s (
    if (curThr s).sstatus.getLsbD 3 then
      let t := finish i x s false s
      if (grpOf t t.cur.core).st = .running then requestHalt t t.cur.core true true else t
    else trapAfter i x s true)

/-- An instruction that starts something and holds the thread waits while the other set of its cycle holds the thread
(R22). [DEDUCED: log 16] -/
def alone (i : Instr) (s : State) (k : State) : State :=
  match (curThr s).hold with
  | some o => if o.mask = s.cur.mask ∧ o.pc = s.cur.pc then k else holdOn i s .retry false false false
  | none => k

/-- The first line of a frame that faults on a read: its address and code. -/
def frameFault (s : State) (c fa : Nat) : Option (Nat × Nat) :=
  (List.range 64).findSome? fun i => match superLoc s c .read (fa + 64 * i) 64 with
    | .error e => some (fa + 64 * i, e)
    | .ok _ => none

/-- Live lanes whose PC is not a multiple of 4. [DEDUCED: log 14] -/
def oddLanes (t : Thr) : List Nat :=
  (List.range t.lanes.length).filter fun l => (laneOf t l).live && !((laneOf t l).pc.toNat % 4 = 0)

/-- A thread held in a class 7 instruction: a yield point only with YLD (R347). -/
def holdSys (i : Instr) (x : Form) (s : State) : State := holdOn i s .retry x.yld false (begun s)

/-- ERET (R350). -/
def execEret (x : Form) (s : State) : Host.Outcome State Fault Refusal :=
  let i := Instr.eret x
  run i x s (
    let c := s.cur.core
    let n := s.cur.thr
    let t := curThr s
    if t.tdepth = 0 then takeFault s (badValue (maskOf [lowLane s x]))
    else
      let fa := frameAddr (grpOf s c) n (t.tdepth - 1)
      match frameFault s c fa with
      | some (a, e) => takeFault s { code := e, mask := maskOf [lowLane s x], addr := a, walked := true }
      | none =>
        if !frameReady s c n fa then holdSys i x s
        else match readFrame s c n fa with
        | none => s
        | some bs =>
          let y := x.yld && !curFe s
          let r := eretThr t (curFe s) bs
          match oddLanes r with
          | l :: ls => takeFault s { code := 0x04, mask := maskOf (l :: ls), addr := (laneOf r l).pc.toNat }
          | [] =>
            if y && leaveBlocked t then holdSys i x s
            else
            -- the leave actions of a YLD hint are those of the handler's latches and slots (R200, R225)
            let s := frameTouch s c fa
            let s := if y then leaveNow s c n else s
            let u := eretThr (curThr s) (curFe s) bs
            let v := account x (endCycle i x s) (if curFe s then 0 else conflicts i x s) (setThr s c n u)
            afterExit (if y && readyWaiter v c n then leavePlace v else v) c n)

/-! ## Control and status registers (R351 to R355) -/

/-- The value of a CSR. -/
def csrVal (s : State) (n : Nat) : DWord :=
  let c := s.cur.core
  let g := grpOf s c
  let t := curThr s
  match n with
  | 0x000 => t.numst.setWidth 64
  | 0x001 => (coreOf s c).tagerr
  | 0x800 => t.sstatus.setWidth 64
  | 0x801 => g.tvec
  | 0x802 => g.tframe
  | 0x803 => (coreOf s c).proof.setWidth 64
  | 0x804 => BitVec.ofNat 64 g.asid
  | 0x805 => g.ckbase
  | 0x806 => BitVec.ofNat 64 (logOf s g.part c)
  | 0x840 => t.l2pidx.setWidth 64
  | 0x841 => BitVec.ofNat 64 (l2pWord s g.part t.l2pidx.toNat)
  | _ => BitVec.ofNat 64 (hmapWord s (n - 0x820))

/-- The RW bits of a CSR; none for one with no RW field (R352 to R354). -/
def csrRw (n : Nat) : Option DWord :=
  match n with
  | 0x000 => some 0xF
  | 0x800 => some 0x28
  | 0x801 | 0x802 | 0x805 => some 0xFFFFFFFFFFFFFFFF
  | 0x803 | 0x840 => some 0xFFFFFFFF
  | _ => none

/-- The RO bits of a CSR that has RW bits; the rest is reserved. -/
def csrRo (n : Nat) : DWord := if n = 0x800 then 0xD0 else 0

/-- The value lies in the range of the register (R352). -/
def csrRange (n : Nat) (v : DWord) : Bool :=
  match n with
  | 0x801 => v.toNat % 64 = 0 && decide (v.toNat < 2 ^ 52)
  | 0x802 => v.toNat % 64 = 0
  | 0x803 => decide (64 ≤ v.toNat) && decide (v.toNat ≤ 4096)
  | 0x805 => v.toNat % 65536 = 0
  | 0x840 => decide (v.toNat ≤ 335)
  | _ => true

/-- Write a CSR. -/
def csrPut (s : State) (n : Nat) (v : DWord) : State :=
  let c := s.cur.core
  match n with
  | 0x000 => updCur s fun t => { t with numst := v.setWidth 32 }
  | 0x800 => updCur s fun t => { t with sstatus := v.setWidth 32 }
  | 0x801 => updGrp s c fun g => { g with tvec := v }
  | 0x802 => updGrp s c fun g => { g with tframe := v }
  | 0x803 => updCore s c fun k => { k with proof := v.setWidth 32 }
  | 0x805 => updGrp s c fun g => { g with ckbase := v, area := true }
  | 0x840 => updCur s fun t => { t with l2pidx := v.setWidth 32 }
  | _ => s

/-- CSRR (R351). -/
def execCsrr (x : Form) (s : State) : Host.Outcome State Fault Refusal :=
  let i := Instr.csrr x
  let n := (csrRegs (x.f 0 12)).getD 1
  run i x s (fixed i x n s fun _ => { w := natWords n (csrVal s (x.f 0 12)).toNat })

/-- The operand of a CSR write, from the lowest active lane. -/
def csrArg (i : Instr) (x : Form) (s : State) : DWord := BitVec.ofNat 64 (srcNo i x s 3 (lowLane s x)).n

/-- A CSR write: op gives the new value, or nothing when the operand is not allowed (R351). -/
def csrWrite (i : Instr) (x : Form) (s : State) (op : DWord → DWord → DWord → DWord → Option DWord) : State :=
  let n := x.f 0 12
  match poisonFault i x s [3] with
  | some f => takeFault s f
  | none =>
    match (csrRw n).bind fun rw => op rw (csrRo n) (csrVal s n) (csrArg i x s) with
    | none => takeFault s (badValue (maskOf [lowLane s x]))
    | some v =>
      if csrRange n v then finish i x s false (csrPut (killDead i x s) n v)
      else takeFault s (badValue (maskOf [lowLane s x]))

/-- CSRW (R351): RO bits must be written as they are, reserved bits as zero. -/
def execCsrw (x : Form) (s : State) : Host.Outcome State Fault Refusal :=
  let i := Instr.csrw x
  run i x s (csrWrite i x s fun rw ro old v => if v &&& ~~~rw = old &&& ro then some v else none)

/-- CSRS (R351). -/
def execCsrs (x : Form) (s : State) : Host.Outcome State Fault Refusal :=
  let i := Instr.csrs x
  run i x s (csrWrite i x s fun rw _ old v => if v &&& ~~~rw = 0 then some (old ||| v) else none)

/-- CSRC (R351). -/
def execCsrc (x : Form) (s : State) : Host.Outcome State Fault Refusal :=
  let i := Instr.csrc x
  run i x s (csrWrite i x s fun rw _ old v => if v &&& ~~~rw = 0 then some (old &&& ~~~v) else none)

/-! ## Time and counters (R356, R357) -/

/-- Long-latency results of the active lanes are still under way. -/
def producersOut (s : State) (x : Form) : Bool :=
  s.mem.fills.any fun f => f.core = s.cur.core && f.thr = s.cur.thr && !(f.lanes &&& actMask s x = 0)

/-- TIME (R356). [DESIGN CHOICE: log 102] -/
def execTime (x : Form) (s : State) : Host.Outcome State Fault Refusal :=
  let i := Instr.time x
  run i x s (
    if x.m 0 1 = 1 && producersOut s x then holdSys i x s
    else fixed i x 2 s fun _ => { w := natWords 2 (nowNs s) })

/-- A performance counter (R357). [DEDUCED: log 76] -/
def perfVal (s : State) (n : Nat) : Nat :=
  let k := coreOf s s.cur.core
  let g := grpOf s s.cur.core
  let t := curThr s
  match n with
  | 0 => k.cycle
  | 1 => t.issued
  | 2 => t.bankconf
  | 3 => k.migStall
  | 4 => k.wakeHold
  | 5 => k.wakeReplay
  | 6 => g.dqDropped
  | 7 => t.fairsw
  | 8 => k.lentAcc
  | 9 => k.hbmBackoff
  | 10 => g.preempts
  | _ => g.ckptBytes

/-- PERF (R357). -/
def execPerf (x : Form) (s : State) : Host.Outcome State Fault Refusal :=
  let i := Instr.perf x
  run i x s (fixed i x 2 s fun _ => { w := natWords 2 (perfVal s (x.f 0 8)) })

/-! ## The scratch split (R108, R358) -/

/-- Bytes that a plane record covers. -/
def Planes.extent (p : Planes) : Nat := p.at' (p.nch - 1) (p.rows - 1) p.cols - p.base

/-- Address ranges (base, bytes) that a copy reads or writes; a gather's or scatter's stream of indices can reach any
address from its base on. -/
def workRanges : CopyWork → List (Nat × Nat)
  | .plain src dst len => [(src, len), (dst, len)]
  | .rows src dst len stride rows => (dst, len * rows) :: (List.range rows).map fun r => (src + r * stride, len)
  | .card b src dst aux _ =>
    let k := CopyCard.of b
    match k.kind with
    | 0 => [(k.src, k.count), (k.dst, k.count)]
    | 2 => [(k.src, 2 ^ 32 * k.elem), (k.dst, k.count * k.elem), (k.aux, 4 * k.count)]
    | 3 => [(k.src, k.count * k.elem), (k.dst, 2 ^ 32 * k.elem), (k.aux, 4 * k.count)]
    | 4 => [(k.src, k.count), (k.dst, k.dlimit)]
    | _ =>
      let n := if k.dfmt = 10 then (Planes.of dst).rows * (Planes.of dst).cols else k.count
      [(if k.sfmt = 10 then ((Planes.of src).base, (Planes.of src).extent)
        else (k.src, if k.sfmt = 4 ∨ k.sfmt = 5 ∨ k.sfmt = 9 then ceilDiv n 32 * segBytes k.sfmt else n * (segBytes k.sfmt / 32))),
        (k.target dst, k.extent src dst)] ++
      (if k.sfmt = 3 then let p := Scales.of aux; [(p.base, p.rows * p.rstride)] else [])
  | .sfill size bar lanes => (scrWin + bar, 16) :: lanes.flatMap fun (_, a, d) =>
      (scrWin + d, size) :: match a.loc with
        | .scr _ o => [(scrWin + o, size)]
        | .mem _ => []

/-- A range reaches scratch at or above an offset. -/
def reaches (lim : Nat) (r : Nat × Nat) : Bool :=
  decide (0 < r.2) && decide (scrWin + lim < r.1 + r.2) && decide (r.1 < scrWin + scrBytes)

/-- A copy, released schedule entry or SFILL in flight reads or writes scratch at or above an offset (R108). -/
def scratchUsed (s : State) (c lim : Nat) : Bool :=
  ((coreOf s c).jobs.any fun j => (workRanges j.work).any (reaches lim)) ||
    (grpOf s c).sched.any fun e => e.released && (workRanges (.rows e.src e.dst e.len e.stride e.rows)).any (reaches lim)

/-- A live barrier object lies at or above an offset. -/
def barrierAbove (s : State) (c lim : Nat) : Bool := (coreOf s c).scrT.any fun (k, _) => decide (lim < 16 * k + 16)

/-- What an unobserved write hides of a core's scratch below a limit (R108, R332). -/
def Past.below (c lim : Nat) (p : Past) : Option Past :=
  match p.loc with
  | .scr k o => if k = c then (if o < lim then some { p with old := p.old.take (lim - o) } else none) else some p
  | .mem _ => some p

/-- The new limit takes effect: bytes between the two limits are dropped, and section 5 is laid out anew (R108, R411). -/
def setSplit (s : State) (c k lim : Nat) : State :=
  let s := updCore s c fun v =>
    { v with
      scr := v.scr.filter fun (a, _) => decide (a < lim)
      scrP := v.scrP.filter fun (a, _) => decide (4 * a < lim)
      scrT := v.scrT.filter fun (a, _) => decide (16 * a < lim)
      past := v.past.filterMap (Past.below c lim)
      l1 := [] }
  updGrp s c fun g =>
    let g := { g with l1 := k }
    { g with scrDirty := List.range (ceilDiv (slimit g + lentBytes g) 4096) }

/-- RESIZE (R108, R358). -/
def execResize (x : Form) (s : State) : Host.Outcome State Fault Refusal :=
  let i := Instr.resize x
  run i x s (
    let c := s.cur.core
    let g := grpOf s c
    let k := x.f 0 2
    let new := scrBytes - l1Bytes k
    let lim := min new (slimit g)
    if k = g.l1 then finish i x s false s
    else if decide (new < g.scratchNeed) || barrierAbove s c lim then takeFault s (badValue (maskOf [lowLane s x]))
    else if scratchUsed s c lim then holdSys i x s
    else finish i x s false (setSplit s c k lim))

/-! ## Tier hints (R359) -/

/-- The TIER 3 pages of a range, as pages of their HBM4E backing. [DEDUCED: log 59] -/
def tierPages (s : State) (a b : Nat) : List Nat :=
  let c := s.cur.core
  let g := grpOf s c
  if b = 0 then []
  else (List.range ((a + b - 1) / 65536 + 1 - a / 65536)).filterMap fun i =>
    let va := (a / 65536 + i) * 65536
    if decide (2 ^ 52 ≤ va) || inReserved va then none
    else match translate s c g.part g.asid (curThr s).super .read va with
      | .ok (pa, at') => if at'.tier = 3 then some (pa / 65536) else none
      | .error _ => none

/-- TIERH (R359). -/
def execTierh (x : Form) (s : State) : Host.Outcome State Fault Refusal :=
  let i := Instr.tierh x
  run i x s (
    let l := lowLane s x
    let a := (srcNo i x s 3 l).n
    checked s (firstBad [poisonAddr i x s [3, 4] [3],
        badIf (decide (2 ^ 52 ≤ a)) { code := 0x05, mask := maskOf [l], addr := a }]) (
      let ps := tierPages s a (srcNo i x s 4 l).n
      finish i x s false (updXl (killDead i x s) fun v =>
        { v with hints := ps.foldl (fun h p => if x.m 0 2 = 2 then mdel h p
            else mset h p (if x.m 0 2 = 0 then s.cur.core + 1 else 0)) v.hints })))

/-! ## Translation invalidation (R360, R424, R428) -/

/-- A cached translation that a TLBI drops: one of another root than the ASID entry gives now goes with its ASID, G or not (R360,
R419). -/
def tlbiHits (s : State) (part form va asid : Nat) (e : TlbEnt) : Bool :=
  match form with
  | 0 => e.covers asid va
  | 1 => e.asid = asid && (!e.leaf.getLsbD 6 || !(asidVia s part asid = some e.via))
  | _ => true

/-- What a TLBI concerns: its form, address, ASID, and whether a dropped entry, or one a walk is about to bring, is of a 512 MiB
page (R360). -/
structure TlbiAim where
  form : Nat
  va : Nat
  asid : Nat
  big : Bool

/-- An access of an address space to an address can have used a dropped entry. -/
def TlbiAim.meets (t : TlbiAim) (asid va : Nat) : Bool :=
  match t.form with
  | 0 => asid = t.asid && (va / 65536 = t.va / 65536 || (t.big && va / 2 ^ 29 = t.va / 2 ^ 29))
  | 1 => asid = t.asid
  | _ => true

/-- A walk under way is about to bring a 512 MiB page of an address. -/
def bigWalk (s : State) (asid va : Nat) : Bool :=
  s.xl.walks.any fun w => w.asid = asid && w.page / 8192 = va / 2 ^ 29 && match w.res with
    | some (big, _) => big
    | none => false

/-- Cores whose translations a TLBI affects. -/
def tlbiCores (s : State) (part c : Nat) (pkg : Bool) : List Nat :=
  if pkg then (List.range 336).filter fun k => partHasDie s part (dieOf k) else [c]

/-- Accesses that can have used a dropped entry and are not performed: results, atomics, SFILLs, engine entries. [DEDUCED: log 59] -/
def tlbiUses (s : State) (aim : TlbiAim) (cs : List Nat) : List Nat :=
  let hit (c : Nat) (v : Nat) : Bool := aim.meets (grpOf s c).asid v
  let accs (c : Nat) (as' : List Acc) : Bool := as'.any fun a => a.isMem && hit c a.va
  (s.mem.fills.filter fun f => cs.contains f.core && match f.what with
      | .load _ as' => accs f.core as'
      | _ => false).map (·.id) ++
    (s.mem.atoms.filter fun a => cs.contains a.core && a.tw.isNone && aim.meets a.asid a.acc.va).map (·.id) ++
    cs.flatMap (fun c => ((coreOf s c).jobs.filter fun j => match j.work with
      | .sfill _ _ ls => accs c (ls.map fun (_, a, _) => a)
      | _ => false).map (·.id)) ++
    s.engs.flatMap fun (_, e) => (e.table.filter fun n => cs.contains n.core && n.fin.isNone &&
      n.pages.any fun p => aim.meets n.asid (p.1 * 65536)).map (·.id)

/-- The numbers of accesses that are still not performed. -/
def stillOut (s : State) (ids : List Nat) : Bool :=
  ids.any fun i => (s.mem.fills.any fun f => f.id = i) || (s.mem.atoms.any fun a => a.id = i && a.tw.isNone) ||
    (s.cores.any fun (_, k) => k.jobs.any fun j => j.id = i) ||
    s.engs.any fun (_, e) => e.table.any fun n => n.id = i && n.fin.isNone

/-- Dies of a partition that are in reset: compute dies 0 to 3, memory-side dies as 4 and up. -/
def diesInReset (s : State) (part : Nat) : List Nat :=
  ((List.range 4).filter fun d => partHasDie s part d && cdieInReset s d) ++
    ((mdiesOf (partWord s part)).filter (mdieInReset s)).map (· + 4)

/-- A reset concerns a die (R431). -/
def resetCovers (s : State) (r : RstUnit) (d : Nat) : Bool :=
  match r.kind with
  | 4 => decide (d < 4) && r.unit = d
  | 5 => decide (4 ≤ d) && r.unit + 4 = d
  | 6 => (if d < 4 then partOfDie s d else partOfMdie s (d - 4)) = some r.unit
  | 7 => true
  | _ => false

/-- The translation caches of a die in reset are not yet empty. -/
def notEmptied (s : State) (d : Nat) : Bool := s.resets.any fun r => resetCovers s r d && decide (nowNs s < r.emptyAt)

/-- Pages in a vault that a TLBI brings back first (R428). [DEDUCED: log 59] -/
def tlbiPages (s : State) (part form va asid : Nat) (dropped : List TlbEnt) : List Nat :=
  let cached := dropped.filterMap fun e => if (leafAttr e.big e.leaf).tier = 3 then some (entPa e.leaf / 65536) else none
  let mapped := if form = 0 then match walk s part asid va with
      | some (false, leaf) => if (leafAttr false leaf).tier = 3 then [entPa leaf / 65536] else []
      | _ => []
    else []
  ((cached ++ mapped).filter fun p => mhas s.xl.inVault p).eraseDups

/-- Drop the entries: caches, and the results of walks under way. [DEDUCED: log 59] -/
def tlbiDrop (s : State) (part : Nat) (aim : TlbiAim) (cs : List Nat) (pkg : Bool) : State :=
  let keep (l : List TlbEnt) : List TlbEnt := l.filter fun e => !tlbiHits s part aim.form aim.va aim.asid e
  let s := cs.foldl (fun s c => if (coreOf s c).tlb.isEmpty then s else updCore s c fun k => { k with tlb := keep k.tlb }) s
  -- without .pkg the core's die gives the dropped entry back to no core either
  let mine (d : Nat) : Bool := if !pkg then cs.any fun c => dieOf c = d
    else if d < 4 then partHasDie s part d else (mdiesOf (partWord s part)).contains (d - 4)
  let out := s.mem.stores.map fun st =>
    let hit := st.st = .buffered && match st.by' with
      | .thread c _ _ => cs.contains c && aim.meets st.asid st.va
      | _ => false
    if hit then { st with revoked := st.revoked || match walk s part st.asid st.va with
      | some (_, leaf) => !leaf.getLsbD 3
      | none => true } else st
  let s := updMem s fun m => { m with stores := out }
  updXl s fun x =>
    { x with
      dtlb := x.dtlb.map fun (d, l) => (d, if mine d then keep l else l)
      walks := x.walks.map fun w =>
        if mine w.die && aim.meets w.asid (w.page * 65536) then { w with res := none } else w }

/-- The conditions of R360, R424 and R428 hold. [DEDUCED: log 59] -/
def tlbiDone (s : State) (t : Tlbi) : Bool :=
  !stillOut s t.fills && !(t.dies.any (notEmptied s)) && !(t.pages.any fun p => mhas s.xl.inVault p)

/-- What a TLBI answers (R360). -/
def tlbiCode (t : Tlbi) : Val := { w := [if t.reset then 0x19 else 0] }

/-- TLBI of a form behind the shared checks. [DEDUCED: log 59] -/
def tlbiBody (i : Instr) (x : Form) (form : Nat) (s : State) : State :=
  let c := s.cur.core
  let g := grpOf s c
  let l := lowLane s x
  let va := (srcNo i x s 3 l).n
  let asid := (srcNo i x s 4 l).n
  let pkg := x.m 2 1 = 1
  checked s (firstBad [poisonAddr i x s [3, 4] [3], badIf (!(form = 2) && decide (1023 < asid)) (badValue (maskOf [l]))]) (
    let cs := tlbiCores s g.part c pkg
    let caches := cs.map (fun k => (coreOf s k).tlb) ++ (if pkg then s.xl.dtlb.map (·.2) else [])
    let dropped := caches.flatMap fun t => t.filter (tlbiHits s g.part form va asid)
    let aim : TlbiAim := { form := form, va := va, asid := asid, big := dropped.any (·.big) || bigWalk s asid va }
    let dies := if pkg then diesInReset s g.part else []
    let t : Tlbi :=
      { id := s.nextId, core := c, part := g.part, form := form, va := va, asid := asid, pkg := pkg, reset := !dies.isEmpty
        fills := tlbiUses s aim cs, dies := dies, pages := tlbiPages s g.part form va asid dropped }
    let u := tlbiDrop { s with nextId := s.nextId + 1 } g.part aim cs pkg
    if tlbiDone u t then finishPut i x 1 s false (fun _ => tlbiCode t) u
    else holdOn i (updXl u fun v => { v with tlbis := v.tlbis ++ [t] }) (.tlbi t.id) x.yld (x.yld && !curFe s) true)

/-- TLBI.va (R360). -/
def execTlbiVa (x : Form) (s : State) : Host.Outcome State Fault Refusal :=
  run (.tlbiVa x) x s (alone (.tlbiVa x) s (tlbiBody (.tlbiVa x) x 0 s))

/-- TLBI.asid (R360). -/
def execTlbiAsid (x : Form) (s : State) : Host.Outcome State Fault Refusal :=
  run (.tlbiAsid x) x s (alone (.tlbiAsid x) s (tlbiBody (.tlbiAsid x) x 1 s))

/-- TLBI.all (R360). -/
def execTlbiAll (x : Form) (s : State) : Host.Outcome State Fault Refusal :=
  run (.tlbiAll x) x s (alone (.tlbiAll x) s (tlbiBody (.tlbiAll x) x 2 s))

/-- TLBI_COMPLETE (R360, R424). -/
def execTlbiComplete (core thr : Nat) (s : State) : Host.Outcome State Fault Refusal :=
  .next (match resume s core thr, (thrOf s core thr).hold with
    | some (i, x, u), some o => match o.why with
      | .tlbi id => match s.xl.tlbis.find? fun t => t.id = id with
        | some t =>
          if tlbiDone s t then
            finishPut i x 1 u false (fun _ => tlbiCode t) (updXl u fun v => { v with tlbis := v.tlbis.filter fun w => !(w.id = id) })
          else s
        | none => s
      | _ => s
    | _, _ => s)

/-! ## Halting, saving and restoring groups (R361 to R364) -/

/-- The group of another logical core of the partition; none when the number names no such core or the issuing one. -/
def otherCore (i : Instr) (x : Form) (s : State) (no : Nat) : Option Nat :=
  match physOf s (grpOf s s.cur.core).part (srcNo i x s no (lowLane s x)).n with
  | some c => if c = s.cur.core then none else some c
  | none => none

/-- What a held PARK, CKPT or RSTO has started. -/
def aimOf (s : State) : Nat :=
  match (curThr s).hold with
  | some o => if o.mask = s.cur.mask ∧ o.pc = s.cur.pc then o.aim else 0
  | none => 0

/-- Hold the thread with what it has started. -/
def holdAim (i : Instr) (x : Form) (aim : Nat) (s : State) : State :=
  updCur (holdSys i x s) fun t => { t with hold := t.hold.map fun o =>
    if o.mask = s.cur.mask ∧ o.pc = s.cur.pc then { o with aim := aim } else o }

/-- End such an instruction with its status. [DEDUCED: log 56] -/
def answer (i : Instr) (x : Form) (s0 : State) (v : Nat) (s : State) : State :=
  finishPut i x 1 s0 false (fun _ => { w := [BitVec.ofNat 32 v] }) s

/-- PARK, CKPT behind the shared checks: A names another logical core of the partition. -/
def onOther (i : Instr) (x : Form) (s : State) (go : Nat → State) : State :=
  checked s (firstBad [poisonAddr i x s [3] [], badIf (otherCore i x s 3).isNone (badValue (maskOf [lowLane s x]))])
    (go ((otherCore i x s 3).getD 0))

/-- PARK.halt on a core: aim 1 for a halt of its own, 2 for one it has met, 3 for a restore to wait for (R361). -/
def parkHaltOn (i : Instr) (x : Form) (s : State) (c : Nat) : State :=
  let aim := aimOf s
  match (coreOf s c).group with
  | none => answer i x s (if aim = 2 then 2 else 0) s
  | some g =>
    match g.st with
    | .running | .ended => holdAim i x 1 (requestHalt s c true false)
    | .halting _ _ _ => holdAim i x (if aim = 1 then 1 else 2) s
    | .failing _ => holdAim i x 1 s
    | .saving => answer i x s 2 s
    | .parked _ => answer i x s (if aim = 1 then 1 else 2) s
    | .restoring true _ => holdAim i x 2 s
    | .restoring false true => holdAim i x (if aim = 1 then 1 else 2) s
    | .restoring false false => holdAim i x 1 (updGrp s c fun g => { g with st := .restoring false true })

/-- PARK.halt (R361). -/
def execParkHalt (x : Form) (s : State) : Host.Outcome State Fault Refusal :=
  let i := Instr.parkHalt x
  run i x s (alone i s (onOther i x s (parkHaltOn i x s)))

/-- A parked group goes on: copies and jobs resume, and the loads of the replay list issue again (R361). -/
def resumeGroup (s : State) (c : Nat) : State :=
  let s := updCore s c fun k => { k with jobs := k.jobs.map fun j => { j with paused := false } }
  let s := { s with engs := s.engs.map fun (q, e) =>
    (q, { e with table := e.table.map fun n => if n.core = c then { n with paused := false } else n }) }
  tryEnd (dealSoon (updGrp (replayAll s c) c fun g => { g with st := .running })) c

/-- PARK.run on a core (R361). -/
def parkRunOn (i : Instr) (x : Form) (s : State) (c : Nat) : State :=
  match (coreOf s c).group with
  | none => answer i x s 0 s
  | some g =>
    match g.st with
    | .parked _ => if g.ck.isSome || replayWaits s c then holdSys i x s else answer i x s 1 (resumeGroup s c)
    | .restoring true _ => holdSys i x s
    | _ => answer i x s 0 s

/-- PARK.run (R361). -/
def execParkRun (x : Form) (s : State) : Host.Outcome State Fault Refusal :=
  let i := Instr.parkRun x
  run i x s (alone i s (onOther i x s (parkRunOn i x s)))

/-- What PARK.query answers (R361). -/
def parkState (s : State) (c : Nat) : Nat :=
  match (coreOf s c).group with
  | none => 0
  | some g => match g.st with
    | .parked _ => 2
    | .halting _ _ _ => 3
    | .failing _ => 3
    | .saving => 3
    | .restoring park _ => if park then 2 else 1
    | _ => 1

/-- PARK.query (R361). -/
def execParkQuery (x : Form) (s : State) : Host.Outcome State Fault Refusal :=
  let i := Instr.parkQuery x
  run i x s (onOther i x s fun c => answer i x s (parkState s c) s)

/-- CKPT on a core: aim 1 once its checkpoint is being written (R362). -/
def ckptOn (i : Instr) (x : Form) (s : State) (c : Nat) : State :=
  let g := grpOf s c
  if aimOf s = 1 then
    if g.ck.isSome then holdAim i x 1 s else answer i x s 1 s
  else match (coreOf s c).group, g.st with
  | some _, .parked _ => if g.ck.isSome then holdSys i x s else holdAim i x 1 (writeCkpt s c)
  | _, _ => answer i x s 0 s

/-- CKPT (R362). -/
def execCkpt (x : Form) (s : State) : Host.Outcome State Fault Refusal :=
  let i := Instr.ckpt x
  run i x s (alone i s (onOther i x s (ckptOn i x s)))

/-- The header of an area is valid (R364). [DEDUCED: log 56] -/
def headerOk (h : List Byte) : Bool :=
  leAt h 0 4 = 1 && decide (leAt h 4 4 ≤ 1023) && decide (leAt h 0x0C 1 ≤ 3) && decide (leAt h 0x0D 1 ≤ 16) &&
    decide (leAt h 0x0E 1 ≤ 3) && (leAt h 0x0F 1).testBit 0 && decide (leAt h 0x0F 1 < 4) && leAt h 0x10 8 % 65536 = 0 &&
    leAt h 0x28 24 = 0

/-- The conditions of a heat class on a core but for its lenders (R59). [DEDUCED: log 56] -/
def classSeat (s : State) (c heat : Nat) : Bool :=
  let ns := neighbours s c
  match heat with
  | 0 => true
  | 1 => !(ns.any (runsClass s [2, 3]))
  | 2 => isWhite c && !(lendersFor s c 2).isEmpty && !(ns.any (runsClass s [1]))
  | _ => isSeat c && !(lendersFor s c 3).isEmpty && !(ns.any (runsClass s [1]))

/-- RSTO of an area on a logical core: its status, and the state when it places the group (R363). [DEDUCED: log 56] -/
def rstoOn (s : State) (part area b : Nat) (park : Bool) : Nat × State :=
  match physOf s part b with
  | none => (0, s)
  | some c =>
    let h := (homeBytes s area 64).map (·.1)
    if !coreFree s c then (0, s)
    else if !headerOk h || !asidLive s part (leAt h 4 4) then (2, s)
    else
      let heat := leAt h 0x0C 1
      if !corePresent s part c || atLimit s 0x10 c || !classSeat s c heat then (0, s)
      else if !((lendersFor s c heat).all (coreFree s)) then (3, s)
      else
        let m := areaImage s area
        (1, seatSaved (claimSaved s m.group) c { m with group := { m.group with ckbase := BitVec.ofNat 64 area, area := true } } park)

/-- RSTO behind the shared checks: aim 1 + core once it has placed the group. [DEDUCED: log 56] -/
def rstoBody (x : Form) (s : State) : State :=
  let i := Instr.rsto x
  let l := lowLane s x
  let area := (srcNo i x s 3 l).n
  let aim := aimOf s
  if 0 < aim then
    if (grpOf s (aim - 1)).isRestoring then holdAim i x aim s else answer i x s 1 s
  else
    checked s (firstBad [poisonAddr i x s [3, 4] [3], badIf (!(area % 65536 = 0)) { code := 0x04, mask := maskOf [l], addr := area }]) (
      let part := (grpOf s s.cur.core).part
      let b := (srcNo i x s 4 l).n
      if areaBusy s area (areaBytes 3) || asidWaits s (leAt ((homeBytes s area 64).map (·.1)) 4 4) then holdSys i x s
      else
      let (v, t) := rstoOn s part area b (x.m 0 1 = 1)
      if v = 1 then holdAim i x (1 + (physOf s part b).getD 0) t else answer i x s v t)

/-- RSTO (R363). -/
def execRsto (x : Form) (s : State) : Host.Outcome State Fault Refusal :=
  run (.rsto x) x s (alone (.rsto x) s (rstoBody x s))

end Sys2Proof.Machine
end

