-- ==== Sys2Proof/Machine/Home.lean ====
section
/-! DEFINITION. The memory side: the life of a store after its issue (R128 to R131, R153), walks (R423), vault banks and
their sleep (R105, R106), HBM4E banks and row management (R379 to R384, R450), and moves of TIER 3 pages (R104, R427). -/

namespace Sys2Proof.Machine

/-! ## Stores and leases -/

/-- A store that is on its way to its home: written back, or posted there at once. -/
def Store.atHome (s : State) (st : Store) : Bool :=
  match st.st with
  | .leaving => true
  | .buffered => st.die = 4 || homeIs s st.pa st.die
  | _ => false

/-- STORE_ACCEPT (R129). -/
def execStoreAccept (st : Nat) (s : State) : Host.Outcome State Fault Refusal :=
  .next (match storeOf s st with
    | some o => if o.atHome s && acceptable s o then acceptStore s o else s
    | none => s)

/-- Send the MSI-X messages whose record has passed Tw (R398). [DEDUCED: log 79] -/
def sendMsi (s : State) : State :=
  let out (p : Nat × Nat) : Bool := s.mem.stores.any fun st => st.id = p.1 && st.pending
  updDisp s fun d =>
    { d with msix := ((d.msiWait.filter fun p => !out p).map (·.2)).reverse ++ d.msix, msiWait := d.msiWait.filter out }

/-- A host read reaches its home, then returns the home's bytes once its banks have served it and no line of it stalls (R106, R129,
R431); an address that is not backed answers zeros. -/
def serveRead (s : State) (r : HostRead) : State :=
  if (List.range r.n).any fun i => lineStalls s ((r.pa + i) / 64) then s
  else
    let (s, ids) := match r.waits with
      | some ids => (s, ids)
      | none => touchRange s hostReq 4 r.pa r.n false
    if waiting s ids then
      updLink s fun k => { k with hostWait := k.hostWait.map fun o => if o = r then { o with waits := some ids } else o }
    else
      let word (i : Nat) : Byte × Bool :=
        if hostWritable s (r.pa + i) then (viewByte s 4 nobody (r.pa + i), viewPoison s 4 nobody (r.pa + i)) else (0, false)
      let bs := (List.range r.n).map word
      updLink s fun k => { k with hostRead := (bs.map (·.1), bs.any (·.2)) :: k.hostRead, hostWait := k.hostWait.erase r }

/-- Host reads that can be served, in order (R129, R157). -/
def serveReads (s : State) : State := s.link.hostWait.foldl serveRead s

/-- What waits for a store of its line to be applied goes on (R129, R157, R398). -/
def afterApply (s : State) : State := servePartials (serveReads (sendMsi s))

/-- STORE_APPLY (R129). -/
def execStoreApply (st : Nat) (s : State) : Host.Outcome State Fault Refusal :=
  .next (match storeOf s st with
    | some o => match o.st with
      | .accepted tw => if applicable s o then afterApply (applyStore s o tw) else s
      | _ => s
    | none => s)

/-- STORE_ACK (R130): the writer learns of it after Tw. -/
def execStoreAck (st : Nat) (s : State) : Host.Outcome State Fault Refusal :=
  .next (match storeOf s st with
    | some o => match o.st with
      | .applied tw => if tw ≤ nowNs s then updMem s fun m => { m with stores := m.stores.filter fun v => !(v.id = st) } else s
      | _ => s
    | none => s)

/-- LEASE_EXPIRE (R128): a copy is invalid from 8 ns before its lease ends. -/
def execLeaseExpire (die line : Nat) (s : State) : Host.Outcome State Fault Refusal :=
  .next (if s.mem.copies.any fun c => c.die = die && c.line = line && decide (c.until' ≤ nowNs s + 8) then dropCopy s die line else s)

/-- WRITEBACK_AGE (R153): lines of a die whose oldest buffered byte has waited 1 us. -/
def execWritebackAge (die : Nat) (s : State) : Host.Outcome State Fault Refusal :=
  .next (
    let old := s.mem.stores.filter fun st => st.die = die && st.st = .buffered && decide (st.t + 1000 ≤ nowNs s)
    (old.map Store.line).eraseDups.foldl (fun s l => writeBackLine s die l) s)

/-- LINE_EVICT (R153). -/
def execLineEvict (die line : Nat) (s : State) : Host.Outcome State Fault Refusal :=
  .next (dropCopy (writeBackLine s die line) die line)

/-! ## Walks -/

/-- PAGE_WALK_COMPLETE (R422, R423): a translation is cached; the requests that wait on the walk go on. -/
def execPageWalkComplete (walk : Nat) (s : State) : Host.Outcome State Fault Refusal :=
  .next (match s.xl.walks.find? fun w => w.id = walk with
    | some w =>
      if decide (w.due ≤ s.time) && !waiting s w.waits && (walksRunning s).contains w then
        let s := updXl s fun x => { x with walks := x.walks.filter fun v => !(v.id = walk) }
        match w.res with
        | some (big, leaf) =>
          let part := (if w.die < 4 then partOfDie s w.die else partOfMdie s (w.die - 4)).getD 0
          if leafOk s part big leaf (w.page * 65536) then
            let e : TlbEnt := { asid := w.asid, vpn := if big then w.page / 8192 else w.page, big := big, leaf := leaf, via := w.via }
            let s := updXl s fun x => { x with dtlb := mset x.dtlb w.die (tlbPut 4096 e (mgetD x.dtlb w.die [])) }
            w.cores.foldl (fun s c => countCore s c fun k => { k with tlb := tlbPut 64 e k.tlb }) s
          else s
        | none =>
          logWalk s w.die ((if w.die < 4 then partOfDie s w.die else partOfMdie s (w.die - 4)).getD 0) w.asid (w.page * 65536)
      else s
    | none => s)

/-! ## Vault banks (R105, R106) -/

/-- Accesses of a vault that are held. [DEDUCED: log 65] -/
def heldAt (s : State) (v : Nat) : Nat := (s.mem.reqs.filter fun r => r.vault && r.die = v && r.held).length

/-- Change a request. -/
def updReq (s : State) (id : Nat) (f : BankReq → BankReq) : State :=
  updMem s fun m => { m with reqs := m.reqs.map fun r => if r.id = id then f r else r }

/-- Forget a request: what waits on it goes on. -/
def delReq (s : State) (id : Nat) : State := updMem s fun m => { m with reqs := m.reqs.filter fun r => !(r.id = id) }

/-- VAULT_BANK_SLEEP (R105): after its idle time without an access; 0 disables sleep. [DEDUCED: log 65] -/
def execVaultBankSleep (bank : Nat) (s : State) : Host.Outcome State Fault Refusal :=
  .next (
    let k := vbankOf s bank
    if !k.asleep && k.wakeAt.isNone && !(k.idle = 0) && decide (k.last + k.idle ≤ nowNs s) then
      updVbank s bank fun k => { k with asleep := true }
    else s)

/-- VAULT_BANK_WAKE (R106): the wake has ended, and the held accesses of the bank are served. [DEDUCED: log 65] -/
def execVaultBankWake (bank : Nat) (s : State) : Host.Outcome State Fault Refusal :=
  .next (match (vbankOf s bank).wakeAt with
    | some t =>
      if t ≤ nowNs s then
        let s := updMem s fun m => { m with reqs := m.reqs.filter fun r => !(r.vault && r.bank = bank && r.held) }
        updVbank s bank fun k => { k with wakeAt := none, last := nowNs s, idle := policy s 0x16 }
      else s
    | none => s)

/-- Present requests of one requester to one bank in order, until one is NACKed (R106). [DEDUCED: log 65] -/
def presentAll (s : State) : List BankReq → State
  | [] => s
  | r :: rs =>
    let k := vbankOf s r.bank
    if !k.asleep && k.wakeAt.isNone then
      presentAll (updVbank (delReq s r.id) r.bank fun k => { k with last := nowNs s, idle := policy s 0x16 }) rs
    else
      let s := if k.asleep then updVbank s r.bank fun k =>
          { k with asleep := false, wakeAt := some (nowNs s + 120), last := nowNs s, idle := policy s 0x16 } else s
      if heldAt s r.die < 16 then
        presentAll (countCore (updReq s r.id fun q => { q with held := true, replay := none }) r.core
          fun c => { c with wakeHold := (c.wakeHold + 1) % 2 ^ 64 }) rs
      else
        countCore (updReq s r.id fun q => { q with replay := some (nowNs s + 128) }) r.core
          fun c => { c with wakeReplay := (c.wakeReplay + 1) % 2 ^ 64 }

/-- VAULT_REPLAY (R106): a NACKed access comes again, and behind it the later ones it holds back. [DEDUCED: log 65] -/
def execVaultReplay (req : Nat) (s : State) : Host.Outcome State Fault Refusal :=
  .next (match s.mem.reqs.find? fun r => r.id = req with
    | some r => match r.replay with
      | some t =>
        if t ≤ nowNs s then
          presentAll s (r :: s.mem.reqs.filter fun q => q.vault && q.bank = r.bank && q.core = r.core && !q.held &&
            q.replay.isNone && decide (r.id < q.id))
        else s
      | none => s
    | none => s)

/-! ## HBM4E banks (R379 to R383) -/

/-- Key of a bank. -/
def bankKey (die bank : Nat) : Nat := die * 1024 + bank
/-- A bank. -/
def bankOf (s : State) (die bank : Nat) : Bank := mgetD s.hbm.banks (bankKey die bank) {}
/-- Change a bank. -/
def updBank (s : State) (die bank : Nat) (f : Bank → Bank) : State :=
  updHbm s fun h => { h with banks := mupd h.banks (bankKey die bank) {} f }
/-- The current window (R380). -/
def windowNo (s : State) : Nat := nowNs s / 32000000
/-- The requests of a bank in order of arrival. -/
def bankReqs (s : State) (die bank : Nat) : List BankReq := s.mem.reqs.filter fun r => !r.vault && r.die = die && r.bank = bank

/-- A window begins on a die: counters are cleared, and the threshold set before takes effect (R380). -/
def startWindow (s : State) (die : Nat) : State :=
  if mgetD s.hbm.win die 0 = windowNo s then s
  else updHbm s fun h =>
    { h with
      win := mset h.win die (windowNo s)
      thr := mset h.thr die (policy s 0x15)
      banks := h.banks.map fun (k, b) => (k, if k / 1024 = die then { b with cnt := [] } else b) }

/-- ACTIVATION_WINDOW_START (R380). -/
def execActivationWindowStart (s : State) : Host.Outcome State Fault Refusal := .next ((List.range 8).foldl startWindow s)

/-- Rows that a refresh management refreshes (R381). -/
def neighbourRows (r : Nat) : List Nat := ((if 2 ≤ r then [r - 2] else []) ++ (if 1 ≤ r then [r - 1] else []) ++ [r + 1, r + 2]).filter (· < 49152)

/-- Step 1 of an alert of a request (R381, R384): the counters. [DESIGN CHOICE: log 64] -/
def raiseAlert (s : State) (die bank : Nat) (r : BankReq) : State :=
  updBank s die bank fun b =>
    { b with alerts := satAdd 32 b.alerts 1, lastRow := r.row, lastWin := windowNo s % 2 ^ 32, alerted := some r.id }

/-- Steps 2 and 3 of an alert (R381, R384): the open row closed, the neighbours refreshed, the bank blocked for 350 ns. -/
def startBlock (s : State) (die bank row : Nat) : State :=
  updBank s die bank fun b =>
    { b with
      rfmRows := satAdd 32 b.rfmRows (neighbourRows row).length
      openRow := none, blockedTo := some (nowNs s + 350), alerted := none }

/-- HBM_BANK_ACCESS (R379 to R381): the first request of a bank, unless the bank is blocked; during an ordinary refresh only its
alert is raised. -/
def execHbmBankAccess (die bank : Nat) (s : State) : Host.Outcome State Fault Refusal :=
  .next (
    let s := startWindow s die
    let b := bankOf s die bank
    match bankReqs s die bank with
    | [] => s
    | r :: _ =>
      let n := mgetD b.cnt r.row 0 + 1
      let thr := mgetD s.hbm.thr die 1024
      let alert := b.alerted = some r.id || (!(b.openRow = some r.row) && !(thr = 0) && decide (thr ≤ n))
      if b.blockedTo.isSome then s
      else
        let s := if alert && !(b.alerted = some r.id) then raiseAlert s die bank r else s
        if nowNs s < b.refreshTo then s
        else if alert then startBlock s die bank r.row
        else if b.openRow = some r.row then delReq s r.id
        else updBank (delReq s r.id) die bank fun b => { b with openRow := some r.row, cnt := mset b.cnt r.row (min 65535 n) })

/-- The wait of a request on a block that ends at e (R382). -/
def blockWait (e : Nat) (r : BankReq) : Nat := e - max r.t (e - 350)

/-- What waits for a request comes that much later: a wait on a block is added to the latency without it (R381, R385). -/
def delayBy (s : State) (req ns : Nat) : State :=
  updMem s fun m =>
    { m with
      fills := m.fills.map fun f => if f.waits.contains req then { f with due := f.due + ticks ns } else f
      atoms := m.atoms.map fun a => if a.waits.contains req then { a with due := a.due + ticks ns } else a }

/-- RFM_BLOCK_END (R381, R382): waits are counted, the row is activated, its counter is 0, the request is served. -/
def execRfmBlockEnd (die bank : Nat) (s : State) : Host.Outcome State Fault Refusal :=
  .next (match (bankOf s die bank).blockedTo, bankReqs s die bank with
    | some e, r :: rs =>
      if e ≤ nowNs s then
        let s := startWindow s die
        let s := (r :: rs).foldl (fun s q => countCore s q.core fun c =>
          { c with hbmBackoff := (c.hbmBackoff + ceilDiv (6 * blockWait e q) 10) % 2 ^ 64 }) s
        let s := (r :: rs).foldl (fun s q => delayBy s q.id (blockWait e q)) s
        let total := ((r :: rs).map (blockWait e)).sum
        -- an activation that falls in the next window counts there (R383)
        let n := if (bankOf s die bank).lastWin = windowNo s % 2 ^ 32 then 0 else 1
        updBank (delReq s r.id) die bank fun b =>
          { b with
            blockedTo := none, backoff := (b.backoff + total) % 2 ^ 64, openRow := some r.row
            cnt := if n = 0 then mdel b.cnt r.row else mset b.cnt r.row n }
      else s
    | some e, [] => if e ≤ nowNs s then updBank s die bank fun b => { b with blockedTo := none } else s
    | none, _ => s)

/-- HBM_REFRESH (R450): a bank is refreshed for 410 ns, its open row closed: behind a scrub read under way, and, as it ranks below
refresh management, once a block of the bank has ended. [DESIGN CHOICE: log 64] -/
def execHbmRefresh (die bank : Nat) (s : State) : Host.Outcome State Fault Refusal :=
  .next (updBank s die bank fun b =>
    if b.blockedTo.isSome || b.alerted.isSome then { b with refreshOwed := true }
    else { b with openRow := none, refreshTo := max (nowNs s) b.refreshTo + 410, refreshOwed := false })

/-- Bytes that are poisoned in a store. -/
def poisonBytes (bs : List (Byte × Bool)) : List (Byte × Bool) := bs.map fun b => (b.1, true)

/-- An uncorrectable error in a line (class 4): data buffered in a die's L2 is poisoned there; a clean copy is dropped and
refetched; otherwise the words of the 32 bytes are poisoned at the home. Units are compute dies 0 to 3 and 4 + memory-side
die. [DESIGN CHOICE: log 73] -/
def lineError (s : State) (unit pa : Nat) : State :=
  let hit (st : Store) : Bool := decide (st.die = unit) && st.unaccepted && decide (st.line = pa / 64)
  if decide (unit < 4) && s.mem.stores.any hit then
    updMem s fun m => { m with stores := m.stores.map fun st => if hit st then { st with bytes := poisonBytes st.bytes } else st }
  else if decide (unit < 4) && (copyOf s unit (pa / 64)).isSome then dropCopy s unit (pa / 64)
  else if mget s.mem.hcache (pa / 64) = some false then updMem s fun m => { m with hcache := mdel m.hcache (pa / 64) }
  else updMem s fun m => { m with poison := (List.range 8).foldl (fun p k => mset p (pa / 32 * 8 + k) ()) m.poison }

/-- PATROL_SCRUB (R450): one line is read; requests of the bank wait at most 60 ns. What it finds (Bank.scrubFinds)
comes from outside: a correctable word, which is rewritten with what it holds, or an uncorrectable one, which is poisoned and logged as
class 4. It changes no row and no counter, and yields to a refresh or a block. [DESIGN CHOICE: log 64] -/
def execPatrolScrub (die bank : Nat) (s : State) : Host.Outcome State Fault Refusal :=
  .next (
    let b := bankOf s die bank
    if b.blockedTo.isSome || b.alerted.isSome || decide (nowNs s < b.refreshTo) then s
    else
      let (n, s) := freeN s
      let s := updBank s die bank fun b => { b with refreshTo := nowNs s + n % 61, scrubFinds := none }
      match b.scrubFinds with
      | some (pa, true) => match hbmPlace s pa with
        | some (d, k, _) =>
          if d = die ∧ k = bank then logErr (lineError s (4 + die) pa) 4 8 0xFFFF (4 + die) (pa / 32 * 32) 0 else s
        | none => s
      | _ => s)

/-! ## Moves of TIER 3 pages (R104, R152, R427, R428) -/

/-- EN and HOTTHR of TPCFG (R427). -/
def tpEn (s : State) : Bool := s.xl.tpcfg.getLsbD 0
/-- HOTTHR (R427). -/
def hotThr (s : State) : Nat := nbits s.xl.tpcfg.toNat 32 32

/-- A page of a vault within the quota that holds nothing and is promised to none. [DESIGN CHOICE: log 63] -/
def freeVaultPage (s : State) (v : Nat) : Option Nat :=
  let used := s.xl.inVault.map (·.2) ++ s.xl.moves.filterMap (·.dst)
  -- a lower quota that waits already bounds new moves (R427)
  let n := min (vquota s) (match s.xl.tpcfgNext with
    | some w => nbits w.toNat 23 9
    | none => 288)
  ((List.range n).map fun k => v * 288 + (288 - n) + k).find? fun p => !(used.contains p)

/-- The vault that a page in HBM4E may move to: the hinted one, or for a hot page a vault of its partition that firmware
chooses (R359, R427). [DESIGN CHOICE: log 63] -/
def vaultFor (s : State) (page : Nat) : Option Nat :=
  match mget s.xl.hints page with
  | some 0 => none
  | some (c + 1) => some c
  | none =>
    let (w, n) := mgetD s.xl.heat page (0, 0)
    if w = nowNs s / 64000 ∧ hotThr s ≤ n then
      let v := Config.freeNat s.choice % 336
      match hbmPlace s (page * 65536) with
      | some (d, _, _) => if partOfMdie s d = partOfDie s (dieOf v) then some v else none
      | none => none
    else none

/-- Reservations on a page that moves are dropped (R151, R152). -/
def dropPage (s : State) (page : Nat) : State :=
  updMem s fun m => { m with resvs := m.resvs.filter fun r => !(decide (0 < r.place) && r.gran / 1024 = page) }

/-- A move starts: writes to the page stall, reservations on it are dropped (R104, R152). [DESIGN CHOICE: log 63] -/
def startMove (s : State) (page : Nat) (dst : Option Nat) : State :=
  let s := updXl s fun x => { x with moves := x.moves ++ [{ page := page, dst := dst, t := nowNs s }] }
  let out := s.mem.stores.map fun st => if st.pa / 65536 = page && st.atHome s then { st with stalled := some (nowNs s) } else st
  dropPage (updMem s fun m => { m with stores := out }) page

/-- PAGE_MOVE_START (R104, R427). -/
def execPageMoveStart (page : Nat) (s : State) : Host.Outcome State Fault Refusal :=
  .next (
    if s.xl.moves.any fun v => v.page = page then s
    else if mhas s.xl.inVault page then startMove s page none
    else if !tpEn s then s
    else match vaultFor s page with
      | some v => match freeVaultPage { s with choice := s.choice + 1 } v with
        | some p => startMove { s with choice := s.choice + 1 } page (some p)
        | none => { s with choice := s.choice + 1 }
      | none => { s with choice := s.choice + 1 })

/-- Pages that stand above a quota (R427). -/
def aboveQuota (s : State) (quota : Nat) : List Nat := (s.xl.inVault.filter fun (_, v) => decide (v % 288 < 288 - quota)).map (·.1)

/-- Pages above the quota that a waiting TPCFG brings go back to HBM4E (R427). -/
def returnAbove (s : State) : State :=
  match s.xl.tpcfgNext with
  | none => s
  | some w => ((aboveQuota s (nbits w.toNat 23 9)).filter fun p => !(s.xl.moves.any fun m => m.page = p)).foldl
      (fun s p => startMove s p none) s

/-- A waiting TPCFG takes effect once no page stands above its quota or moves there (R427). -/
def settleTpcfg (s : State) : State :=
  match s.xl.tpcfgNext with
  | some w =>
    let q := nbits w.toNat 23 9
    if (aboveQuota s q).isEmpty && s.xl.moves.all (fun m => m.dst.all fun v => decide (288 - q ≤ v % 288)) then updXl s fun x => { x with tpcfg := w, tpcfgNext := none } else s
  | none => s

/-- PAGE_MOVE_COMPLETE (R104): the page is served from its new place. -/
def execPageMoveComplete (page : Nat) (s : State) : Host.Outcome State Fault Refusal :=
  .next (match s.xl.moves.find? fun v => v.page = page with
    | some v =>
      let s := dropPage s page
      let s := updMem s fun m => { m with stores := m.stores.map fun st => if st.pa / 65536 = page then { st with stalled := none } else st }
      settleTpcfg (returnAbove (updXl s fun x =>
        { x with
          moves := x.moves.filter fun w => !(w.page = page)
          inVault := match v.dst with
            | some p => mset x.inVault page p
            | none => mdel x.inVault page }))
    | none => s)

end Sys2Proof.Machine
end

