-- ==== Sys2Proof/Machine/Launch.lean ====
section
/-! DEFINITION. Launch records and queues (R39, R43 to R50, R114, R395 to R398), dealing (R59 to R61, R67, R68), and what
moves groups for heat (R65, R66, R433). -/

namespace Sys2Proof.Machine

/-! ## Completion records (R47, R398) -/

/-- The 32 bytes of a completion record. -/
def complBytes (status badoff faulted tag start now : Nat) : List Byte :=
  natLe 1 status ++ natLe 1 0 ++ natLe 2 badoff ++ natLe 4 faulted ++ natLe 8 tag ++ natLe 8 start ++ natLe 8 now

/-- The interrupt of a queue, once a store is past Tw; at once without one (R157, R398). -/
def sendIrq (s : State) (q : Nat) (store : Option Nat) : State :=
  let r := queueOf s q
  if !r.irq then s
  else match store with
    | none => updDisp s fun d => { d with msix := r.vec :: d.msix }
    | some n => updDisp s fun d => { d with msiWait := d.msiWait ++ [(n, r.vec)] }

/-- No completion record can be written: CWFAIL and CWADDR; the interrupt is still sent (R45, R398). -/
def noRecord (s : State) (q : Nat) (addr : DWord) : State :=
  sendIrq (updQueue s q fun r => { r with cwfail := true, cwaddr := addr }) q none

/-- The dispatcher's translation of an address of a queue: from the tables. [DEDUCED: log 60] -/
def queueXlate (s : State) (part asid : Nat) (super : Bool) (k : Need) (va : Nat) : XRes :=
  if decide (2 ^ 52 ≤ va) || inReserved va then .error 0x05
  else if walkWaits s part asid va then .error notNow
  else if !asidLive s part asid then .error 0x05
  else judge s part k super va (walk s part asid va)

/-- The translation of a completion record has to wait for an accepted store to its tables (R129, R421). -/
def complWaits (s : State) (part asid compl : Nat) : Bool :=
  !(decide (2 ^ 52 ≤ compl) || inReserved compl) && walkWaits s part asid compl

/-- Write the completion record of a grid of a queue (R398). -/
def writeCompl (s : State) (q part asid : Nat) (super : Bool) (compl tag status badoff faulted start : Nat) : State :=
  match queueXlate s part asid super .write compl with
  | .error _ => noRecord s q (BitVec.ofNat 64 compl)
  | .ok (pa, a) =>
    let n := s.nextId
    let s := postHome s .host asid compl pa (plain (complBytes status badoff faulted tag start (nowNs s))) a
    sendIrq s q (some n)

/-! ## Reading a record (R43 to R45, R114) -/

/-- Bytes of a record as the dispatcher reads them, by lines of 64: none when they cannot be read, empty inside when
a store to them has still to be applied. [DEDUCED: log 60, 60] -/
def readRec (s : State) (part asid : Nat) (super : Bool) (va : Nat) : Nat → Option (Option (List (Byte × Bool)))
  | 0 => some (some [])
  | n + 1 =>
    match queueXlate s part asid super .read va with
    | .error e => if e = notNow then some none else none
    | .ok (pa, _) =>
      match readRec s part asid super (va + 64) n with
      | none => none
      | some none => some none
      | some (some r) =>
        if viewReady s 4 nobody pa 64 then
          some (some ((List.range 64).map (fun k => (viewByte s 4 nobody (pa + k), viewPoison s 4 nobody (pa + k))) ++ r))
        else some none

/-- Reads of n lines of a record by the dispatcher reach the banks (R105, R379); a poisoned walk is logged for the lowest compute die of
the partition (class 14 of R430). -/
def recTouch (s : State) (part asid : Nat) (super : Bool) (va : Nat) : Nat → State
  | 0 => s
  | n + 1 =>
    match queueXlate s part asid super .read va with
    | .error e => if e = 0x05 then logWalk s (((List.range 4).find? (partHasDie s part)).getD 0) part asid va else s
    | .ok (pa, a) => recTouch (touchRange s dispReq 4 pa 64 a.nhc).1 part asid super (va + 64) n

/-- Lines of a static schedule of n entries (R114). -/
def schedLines (n : Nat) : Nat := (32 + 32 * n + 63) / 64

/-- One range check of a record: offset and whether it holds. -/
abbrev RecChk := Nat × Bool

/-- Range checks of the fields of a launch record (R43, R44). -/
def fieldChks (b : List Byte) : List RecChk :=
  let entry (o : Nat) : RecChk := (o, leAt b o 8 % 4 = 0 && decide (leAt b o 8 < 2 ^ 52))
  let dim (o : Nat) : RecChk := (o, decide (1 ≤ leAt b o 4) && decide (leAt b o 4 ≤ 0x100000))
  let top (o n : Nat) : RecChk := (o, decide (leAt b o 1 ≤ n))
  [entry 0, entry 8, dim 0x10, dim 0x14, dim 0x18,
    (0x1C, decide (1 ≤ leAt b 0x1C 1) && decide (leAt b 0x1C 1 ≤ 16)),
    (0x1D, leAt b 0x1D 1 % 8 = 0 && decide (8 ≤ leAt b 0x1D 1) && decide (leAt b 0x1D 1 ≤ 64)),
    top 0x1E 3, top 0x1F 3, (0x20, leAt b 0x20 4 % 64 = 0), top 0x24 3, top 0x25 3, top 0x26 3, top 0x27 8, top 0x28 1,
    (0x29, leAt b 0x29 7 = 0), (0x30, leAt b 0x30 8 % 64 = 0),
    (0x40, !(leAt b 0x40 8 = 0) && leAt b 0x40 8 % 32 = 0 && decide (leAt b 0x40 8 < 2 ^ 52)), (0xD0, leAt b 0xD0 48 = 0)] ++
  (List.range 8).flatMap fun i =>
    let o := 0x50 + 16 * i
    [(o, decide (leAt b o 8 < 2 ^ 52)), top (o + 12) 1, (o + 13, leAt b (o + 13) 3 = 0)]

/-- Rules that join several fields (R45). [DESIGN CHOICE: log 97] -/
def jointChks (b : List Byte) : List RecChk :=
  let team := (leAt b 0x28 1).testBit 0
  [(0x20, decide (leAt b 0x20 4 + l1Bytes (leAt b 0x24 1) ≤ scrBytes)),
    (0x26, leAt b 0x27 1 = 0 || decide (leAt b 0x26 1 < 2)),
    (0x1F, !team || decide (leAt b 0x1F 1 < 2)),
    (0x10, !team || leAt b 0x10 4 * leAt b 0x14 4 * leAt b 0x18 4 % 4 = 0)]

/-- Poisoned words. -/
def poisonChks (bs : List (Byte × Bool)) (n : Nat) : List RecChk :=
  (List.range (n / 4)).map fun w => (4 * w, !anyPoison ((bs.drop (4 * w)).take 4))

/-- The lowest failing offset. -/
def lowestBad (cs : List RecChk) : Option Nat :=
  (cs.filter fun c => !c.2).foldl (fun m c => some (match m with
    | none => c.1
    | some k => min k c.1)) none

/-- An address lies in the scratch or lent window. -/
def inWindow (va : Nat) : Bool :=
  (decide (scrWin ≤ va) && decide (va < scrWin + scrBytes)) || (decide (lentWin ≤ va) && decide (va < lentWin + 3 * scrBytes))

/-- A schedule entry from its 32 bytes; none when it is invalid (R114). -/
def schedEntry (b : List Byte) : Option Sched :=
  let e : Sched := { src := leAt b 0 8, dst := leAt b 8 8, len := leAt b 16 4, stride := leAt b 20 4, rows := leAt b 24 2
                     stage := leAt b 26 1, tag := leAt b 27 1 }
  if !(inWindow e.src = inWindow e.dst) && e.src % 16 = 0 && e.dst % 16 = 0 && e.stride % 16 = 0 && e.len % 16 = 0 &&
      decide (16 ≤ e.len) && decide (e.len ≤ 0x100000) && decide (1 ≤ e.rows) && decide (e.rows ≤ 4096) &&
      (decide (1 < e.rows) || e.stride = 0) && decide (e.tag ≤ 63) && leAt b 28 4 = 0 then some e else none

/-- The static schedule of a record: none when invalid, and empty inside while it cannot be read yet (R114). [DEDUCED: log 60] -/
def readSched (s : State) (part asid : Nat) (super : Bool) (va : Nat) : Option (Option (List Sched)) :=
  if va = 0 then some (some [])
  else match readRec s part asid super va 1 with
    | none => none
    | some none => some none
    | some (some h) =>
      let b := rawBytes h
      let n := leAt b 0 4
      if decide (n < 1) || decide (32 < n) then none
      else match readRec s part asid super va (schedLines n) with
        | none => none
        | some none => some none
        | some (some bs) =>
          let b := rawBytes bs
          let es := (List.range n).map fun i => schedEntry ((b.drop (32 + 32 * i)).take 32)
          if !(leAt b 4 28 = 0) || anyPoison (bs.take (32 + 32 * n)) || es.any (·.isNone) then none else some (some ((es.filterMap id).zipIdx.map fun (e, k) => { e with idx := k }))

/-- What reading and checking a record comes to (R45). -/
inductive RecRes where
  | unreadable
  | later
  | bad (off : Nat) (bytes : List Byte) (complOk complPoison : Bool)
  | ok (r : Rec)
  deriving DecidableEq, Repr

/-- Read and validate the record of a packet of a queue (R45). -/
def validate (s : State) (q va : Nat) : RecRes :=
  let r := queueOf s q
  match readRec s r.part r.asid r.super va 4 with
  | none => .unreadable
  | some none => .later
  | some (some bs) =>
    let b := rawBytes bs
    let sched := readSched s r.part r.asid r.super (leAt b 0x30 8)
    let schedBad := sched.isNone && leAt b 0x30 8 % 64 = 0 && !anyPoison ((bs.drop 0x30).take 8)
    let chks := fieldChks b ++ jointChks b ++ poisonChks bs 256 ++ [(0x30, !schedBad)]
    let complPoison := anyPoison ((bs.drop 0x40).take 8)
    match lowestBad chks, sched with
    | some o, some none => if o ≤ 0x30 then
        .bad o b (((fieldChks b).all fun c => !(c.1 = 0x40) || c.2) && !complPoison) complPoison else .later
    | some o, _ => .bad o b (((fieldChks b).all fun c => !(c.1 = 0x40) || c.2) && !complPoison) complPoison
    | none, some none => .later
    | none, some (some es) => .ok { bytes := b, sched := es }
    | none, none => .bad 0x30 b true false

/-! ## The head of a queue (R39, R45 to R54) -/

/-- The head packet leaves its queue. -/
def popHead (s : State) (q : Nat) : State := updQueue s q fun r => { r with packets := r.packets.tail, head := .fresh }

/-- Some core, or quad, of the partition could hold a group of the record (R47). -/
def placeable (s : State) (part heat : Nat) (team : Bool) : Bool :=
  let cs := logCores s part
  if team then cs.any fun c => (coresOf (quadOf c)).all (coreEnabled s)
  else cs.any fun c => coreEnabled s c && match heat with
    | 2 => isWhite c && !(lendersFor s c 2).isEmpty
    | 3 => isSeat c && !(lendersFor s c 3).isEmpty
    | _ => true

/-- Change a grid. -/
def updGrid (s : State) (n : Nat) (f : Grid → Grid) : State :=
  updDisp s fun d => { d with grids := match mget d.grids n with
    | some r => mset d.grids n (f r)
    | none => d.grids }

/-- A refused record: its completion record, and the next packet (R45). -/
def refuse (s : State) (q : Nat) (b : List Byte) (status off : Nat) (complOk complPoison : Bool) : State :=
  let r := queueOf s q
  let s := popHead s q
  if complOk then writeCompl s q r.part r.asid r.super (leAt b 0x40 8) (leAt b 0x48 8) status off 0 0
  else noRecord s q (if complPoison then 0 else BitVec.ofNat 64 (leAt b 0x40 8))

/-- The footprints of a launch record. -/
def recFoots (b : List Byte) : List Foot := (footsAt b 0x50 8).getD []

/-- The validated head enters the footprint table when it has room, and is ready once nothing holds it and its parent has
ended (R39, R51, R52, R54). -/
def headOn (s : State) (q n : Nat) : State :=
  match mget s.disp.grids n with
  | none => s
  | some g =>
    let foots := recFoots g.rec'.bytes
    let enter := g.task.isNone && !foots.isEmpty
    if enter && !fpRoom s g.part foots.length then s
    else
      let (s, task) := if enter then fpEnter s g.asid g.part n true foots else (s, g.task)
      let s := updGrid s n fun g => { g with task := task }
      let free := match g.parent with
        | some p => (mget s.disp.grids p).isNone
        | none => true
      if fpClear s task && free then
        updQueue (updGrid s n fun g => { g with readyAt := nowNs s }) q fun r => { r with head := .ready n (nowNs s) (leAt g.rec'.bytes 0x25 1) }
      else s

/-- A doorbell write takes effect (R396). -/
def ringBell (s : State) (q nbytes : Nat) (v : DWord) : State :=
  let r := queueOf s q
  let bad : Bool := !(nbytes = 8) || !(v.toNat % 64 = 0) || decide (2 ^ 52 ≤ v.toNat)
  let full : Bool := !r.en || decide (256 ≤ r.packets.length)
  if bad || full then updQueue s q fun r => { r with baddb := r.baddb || bad, ovf := r.ovf || full }
  else updQueue s q fun r => { r with packets := r.packets ++ [{ va := v.toNat, mark := s.mem.wasN }] }

/-- Every host write received before a doorbell has been performed (R157). -/
def bellReady (s : State) (b : Bell) : Bool :=
  s.mem.stores.all fun st => !(st.by' = .host && decide (st.id < b.mark) && st.pending)

/-- The doorbells whose turn has come take effect, in order (R157, R396). -/
def ringBells : List Bell → State → State
  | [], s => s
  | b :: bs, s => if bellReady s b then ringBells bs (ringBell (updDisp s fun d => { d with bells := bs }) b.queue b.nbytes b.v) else s

/-- A withdrawn packet ends with CANCELLED where its record can be written, once it can be read (R395). [DEDUCED: log 62] -/
def cancelPacket (s : State) (p : Withdrawn) : State :=
  let done (s : State) : State := recTouch (updDisp s fun d => { d with cancels := d.cancels.erase p }) p.part p.asid p.super p.va 4
  match readRec s p.part p.asid p.super p.va 4 with
  | some none => s
  | some (some bs) =>
    let b := rawBytes bs
    let pois := anyPoison ((bs.drop 0x40).take 8)
    if pois then noRecord (done s) p.queue 0
    else if (fieldChks b).any fun c => c.1 = 0x40 && !c.2 then noRecord (done s) p.queue (BitVec.ofNat 64 (leAt b 0x40 8))
    else if complWaits s p.part p.asid (leAt b 0x40 8) then s
    else writeCompl (done s) p.queue p.part p.asid p.super (leAt b 0x40 8) (leAt b 0x48 8) 0x04 0 0 0
  | none => noRecord (done s) p.queue 0

/-- What waits of the host's doorbells and withdrawals goes on (R157, R395). -/
def settleHost (s : State) : State := let s := ringBells s.disp.bells s; s.disp.cancels.foldl cancelPacket s

/-- RECORD_VALIDATE (R45): the head packet is validated; a valid one goes on towards ready. [DEDUCED: log 60] -/
def execRecordValidate (q : Nat) (s : State) : Host.Outcome State Fault Refusal :=
  .next (
    let s := settleHost s
    let r := queueOf s q
    match r.packets, r.head with
    | p :: _, .fresh =>
      match validate s q p.va with
      | .later => s
      | .unreadable => noRecord (popHead (touched s r p.va [] 0) q) q 0
      | .bad o b okC pois =>
        if okC && complWaits s r.part r.asid (leAt b 0x40 8) then s else refuse (touched s r p.va b 0) q b 0x02 o okC pois
      | .ok rc =>
        if complWaits s r.part r.asid (leAt rc.bytes 0x40 8) then s
        else
        let s := touched s r p.va rc.bytes rc.sched.length
        if !placeable s r.part (leAt rc.bytes 0x1F 1) ((leAt rc.bytes 0x28 1).testBit 0) then refuse s q rc.bytes 0x03 0 true false
        else
          let (n, s) := freshId s
          let g : Grid :=
            { rec' := rc, va := p.va, queue := q, asid := r.asid, part := r.part, super := r.super, parent := p.parent, mark := p.mark }
          let s := updDisp s fun d => { d with grids := mset d.grids n g }
          headOn (updQueue s q fun r => { r with head := .waiting n }) q n
    | _, .waiting n => headOn s q n
    | _, _ => s)
where
  /-- The reads of a record and of the schedule that it names. -/
  touched (s : State) (r : Queue) (va : Nat) (b : List Byte) (n : Nat) : State :=
    let s := recTouch s r.part r.asid r.super va 4
    let at' := leAt b 0x30 8
    if at' = 0 ∨ ¬ at' % 64 = 0 then s else recTouch s r.part r.asid r.super at' (schedLines n)

/-- AGE_PROMOTE (R50). -/
def execAgePromote (q : Nat) (s : State) : Host.Outcome State Fault Refusal :=
  .next (match (queueOf s q).head with
    | .ready n t cls =>
      if decide (cls < 2) && decide (t + 4000000 ≤ nowNs s) then
        updQueue s q fun r => { r with head := .ready n (t + 4000000) (cls + 1) }
      else s
    | _ => s)

/-- Grids that deal now. -/
def dealing (s : State) : List (Nat × Grid) := s.disp.grids.filter fun (_, g) => g.dealing

/-- Grids that wait for a dealing place again, in the order of their pre-emptions, take the free ones (R49). -/
def regainPlaces : Nat → State → State
  | 0, s => s
  | k + 1, s =>
    if 8 ≤ (dealing s).length then s
    else
      let best := s.disp.grids.foldl (fun (b : Option (Nat × Nat)) (n, g) => match g.regain, b with
        | some t, none => some (n, t)
        | some t, some (m, u) => if t < u then some (n, t) else some (m, u)
        | none, b => b) none
      match best with
      | none => s
      | some (n, _) => regainPlaces k (updDisp (updGrid s n fun g => { g with dealing := true, regain := none }) fun d => { d with dealDue := true })

/-- The ready head that is selected: highest class, then earliest ready, then lowest queue (R49). -/
def bestHead (s : State) : Option (Nat × Nat × Nat × Nat) :=
  s.disp.queues.foldl (fun b (q, r) => match r.head with
    | .ready n _ cls =>
      let t := ((mget s.disp.grids n).map (·.readyAt)).getD 0
      match b with
      | none => some (q, n, cls, t)
      | some (q', n', c', t') => if c' < cls ∨ (c' = cls ∧ t < t') then some (q, n, cls, t) else some (q', n', c', t')
    | _ => b) none

/-- DISPATCH_SELECT (R49). [DESIGN CHOICE: log 98] -/
def execDispatchSelect (s : State) : Host.Outcome State Fault Refusal :=
  .next (
    let s := regainPlaces 8 s
    let now := nowNs s
    if !(s.time % ticks 100 = 0) || (now = s.disp.selected && !(now = 0)) || decide (8 ≤ (dealing s).length) then s
    else match bestHead s with
    | none => s
    | some (q, n, cls, _) =>
      let s := updQueue s q fun r => { r with head := .dealing n }
      let s := updGrid s n fun g => { g with dealing := true, cls := cls }
      updDisp s fun d => { d with selected := now, dealDue := true })

/-! ## Dealing (R60, R61, R67, R68) -/

/-- Groups of a grid. -/
def gridSize (g : Grid) : Nat := leAt g.rec'.bytes 0x10 4 * leAt g.rec'.bytes 0x14 4 * leAt g.rec'.bytes 0x18 4
/-- Heat class of a grid. -/
def gridHeat (g : Grid) : Nat := leAt g.rec'.bytes 0x1F 1
/-- A team grid. -/
def gridTeam (g : Grid) : Bool := (leAt g.rec'.bytes 0x28 1).testBit 0
/-- PRIO of a grid. -/
def gridPrio (g : Grid) : Nat := leAt g.rec'.bytes 0x25 1
/-- Undealt groups. -/
def undealt (g : Grid) : Bool := !g.again.isEmpty || decide (g.nextPos < gridSize g)

/-- Every enabled column of a partition is at or above a threshold. [DEDUCED: log 61] -/
def allHot (s : State) (thr part : Nat) : Bool :=
  let cs := (logCores s part).filter (coreEnabled s)
  !cs.isEmpty && cs.all (atLimit s thr)

/-- Temperature of a column. -/
def tempOf (s : State) (c : Nat) : Nat := (mgetD s.cols c {}).temp

/-- The first of a list with the smallest value. -/
def argMin (f : Nat → Nat) (l : List Nat) : Option Nat :=
  l.foldl (fun b c => match b with
    | none => some c
    | some d => if f c < f d then some c else some d) none

/-- The core, or the quad of a team, that the next group of a grid goes to (R59, R60, R67). -/
def placeFor (s : State) (g : Grid) (force : Bool) : Option Nat :=
  let heat := gridHeat g
  let hot := allHot s 0x10 g.part
  let cool (c : Nat) : Bool := eligibleCold s g.part heat c && !atLimit s 0x12 c
  if hot && !(force || gridPrio g = 3) then none
  else if gridTeam g then
    if hot then argMin (fun q => ((coresOf q).map (tempOf s)).foldl max 0) ((logQuads s g.part).filter fun q => (coresOf q).all cool)
    else (logQuads s g.part).find? (eligibleQuad s g.part heat)
  else if hot then argMin (tempOf s) ((logCores s g.part).filter cool)
  else (logCores s g.part).find? (eligibleCore s g.part heat)

/-- A waiting team has left every core, so that it can be dealt together (R56, R68). -/
def teamGone (s : State) (n t : Nat) : Bool :=
  s.cores.all fun (_, k) => match k.group with
    | some g => !(g.grid = n && g.team = some t)
    | none => true

/-- Deal a pre-empted group again (R66, R68). -/
def dealSaved (s : State) (c grid pos key : Nat) : State :=
  let m := ownImage s grid pos key
  seatSaved (claimSaved s m.group) c m m.group.parkedBy.isSome

/-- Deal the next group, or team, of a grid; none when it has none or has no place for it. -/
def dealNext (s : State) (n : Nat) (force : Bool) : Option State :=
  match mget s.disp.grids n with
  | none => none
  | some g =>
    if !undealt g then none
    else match placeFor s g force with
    | none => none
    | some c =>
      let begin' (s : State) (k : Nat) : State :=
        updGrid s n fun g => { g with
          live := g.live + k, nextPos := g.nextPos + k, started := true, start := if g.started then g.start else nowNs s }
      match g.again with
      | (pos, key) :: _ =>
        if gridTeam g then
          if !teamGone s n (pos / 4) then none
          else some ((g.again.filter fun e => e.1 / 4 = pos / 4).foldl (fun s e =>
            dealSaved s ((coresOf c).getD (e.1 % 4) 0) n e.1 e.2) s)
        else some (dealSaved s c n pos key)
      | [] =>
        if gridTeam g then
          some (begin' ((List.range 4).foldl (fun s j => startGroup s ((coresOf c).getD j 0) (groupOf n g (g.nextPos + j))) s) 4)
        else some (begin' (startGroup s c (groupOf n g g.nextPos)) 1)

/-- A grid whose last group has been dealt gives up its dealing place and its queue's head (R49). -/
def leaveDealing (s : State) (n : Nat) : State :=
  match mget s.disp.grids n with
  | some g =>
    if g.dealing && !undealt g then
      let s := updGrid s n fun g => { g with dealing := false, left := true }
      if g.left then s else popHead s g.queue
    else s
  | none => s

/-- Deal a grid for as long as it has a place (R60). -/
def dealGrid (n : Nat) : Nat → State → State
  | 0, s => s
  | k + 1, s =>
    match dealNext s n false with
    | some t => dealGrid n k t
    | none => s

/-- The order of R60: higher class, then older, then lower queue. -/
def dealBefore (a b : Nat × Grid) : Bool :=
  decide (b.2.cls < a.2.cls) || (a.2.cls = b.2.cls &&
    (decide (a.2.readyAt < b.2.readyAt) || (a.2.readyAt = b.2.readyAt && decide (a.2.queue ≤ b.2.queue))))

/-- Insert a grid in its place. -/
def insertGrid (x : Nat × Grid) : List (Nat × Grid) → List (Nat × Grid)
  | [] => [x]
  | y :: ys => if dealBefore x y then x :: y :: ys else y :: insertGrid x ys

/-- The dealing grids in the order of R60. -/
def dealOrder (s : State) : List Nat := ((dealing s).foldl (fun l x => insertGrid x l) []).map (·.1)

/-- The state as though the group of a core had left it. -/
def without (s : State) (c : Nat) : State :=
  let s := (grpOf s c).lenders.foldl (fun s l => updCore s l fun k => { k with lendsTo := none }) s
  updCore s c fun k => { k with group := none }

/-- The groups that move together with the group of a core: its team, or itself. [DEDUCED: log 61] -/
def movesWith (s : State) (c : Nat) : List Nat :=
  match (grpOf s c).team with
  | some t => (coresOf (quadOf c)).filter fun k => (coreOf s k).group.any fun g => g.team = some t && g.grid = (grpOf s c).grid
  | none => [c]

/-- Cores of the groups and teams that pre-emption for placement may take: running, BACKGROUND or NORMAL; for a team grid teams only
(R68). A team leaves as one, and is named by its first core. [DEDUCED: log 61] -/
def victims (s : State) (g : Grid) : List Nat :=
  (logCores s g.part).filter fun c => match (coreOf s c).group with
    | some v => decide (v.prio ≤ 1) && (movesWith s c).all (canHalt s) && (movesWith s c).headD c = c && (!gridTeam g || v.team.isSome)
    | none => false

/-- The youngest group or team whose removal leaves a place for the grid (R68). [DEDUCED: log 61] -/
def victimFor (s : State) (g : Grid) : Option Nat :=
  let ok := (victims s g).filter fun c => (placeFor ((movesWith s c).foldl without s) g false).isSome
  ok.foldl (fun b c => match b with
    | none => some c
    | some d =>
      let x := (grpOf s c).born
      let y := (grpOf s d).born
      if y.1 < x.1 ∨ (y.1 = x.1 ∧ y.2 < x.2) then some c else some d) none

/-- A group is leaving its core: it halts, or its checkpoint is being written. -/
def leavingCore (s : State) (c : Nat) : Bool :=
  match (coreOf s c).group with
  | none => false
  | some g => match g.st with
    | .halting _ _ _ => true
    | .saving => true
    | .failing _ => true
    | _ => false

/-- The pre-emption for an URGENT group has ended: that of the group, or of the whole team (R68). [DEDUCED: log 61] -/
def urgentOver (s : State) : Bool :=
  match s.disp.urgent with
  | none => true
  | some c => (coresOf (quadOf c)).all fun k => !(leavingCore s k && (k = c || (grpOf s k).team.isSome))

/-- Pre-empt for the first URGENT dealing grid without a place (R68). [DEDUCED: log 61] -/
def preemptFor (s : State) : State :=
  if !urgentOver s || !(policy s 0x17 = 1) then s
  else
    let s := updDisp s fun d => { d with urgent := none }
    match (dealOrder s).findSome? fun n => (mget s.disp.grids n).bind fun g =>
        if gridPrio g = 3 && undealt g && (placeFor s g false).isNone then victimFor s g else none with
    | some c => updDisp ((movesWith s c).foldl preempt s) fun d => { d with urgent := some c }
    | none => s

/-- DEAL (R60). -/
def execDeal (s : State) : Host.Outcome State Fault Refusal :=
  .next (
    let s := regainPlaces 8 (updDisp s fun d => { d with dealDue := false })
    preemptFor ((dealOrder s).foldl (fun s n => leaveDealing (dealGrid n 336 s) n) s))

/-- THERMAL_FORCED_DEAL (R67): after 2 ms with every column hot, the first non-URGENT dealing grid deals one group. -/
def execThermalForcedDeal (s : State) : Host.Outcome State Fault Refusal :=
  .next ((List.range 4).foldl (fun s p =>
    match mget s.fw.hotSince p with
    | some t =>
      if t + 2000000 ≤ nowNs s then
        let s := updFw s fun f => { f with hotSince := mset f.hotSince p (t + 2000000) }
        match (dealOrder s).find? fun n => (mget s.disp.grids n).any fun g => g.part = p && !(gridPrio g = 3) with
        | some n => match dealNext s n true with
          | some u => leaveDealing u n
          | none => s
        | none => s
      else s
    | none => s) s)

/-! ## The end of a grid (R39, R47, R398) -/

/-- GRID_END (R39): every group has ended and everything the grid started is complete. -/
def execGridEnd (grid : Nat) (s : State) : Host.Outcome State Fault Refusal :=
  .next (match mget s.disp.grids grid with
    | some g =>
      let b := g.rec'.bytes
      if (g.left || g.cancelled) && !g.dealing && !undealt g && g.live = 0 && g.btes = 0 &&
          !complWaits s g.part g.asid (leAt b 0x40 8) then
        let s := fpLeave s g.task
        let s := updDisp s fun d => { d with grids := mdel d.grids grid }
        writeCompl s g.queue g.part g.asid g.super (leAt b 0x40 8) (leAt b 0x48 8)
          (if g.cancelled then 0x04 else if 0 < g.faulted then 0x01 else 0x00) 0 g.faulted g.start
      else s
    | none => s)

/-! ## Queues as the host writes them (R395, R396) -/

/-- DOORBELL (R396): it takes effect behind the host writes and doorbells received before it (R157). -/
def execDoorbell (q nbytes : Nat) (v : DWord) (s : State) : Host.Outcome State Fault Refusal :=
  .next (
    let b : Bell := { queue := q, nbytes := nbytes, v := v, mark := s.nextId }
    if s.disp.bells.isEmpty && bellReady s b then ringBell s q nbytes v
    else updDisp s fun d => { d with bells := d.bells ++ [b] })

/-- A validated head is withdrawn: its undealt groups are dealt no more, and it ends once its dealt groups have ended;
of these, pre-empted ones are still placed again (R68, R395). [DEDUCED: log 61] -/
def cancelGrid (s : State) (n : Nat) : State :=
  updDisp (updGrid s n fun g =>
    { g with cancelled := true, left := true, nextPos := gridSize g, dealing := g.dealing && !g.again.isEmpty })
    fun d => { d with dealDue := true }

/-- QCANCEL (R395). [DEDUCED: log 62] -/
def execQcancel (q : Nat) (v : DWord) (s : State) : Host.Outcome State Fault Refusal :=
  .next (
    if !v.getLsbD 0 then s
    else
      let r := queueOf s q
      let (s, rest) := match r.head with
        | .fresh => (s, r.packets)
        | .waiting n => (cancelGrid s n, r.packets.tail)
        | .ready n _ _ => (cancelGrid s n, r.packets.tail)
        | .dealing n => (cancelGrid s n, r.packets.tail)
      let s := updQueue s q fun r => { r with packets := [], head := .fresh }
      let ws := rest.map fun p => ({ queue := q, va := p.va, asid := r.asid, part := r.part, super := r.super } : Withdrawn)
      ws.foldl cancelPacket (updDisp s fun d => { d with cancels := d.cancels ++ ws }))

/-- QUEUE_CONTROL_WRITE (R395): the control word, or the write-one-to-clear bits of the word after it. -/
def execQueueControlWrite (q off : Nat) (v : DWord) (s : State) : Host.Outcome State Fault Refusal :=
  .next (
    if off = 0 then updQueue s q fun r =>
      if r.en then { r with ctl := r.ctl &&& ~~~0x100000000#64 ||| v &&& 0x100000000#64 } else { r with ctl := v &&& 0xFFFF0000FFFF#64 }
    else if off = 8 then updQueue s q fun r =>
      { r with cwfail := r.cwfail && !v.getLsbD 18, baddb := r.baddb && !v.getLsbD 17, ovf := r.ovf && !v.getLsbD 16 }
    else s)

/-! ## Heat (R65, R66, R433, R444) -/

/-- Columns of a partition that are enabled. -/
def columnsOf (s : State) (p : Nat) : List Nat :=
  (List.range 336).filter fun c => coreEnabled s c && partHasDie s p (dieOf c)

/-- TSTATE of a temperature (R446). -/
def tstateOf (s : State) (t : Nat) : Nat :=
  if 8 * policyHeld s 0x12 ≤ t then 3 else if 8 * policyHeld s 0x11 ≤ t then 2 else if 8 * policyHeld s 0x10 ≤ t then 1 else 0

/-- One reading: TEMP, TSTATE, and the time since which the column is at the hard limit; reaching it is logged (R430). -/
def takeReading (s : State) (c t : Nat) : State :=
  let t := t % 65536
  let old := mgetD s.cols c {}
  let st := tstateOf s t
  let since := if st = 3 then (if old.hotSince.isSome then old.hotSince else some (nowNs s)) else none
  let s := { s with cols := mset s.cols c { old with temp := t, tstate := st, hotSince := since } }
  if st = 3 ∧ old.hotSince = none then
    logErr s 17 5 0xFFFF (((mgetD s.xl.lquads ((partOfDie s (dieOf c)).getD 0) []).findIdx? (· = quadOf c)).getD (quadOf c)) 0 0
  else s

/-- The thermal state of a partition after a sample: hot since (R67), emergency (R433). -/
def partHeat (s : State) (p : Nat) : State :=
  let since (m : FMap Nat) : FMap Nat :=
    if allHot s 0x10 p then (if mhas m p then m else mset m p (nowNs s)) else mdel m p
  let s := updFw s fun f => { f with hotSince := since f.hotSince }
  if allHot s 0x12 p then
    if s.fw.emergency.contains p then s
    else logErr (updFw s fun f => { f with emergency := p :: f.emergency }) 17 6 0xFFFF 0xFFFF 0 0
  else updFw s fun f => { f with emergency := f.emergency.filter fun k => !(k = p) }

/-- A sample is due: 100 us have passed since the last (R444). [DESIGN CHOICE: log 107] -/
def sampleDue (s : State) : Bool := decide (s.fw.sampled + 100000 ≤ nowNs s)

/-- The readings of a sample: those given, and the last value of the columns that it names none for. [DESIGN CHOICE: log 107] -/
def allReadings (s : State) (readings : List (Nat × Nat)) : List (Nat × Nat) :=
  (readings.filter fun r => decide (r.1 < 336)) ++
    (s.cols.filter fun k => !(readings.any fun r => r.1 = k.1)).map fun k => (k.1, k.2.temp)

/-- SENSOR_SAMPLE (R65, R443, R444, R446), every 100 us: thresholds and MIGRATE come into force, and every column is judged by them;
readings are pairs of a physical core and eighths of a degree. [DESIGN CHOICE: log 107] -/
def execSensorSample (readings : List (Nat × Nat)) (s : State) : Host.Outcome State Fault Refusal :=
  .next (if !sampleDue s then s else
    let s := updFw s fun f => { f with inForce := [0x10, 0x11, 0x12, 0x18].foldl (fun m n => mset m n (policy s n)) f.inForce }
    let s := (allReadings s readings).foldl (fun s r => takeReading s r.1 r.2) s
    let s := updFw s fun f => { f with seq := (f.seq + 1) % 2 ^ 32, sampled := nowNs s }
    let s := (List.range 4).foldl partHeat s
    updDisp s fun d => { d with dealDue := true })

/-- Pre-empt groups in order to place them elsewhere. [DEDUCED: log 61] -/
def moveOut (s : State) (cs : List Nat) : State :=
  cs.foldl (fun s c => if canHalt s c then preempt (updGrp s c fun g => { g with moving := true }) c else s) s

/-- The group of a retired core is still to be placed elsewhere (R429): once it runs, has only work left, or is parked. -/
def retiredWith (s : State) (c : Nat) : Bool :=
  !coreEnabled s c && match (coreOf s c).group with
    | some g => match g.st with
      | .running | .ended => true
      | .parked _ => g.ck.isNone
      | _ => false
    | none => false

/-- The groups that leave a retired core are pre-empted to be placed elsewhere (R66, R429); a parked one is halted already, and
stays parked. [DEDUCED: log 61] -/
def leaveRetired (s : State) (c : Nat) : State :=
  (movesWith s c).foldl (fun s c => match (coreOf s c).group with
    | some g => match g.st with
      | .running | .ended => requestHalt (updGrp s c fun g => { g with moving := true }) c false false
      | .parked brk => if g.ck.isNone then
          writeCkpt (updGrp s c fun g => { g with moving := true, parkedBy := some brk, asked := s.time, st := .saving }) c
        else s
      | _ => s
    | none => s) s

/-- MIGRATE_GROUP (R66): firmware moves the group of a column at the migration threshold when another core can take it;
else it tries again no sooner than 1 ms later. The group of a retired core leaves it in any case (R429). -/
def execMigrateGroup (core : Nat) (s : State) : Host.Outcome State Fault Refusal :=
  .next (
    if retiredWith s core then leaveRetired s core
    else if !canHalt s core || !(policyHeld s 0x18 = 1) || !s.fw.alive || !atLimit s 0x11 core then s
    else
      let g := grpOf s core
      if nowNs s < g.migrateAt then s
      else
        let cs := movesWith s core
        let u := cs.foldl without s
        let place : Bool := match g.team with
          | some _ => (logQuads u g.part).any (eligibleQuad u g.part g.heat)
          | none => (logCores u g.part).any (eligibleCore u g.part g.heat)
        if place then moveOut s cs else updGrp s core fun g => { g with migrateAt := nowNs s + 1000000 })

/-- HARD_LIMIT_PREEMPT (R433): a column of the quad has been at the hard limit for 1 ms. -/
def execHardLimitPreempt (quad : Nat) (s : State) : Host.Outcome State Fault Refusal :=
  .next (
    if (coresOf quad).any fun c => match (mgetD s.cols c {}).hotSince with
        | some t => decide (t + 1000000 ≤ nowNs s)
        | none => false then
      moveOut s ((coresOf quad).filter (canHalt s))
    else s)

end Sys2Proof.Machine
end

