-- ==== Sys2Proof/Machine/HostLink.lean ====
section
/-! DEFINITION. The outside of the package: host memory accesses and links (R157, R393, R394), UALink ports (R400, R401),
translation and partition registers (R420, R425, R427), the core table (R57, R366, R429), and the boost boundary (R386 to
R391). -/

namespace Sys2Proof.Machine

/-! ## Host accesses (R393, R394) -/

/-- HOST_MEM_WRITE (R393, R394): a GA store accepted at the home of each line. -/
def execHostMemWrite (pa : Nat) (bytes : List Byte) (s : State) : Host.Outcome State Fault Refusal :=
  .next (if hostWritable s pa && hostWritable s (pa + (bytes.length - 1)) then physPut s .host pa (plain bytes) else s)

/-- Bytes that firmware reads at the home with the poison of their words: a read waits for the stores accepted
before it, so it returns what they leave (R129, R393). -/
def settled (s : State) (pa n : Nat) : List (Byte × Bool) :=
  let u := (s.mem.stores.filter fun st => st.isAccepted && decide (st.pa < pa + n) && decide (pa < st.pa + st.bytes.length)).foldl
    (fun u st => homeWrite u st.pa st.bytes) s
  (List.range n).map fun k => (homeByte u (pa + k), mhas u.mem.poison ((pa + k) / 4))

/-- HOST_MEM_READ (R394): the value at the home, once nothing keeps it waiting there (R106, R129, R431). -/
def execHostMemRead (pa len : Nat) (s : State) : Host.Outcome State Fault Refusal :=
  .next (serveReads (updLink s fun l => { l with hostWait := l.hostWait ++ [{ pa := pa, n := len }] }))

/-- What a reset of a host link makes of one transaction on the agenda: whether it was in flight there is open; then a
read returns poison, a CXL.mem write is performed or not, and a CXL.io write is not performed (R393). [DEDUCED: log 68] -/
def linkCut (r : State × List Act) (a : Act) : State × List Act :=
  let (s, out) := r
  match a with
  | .ev (.hostMemRead _ len) =>
    let (hit, s) := freeB s
    if hit then (updLink s fun l => { l with hostRead := (List.replicate len 0, true) :: l.hostRead }, out) else (s, out ++ [a])
  | .ev (.hostMemWrite _ _) =>
    let (hit, s) := freeB s
    (s, if hit then out else out ++ [a])
  | .ev (.doorbell _ _ _) | .ev (.qcancel _ _) | .ev (.queueControlWrite _ _ _) | .ev (.registerWrite _ _)
  | .ev (.partWrite _ _) | .ev (.tpcfgWrite _) | .ev (.translationRegisterWrite _ _) | .ev (.ualinkPortEnable _ _)
  | .ev (.ualinkPortRst _) | .ev (.einjWrite _) =>
    let (hit, s) := freeB s
    (s, if hit then out else out ++ [a])
  | _ => (s, out ++ [a])

/-- A host link resets: its traffic moves to the other link (R393, class 13 of R430). [DEDUCED: log 68] -/
def hostLinkDown (s : State) (link : Nat) : State :=
  let (s, out) := s.agenda.foldl linkCut (s, [])
  let s := s.link.hostWait.foldl (fun s r =>
    let (hit, s) := freeB s
    if hit then updLink s fun l =>
      { l with hostRead := (List.replicate r.n 0, true) :: l.hostRead, hostWait := l.hostWait.erase r } else s) s
  logErr { s with agenda := out } 13 11 0xFFFF link 0 0

/-- HOST_LINK_RESET (R393). -/
def execHostLinkReset (link : Nat) (s : State) : Host.Outcome State Fault Refusal := .next (hostLinkDown s link)

/-! ## UALink ports (R400, R401) -/

/-- Change a port. -/
def updPort (s : State) (p : Nat) (f : Port → Port) : State := updLink s fun l => { l with ports := mupd l.ports p {} f }

/-- UALINK_PORT_ENABLE (R401): setting EN starts training, clearing it takes the port down; RST resets it. [DEDUCED: log 70] -/
def execUalinkPortEnable (port : Nat) (v : DWord) (s : State) : Host.Outcome State Fault Refusal :=
  .next (updPort s port fun p =>
    if p.st = 5 then { p with en := v.getLsbD 0 }
    else if v.getLsbD 0 then (if p.en then p else { p with en := true, st := 1, lanes := 0 })
    else { p with en := false, st := 0, lanes := 0 })

/-- A port goes through resetting; how long is open (R401, R431). [DEDUCED: log 70] -/
def portReset (s : State) (port : Nat) (mailbox : Bool) : State :=
  let (n, s) := freeN s
  let s := updPort s port fun p => { p with st := 5, lanes := 0 }
  { s with resets := s.resets ++ [{ kind := 3, unit := port, t := nowNs s + 1 + n, mailbox := mailbox }] }

/-- UALINK_PORT_RST (R401): a port that is in reset absorbs it (R432). [DEDUCED: log 70] -/
def execUalinkPortRst (port : Nat) (s : State) : Host.Outcome State Fault Refusal :=
  .next (if inReset s 3 port || inReset s 7 0 then s else portReset s port false)

/-- The package is in a pod once a port has trained: its number there is open (R150). [DESIGN CHOICE: log 103] -/
def joinPod (s : State) : State :=
  if s.link.package.isSome then s
  else let (n, s) := freeN s; updLink s fun k => { k with package := some (n % 1024) }

/-- UALINK_PORT_TRAINED (R401): up with four lanes, degraded with one to three. -/
def execUalinkPortTrained (port lanes peer : Nat) (s : State) : Host.Outcome State Fault Refusal :=
  .next (
    let p := mgetD s.link.ports port {}
    if p.en && p.st = 1 && decide (1 ≤ lanes) && decide (lanes ≤ 4) && decide (peer < 1024) then
      joinPod (updPort s port fun p => { p with st := if lanes = 4 then 2 else 3, lanes := lanes, peer := peer })
    else s)

/-- The link layer takes a port down (R401, class 12 of R430). [DEDUCED: log 70] -/
def portDown (s : State) (port : Nat) : State :=
  logErr (updPort s port fun p => { p with st := 4, lanes := 0, errcnt := satAdd 8 p.errcnt 1 }) 12 11 0xFFFF port 0 0

/-- UALINK_PORT_DOWN (R401). -/
def execUalinkPortDown (port : Nat) (s : State) : Host.Outcome State Fault Refusal := .next (portDown s port)

/-! ## The core table (R57, R366, R429) -/

/-- The logical cores of a partition from the enabled map, in the order of R57. [DEDUCED: log 75] -/
def buildL2p (s : State) (p : Nat) : List (Bool × Nat) :=
  ((List.range 336).filter fun c => partHasDie s p (dieOf c) && coreEnabled s c).map fun c => (true, c)

/-- The logical quads of a partition (R366). [DEDUCED: log 75] -/
def buildQuads (s : State) (p : Nat) : List Nat :=
  (List.range 84).filter fun q => partHasDie s p (q / 21) && quadPresent s q

/-- Rebuild the tables of a partition. -/
def rebuild (s : State) (p : Nat) : State :=
  updXl s fun x => { x with l2p := mset x.l2p p (buildL2p s p), lquads := mset x.lquads p (buildQuads s p) }

/-- No grid of the partition deals or runs. -/
def partIdle (s : State) (p : Nat) : Bool :=
  s.disp.grids.all fun (_, g) => !(g.part = p) || !(g.dealing || (g.started && decide (0 < g.live)))

/-- L2P_REBUILD (R429): at the first instant at which no grid of the partition deals or runs. -/
def execL2pRebuild (part : Nat) (s : State) : Host.Outcome State Fault Refusal := .next (if partIdle s part then rebuild s part else s)

/-! ## Translation registers (R420, R425, R427) -/

/-- TRANSLATION_REGISTER_WRITE (R420): ATBASE and ATEN; the sticky error bits after it are cleared by writing 1. -/
def execTranslationRegisterWrite (off : Nat) (v : DWord) (s : State) : Host.Outcome State Fault Refusal :=
  .next (
    if off = 0x8000 then updXl s fun x =>
      { x with at' := if aten s then x.at' &&& ~~~1#64 ||| v &&& 1#64 else v &&& 0x1FFFFFFFF0001#64 }
    else if off = 0x8008 then updXl s fun x => { x with tperr := x.tperr && !v.getLsbD 1, pcerr := x.pcerr && !v.getLsbD 0 }
    else s)

/-- The conditions of a new word of a partition (R425). -/
def partOk (s : State) (n : Nat) (v : DWord) : Bool :=
  let ms := mdiesOf v
  let k := ms.length
  let shape := (k = 1 || k = 2 || k = 4 || k = 8) && ms.headD 0 % max 1 k = 0 && ms = (List.range k).map (ms.headD 0 + ·)
  let others := (List.range 4).filter fun m => !(m = n) && partEn s m
  let apart := others.all fun m => (partWord s m &&& v &&& 0xFFF#64) = 0
  let dies := (List.range 4).filter fun d => v.getLsbD (8 + d) || (partWord s n).getLsbD (8 + d)
  let quiet := dies.all fun d => (List.range 84).all (fun c => (coreOf s (d * 84 + c)).group.isNone) &&
    (List.range 21).all fun q => (engOf s (d * 21 + q)).table.isEmpty
  shape && (!v.getLsbD 12 || apart) && quiet

/-- Firmware divides the 256 entries of the footprint table among the enabled partitions anew: an open division in which each has
room for the footprints of a launch record (R51). [DESIGN CHOICE: log 95] -/
def shareOut (s : State) : State :=
  let ps := (List.range 4).filter (partEn s)
  let (shares, s) := (List.range 4).foldl (fun (r : List Nat × State) p =>
    if ps.contains p then
      let (n, s) := freeN r.2
      let spare := 256 - r.1.sum - 8 * (ps.filter (p ≤ ·)).length
      (r.1 ++ [8 + n % (spare + 1)], s)
    else (r.1 ++ [0], r.2)) ([], s)
  updDisp s fun d => { d with fpShare := shares }

/-- PART_WRITE (R425). [DESIGN CHOICE: log 95] -/
def execPartWrite (part : Nat) (v : DWord) (s : State) : Host.Outcome State Fault Refusal :=
  .next (
    let v := v &&& 0x1FFF#64
    if decide (part < 4) && partOk s part v then
      let s := shareOut (updXl s fun x => { x with parts := lset x.parts part v })
      if partIdle s part then rebuild s part else s
    else updXl s fun x => { x with pcerr := true })

/-- TPCFG_WRITE (R427): pages above a lower quota come back first. -/
def execTpcfgWrite (v : DWord) (s : State) : Host.Outcome State Fault Refusal :=
  .next (
    let v := v &&& 0xFFFFFFFFFFFFC001#64
    if 288 < nbits v.toNat 23 9 + nbits v.toNat 14 9 then updXl s fun x => { x with tperr := true }
    else
      settleTpcfg (returnAbove (updXl s fun x => { x with tpcfgNext := some v })))

/-! ## The boost boundary (R386 to R391, R433, R445) -/

/-- A column of a quad is at or above a threshold. -/
def quadHot (s : State) (thr q : Nat) : Bool := (coresOf q).any fun c => atLimit s thr c

/-- A quad claims at this boundary (R387). -/
def claims (s : State) (q : Nat) : Bool :=
  quadPresent s q && !quadHot s 0x11 q && (coresOf q).any fun c => match (coreOf s c).group with
    | some g => (g.st = .running || g.st = .ended) && (policy s 0x13).testBit g.queue
    | none => false

/-- Claimants by age, oldest first, then logical quad (R389); keys rise with the logical order on one die. -/
def insertClaim (x : Nat × Nat) : List (Nat × Nat) → List (Nat × Nat)
  | [] => [x]
  | y :: ys => if x.2 < y.2 ∨ (x.2 = y.2 ∧ x.1 < y.1) then x :: y :: ys else y :: insertClaim x ys

/-- A list rotated left. -/
def rotateLeft {α : Type} (l : List α) (n : Nat) : List α := l.drop (n % max 1 l.length) ++ l.take (n % max 1 l.length)

/-- Change boost data of a quad. -/
def updQ (s : State) (q : Nat) (f : QBoost → QBoost) : State := { s with qboost := mupd s.qboost q {} f }
/-- Change boost data of a die. -/
def updD (s : State) (d : Nat) (f : DBoost → DBoost) : State := { s with dboost := mupd s.dboost d {} f }

/-- The quad runs a group or holds engine work now. -/
def quadBusy (s : State) (q : Nat) : Bool := (coresOf q).any (fun c => (coreOf s c).group.isSome) || !(engOf s q).table.isEmpty

/-- Refill of a die's pool (R388, R445). -/
def refill (s : State) (d : Nat) : State :=
  let qs := (List.range 21).map (d * 21 + ·)
  let n := (qs.filter fun q => quadPresent s q && (engOf s q).idle && !quadBusy s q).length
  let top := policy s 0x14
  let s := updD s d fun b =>
    let new : Int := min (top : Int) (b.pool + n)
    { b with poolmax := top, pool := new, refilled := satAdd 32 b.refilled (new - b.pool).toNat }
  qs.foldl (fun s q => if mhas s.engs q then updEng s q fun e => { e with idle := !quadBusy s q } else s) s

/-- One permit is charged. -/
def charge (s : State) (d : Nat) : State := updD s d fun b => { b with pool := b.pool - 1, charged := satAdd 32 b.charged 1 }

/-- The claims in service order: grants and refusals (R388); without firmware every claim is refused (R440). -/
def serve (s : State) (d : Nat) : List Nat → State × List Nat
  | [] => (s, [])
  | q :: qs =>
    if 1 ≤ (mgetD s.dboost d {}).pool ∧ s.fw.alive = true then
      let r := serve (charge (updQ s q fun b => { b with granted := satAdd 32 b.granted 1 }) d) d qs
      (r.1, q :: r.2)
    else serve (updQ s q fun b => { b with refused := satAdd 32 b.refused 1 }) d qs

/-- An instant to come that counts cycles of a clock, once the period has changed: what is left of it scales (R390). [DEDUCED: log 8] -/
def rescale (now old new t : Nat) : Nat := if now < t then now + (t - now) * new / old else t

/-- The engine's work that is granted counts its cycles on the quad's clock (R390); OLOADs and SCLDs, never granted, do not. -/
def Eng.rescaled (now old new : Nat) (e : Eng) : Eng :=
  { e with
    table := e.table.map fun n => if n.granted.isSome then { n with due := rescale now old new n.due } else n
    reproof := e.reproof.map fun (g, t, r) => (g, rescale now old new t, r) }

/-- The clock of a quad changes: its cores count their cycles up to now, and the cycles that run, of cores and engine, go on at the
new clock (R386, R390). [DEDUCED: log 8] -/
def setClock (s : State) (q k : Nat) : State :=
  if (mgetD s.qboost q {}).clock = k then s
  else
    let old := periodOf s q
    let s := (coresOf q).foldl (fun s c => if mhas s.cores c then syncCore s c else s) s
    let s := updQ s q fun b => { b with clock := k }
    let new := periodOf s q
    let s := (coresOf q).foldl (fun s c => if mhas s.cores c then updCore s c fun v => { v with edge := rescale s.time old new v.edge } else s) s
    if mhas s.engs q then updEng s q (Eng.rescaled s.time old new) else s

/-- The clock of a quad that is not granted (R388, R433). -/
def descend (s : State) (d q : Nat) : State :=
  if quadHot s 0x12 q then setClock s q 6
  else if (mgetD s.qboost q {}).clock = 8 then
    setClock (charge (updQ s q fun b => { b with descent := satAdd 32 b.descent 1 }) d) q 7
  else setClock s q 6

/-- One die at boundary b (R388, R389). -/
def dieBoundary (b : Nat) (s : State) (d : Nat) : State :=
  let s := if b % 8 = 0 then refill s d else s
  let qs := (List.range 21).map (d * 21 + ·)
  let cl := qs.filter (claims s)
  let s := qs.foldl (fun s q =>
    if cl.contains q then (if (mgetD s.qboost q {}).claim.isSome then s else updQ s q fun v => { v with claim := some b })
    else if (mgetD s.qboost q {}).claim.isSome then updQ s q fun v => { v with claim := none } else s) s
  let old := mgetD s.dboost d {}
  let same := old.claimed = cl
  let order := (cl.foldl (fun l q => insertClaim (q, ((mgetD s.qboost q {}).claim).getD b) l) []).map (·.1)
  let (s, won) := serve s d (rotateLeft order (if same then old.run else 0))
  let s := if old.claimed = [] ∧ cl = [] then s else updD s d fun v => { v with claimed := cl, run := if same then v.run + 1 else 1 }
  qs.foldl (fun s q => if won.contains q then setClock s q 8 else descend s d q) s

/-- BOOST_BOUNDARY (R388). -/
def execBoostBoundary (s : State) : Host.Outcome State Fault Refusal :=
  .next (if s.time % ticks 4000 = 0 then (List.range 4).foldl (dieBoundary (nowNs s / 4000)) s else s)

end Sys2Proof.Machine
end

