-- ==== Sys2Proof/Machine/Reset.lean ====
section
/-! DEFINITION. What a reset does to the unit and to the work in it (R145, R188, R384, R424, R431), and how resets begin,
overlap and end (R432). -/

namespace Sys2Proof.Machine

/-! ## Stores and loads caught by a reset (R145) -/

/-- The compute die that a store comes from. -/
def Store.fromDie (st : Store) : Option Nat :=
  match st.by' with
  | .thread c _ _ => some (dieOf c)
  | .engine c => some (dieOf c)
  | .host => none

/-- A lost acknowledgement is kept for the thread (R145). -/
def noteLost (s : State) (w : Writer) (va : Nat) : State :=
  match w with
  | .thread c t l =>
    let e : Late := { ack := true, lane := l, va := va }
    if mhas s.thrs (tkey c t) then updThr s c t fun h => { h with late := h.late ++ [e] } else s
  | _ => s

/-- Early forwarded values of a store on its writer's die are poisoned (R145). [DESIGN CHOICE: log 109] -/
def poisonEf (s : State) (st : Store) : State :=
  let words := List.range ((st.pa + st.bytes.length - 1) / 4 + 1 - st.pa / 4)
  let marks (p : FMap Unit) : FMap Unit := words.foldl (fun p k => mset p (st.die * 2 ^ 43 + st.pa / 4 + k) ()) p
  if st.ef then updMem s fun m => { m with efPoison := marks m.efPoison } else s

/-- The copy of a line on the writer's die is poisoned (R145). -/
def poisonDieCopy (s : State) (st : Store) : State :=
  let s := poisonEf s st
  updMem s fun m => { m with copies := m.copies.map fun c =>
    if c.line = st.line && some c.die = st.fromDie then { c with poison := 0xFFFF } else c }

/-- A store leaves the memory system. -/
def removeStore (s : State) (id : Nat) : State := updMem s fun m => { m with stores := m.stores.filter fun o => !(o.id = id) }

/-- What becomes of one store that is not yet acknowledged (R145); link: a link reset, else a home reset. [DEDUCED: log 68] -/
def loseStore (link : Bool) (s : State) (st : Store) : State :=
  let s := noteLost s st.by' st.va
  match st.st with
  | .buffered => poisonEf (removeStore s st.id) st
  | .leaving => poisonEf (removeStore s st.id) st
  | .accepted _ =>
    if link then poisonDieCopy (updStore s st.id fun o => { o with cut := true }) st
    else poisonDieCopy (poisonHomeLine (removeStore s st.id) st.line) st
  | .applied _ => poisonDieCopy (poisonHomeLine (removeStore s st.id) st.line) st

/-- Registers that an access of a load or atomic returns. -/
def Acc.words (a : Acc) : Nat := if a.size ≤ 4 then 1 else a.size / 4

/-- The lanes of a load that are caught fill poisoned (R145, R431). [DEDUCED: log 68] -/
def poisonFill (hit : Acc → Bool) (s : State) (f : Fill) : State :=
  match f.what with
  | .load sx accs =>
    let caught := accs.filter fun a => f.lanes.getLsbD a.lane && a.isMem && hit a
    if caught.isEmpty then s
    else
      let (got, s) := caught.foldl (fun (r : List (Nat × List Word × Bool) × State) a =>
        let (ws, s) := freeWords r.2 a.words
        (r.1 ++ [(a.lane, ws, true)], s)) (f.got, s)
      updMem s fun m => { m with fills := m.fills.map fun g =>
        if g.id = f.id then { g with got := got, what := .load sx (accs.filter fun a => !(caught.contains a)) } else g }
  | _ => s

/-- An atomic that is caught: not performed when its home has not accepted it; a result still under way is poisoned. [DEDUCED: log 68] -/
def loseAtom (s : State) (o : AtomOp) : State :=
  let s := if o.tw.isNone then noteLost s (.thread o.core o.thr o.acc.lane) o.acc.va else s
  if o.ret then
    let (ws, s) := freeWords s (if o.sc.isSome then 1 else o.acc.words)
    updAtom s o.id fun a => { a with tw := some (a.tw.getD (nowNs s)), old := some (ws, true) }
  else updMem s fun m => { m with atoms := m.atoms.filter fun a => !(a.id = o.id) }

/-- Every access of a list of homes that a reset catches: stores, atomics, loads. [DEDUCED: log 68] -/
def cutTraffic (s : State) (link : Bool) (fromDie : Option Nat → Bool) (home : Nat → Bool) : State :=
  let loads (a : Acc) (die : Nat) : Bool := home a.pa &&
    (if link then (copyOf s die a.line).isNone && (lastSeen s die nobody a.pa).isNone
     else s.mem.stores.any fun st => st.isAccepted && st.line = a.line)
  let s := (s.mem.fills.filter fun f => fromDie (some (dieOf f.core))).foldl
    (fun s f => poisonFill (fun a => loads a (dieOf f.core)) s f) s
  let s := (s.mem.atoms.filter fun o => o.acc.isMem && home o.acc.pa && fromDie (some (dieOf o.core))).foldl loseAtom s
  (s.mem.stores.filter fun st => home st.pa && fromDie st.fromDie).foldl (loseStore link) s

/-- Leased copies of lines of a reset home are invalid at once on every die (R145). -/
def dropHomeCopies (s : State) (home : Nat → Bool) : State :=
  (s.mem.copies.filter fun c => home (64 * c.line)).foldl (fun s c => dropCopy s c.die c.line) s

/-- The home is this memory-side die. -/
def homeM (s : State) (d pa : Nat) : Bool :=
  match homeOf s pa with
  | .mdie m => m = d
  | _ => false

/-- The home is this compute die. -/
def homeC (s : State) (d pa : Nat) : Bool :=
  match homeOf s pa with
  | .cdie m _ => m = d
  | _ => false

/-! ## Engines (R188, R431) -/

/-- The tag of an entry that its reset completes, with its card when it is a job. -/
def resetTag (s : State) (n : Ent) : State :=
  match n.op with
  | .job b _ _ _ => jobEnds s n.core (JobCard.of b) 0x24
  | .oload _ _ _ _ _ _ _ _ _ _ _ (some t) => tagDone s n.core t 0x24
  | .adrain _ _ _ _ _ _ _ _ _ _ _ (some t) => tagDone s n.core t 0x24
  | .scld _ _ _ _ _ (some t) => tagDone s n.core t 0x24
  | _ => s

/-- An engine after a reset: a BASIS that still waits keeps its place. -/
def Eng.cleared (e : Eng) : Eng :=
  { retired := e.retired, corr := e.corr, uncorr := e.uncorr, reproofN := e.reproofN, skew := e.skew, stuck := e.stuck
    idle := e.idle
    table := e.table.filter fun n => match n.op with
      | .basis _ _ _ => true
      | _ => false }

/-- The checkpoints that are still being written on a core take down its engine as a reset has left it (R432). -/
def saveAgain (s : State) (c : Nat) : State :=
  match (coreOf s c).group with
  | some g => if !(g.st = .saving) then s
    else match mget s.xl.ckLast (areaKey g) with
      | some n => updXl s fun x => { x with ckImages := mset x.ckImages n (imageOf s c) }
      | none => s
  | none => s

/-- Reset the engine of a quad: slots free, accumulators unset, entries discarded (R188). -/
def resetEngine (s : State) (q : Nat) : State :=
  let ents := (engOf s q).table.filter Ent.real
  let s := ents.foldl (fun s n => fpLeave s n.task) s
  let s := if mhas s.engs q then updEng s q Eng.cleared else s
  let s := ents.foldl (fun s n => if (coreOf s n.core).group.isSome then resetTag s n else s) s
  let s := (s.cores.map (·.1)).foldl saveAgain s
  (ents.map (·.core)).eraseDups.foldl tryEnd s

/-! ## Dies (R424, R431) -/

/-- The record of a group of a core that a die reset ends: FLAGS.ENDED is set, FLAGS[7:6] and the last word are zero, TIME, ASID
and LCORE are its own; what a faulting instruction would give is open (R405, R408, R431). [DEDUCED: log 68] -/
def resetRecord (s : State) (c : Nat) (g : Group) : List Byte × State :=
  let (ws, s) := freeWords s 13
  let bs := ws.flatMap fun w => natLe 4 w.toNat
  ((lset bs 1 ((bs.getD 1 0) &&& 0x1F#8 ||| 0x20#8)).take 32 ++ natLe 8 (nowNs s) ++ (bs.drop 32).take 4 ++
    natLe 2 g.asid ++ natLe 2 (logOf s g.part c) ++ (bs.drop 36).take 12 ++ natLe 4 0, s)

/-- End the group of a core as R408. [DEDUCED: log 68] -/
def endByReset (s : State) (c : Nat) : State :=
  match (coreOf s c).group with
  | none => s
  | some g =>
    let (r, s) := resetRecord s c g
    killGroup (if g.area then postHome s (.engine c) g.asid 0 (g.ckbase.toNat + 0x40) (plain r) {} else s) c

/-- Walks of a die and its shared translations are gone (R424). -/
def emptyDie (s : State) (d : Nat) : State :=
  updXl s fun x => { x with dtlb := mdel x.dtlb d, walks := x.walks.filter fun w => !(w.die = d) }

/-- Reset a compute die: its groups end, vault lines take the home rows, and the rest of its state is as after reset. [DEDUCED: log 68] -/
def resetCdie (s : State) (d : Nat) : State :=
  let cs := (List.range 84).map (d * 84 + ·)
  let out (st : Store) : Store := if st.die = d && decide (st.st = .buffered) then { st with st := .leaving } else st
  let s := updMem s fun m => { m with stores := m.stores.map out }
  let s := cutTraffic s false (fun _ => true) (homeC s d)
  let s := cs.foldl endByReset s
  let s := (List.range 21).foldl (fun s q => resetEngine s (d * 21 + q)) s
  let s := updMem s fun m =>
    { m with
      copies := m.copies.filter fun c => !(c.die = d)
      resvs := m.resvs.filter fun r => !(r.place = 1 && r.unit = d) && !(r.place = 2 && r.unit = 8 + d) && !(dieOf r.core = d)
      reqs := m.reqs.filter fun r => !(decide (r.core < 336) && dieOf r.core = d) }
  let s := dropHomeCopies s (homeC s d)
  let s := updXl (emptyDie s d) fun x => { x with tlbis := x.tlbis.filter fun t => !(dieOf t.core = d) }
  let blank (k : Core) : Core := { edge := s.time, tested := k.tested }
  let s := { s with
    cores := s.cores.map fun (c, k) => (c, if dieOf c = d then blank k else k)
    teams := s.teams.filter fun (q, _) => !(q / 21 = d)
    qboost := s.qboost.filter fun (q, _) => !(q / 21 = d)
    dboost := mset s.dboost d { pool := policy s 0x14, poolmax := policy s 0x14 } }
  updDisp s fun x => { x with dealDue := true }

/-- A BTE job that a reset ends: status 0x24, unless its record is written already (R431). -/
def endBte (s : State) (j : BteJob) : BteJob :=
  if j.recd.isSome then j else { j with fin := some (s.nextId, 0x24, 0x24, 0, 0) }

/-- Words of the lines of a page whose home is a die. -/
def cellLines (s : State) (d page : Nat) : List Nat :=
  ((List.range 1024).map (page * 1024 + ·)).filter fun l => homeM s d (64 * l)

/-- Reset a memory-side die: home rows for its lines, BTE jobs end, reservations are dropped, reduction cells and dirty
home-cache lines are poisoned, and the row counters are reset. [DEDUCED: log 68] -/
def resetMdie (s : State) (d : Nat) : State :=
  let s := cutTraffic s false (fun _ => true) (homeM s d)
  let s := dropHomeCopies s (homeM s d)
  let s := (s.mem.cells.flatMap fun (p, _) => cellLines s d p).foldl poisonHomeLine s
  let s := (s.mem.hcache.filter fun (l, dirty) => dirty && homeM s d (64 * l)).foldl (fun s (l, _) => poisonHomeLine s l) s
  let s := updMem s fun m =>
    { m with
      hcache := m.hcache.filter fun (l, _) => !(homeM s d (64 * l))
      resvs := m.resvs.filter fun r => !(r.place = 2 && r.unit = d)
      rcellLate := mdel m.rcellLate d }
  let s := updHbm s fun h =>
    { h with
      btes := mupd h.btes d [] fun js => js.map (endBte s)
      banks := h.banks.filter fun (b, _) => !(b / 1024 = d)
      thr := mdel h.thr d }
  emptyDie s (4 + d)

/-- Reset a Umagil link: the link rows of R145 for stores between the dies, and loads in flight fill poisoned. [DEDUCED: log 68] -/
def resetLink (s : State) (unit : Nat) : State :=
  cutTraffic s true (fun d => d = some (unit / 8)) (homeM s (unit % 8))

/-- Compute dies of a partition. -/
def cdiesOf (s : State) (p : Nat) : List Nat := (List.range 4).filter (partHasDie s p)

/-- Everything lost but what no reset reaches (R431, R441): fuses, leaf counters and the stored image stay; so does what
the outside of the package still does. [DEDUCED: log 69] -/
def resetPackage (s : State) : State :=
  let outside (a : Act) : Bool := match a with
    | .ev _ => true
    | _ => false
  { State.reset with
    powered := s.powered
    agenda := s.agenda.filter outside
    choice := s.choice
    nextId := s.nextId
    fw := { store := s.fw.store, minSvn := s.fw.minSvn, leaf0 := s.fw.leaf0, leaf4 := s.fw.leaf4 } }

/-- What a reset of a kind of R436 does at its start (R431). -/
def resetEffects (s : State) (kind unit : Nat) : State :=
  if kind = 1 then resetEngine s unit
  else if kind = 2 then resetLink s unit
  else if kind = 4 then resetCdie s unit
  else if kind = 5 then resetMdie s unit
  else if kind = 6 then
    (mdiesOf (partWord s unit)).foldl resetMdie ((cdiesOf s unit).foldl resetCdie s)
  else if kind = 7 then resetPackage s
  else s

/-! ## Beginning and end (R431, R432) -/

/-- Longest duration in ns (R431). [DEDUCED: log 69] -/
def resetBound (kind : Nat) : Nat :=
  if kind = 1 then 20000 else if kind = 2 then 10000 else if kind = 4 then 2000000 else if kind = 5 then 5000000
  else if kind = 6 then 10000000 else 200000000

/-- A reset covers a unit: the same one or one inside it (R432). [DEDUCED: log 70] -/
def covers (s : State) (r : RstUnit) (kind unit : Nat) : Bool :=
  r.kind = 7 || (r.kind = kind && r.unit = unit) ||
  (r.kind = 4 && kind = 1 && unit / 21 = r.unit) ||
  (r.kind = 6 && (if kind = 1 then partHasDie s r.unit (unit / 21)
    else if kind = 2 then partHasDie s r.unit (unit / 8) && partOfMdie s (unit % 8) = some r.unit
    else if kind = 4 then partHasDie s r.unit unit
    else if kind = 5 then partOfMdie s unit = some r.unit else false))

/-- Start a reset, or let one that is under way absorb it (R432). Units are physical. [DEDUCED: log 69, 70] -/
def startReset (s : State) (kind unit : Nat) (mailbox : Bool) : State :=
  if s.resets.any fun r => covers s r kind unit then
    { s with resets := s.resets.map fun r => if covers s r kind unit then { r with mailbox := r.mailbox || mailbox } else r }
  else if kind = 3 then portReset s unit mailbox
  else
    let r : RstUnit := { kind := kind, unit := unit, t := 0 }
    let inner := s.resets.filter fun o => covers s r o.kind o.unit
    let s := { s with resets := s.resets.filter fun o => !(covers s r o.kind o.unit) }
    let s := resetEffects s kind unit
    let (n, s) := freeN s
    let (e, s) := freeN s
    let t := nowNs s + 1 + n % resetBound kind
    { s with resets := s.resets ++
      [{ r with t := t, emptyAt := min t (nowNs s + e % 2001), mailbox := mailbox || inner.any (·.mailbox) }] }

/-- A mailbox command is complete (R435, R436). -/
def mailDone (s : State) (result : Nat) : State := updFw s fun f => { f with cmd := none, result := result }

/-- Firmware reloads from its store (R431). [DEDUCED: log 69] -/
def reload (s : State) : State :=
  updFw s fun f => match f.store with
    | some im => { f with image := some im, st := 2 }
    | none => f

/-- RESET_COMPLETE (R431, R432). [DEDUCED: log 69] -/
def execResetComplete (kind unit : Nat) (s : State) : Host.Outcome State Fault Refusal :=
  .next (match s.resets.find? fun r => r.kind = kind && r.unit = unit && decide (r.t ≤ nowNs s) with
    | none => s
    | some r =>
      let s := { s with resets := s.resets.erase r }
      let s := if kind = 3 then updPort s unit fun p => { p with st := if p.en then 1 else 0 } else s
      let s := if kind = 7 then reload s else s
      let s := updDisp s fun d => { d with dealDue := true }
      if r.mailbox then mailDone s 0 else s)

end Sys2Proof.Machine
end

