-- ==== Sys2Proof/Machine/Fleet.lean ====
section
/-! DEFINITION. Firmware and fleet operation: the mailbox and its commands (R435, R436, R439, R441 to R444), retirement
(R429, R434), error classes (R430), error injection (R448, R449), the column test (R451), standby and power (R440, R441),
and the register space as the host writes it (R394). -/

namespace Sys2Proof.Machine

/-! ## Commands (R435, R436) -/

/-- A command can start: a controller runs and none is under way (R435, R440). [DEDUCED: log 71] -/
def mailFree (s : State) : Bool := s.fw.alive && s.fw.cmd.isNone && s.fw.held.isNone && !inReset s 7 0

/-- A command starts, unless the write is discarded. [DEDUCED: log 71] -/
def command (s : State) (op kind unit : Nat) (go : State → State) : State :=
  if mailFree s then go (updFw s fun f => { f with cmd := some (op, kind, unit) }) else s

/-- The quad of a logical quad: that of the lowest enabled partition that has it. [DEDUCED: log 71] -/
def quadNo (s : State) (u : Nat) : Option Nat :=
  (List.range 4).findSome? fun p => if partEn s p then (mgetD s.xl.lquads p [])[u]? else none

/-- The core of a logical core: that of the lowest enabled partition that has it. [DEDUCED: log 71] -/
def coreNo (s : State) (u : Nat) : Option Nat :=
  (List.range 4).findSome? fun p => if partEn s p then physOf s p u else none

/-- The physical unit that a RESET names, none when there is none (R436). [DEDUCED: log 71] -/
def resetUnit (s : State) (kind unit : Nat) : Option Nat :=
  if kind = 1 then quadNo s unit
  else if kind = 2 then (if unit < 32 then some unit else none)
  else if kind = 3 then (if unit < 12 then some unit else none)
  else if kind = 4 then (if unit < 4 then some unit else none)
  else if kind = 5 then (if unit < 8 then some unit else none)
  else if kind = 6 then (if unit < 4 ∧ partEn s unit = true then some unit else none)
  else if kind = 7 then some 0
  else none

/-- RESET by mailbox (R436): it completes when the reset ends. -/
def mailReset (s : State) (kind unit : Nat) : State :=
  command s 2 kind unit fun s => match resetUnit s kind unit with
    | none => mailDone s 1
    | some u => startReset s kind u true

/-- ENGINE_RESET (R431). -/
def execEngineReset (unit : Nat) (s : State) : Host.Outcome State Fault Refusal := .next (mailReset s 1 unit)
/-- UMAGIL_LINK_RESET (R431). -/
def execUmagilLinkReset (unit : Nat) (s : State) : Host.Outcome State Fault Refusal := .next (mailReset s 2 unit)
/-- UALINK_PORT_RESET_CMD (R431). -/
def execUalinkPortResetCmd (unit : Nat) (s : State) : Host.Outcome State Fault Refusal := .next (mailReset s 3 unit)
/-- COMPUTE_DIE_RESET (R431). -/
def execComputeDieReset (unit : Nat) (s : State) : Host.Outcome State Fault Refusal := .next (mailReset s 4 unit)
/-- MEMORY_DIE_RESET (R431). -/
def execMemoryDieReset (unit : Nat) (s : State) : Host.Outcome State Fault Refusal := .next (mailReset s 5 unit)
/-- PARTITION_RESET (R431). -/
def execPartitionReset (unit : Nat) (s : State) : Host.Outcome State Fault Refusal := .next (mailReset s 6 unit)
/-- PACKAGE_RESET (R431). -/
def execPackageReset (s : State) : Host.Outcome State Fault Refusal := .next (mailReset s 7 0)

/-! ## Retirement (R160, R429, R434) -/

/-- Insert a slot into the list of retired ones, ascending. -/
def insertNat (n : Nat) : List Nat → List Nat
  | [] => [n]
  | m :: ms => if n ≤ m then n :: m :: ms else m :: insertNat n ms

/-- Retire a slot of an engine: by a reset of the engine the first time; the second takes it out of service with no
reset (R434). It answers whether a reset was started. -/
def retireSlotOn (s : State) (q slot : Nat) (mailbox : Bool) : State × Bool :=
  let e := engOf s q
  if outOfService e || e.retired.contains slot then (s, false)
  else
    let s := updEng s q fun e => { e with retired := insertNat slot e.retired }
    if e.retired.isEmpty then (startReset s 1 q mailbox, true) else (s, false)

/-- Retire a core: its bits in the maps are cleared and its group moves (R429). -/
def retireCoreOn (s : State) (c : Nat) : State :=
  let clear (m : List (BitVec 84)) : List (BitVec 84) := lset m (dieOf c) ((m.getD (dieOf c) 0) &&& ~~~(1#84 <<< (c % 84)))
  let s := updXl s fun x => { x with good := clear x.good, enabled := clear x.enabled }
  let s := if retiredWith s c then leaveRetired s c else s
  updDisp s fun d => { d with dealDue := true }

/-- The core is retired already. -/
def coreRetired (s : State) (c : Nat) : Bool := !((s.xl.good.getD (dieOf c) 0).getLsbD (c % 84))

/-- RETIRE_SLOT (R434, R436). -/
def execRetireSlot (unit : Nat) (s : State) : Host.Outcome State Fault Refusal :=
  .next (command s 5 1 unit fun s => match quadNo s (unit / 16) with
    | none => mailDone s 1
    | some q =>
      if 11 < unit % 16 then mailDone s 1
      else
        let (s, wait) := retireSlotOn s q (unit % 16) true
        if wait then s else mailDone s 0)

/-- RETIRE_CORE (R429, R436). -/
def execRetireCore (unit : Nat) (s : State) : Host.Outcome State Fault Refusal :=
  .next (command s 5 2 unit fun s => match coreNo s unit with
    | none => mailDone s 1
    | some c => mailDone (if coreRetired s c then s else retireCoreOn s c) 0)

/-- What firmware retires by its policies: a slot with STUCKN class-10 results within 1 s, a core with PCHKN
PIPELINE_CHECK faults within 1 s (R434). -/
def retireByPolicy (s : State) : State :=
  if !s.fw.alive then s
  else
    let now := nowNs s
    let s := s.engs.foldl (fun s (q, e) =>
      let near := e.stuck.filter fun r => decide (now < r.1 + 1000000000)
      match (List.range 12).find? fun k =>
          !(e.retired.contains k) && decide (policy s 0x03 ≤ (near.filter fun r => r.2 = k).length) with
      | some k => (retireSlotOn (updEng s q fun e => { e with stuck := e.stuck.filter fun r => !(r.2 = k) }) q k false).1
      | none => s) s
    s.cols.foldl (fun s (c, k) =>
      if policy s 0x04 ≤ (k.pchkT.filter fun t => decide (now < t + 1000000000)).length && !coreRetired s c then retireCoreOn s c else s) s

/-- COLUMN_TEST (R451): a test of an idle core, no more often than CTEST allows; outcome 0 passes, 1 fails, and any other
is a test overtaken by a dispatch. [DESIGN CHOICE: log 73] -/
def execColumnTest (core outcome : Nat) (s : State) : Host.Outcome State Fault Refusal :=
  .next (
    let every := policy s 0x19
    let due := match (coreOf s core).tested with
      | some t => decide (t + every * 1000000 ≤ nowNs s)
      | none => true
    if decide (336 ≤ core) || !coreFree s core || every = 0 || !due then s
    else
      let s := updCore s core fun k => { k with tested := some (nowNs s) }
      if outcome = 1 then
        retireCoreOn { s with cols := mupd s.cols core {} fun k => { k with ctfail := true } } core
      else s)

/-! ## Errors (R430) -/

/-- A register or an operand-cache slot of a lane is poisoned (R228, class 2). The model's way to name it: bit 30 of the
address set for a slot; thread in bits 20:16, lane in bits 12:8, register or slot in bits 7:0. [DESIGN CHOICE: log 73] -/
def poisonReg (s : State) (c addr : Nat) : State :=
  let t := nbits addr 16 5
  let l := nbits addr 8 5
  let n := nbits addr 0 8
  if !(mhas s.thrs (tkey c t)) then s
  else if addr.testBit 30 then updThr s c t fun h => updSlot h l (n % 6) fun o =>
    { o with cur := { o.cur with ver := { o.cur.ver with poison := true } } }
  else updThr s c t fun h => updReg h l n fun r => { r with cur := { r.cur with poison := true } }

/-- A detection in an accumulator element: its group and accumulator in bits 24:16 of the address, row in bits 15:8 and
column in bits 6:0 (the model's way to name it). [DESIGN CHOICE: log 73] -/
def elemEvent (s : State) (q addr : Nat) (v : CcrEv) (spoil : Bool) : State :=
  let key := nbits addr 16 9
  match mget (engOf s q).accs key with
  | none => s
  | some t =>
    let row := nbits addr 8 8
    let col := nbits addr 0 7
    let s := if spoil then updEng s q fun e => { e with accs := mset e.accs key (poisonAt t [(row, col)]) } else s
    ccrEvent s q t.core t.asid (key / 2) { v with row := row, col := col, pass := t.pass }

/-- A faulty channel has left a wrong residue in an element of an accumulator: it is d too high in channel ch. The check of the
next drain detects it (class 6, R94). [DESIGN CHOICE: log 73] -/
def wrongResidue (s : State) (q addr ch d : Nat) : State :=
  let key := nbits addr 16 9
  let row := nbits addr 8 8
  let col := nbits addr 0 7
  updEng s q fun e => { e with accs := match mget e.accs key with
    | none => e.accs
    | some t => mset e.accs key { t with el := (List.range 256).map fun i => (List.range 128).map fun j =>
        let el := (t.el.getD i []).getD j {}
        if i = row ∧ j = col then
          { el with res := t.ms.zipIdx.map fun (m, c) => if c = ch then (resAt el.res c + d) % m else resAt el.res c }
        else el } }

/-- A step tag that does not match: the job of the entry stops (class 9, R82). -/
def skewJob (s : State) (q id : Nat) : State :=
  match entOf (engOf s q) id with
  | some n => match n.op, n.run with
    | .job b _ _ _, some r =>
      let k := JobCard.of b
      ccrEvent (stopJob s q n k.grp r.acc 0x0F r.sat) q n.core n.asid k.grp (skewEvent 0 0)
    | _, _ => s
  | none => s

/-- BOUND of a class (R430, R437). -/
def boundOf (cls : Nat) : Nat := [0, 0, 1, 0, 8, 2, 9, 9, 4, 10, 4, 11, 11, 11, 12, 6, 6, 5, 0].getD cls 0

/-- The ASID of the group of a core, or none. -/
def asidNo (s : State) (c : Option Nat) : Nat := match c with
  | some c => match (coreOf s c).group with
    | some g => g.asid
    | none => 0xFFFF
  | none => 0xFFFF

/-- A checker fires on the instruction that a wattle issues next (class 5, R404). -/
def checkerFires (s : State) (c t synd : Nat) : State :=
  let s := { s with cols := mupd s.cols c {} fun k => { k with pchk := satAdd 32 k.pchk 1 } }
  if mhas s.thrs (tkey c t) then updThr s c t fun h =>
    { h with pchk := some (synd % 4, none) } else s

/-- ERROR_DETECT (R430): the device action of the class, and its log record. UNIT is numbered as in R437. [DESIGN CHOICE: log 73] -/
def execErrorDetect (cls unit addr synd : Nat) (s : State) : Host.Outcome State Fault Refusal :=
  .next (
    let log (a : Nat) (s : State) : State := logErr s cls (boundOf cls) (asidNo s (coreNo s unit)) unit a synd
    let plainLog (s : State) : State := logErr s cls (boundOf cls) 0xFFFF unit 0 synd
    match cls with
    | 1 => log 0 s
    | 2 => match coreNo s unit with
      | some c => log 0 (if addr.testBit 31 then
          updCore s c fun k => { k with scrP := mset k.scrP (addr % 2 ^ 20 / 4) () } else poisonReg s c addr)
      | none => s
    | 3 => match coreNo s unit with
      | some c => log addr (updCore s c fun k => { k with l1 := mdel k.l1 (addr / 64) })
      | none => s
    | 4 => logErr (lineError s unit addr) 4 8 0xFFFF unit (addr / 32 * 32) synd
    | 5 => match coreNo s unit with
      | some c => if decide (1 ≤ synd) && decide (synd ≤ 3) then log 0 (checkerFires s c (addr % 32) synd) else s
      | none => s
    | 6 => match quadNo s unit with
      | some q => wrongResidue s q addr (synd / 512) (synd % 512)
      | none => s
    | 7 => match quadNo s unit with
      | some q => elemEvent s q addr { kind := 2, code := 0x11 } true
      | none => s
    | 8 => match quadNo s unit with
      | some q =>
        let s := updEng s q fun e => { e with stuck := (nowNs s, synd % 16) :: e.stuck }
        elemEvent s q addr { kind := 0, slot := synd % 16, synd := 2 * 16384, code := 2 } false
      | none => s
    | 9 => match quadNo s unit with
      | some q => skewJob s q addr
      | none => s
    | 10 => match quadNo s unit with
      | some q => plainLog (startReset s 1 q false)
      | none => s
    | 11 => if 32 ≤ unit then s else plainLog (if 16 ≤ synd then startReset s 2 unit false else s)
    | 12 => if 12 ≤ unit then s else portDown s unit
    | 13 => if 2 ≤ unit then s else hostLinkDown s unit
    | 14 => logErr s 14 12 0xFFFF unit addr synd
    | 15 => if 4 ≤ unit then s else plainLog (startReset s 4 unit false)
    | 16 => if 8 ≤ unit then s else plainLog (startReset s 5 unit false)
    | 17 => plainLog s
    | 18 =>
      if !s.fw.alive then s
      else
        let (n, s) := freeN s
        updFw s fun f => { f with alive := false, failedAt := nowNs s, downAt := nowNs s + n % 5000001 }
    | _ => s)

/-! ## Error injection (R448, R449) -/

/-- A unit exists for a class of R430. [DEDUCED: log 72] -/
def unitOk (s : State) (cls unit : Nat) : Bool :=
  if cls = 1 ∨ cls = 2 ∨ cls = 3 ∨ cls = 5 then (coreNo s unit).isSome
  else if cls = 4 ∨ cls = 14 then decide (unit < 12)
  else if 6 ≤ cls ∧ cls ≤ 10 then (quadNo s unit).isSome
  else if cls = 11 then decide (unit < 32)
  else if cls = 12 then decide (unit < 12)
  else if cls = 13 then decide (unit < 2)
  else if cls = 15 then decide (unit < 4)
  else if cls = 16 then decide (unit < 8)
  else false

/-- EINJ_WRITE (R448). [DEDUCED: log 72] -/
def execEinjWrite (v : DWord) (s : State) : Host.Outcome State Fault Refusal :=
  .next (
    let old := s.fw.einj
    let cls := nbits v.toNat 24 8
    let count := nbits v.toNat 16 8
    if old.getLsbD 0 || !(decide (1 ≤ cls) && decide (cls ≤ 16)) || count = 0 || !unitOk s cls (nbits v.toNat 32 16) then
      updFw s fun f => { f with einj := old ||| 2#64 }
    else
      let (n, s) := freeN s
      let err : DWord := if old.getLsbD 1 && !v.getLsbD 1 then 2#64 else 0#64
      updFw s fun f =>
        { f with
          einj := v &&& 0xFFFFFFFF0001#64 ||| err
          einjLeft := if v.getLsbD 0 then some (count, nowNs s + n % 10001) else none })

/-- The telemetry counter of a class (R446, R449). [DEDUCED: log 72] -/
def countClass (s : State) (cls unit : Nat) : State :=
  match coreNo s unit, quadNo s unit with
  | some c, q =>
    if cls = 5 then { s with cols := mupd s.cols c {} fun k => { k with pchk := satAdd 32 k.pchk 1 } } else quadCount s cls q
  | none, q => quadCount s cls q
where
  /-- The counters of an engine. -/
  quadCount (s : State) (cls : Nat) (q : Option Nat) : State :=
    match q with
    | none => s
    | some q =>
      if cls = 6 then updEng s q fun e => { e with corr := satAdd 32 e.corr 1 }
      else if cls = 7 then updEng s q fun e => { e with uncorr := satAdd 32 e.uncorr 1 }
      else if cls = 8 then updEng s q fun e => { e with reproofN := satAdd 16 e.reproofN 1 }
      else if cls = 9 then updEng s q fun e => { e with skew := satAdd 16 e.skew 1 }
      else s

/-- A log record that is merged with none and takes none (R449). [DEDUCED: log 52] -/
def logAlone (s : State) (cls unit : Nat) : State :=
  writeLog s { cls := cls, bound := boundOf cls, asid := 0xFFFF, unit := unit, addr := 0, time := nowNs s, synd := 0x80000000 }

/-- INJECTED_DETECTION (R449): the reporting path alone, one detection every 10 us. [DEDUCED: log 72] -/
def execInjectedDetection (s : State) : Host.Outcome State Fault Refusal :=
  .next (match s.fw.einjLeft with
    | none => s
    | some (n, t) =>
      if nowNs s < t then s
      else
        let cls := nbits s.fw.einj.toNat 24 8
        let unit := nbits s.fw.einj.toNat 32 16
        let s := logAlone (countClass s cls unit) cls unit
        updFw s fun f =>
          if n ≤ 1 then { f with einjLeft := none, einj := f.einj &&& ~~~1#64 } else { f with einjLeft := some (n - 1, t + 10000) })

/-! ## Firmware images (R438, R439) -/

/-- n bytes of device or host memory as firmware reads them, none when the address names none. [PRESUMED: log 5] -/
def mailRead (s : State) (pa n : Nat) : Option (List (Byte × Bool)) :=
  if hostWritable s pa && hostWritable s (pa + (n - 1)) then some (settled s pa n) else none

/-- A LOAD or an ATTEST reads its memory, unless a home of it is in reset: then it waits, BUSY meanwhile (R431, R435). -/
def mailWhen (s : State) (op pa out n : Nat) (go : State → State) : State :=
  if rangeDown s pa n then updFw s fun f => { f with held := some (op, pa, out) } else go (updFw s fun f => { f with held := none })

/-- Bytes that a waiting LOAD (OP 1, its length kept) or ATTEST reads. -/
def mailLen (op n : Nat) : Nat := if op = 1 then n else 32

/-- Verify an image in the order of R439: the image, or the status of the first failure. [PRESUMED: log 5; DEDUCED: log 71] -/
def verifyImage (minSvn : Nat) (bs : List (Byte × Bool)) : Except Nat Image :=
  let b := rawBytes bs
  let body := b.drop 4096
  let zero (o n : Nat) : Bool := ((b.drop o).take n).all (· = 0)
  let digest := (b.drop 0x10).take 32
  let svn := leAt b 8 4
  if anyPoison bs || !(leAt b 0 4 = 0x4D465A41) || !(leAt b 0x0C 4 % 64 = 0) || decide (0x1000000 < leAt b 0x0C 4) ||
      !(body.length = leAt b 0x0C 4) || !zero 0x30 16 || !zero (0x40 + 2964) (4032 - 2964) then .error 3
  else if !(Config.sha256 body = digest) then .error 3
  else if !Config.hssVerify (b.take 0x30) ((b.drop 0x40).take 2964) then .error 3
  else if svn < minSvn then .error 4
  else .ok { version := leAt b 4 4, svn := svn, digest := digest }

/-- LOAD (R439): a failure leaves the running image in place; a verified image waits for a boost boundary. [DEDUCED: log 71] -/
def execLoad (s : State) : Host.Outcome State Fault Refusal :=
  .next (match s.fw.held with
  | some (1, pa, n) => if s.fw.alive then mailWhen s 1 pa n n (loadFrom pa n) else s
  | _ => command s 1 0 0 fun s =>
    let n := s.fw.arg1.toNat
    if decide (n < 4096) || decide (4096 + 0x1000000 < n) then mailDone s 1
    else mailWhen s 1 s.fw.arg0.toNat n n (loadFrom s.fw.arg0.toNat n))
where
  /-- The image is read and verified. -/
  loadFrom (pa n : Nat) (s : State) : State :=
    match mailRead s pa n with
    | none => mailDone s 1
    | some bs => match verifyImage s.fw.minSvn bs with
      | .error e => mailDone (updFw s fun f => { f with st := if f.image.isNone then 3 else f.st }) e
      | .ok im => updFw s fun f => { f with next := some im, st := if f.image.isNone then 1 else f.st }

/-- FIRMWARE_HANDOVER (R439): at a boost boundary; policies carry across. [DEDUCED: log 71] -/
def execFirmwareHandover (s : State) : Host.Outcome State Fault Refusal :=
  .next (match s.fw.next with
    | some im =>
      if s.time % ticks 4000 = 0 && s.fw.alive then
        mailDone (updFw s fun f => { f with image := some im, store := some im, next := none, st := 2 }) 0
      else s
    | none => s)

/-! ## Attestation (R441, R442) -/

/-- Exactly n bytes of an open list. -/
def padTo (n : Nat) (bs : List Byte) : List Byte := (bs ++ List.replicate n 0).take n

/-- The report of R442 with a leaf. [PRESUMED: log 5] -/
def reportBytes (s : State) (nonce : List Byte) (leaf : Nat) : List Byte :=
  let im := s.fw.image.getD {}
  let head := padTo 32 nonce ++ padTo 32 im.digest ++ natLe 4 im.version ++ natLe 4 im.svn ++ natLe 8 leaf ++
    natLe 8 (nowNs s) ++ padTo 16 Config.serial
  head ++ padTo 2964 (Config.hssSign leaf head) ++ natLe 4 0

/-- The report of a committed ATTEST is written, and the command completes. -/
def report (s : State) (a : Attest) : State :=
  mailDone (updFw (physPut s .host a.out (a.nonce ++ plain ((reportBytes s (rawBytes a.nonce) a.leaf).drop 32)))
    fun f => { f with att := none }) 0

/-- ATTEST (R441, R442): the counter is committed in both copies, and later, with the leaf before it, the report is signed and
written; a second one in between is discarded (R435). [DEDUCED: log 71] -/
def execAttest (s : State) : Host.Outcome State Fault Refusal :=
  .next (match s.fw.att, s.fw.held with
  | some a, _ => if decide (a.due ≤ nowNs s) && s.fw.alive then report s a else s
  | none, some (3, pa, out) => if s.fw.alive then mailWhen s 3 pa out 32 (attestFrom pa out) else s
  | none, _ => command s 3 0 0 fun s =>
    mailWhen s 3 s.fw.arg0.toNat s.fw.arg1.toNat 32 (attestFrom s.fw.arg0.toNat s.fw.arg1.toNat))
where
  /-- The nonce is read and the leaf counter committed. -/
  attestFrom (pa out : Nat) (s : State) : State :=
    let leaf := max s.fw.leaf0 s.fw.leaf4
    match mailRead s pa 32 with
    | none => mailDone s 1
    | some nonce =>
      if !(hostWritable s out && hostWritable s (out + 3071)) then mailDone s 1
      else if 2 ^ 20 ≤ leaf then mailDone s 6
      else
        let (n, s) := freeN s
        updFw s fun f =>
          { f with
            leaf0 := leaf + 1, leaf4 := leaf + 1
            att := some { leaf := leaf, out := out, nonce := nonce, due := nowNs s + n } }

/-! ## Policies (R434, R443, R444) -/

/-- A value is in the range of its policy. -/
def policyOk (s : State) (p v : Nat) : Bool :=
  let within (lo hi : Nat) : Bool := decide (lo ≤ v) && decide (v ≤ hi)
  if p = 0x01 then v = 0 || within 16 4096
  else if p = 0x02 then within 0 1
  else if p = 0x03 then within 1 255
  else if p = 0x04 then within 1 255
  else if p = 0x10 then within 60 100 && decide (v < policy s 0x11)
  else if p = 0x11 then within 65 104 && decide (policy s 0x10 < v) && decide (v < policy s 0x12)
  else if p = 0x12 then within 70 110 && decide (policy s 0x11 < v)
  else if p = 0x13 then true
  else if p = 0x14 then within 0 64
  else if p = 0x15 then v = 0 || within 256 16384
  else if p = 0x16 then v = 0 || within 2000 10000000
  else if p = 0x17 then within 0 1
  else if p = 0x18 then within 0 1
  else if p = 0x19 then v = 0 || within 1 1000
  else false

/-- SETPOL (R434, R443). [DEDUCED: log 71] -/
def execSetpol (s : State) : Host.Outcome State Fault Refusal :=
  .next (command s 4 0 0 fun s =>
    let p := s.fw.arg0.toNat
    let v := s.fw.arg1.toNat
    if policyOk s p v then mailDone (updFw s fun f => { f with pol := mset f.pol p v }) 0 else mailDone s 1)

/-! ## Standby and power (R440, R441) -/

/-- STANDBY_TAKEOVER (R440): the standby controller takes over with every policy; the failure is logged then, with the time of
its detection (class 18 of R437). [DEDUCED: log 71] -/
def execStandbyTakeover (s : State) : Host.Outcome State Fault Refusal :=
  .next (
    if s.fw.alive || s.fw.standby then s
    else logErrAt (updFw s fun f => { f with alive := true, standby := true }) s.fw.failedAt 18 0 0xFFFF 0 0 0)

/-- POWER_LOSS (R441): everything is lost but the fuses, the leaf counters and the stored image. [DESIGN CHOICE: log 11; DEDUCED: log 69] -/
def execPowerLoss (s : State) : Host.Outcome State Fault Refusal := .next { resetPackage s with powered := false, agenda := [] }

/-! ## The register space as the host writes it (R394) -/

/-- The state that an event leaves. -/
def after (r : Host.Outcome State Fault Refusal) (s : State) : State :=
  match r with
  | .next t => t
  | _ => s

/-- A write of the command word of the mailbox (R435, R436). -/
def mailWrite (v : DWord) (s : State) : State :=
  let op := nbits v.toNat 0 8
  let kind := nbits v.toNat 8 8
  let unit := nbits v.toNat 16 16
  if op = 1 then after (execLoad s) s
  else if op = 2 then mailReset s kind unit
  else if op = 3 then after (execAttest s) s
  else if op = 4 then after (execSetpol s) s
  else if op = 5 ∧ kind = 1 then after (execRetireSlot unit s) s
  else if op = 5 ∧ kind = 2 then after (execRetireCore unit s) s
  else command s op kind unit fun s => mailDone s 1

/-- A write of a word of the mailbox page (R435). [DESIGN CHOICE: log 74] -/
def mailPageWrite (off : Nat) (v : DWord) (s : State) : State :=
  if off = 0x08 then mailWrite v s
  else if off = 0x10 then updFw s fun f => { f with arg0 := v }
  else if off = 0x18 then updFw s fun f => { f with arg1 := v }
  else if off = 0x100 then updFw s fun f => { f with logbase := v &&& 0xFFFFFFFFFFFF0000#64 }
  else if off = 0x110 then updFw s fun f => { f with logcons := v }
  else s

/-- A write of a word of the translation page (R420, R425, R427). [DESIGN CHOICE: log 74] -/
def xlPageWrite (off : Nat) (v : DWord) (s : State) : State :=
  if off = 0x8000 ∨ off = 0x8008 then after (execTranslationRegisterWrite off v s) s
  else if off = 0x8010 then after (execTpcfgWrite v s) s
  else if 0x8020 ≤ off ∧ off < 0x8040 then after (execPartWrite ((off - 0x8020) / 8) v s) s
  else s

/-- A write of a word of the tree table (R402). [DESIGN CHOICE: log 74] -/
def treePageWrite (off : Nat) (v : DWord) (s : State) : State :=
  if off < 1024 then updLink s fun l => { l with trees := mupd l.trees (off / 16) {} fun t =>
    if off % 16 = 0 then { t with lo := v &&& 0xFFFFC003#64 } else { t with base := v } }
  else s

/-- A write of a word of a port page (R400): RST, or EN. [DESIGN CHOICE: log 74] -/
def portPageWrite (port off : Nat) (v : DWord) (s : State) : State :=
  if !(off = 0) then s
  else
    let s := after (execUalinkPortEnable port v s) s
    if v.getLsbD 1 then after (execUalinkPortRst port s) s else s

/-- The queue whose doorbell register a misaligned eight-byte write meets (R396). -/
def misDoorbell (off : Nat) : Option Nat :=
  (List.range 64).find? fun q => decide (off < 0x100000 + 0x1000 * q + 8) && decide (0x100000 + 0x1000 * q < off + 8)

/-- REGISTER_WRITE (R394): an eight-byte write of register space; one that names no register writes nothing. -/
def execRegisterWrite (off : Nat) (v : DWord) (s : State) : Host.Outcome State Fault Refusal :=
  .next (
    if inReset s 7 0 then s
    else if !(off % 8 = 0) then
      match misDoorbell off with
      | some q => after (execDoorbell q 0 v s) s
      | none => s
    else if 0x10000 ≤ off ∧ off < 0x11000 then
      let q := (off - 0x10000) / 64
      if off % 64 = 0x10 then after (execQcancel q v s) s
      else if off % 64 = 0 ∨ off % 64 = 8 then after (execQueueControlWrite q (off % 64) v s) s
      else s
    else if 0x100000 ≤ off ∧ off < 0x140000 then
      if off % 4096 = 0 then after (execDoorbell ((off - 0x100000) / 4096) 8 v s) s else s
    else if capPage 0 + 0x8000 ≤ off ∧ off < capPage 0 + 0x10000 then xlPageWrite (off - capPage 0) v s
    else if capPage 1 ≤ off ∧ off < capPage 28 then
      let i := (off - 0x1000000) / 0x10000
      let o := off % 0x10000
      if 13 ≤ i ∧ i < 25 then portPageWrite (i - 13) o v s
      else if i = 25 then treePageWrite o v s
      else if i = 26 then mailPageWrite o v s
      else if i = 27 ∧ o = 0x1000 then after (execEinjWrite v s) s
      else s
    else s)

end Sys2Proof.Machine
end

