-- ==== Sys2Proof/Machine/Integer.lean ====
section
/-! DEFINITION. Class 0: integer and logic instructions (R233 to R251, LDI of R198). -/

namespace Sys2Proof.Machine

/-- Result of an element-wise function of A and B in a lane, and whether an element saturated (R234). -/
def elemRes (i : Instr) (x : Form) (s : State) (f : Nat → Nat → Nat → Nat × Bool) (l : Nat) : Nat × Bool :=
  let k := x.m 4 2
  let w := elemW k
  let rs := List.zipWith (f w) (elems w (elemE k) (srcNo i x s 3 l).n) (elems w (elemE k) (srcNo i x s 4 l).n)
  (joinEl w (rs.map (·.1)), rs.any (·.2))

/-- Next state of a lane-wise instruction whose result in a lane is a number, with the SAT bit (R234, R79). -/
def intNext (i : Instr) (x : Form) (s : State) (n : Nat) (f : Nat → Nat × Bool) : State :=
  let sat := (lanesOf (actMask s x)).any fun l => (f l).2
  stickyIf sat 0 (fixed i x n s fun l => { w := natWords n (f l).1, p := poisonedIn i x s l })

/-- An element-wise instruction of A and B. -/
def intBin (i : Instr) (x : Form) (s : State) (f : Nat → Nat → Nat → Nat × Bool) : Host.Outcome State Fault Refusal :=
  run i x s (intNext i x s x.wregs (elemRes i x s f))

/-- Result of an element-wise function of A alone in a lane. -/
def elemRes1 (i : Instr) (x : Form) (s : State) (f : Nat → Nat → Nat × Bool) (l : Nat) : Nat × Bool :=
  let k := x.m 4 2
  let w := elemW k
  let rs := (elems w (elemE k) (srcNo i x s 3 l).n).map (f w)
  (joinEl w (rs.map (·.1)), rs.any (·.2))

/-- An element-wise instruction of A. -/
def intUn (i : Instr) (x : Form) (s : State) (f : Nat → Nat → Nat × Bool) : Host.Outcome State Fault Refusal :=
  run i x s (intNext i x s x.wregs (elemRes1 i x s f))

/-- An instruction whose result in a lane is a function of the lane's operands as numbers. -/
def intLane (i : Instr) (x : Form) (s : State) (n : Nat) (f : Nat → Nat × Bool) : Host.Outcome State Fault Refusal :=
  run i x s (intNext i x s n f)

/-- A division: quotients or remainders fill later (R238, R226). -/
def intDiv (i : Instr) (x : Form) (s : State) (f : Nat → Nat → Nat → Nat) : Host.Outcome State Fault Refusal :=
  run i x s (long i x x.wregs s fun l =>
    { w := natWords x.wregs (elemRes i x s (fun w a b => (f w a b, false)) l).1, p := poisonedIn i x s l })

/-- IADD (R236). -/
def execIadd (x : Form) (s : State) : Host.Outcome State Fault Refusal :=
  intBin (.iadd x) x s (addSub false (x.m 0 2))
/-- ISUB (R236). -/
def execIsub (x : Form) (s : State) : Host.Outcome State Fault Refusal :=
  intBin (.isub x) x s (addSub true (x.m 0 2))
/-- IMUL (R237). -/
def execImul (x : Form) (s : State) : Host.Outcome State Fault Refusal :=
  intBin (.imul x) x s fun w a b => (mulLow w a b, false)
/-- IMULH (R237). -/
def execImulh (x : Form) (s : State) : Host.Outcome State Fault Refusal :=
  intBin (.imulh x) x s fun w a b => (mulHigh w a b, false)
/-- IMULHN (R237). -/
def execImulhn (x : Form) (s : State) : Host.Outcome State Fault Refusal :=
  intBin (.imulhn x) x s fun w a b => (mulHighN w a b, false)

/-- The elements of A times B plus C in a lane (R237). -/
def imadRes (x : Form) (s : State) (l : Nat) : Nat × Bool :=
  let k := x.m 4 2
  let w := elemW k
  let ab := List.zipWith (mulLow w) (elems w (elemE k) (srcNo (.imad x) x s 3 l).n) (elems w (elemE k) (srcNo (.imad x) x s 4 l).n)
  (joinEl w (List.zipWith (· + ·) ab (elems w (elemE k) (srcNo (.imad x) x s 5 l).n)), false)

/-- IMAD (R237). -/
def execImad (x : Form) (s : State) : Host.Outcome State Fault Refusal :=
  intLane (.imad x) x s x.wregs (imadRes x s)
/-- IDIV (R238). -/
def execIdiv (x : Form) (s : State) : Host.Outcome State Fault Refusal :=
  intDiv (.idiv x) x s fun w a b => (divS w a b).1
/-- IDIVN (R238). -/
def execIdivn (x : Form) (s : State) : Host.Outcome State Fault Refusal :=
  intDiv (.idivn x) x s fun w a b => (divU w a b).1
/-- IREM (R238). -/
def execIrem (x : Form) (s : State) : Host.Outcome State Fault Refusal :=
  intDiv (.irem x) x s fun w a b => (divS w a b).2
/-- IREMN (R238). -/
def execIremn (x : Form) (s : State) : Host.Outcome State Fault Refusal :=
  intDiv (.iremn x) x s fun w a b => (divU w a b).2
/-- INEG (R239). -/
def execIneg (x : Form) (s : State) : Host.Outcome State Fault Refusal :=
  intUn (.ineg x) x s (negEl (x.m 0 1 = 1))
/-- IABS (R239). -/
def execIabs (x : Form) (s : State) : Host.Outcome State Fault Refusal :=
  intUn (.iabs x) x s (absEl (x.m 0 1 = 1))
/-- IMIN (R240). -/
def execImin (x : Form) (s : State) : Host.Outcome State Fault Refusal :=
  intBin (.imin x) x s fun w a b => (minmaxS false w a b, false)
/-- IMAX (R240). -/
def execImax (x : Form) (s : State) : Host.Outcome State Fault Refusal :=
  intBin (.imax x) x s fun w a b => (minmaxS true w a b, false)
/-- IMINN (R240). -/
def execIminn (x : Form) (s : State) : Host.Outcome State Fault Refusal :=
  intBin (.iminn x) x s fun _ a b => (min a b, false)
/-- IMAXN (R240). -/
def execImaxn (x : Form) (s : State) : Host.Outcome State Fault Refusal :=
  intBin (.imaxn x) x s fun _ a b => (max a b, false)
/-- AND (R241). -/
def execAnd (x : Form) (s : State) : Host.Outcome State Fault Refusal :=
  intBin (.and x) x s fun _ a b => (Nat.land a b, false)
/-- OR (R241). -/
def execOr (x : Form) (s : State) : Host.Outcome State Fault Refusal :=
  intBin (.or x) x s fun _ a b => (Nat.lor a b, false)
/-- XOR (R241). -/
def execXor (x : Form) (s : State) : Host.Outcome State Fault Refusal :=
  intBin (.xor x) x s fun _ a b => (Nat.xor a b, false)
/-- ANDN: A AND NOT B (R241). -/
def execAndn (x : Form) (s : State) : Host.Outcome State Fault Refusal :=
  intBin (.andn x) x s fun w a b => (Nat.land a (2 ^ w - 1 - b), false)
/-- SHL (R242). -/
def execShl (x : Form) (s : State) : Host.Outcome State Fault Refusal :=
  intBin (.shl x) x s fun w a b => (shlEl w a b, false)
/-- SHRL (R242). -/
def execShrl (x : Form) (s : State) : Host.Outcome State Fault Refusal :=
  intBin (.shrl x) x s fun w a b => (shrlEl w a b, false)
/-- SHRA (R242). -/
def execShra (x : Form) (s : State) : Host.Outcome State Fault Refusal :=
  intBin (.shra x) x s fun w a b => (shraEl w a b, false)
/-- ROTL (R242). -/
def execRotl (x : Form) (s : State) : Host.Outcome State Fault Refusal :=
  intBin (.rotl x) x s fun w a b => (rotlEl w a b, false)
/-- POPC (R243). -/
def execPopc (x : Form) (s : State) : Host.Outcome State Fault Refusal :=
  intUn (.popc x) x s fun w a => (popEl w a, false)
/-- CLZ (R243). -/
def execClz (x : Form) (s : State) : Host.Outcome State Fault Refusal :=
  intUn (.clz x) x s fun w a => (clzEl w a, false)
/-- CTZ (R243). -/
def execCtz (x : Form) (s : State) : Host.Outcome State Fault Refusal :=
  intUn (.ctz x) x s fun w a => (ctzEl w a, false)
/-- BREV (R243). -/
def execBrev (x : Form) (s : State) : Host.Outcome State Fault Refusal :=
  intUn (.brev x) x s fun w a => (brevEl w a, false)
/-- BFX (R244). -/
def execBfx (x : Form) (s : State) : Host.Outcome State Fault Refusal :=
  intBin (.bfx x) x s fun w a b => (bfxEl true w a b, false)
/-- BFXN (R244). -/
def execBfxn (x : Form) (s : State) : Host.Outcome State Fault Refusal :=
  intBin (.bfxn x) x s fun w a b => (bfxEl false w a b, false)
/-- BFI (R245). -/
def execBfi (x : Form) (s : State) : Host.Outcome State Fault Refusal :=
  intLane (.bfi x) x s x.wregs fun l =>
    (bfiEl (elemW (x.m 4 2)) (srcNo (.bfi x) x s 3 l).n (srcNo (.bfi x) x s 4 l).n (srcNo (.bfi x) x s 5 l).n, false)
/-- ISAT: the width comes from the whole 32-bit B (R246). -/
def execIsat (x : Form) (s : State) : Host.Outcome State Fault Refusal :=
  intLane (.isat x) x s x.wregs fun l =>
    elemRes1 (.isat x) x s (fun w a => isatEl (x.m 0 2) w a (srcNo (.isat x) x s 4 l).n) l
/-- ICMP (R247). -/
def execIcmp (x : Form) (s : State) : Host.Outcome State Fault Refusal :=
  run (.icmp x) x s (toPred (.icmp x) x s fun l =>
    icmpCond (x.m 0 4) (elemW (x.m 4 2)) (srcNo (.icmp x) x s 3 l).n (srcNo (.icmp x) x s 4 l).n)
/-- SEL: A where C is true, else B (R249). -/
def execSel (x : Form) (s : State) : Host.Outcome State Fault Refusal :=
  intLane (.sel x) x s x.wregs fun l =>
    (if (srcNo (.sel x) x s 5 l).n = 0 then (srcNo (.sel x) x s 4 l).n else (srcNo (.sel x) x s 3 l).n, false)
/-- MOV (R250). -/
def execMov (x : Form) (s : State) : Host.Outcome State Fault Refusal :=
  intLane (.mov x) x s x.wregs fun l => ((srcNo (.mov x) x s 3 l).n, false)
/-- LDI: the constant in MOD[3:0] and IMM (R198). -/
def execLdi (x : Form) (s : State) : Host.Outcome State Fault Refusal :=
  intLane (.ldi x) x s 1 fun _ => (x.m 0 4 * 2 ^ 28 + x.imm.toNat, false)
/-- LEA (R251). -/
def execLea (x : Form) (s : State) : Host.Outcome State Fault Refusal :=
  intLane (.lea x) x s 2 fun l =>
    let b := (srcNo (.lea x) x s 4 l).n
    let b : Int := if x.m 3 1 = 1 then (b : Int) else toSigned 32 b
    (ofSigned 64 (((srcNo (.lea x) x s 3 l).n : Int) + b * ((2 ^ x.m 0 3 : Nat) : Int)), false)

end Sys2Proof.Machine
end

