-- ==== Sys2Proof/Machine/Lanes.lean ====
section
/-! DEFINITION. Class 3: cross-lane and predicate instructions (R252 to R260). -/

namespace Sys2Proof.Machine

/-- Truth of A in a lane: a predicate or an immediate gives its bit, any other source is true when nonzero (R255). -/
def truthA (i : Instr) (x : Form) (s : State) (l : Nat) : Bool :=
  let v := (srcNo i x s 3 l).n
  if x.a.isImm then v % 2 = 1 else !(v = 0)

/-- A of a lane, 0 and not poisoned outside the active set (R253, R254). -/
def laneA (i : Instr) (x : Form) (s : State) (l : Nat) : Nat × Bool :=
  if (actMask s x).getLsbD l then ((srcNo i x s 3 l).n, (srcNo i x s 3 l).p) else (0, false)

/-- Source lane of SHFL (R254). -/
def shflFrom (x : Form) (l b : Nat) : Option Nat :=
  let seg := 32 >>> x.m 2 2
  let base := l - l % seg
  let j := l % seg
  match x.m 0 2 with
  | 0 => some (base + b % seg)
  | 1 => some (base + (j + b % seg) % seg)
  | 2 =>
    let t : Int := j + toSigned 32 b
    if 0 ≤ t ∧ t < seg then some (base + t.toNat) else none
  | _ => some (base + Nat.xor j (b % seg))

/-- SHFL (R254). -/
def execShfl (x : Form) (s : State) : Host.Outcome State Fault Refusal :=
  run (.shfl x) x s (fixed (.shfl x) x x.wregs s fun l =>
    let b := srcNo (.shfl x) x s 4 l
    let r := match shflFrom x l b.n with
      | some k => laneA (.shfl x) x s k
      | none => (0, false)
    { w := natWords x.wregs r.1, p := b.p || r.2 })

/-- Active lanes with a true A. -/
def trueLanes (x : Form) (s : State) : List Nat := (lanesOf (actMask s x)).filter (truthA (.vote x) x s)

/-- Any active lane's A is poisoned. -/
def lanePoison (i : Instr) (x : Form) (s : State) : Bool := (lanesOf (actMask s x)).any fun l => (srcNo i x s 3 l).p

/-- Every active lane holds the same A (R255). -/
def allSame (i : Instr) (x : Form) (s : State) : Bool :=
  match (lanesOf (actMask s x)).map fun l => (srcNo i x s 3 l).n with
  | [] => true
  | v :: vs => vs.all (· = v)

/-- VOTE (R255). -/
def execVote (x : Form) (s : State) : Host.Outcome State Fault Refusal :=
  let i := Instr.vote x
  run i x s (
    if x.m 0 3 ≤ 2 then
      toPred i x s fun _ =>
        if x.m 0 3 = 0 then (trueLanes x s).length = (lanesOf (actMask s x)).length
        else if x.m 0 3 = 1 then !(trueLanes x s).isEmpty
        else allSame i x s
    else
      fixed i x 1 s fun _ =>
        { w := [if x.m 0 3 = 3 then maskOf (trueLanes x s) else BitVec.ofNat 32 (trueLanes x s).length]
          p := lanePoison i x s })

/-- The combination of A over lanes, in ascending order (R256). -/
def combine (i : Instr) (x : Form) (s : State) (ls : List Nat) : Nat :=
  let w := elemW (x.m 4 2)
  ls.foldl (fun a l => combOp (x.m 0 3) w a (srcNo i x s 3 l).n) (combId (x.m 0 3) w)

/-- REDUX (R256). -/
def execRedux (x : Form) (s : State) : Host.Outcome State Fault Refusal :=
  let i := Instr.redux x
  run i x s (fixed i x x.wregs s fun _ =>
    { w := natWords x.wregs (combine i x s (lanesOf (actMask s x))), p := lanePoison i x s })

/-- The active lanes a SCAN result of lane l covers (R257). -/
def scanLanes (x : Form) (s : State) (l : Nat) : List Nat :=
  (lanesOf (actMask s x)).filter fun k => if x.m 3 1 = 1 then decide (k < l) else decide (k ≤ l)

/-- SCAN (R257). -/
def execScan (x : Form) (s : State) : Host.Outcome State Fault Refusal :=
  let i := Instr.scan x
  run i x s (fixed i x x.wregs s fun l =>
    { w := natWords x.wregs (combine i x s (scanLanes x s l)), p := (scanLanes x s l).any fun k => (srcNo i x s 3 k).p })

/-- MATCH (R258). -/
def execMatchL (x : Form) (s : State) : Host.Outcome State Fault Refusal :=
  let i := Instr.matchL x
  run i x s (fixed i x 1 s fun l =>
    { w := [maskOf ((lanesOf (actMask s x)).filter fun k => (srcNo i x s 3 k).n = (srcNo i x s 3 l).n)]
      p := lanePoison i x s })

/-- pA or pB, inverted by its modifier (R259). -/
def predArg (i : Instr) (x : Form) (s : State) (no bit l : Nat) : Bool :=
  !((srcNo i x s no l).n = 0) != decide (x.m bit 1 = 1)

/-- PAND (R259). -/
def execPand (x : Form) (s : State) : Host.Outcome State Fault Refusal :=
  let i := Instr.pand x
  run i x s (toPred i x s fun l => predArg i x s 3 0 l && predArg i x s 4 1 l)
/-- POR (R259). -/
def execPor (x : Form) (s : State) : Host.Outcome State Fault Refusal :=
  let i := Instr.por x
  run i x s (toPred i x s fun l => predArg i x s 3 0 l || predArg i x s 4 1 l)
/-- PXOR (R259). -/
def execPxor (x : Form) (s : State) : Host.Outcome State Fault Refusal :=
  let i := Instr.pxor x
  run i x s (toPred i x s fun l => predArg i x s 3 0 l != predArg i x s 4 1 l)

/-- The eight predicates of a lane as one word (R260). -/
def predWord (t : Thr) (l : Nat) : Word := ((laneOf t l).preds ||| 1#8).setWidth 32

/-- PMOV.load: p1 to p7 from A[7:1] in each active lane (R260). -/
def pmovLoad (x : Form) (s : State) : State :=
  let i := Instr.pmov x
  match poisonFault i x s [3] with
  | some f => takeFault s f
  | none => finish i x s false (updCur (killDead i x s) fun t =>
      (lanesOf (actMask s x)).foldl (fun t l => updLane t l fun n =>
        { n with preds := BitVec.ofNat 8 ((srcNo i x s 3 l).n % 256 / 2 * 2 + 1) }) t)

/-- PMOV in its four forms (R260). -/
def execPmov (x : Form) (s : State) : Host.Outcome State Fault Refusal :=
  let i := Instr.pmov x
  run i x s (
    match x.m 0 2 with
    | 0 => toPred i x s (truthA i x s)
    | 1 => toPred i x s fun l => !truthA i x s l
    | 2 => fixed i x 1 s fun l => { w := [predWord (curThr s) l] }
    | _ => pmovLoad x s)

end Sys2Proof.Machine
end

