-- ==== Sys2Proof/Machine/Dispatch.lean ====
section
/-! DEFINITION. The dispatcher: one arm per constructor of Instr, each one direct call of its meaning. -/

namespace Sys2Proof.Machine

/-- The meaning of one instruction or event at a state. -/
def exec (i : Instr) (s : State) : Host.Outcome State Fault Refusal :=
  match i with
  | .iadd x => Sys2Proof.Machine.execIadd x s
  | .isub x => Sys2Proof.Machine.execIsub x s
  | .imul x => Sys2Proof.Machine.execImul x s
  | .imulh x => Sys2Proof.Machine.execImulh x s
  | .imulhn x => Sys2Proof.Machine.execImulhn x s
  | .imad x => Sys2Proof.Machine.execImad x s
  | .idiv x => Sys2Proof.Machine.execIdiv x s
  | .idivn x => Sys2Proof.Machine.execIdivn x s
  | .irem x => Sys2Proof.Machine.execIrem x s
  | .iremn x => Sys2Proof.Machine.execIremn x s
  | .ineg x => Sys2Proof.Machine.execIneg x s
  | .iabs x => Sys2Proof.Machine.execIabs x s
  | .imin x => Sys2Proof.Machine.execImin x s
  | .imax x => Sys2Proof.Machine.execImax x s
  | .iminn x => Sys2Proof.Machine.execIminn x s
  | .imaxn x => Sys2Proof.Machine.execImaxn x s
  | .and x => Sys2Proof.Machine.execAnd x s
  | .or x => Sys2Proof.Machine.execOr x s
  | .xor x => Sys2Proof.Machine.execXor x s
  | .andn x => Sys2Proof.Machine.execAndn x s
  | .shl x => Sys2Proof.Machine.execShl x s
  | .shrl x => Sys2Proof.Machine.execShrl x s
  | .shra x => Sys2Proof.Machine.execShra x s
  | .rotl x => Sys2Proof.Machine.execRotl x s
  | .popc x => Sys2Proof.Machine.execPopc x s
  | .clz x => Sys2Proof.Machine.execClz x s
  | .ctz x => Sys2Proof.Machine.execCtz x s
  | .brev x => Sys2Proof.Machine.execBrev x s
  | .bfx x => Sys2Proof.Machine.execBfx x s
  | .bfxn x => Sys2Proof.Machine.execBfxn x s
  | .bfi x => Sys2Proof.Machine.execBfi x s
  | .isat x => Sys2Proof.Machine.execIsat x s
  | .icmp x => Sys2Proof.Machine.execIcmp x s
  | .sel x => Sys2Proof.Machine.execSel x s
  | .mov x => Sys2Proof.Machine.execMov x s
  | .ldi x => Sys2Proof.Machine.execLdi x s
  | .lea x => Sys2Proof.Machine.execLea x s
  | .fadd x => Sys2Proof.Machine.execFadd x s
  | .fsub x => Sys2Proof.Machine.execFsub x s
  | .fmul x => Sys2Proof.Machine.execFmul x s
  | .ffma x => Sys2Proof.Machine.execFfma x s
  | .fmin x => Sys2Proof.Machine.execFmin x s
  | .fmax x => Sys2Proof.Machine.execFmax x s
  | .fdiv x => Sys2Proof.Machine.execFdiv x s
  | .fsqrt x => Sys2Proof.Machine.execFsqrt x s
  | .frcp x => Sys2Proof.Machine.execFrcp x s
  | .frsq x => Sys2Proof.Machine.execFrsq x s
  | .fexp2 x => Sys2Proof.Machine.execFexp2 x s
  | .flog2 x => Sys2Proof.Machine.execFlog2 x s
  | .fsin x => Sys2Proof.Machine.execFsin x s
  | .fcos x => Sys2Proof.Machine.execFcos x s
  | .fcmp x => Sys2Proof.Machine.execFcmp x s
  | .fclass x => Sys2Proof.Machine.execFclass x s
  | .frnd x => Sys2Proof.Machine.execFrnd x s
  | .fdot2 x => Sys2Proof.Machine.execFdot2 x s
  | .fscale x => Sys2Proof.Machine.execFscale x s
  | .cvt x => Sys2Proof.Machine.execCvt x s
  | .cvtdx x => Sys2Proof.Machine.execCvtdx x s
  | .undx x => Sys2Proof.Machine.execUndx x s
  | .maxabs x => Sys2Proof.Machine.execMaxabs x s
  | .blkscl x => Sys2Proof.Machine.execBlkscl x s
  | .qnt x => Sys2Proof.Machine.execQnt x s
  | .dqnt x => Sys2Proof.Machine.execDqnt x s
  | .rmod x => Sys2Proof.Machine.execRmod x s
  | .rmad x => Sys2Proof.Machine.execRmad x s
  | .rsplit x => Sys2Proof.Machine.execRsplit x s
  | .rmrc x => Sys2Proof.Machine.execRmrc x s
  | .pack x => Sys2Proof.Machine.execPack x s
  | .shfl x => Sys2Proof.Machine.execShfl x s
  | .vote x => Sys2Proof.Machine.execVote x s
  | .redux x => Sys2Proof.Machine.execRedux x s
  | .scan x => Sys2Proof.Machine.execScan x s
  | .matchL x => Sys2Proof.Machine.execMatchL x s
  | .pand x => Sys2Proof.Machine.execPand x s
  | .por x => Sys2Proof.Machine.execPor x s
  | .pxor x => Sys2Proof.Machine.execPxor x s
  | .pmov x => Sys2Proof.Machine.execPmov x s
  | .bra x => Sys2Proof.Machine.execBra x s
  | .brx x => Sys2Proof.Machine.execBrx x s
  | .call x => Sys2Proof.Machine.execCall x s
  | .ret x => Sys2Proof.Machine.execRet x s
  | .meet x => Sys2Proof.Machine.execMeet x s
  | .exit x => Sys2Proof.Machine.execExit x s
  | .spawn x => Sys2Proof.Machine.execSpawn x s
  | .rebask x => Sys2Proof.Machine.execRebask x s
  | .yield x => Sys2Proof.Machine.execYield x s
  | .nop x => Sys2Proof.Machine.execNop x s
  | .loop x => Sys2Proof.Machine.execLoop x s
  | .launch x => Sys2Proof.Machine.execLaunch x s
  | .regacq x => Sys2Proof.Machine.execRegacq x s
  | .regrel x => Sys2Proof.Machine.execRegrel x s
  | .sleep x => Sys2Proof.Machine.execSleep x s
  | .send x => Sys2Proof.Machine.execSend x s
  | .recv x => Sys2Proof.Machine.execRecv x s
  | .ld x => Sys2Proof.Machine.execLd x s
  | .st x => Sys2Proof.Machine.execSt x s
  | .sfill x => Sys2Proof.Machine.execSfill x s
  | .pref x => Sys2Proof.Machine.execPref x s
  | .atom x => Sys2Proof.Machine.execAtom x s
  | .red x => Sys2Proof.Machine.execRed x s
  | .lr x => Sys2Proof.Machine.execLr x s
  | .sc x => Sys2Proof.Machine.execSc x s
  | .fence x => Sys2Proof.Machine.execFence x s
  | .cctl x => Sys2Proof.Machine.execCctl x s
  | .binit x => Sys2Proof.Machine.execBinit x s
  | .barrive x => Sys2Proof.Machine.execBarrive x s
  | .bwait x => Sys2Proof.Machine.execBwait x s
  | .bexpect x => Sys2Proof.Machine.execBexpect x s
  | .bdrop x => Sys2Proof.Machine.execBdrop x s
  | .cbar x => Sys2Proof.Machine.execCbar x s
  | .qbar x => Sys2Proof.Machine.execQbar x s
  | .mwait x => Sys2Proof.Machine.execMwait x s
  | .cpy x => Sys2Proof.Machine.execCpy x s
  | .cpyj x => Sys2Proof.Machine.execCpyj x s
  | .sadv x => Sys2Proof.Machine.execSadv x s
  | .twait x => Sys2Proof.Machine.execTwait x s
  | .twany x => Sys2Proof.Machine.execTwany x s
  | .tfirst x => Sys2Proof.Machine.execTfirst x s
  | .tclr x => Sys2Proof.Machine.execTclr x s
  | .basis x => Sys2Proof.Machine.execBasis x s
  | .oclm x => Sys2Proof.Machine.execOclm x s
  | .orel x => Sys2Proof.Machine.execOrel x s
  | .oload x => Sys2Proof.Machine.execOload x s
  | .qmma x => Sys2Proof.Machine.execQmma x s
  | .aclr x => Sys2Proof.Machine.execAclr x s
  | .adrain x => Sys2Proof.Machine.execAdrain x s
  | .scld x => Sys2Proof.Machine.execScld x s
  | .mjob x => Sys2Proof.Machine.execMjob x s
  | .mstat x => Sys2Proof.Machine.execMstat x s
  | .btjob x => Sys2Proof.Machine.execBtjob x s
  | .trap x => Sys2Proof.Machine.execTrap x s
  | .eret x => Sys2Proof.Machine.execEret x s
  | .csrr x => Sys2Proof.Machine.execCsrr x s
  | .csrw x => Sys2Proof.Machine.execCsrw x s
  | .csrs x => Sys2Proof.Machine.execCsrs x s
  | .csrc x => Sys2Proof.Machine.execCsrc x s
  | .ckpt x => Sys2Proof.Machine.execCkpt x s
  | .rsto x => Sys2Proof.Machine.execRsto x s
  | .tlbiVa x => Sys2Proof.Machine.execTlbiVa x s
  | .tlbiAsid x => Sys2Proof.Machine.execTlbiAsid x s
  | .tlbiAll x => Sys2Proof.Machine.execTlbiAll x s
  | .time x => Sys2Proof.Machine.execTime x s
  | .brk x => Sys2Proof.Machine.execBrk x s
  | .resize x => Sys2Proof.Machine.execResize x s
  | .tierh x => Sys2Proof.Machine.execTierh x s
  | .perf x => Sys2Proof.Machine.execPerf x s
  | .parkHalt x => Sys2Proof.Machine.execParkHalt x s
  | .parkRun x => Sys2Proof.Machine.execParkRun x s
  | .parkQuery x => Sys2Proof.Machine.execParkQuery x s
  | .fairnessSwitch core wat => Sys2Proof.Machine.execFairnessSwitch core wat s
  | .serialRotate core wat => Sys2Proof.Machine.execSerialRotate core wat s
  | .activeSetFill core => Sys2Proof.Machine.execActiveSetFill core s
  | .basketProofLaunch core basket => Sys2Proof.Machine.execBasketProofLaunch core basket s
  | .sendUnblock core thr => Sys2Proof.Machine.execSendUnblock core thr s
  | .recvDeliver core thr => Sys2Proof.Machine.execRecvDeliver core thr s
  | .portOrphan core thr => Sys2Proof.Machine.execPortOrphan core thr s
  | .resultFill fill => Sys2Proof.Machine.execResultFill fill s
  | .gridEnd grid => Sys2Proof.Machine.execGridEnd grid s
  | .doorbell q nbytes v => Sys2Proof.Machine.execDoorbell q nbytes v s
  | .qcancel q v => Sys2Proof.Machine.execQcancel q v s
  | .queueControlWrite q off v => Sys2Proof.Machine.execQueueControlWrite q off v s
  | .recordValidate q => Sys2Proof.Machine.execRecordValidate q s
  | .agePromote q => Sys2Proof.Machine.execAgePromote q s
  | .footprintFull core thr => Sys2Proof.Machine.execFootprintFull core thr s
  | .sensorSample readings => Sys2Proof.Machine.execSensorSample readings s
  | .migrateGroup core => Sys2Proof.Machine.execMigrateGroup core s
  | .hardLimitPreempt quad => Sys2Proof.Machine.execHardLimitPreempt quad s
  | .copyStart core => Sys2Proof.Machine.execCopyStart core s
  | .copyComplete core job => Sys2Proof.Machine.execCopyComplete core job s
  | .schedEntrySubmit core => Sys2Proof.Machine.execSchedEntrySubmit core s
  | .sfillLand core job => Sys2Proof.Machine.execSfillLand core job s
  | .regacqGrant core => Sys2Proof.Machine.execRegacqGrant core s
  | .sleepWake core thr => Sys2Proof.Machine.execSleepWake core thr s
  | .sleepTimeout core thr => Sys2Proof.Machine.execSleepTimeout core thr s
  | .mwaitReread core thr => Sys2Proof.Machine.execMwaitReread core thr s
  | .tagWaitReturn core thr => Sys2Proof.Machine.execTagWaitReturn core thr s
  | .bteComplete die => Sys2Proof.Machine.execBteComplete die s
  | .vaultBankSleep bank => Sys2Proof.Machine.execVaultBankSleep bank s
  | .vaultBankWake bank => Sys2Proof.Machine.execVaultBankWake bank s
  | .vaultReplay req => Sys2Proof.Machine.execVaultReplay req s
  | .pageMoveStart page => Sys2Proof.Machine.execPageMoveStart page s
  | .pageMoveComplete page => Sys2Proof.Machine.execPageMoveComplete page s
  | .storeAccept st => Sys2Proof.Machine.execStoreAccept st s
  | .storeApply st => Sys2Proof.Machine.execStoreApply st s
  | .storeAck st => Sys2Proof.Machine.execStoreAck st s
  | .leaseExpire die line => Sys2Proof.Machine.execLeaseExpire die line s
  | .writebackAge die => Sys2Proof.Machine.execWritebackAge die s
  | .lineEvict die line => Sys2Proof.Machine.execLineEvict die line s
  | .hearthAtomic op => Sys2Proof.Machine.execHearthAtomic op s
  | .rcellPartialArrive tree off sum status => Sys2Proof.Machine.execRcellPartialArrive tree off sum status s
  | .pageWalkComplete walk => Sys2Proof.Machine.execPageWalkComplete walk s
  | .tlbiComplete core thr => Sys2Proof.Machine.execTlbiComplete core thr s
  | .engineGrant quad => Sys2Proof.Machine.execEngineGrant quad s
  | .passComplete quad grp => Sys2Proof.Machine.execPassComplete quad grp s
  | .reproofPass quad grp => Sys2Proof.Machine.execReproofPass quad grp s
  | .oloadComplete quad ent => Sys2Proof.Machine.execOloadComplete quad ent s
  | .scldComplete quad ent => Sys2Proof.Machine.execScldComplete quad ent s
  | .drainComplete quad ent => Sys2Proof.Machine.execDrainComplete quad ent s
  | .jobStart quad ent => Sys2Proof.Machine.execJobStart quad ent s
  | .jobComplete quad ent => Sys2Proof.Machine.execJobComplete quad ent s
  | .preemptRequest core => Sys2Proof.Machine.execPreemptRequest core s
  | .preemptHalt core => Sys2Proof.Machine.execPreemptHalt core s
  | .checkpointWriteComplete core => Sys2Proof.Machine.execCheckpointWriteComplete core s
  | .groupRestore core => Sys2Proof.Machine.execGroupRestore core s
  | .registerRestoreBackground core thr reg => Sys2Proof.Machine.execRegisterRestoreBackground core thr reg s
  | .hostMemWrite pa bytes => Sys2Proof.Machine.execHostMemWrite pa bytes s
  | .hostMemRead pa len => Sys2Proof.Machine.execHostMemRead pa len s
  | .hostLinkReset link => Sys2Proof.Machine.execHostLinkReset link s
  | .ualinkPortEnable port v => Sys2Proof.Machine.execUalinkPortEnable port v s
  | .ualinkPortRst port => Sys2Proof.Machine.execUalinkPortRst port s
  | .ualinkPortTrained port lanes peer => Sys2Proof.Machine.execUalinkPortTrained port lanes peer s
  | .ualinkPortDown port => Sys2Proof.Machine.execUalinkPortDown port s
  | .partWrite part v => Sys2Proof.Machine.execPartWrite part v s
  | .tpcfgWrite v => Sys2Proof.Machine.execTpcfgWrite v s
  | .registerWrite off v => Sys2Proof.Machine.execRegisterWrite off v s
  | .hbmBankAccess die bank => Sys2Proof.Machine.execHbmBankAccess die bank s
  | .rfmBlockEnd die bank => Sys2Proof.Machine.execRfmBlockEnd die bank s
  | .hbmRefresh die bank => Sys2Proof.Machine.execHbmRefresh die bank s
  | .patrolScrub die bank => Sys2Proof.Machine.execPatrolScrub die bank s
  | .columnTest core outcome => Sys2Proof.Machine.execColumnTest core outcome s
  | .errorDetect cls unit addr synd => Sys2Proof.Machine.execErrorDetect cls unit addr synd s
  | .einjWrite v => Sys2Proof.Machine.execEinjWrite v s
  | .engineReset unit => Sys2Proof.Machine.execEngineReset unit s
  | .umagilLinkReset unit => Sys2Proof.Machine.execUmagilLinkReset unit s
  | .ualinkPortResetCmd unit => Sys2Proof.Machine.execUalinkPortResetCmd unit s
  | .computeDieReset unit => Sys2Proof.Machine.execComputeDieReset unit s
  | .memoryDieReset unit => Sys2Proof.Machine.execMemoryDieReset unit s
  | .partitionReset unit => Sys2Proof.Machine.execPartitionReset unit s
  | .resetComplete kind unit => Sys2Proof.Machine.execResetComplete kind unit s
  | .retireSlot unit => Sys2Proof.Machine.execRetireSlot unit s
  | .retireCore unit => Sys2Proof.Machine.execRetireCore unit s
  | .l2pRebuild part => Sys2Proof.Machine.execL2pRebuild part s
  | .illegalOpcode w => Sys2Proof.Machine.execIllegalOpcode w s
  | .aclrComplete quad ent => Sys2Proof.Machine.execAclrComplete quad ent s
  | .basisComplete core thr => Sys2Proof.Machine.execBasisComplete core thr s
  | .completionHorizonPassed core thr => Sys2Proof.Machine.execCompletionHorizonPassed core thr s
  | .translationRegisterWrite off v => Sys2Proof.Machine.execTranslationRegisterWrite off v s
  | .dispatchSelect => Sys2Proof.Machine.execDispatchSelect s
  | .deal => Sys2Proof.Machine.execDeal s
  | .thermalForcedDeal => Sys2Proof.Machine.execThermalForcedDeal s
  | .activationWindowStart => Sys2Proof.Machine.execActivationWindowStart s
  | .boostBoundary => Sys2Proof.Machine.execBoostBoundary s
  | .injectedDetection => Sys2Proof.Machine.execInjectedDetection s
  | .load => Sys2Proof.Machine.execLoad s
  | .firmwareHandover => Sys2Proof.Machine.execFirmwareHandover s
  | .packageReset => Sys2Proof.Machine.execPackageReset s
  | .attest => Sys2Proof.Machine.execAttest s
  | .setpol => Sys2Proof.Machine.execSetpol s
  | .standbyTakeover => Sys2Proof.Machine.execStandbyTakeover s
  | .powerLoss => Sys2Proof.Machine.execPowerLoss s

end Sys2Proof.Machine
end

