-- ==== Sys2Proof/Machine/Tick.lean ====
section
/-! DEFINITION. What happens next when the agenda is empty: the global time base moves on (R2), and the agenda takes the
events that are due and one cycle of every core whose edge has come (R386). Which of the durations that the spec leaves
open has passed is a free value. -/

namespace Sys2Proof.Machine

/-! ## Time -/

/-- Cores that hold a group. -/
def occupied (s : State) : List Nat := (s.cores.filter fun (_, k) => k.group.isSome).map (·.1)

/-- The next instant at which something can happen: a core edge, or the next nanosecond. [DEDUCED: log 8] -/
def nextTime (s : State) : Nat :=
  (occupied s).foldl (fun t c => let e := (coreOf s c).edge; if s.time < e ∧ e < t then e else t) ((s.time / 84 + 1) * 84)

/-- The open phase of an activity of a bank within a period of n ns (R450). [DESIGN CHOICE: log 3, 64] -/
def phaseOf (s : State) (kind key n : Nat) : Nat := Config.freeNat (2 ^ 80 + (kind * 2 ^ 40 + key) * 2 ^ 64 + nowNs s / n) % n

/-- An activity with an open phase happens at this nanosecond. [DESIGN CHOICE: log 64] -/
def onPhase (s : State) (kind key n : Nat) : Bool := s.time % 84 = 0 && nowNs s % n = phaseOf s kind key n

/-! ## Firmware, resets and heat -/

/-- The core table of a partition waits to be rebuilt (R429). -/
def rebuildDue (s : State) (p : Nat) : Bool :=
  partEn s p && partIdle s p && (!(mgetD s.xl.l2p p [] = buildL2p s p) || !(mgetD s.xl.lquads p [] = buildQuads s p))

/-- Events of firmware and fleet (R429 to R451). -/
def fleetDue (s : State) : List Instr :=
  let now := nowNs s
  let hot (q : Nat) : Bool := ((coresOf q).any (canHalt s)) && (coresOf q).any fun c => match (mgetD s.cols c {}).hotSince with
    | some t => decide (t + 1000000 ≤ now)
    | none => false
  (s.resets.filter fun r => decide (r.t ≤ now)).map (fun r => .resetComplete r.kind r.unit) ++
  (if s.time % ticks 4000 = 0 then (if s.fw.next.isSome then [.firmwareHandover] else []) ++ [.boostBoundary] else []) ++
  (if s.time % ticks 32000000 = 0 then [.activationWindowStart] else []) ++
  (if !s.fw.alive && !s.fw.standby && decide (s.fw.downAt ≤ now) then [.standbyTakeover] else []) ++
  (match s.fw.att with
    | some a => if a.due ≤ now then [.attest] else []
    | none => []) ++
  (if sampleDue s then [.sensorSample []] else []) ++
  (match s.fw.held with
    | some (op, pa, n) => if s.fw.alive && !rangeDown s pa (mailLen op n) then [if op = 1 then .load else .attest] else []
    | none => []) ++
  (match s.fw.einjLeft with
    | some (_, t) => if t ≤ now then [.injectedDetection] else []
    | none => []) ++
  ((List.range 4).filter (rebuildDue s)).map .l2pRebuild ++
  ((occupied s).map quadOf).eraseDups.filterMap (fun q => if hot q then some (.hardLimitPreempt q) else none) ++
  ((occupied s).filter fun c => retiredWith s c || (canHalt s c && atLimit s 0x11 c)).map .migrateGroup

/-! ## Memory -/

/-- Lines that a die's L2 evicts at this instant, of those with buffered bytes or a leased copy: an open choice (R153). [DESIGN CHOICE: log 64] -/
def evicted (s : State) : List (Nat × Nat) :=
  (((s.mem.stores.filter fun st => st.st = .buffered).map fun st => (st.die, st.line)) ++
    s.mem.copies.map fun c => (c.die, c.line)).eraseDups.filter fun p => Config.freeBit (openAt s 6 (p.1 * 2 ^ 64 + p.2))

/-- Events of translation, stores, leases and results. -/
def memoryDue (s : State) : List Instr :=
  let now := nowNs s
  ((walksRunning s).filter fun w => decide (w.due ≤ s.time) && !waiting s w.waits).map (fun w => .pageWalkComplete w.id) ++
  (s.mem.stores.filter fun st => st.atHome s && acceptable s st).map (fun st => .storeAccept st.id) ++
  (s.mem.stores.filter (applicable s)).map (fun st => .storeApply st.id) ++
  (s.mem.stores.filter fun st => match st.st with
    | .applied tw => decide (tw ≤ now)
    | _ => false).map (fun st => .storeAck st.id) ++
  (s.mem.copies.filter fun c => decide (c.until' ≤ now + 8)).map (fun c => .leaseExpire c.die c.line) ++
  ((List.range 4).filter fun d => s.mem.stores.any fun st => st.die = d && decide (st.st = .buffered) && decide (st.t + 1000 ≤ now)).map
    .writebackAge ++
  (evicted s).map (fun p => .lineEvict p.1 p.2) ++
  (s.mem.atoms.filter (atomReady s)).map (fun o => .hearthAtomic o.id) ++
  (s.mem.fills.filter (fillReady s)).map fun f => .resultFill f.id

/-- A TIER 3 page that a move concerns now: one that a TLBI or a closed gate brings back, one with a hint, or a hot one
(R104, R359, R427, R428). [DESIGN CHOICE: log 3, 63] -/
def movesDue (s : State) : List Nat :=
  let back := s.xl.inVault.map (·.1)
  let called := s.xl.tlbis.flatMap (·.pages)
  let free (p : Nat) : Bool := !(s.xl.moves.any fun v => v.page = p)
  let out := back.filter fun p => free p && (!tpEn s || called.contains p || (mget s.xl.hints p = some 0 && s.fw.alive))
  let into := if !tpEn s || !s.fw.alive then [] else (s.xl.hints.map (·.1) ++ s.xl.heat.map (·.1)).eraseDups.filter fun p =>
    free p && !mhas s.xl.inVault p && (match mget s.xl.hints p with
      | some k => decide (0 < k)
      | none => decide (hotThr s ≤ (mgetD s.xl.heat p (0, 0)).2) && (mgetD s.xl.heat p (0, 0)).1 = nowNs s / 64000)
  out ++ into

/-- Events of vaults, banks and page moves. [DEDUCED: log 65] -/
def banksDue (s : State) : List Instr :=
  let now := nowNs s
  let asked := ((s.mem.reqs.filter fun r => !r.vault).map fun r => (r.die, r.bank)).eraseDups
  (s.mem.reqs.filter fun r => match r.replay with
    | some t => decide (t ≤ now)
    | none => false).map (fun r => .vaultReplay r.id) ++
  s.hbm.vbanks.filterMap (fun (b, k) => match k.wakeAt with
    | some t => if t ≤ now then some (.vaultBankWake b) else none
    | none => if !k.asleep && !(k.idle = 0) && decide (k.last + k.idle ≤ now) then some (.vaultBankSleep b) else none) ++
  s.hbm.banks.filterMap (fun (k, b) => match b.blockedTo with
    | some t => if t ≤ now then some (.rfmBlockEnd (k / 1024) (k % 1024)) else none
    | none => none) ++
  (s.hbm.banks.filter fun (k, b) => onPhase s 0 k 3900 || (b.refreshOwed && b.blockedTo.isNone && b.alerted.isNone)).map (fun (k, _) => .hbmRefresh (k / 1024) (k % 1024)) ++
  (s.hbm.banks.filter fun (k, _) => onPhase s 1 k 2000).map (fun (k, _) => .patrolScrub (k / 1024) (k % 1024)) ++
  (asked.filter fun r => !mdieInReset s r.1).map (fun r => .hbmBankAccess r.1 r.2) ++
  (movesDue s).map .pageMoveStart ++
  (s.xl.moves.filter fun v => decide (v.t + Config.freeNat (2 ^ 79 + v.t) % 20000 ≤ now)).map fun v => .pageMoveComplete v.page

/-! ## Engines, copies and block transfers -/

/-- Events of the entry of an engine's table. -/
def entryDue (s : State) (q : Nat) (n : Ent) : List Instr :=
  match n.op with
  | .aclr _ _ => if n.granted.isSome && decide (n.due ≤ s.time) then [.aclrComplete q n.id] else []
  | .oload _ _ _ _ _ _ _ _ _ _ _ _ => if n.due ≤ s.time then [.oloadComplete q n.id] else []
  | .scld _ _ _ _ _ _ => if n.due ≤ s.time then [.scldComplete q n.id] else []
  | .adrain _ _ _ _ _ _ _ _ _ _ _ _ =>
    if n.fin.isSome || (n.granted.isSome && decide (n.due ≤ s.time)) then [.drainComplete q n.id] else []
  | .job b _ _ _ =>
    if n.fin.isSome then [.jobComplete q n.id]
    else match n.run with
      | none => [.jobStart q n.id]
      | some r => if n.granted.isSome && decide (n.due ≤ s.time) && jobDrains b r then [.drainComplete q n.id] else []
  | _ => []

/-- Events of one engine: work that ends, then grants, one for each entry that waits (R169). -/
def engineDue (s : State) (q : Nat) (e : Eng) : List Instr :=
  if engineDown s q then []
  else
    (List.range 3).filterMap (fun g =>
      if e.table.any fun n => onArrays n = some g && n.fusedInto = none && decide (n.due ≤ s.time) then some (.passComplete q g) else none) ++
    (e.reproof.filter fun (_, r) => decide (r.1 ≤ s.time)).map (fun (g, _) => .reproofPass q g) ++
    e.table.flatMap (entryDue s q) ++
    (if (nextGrant e (nowNs s)).isSome then (e.table.filter (waitsGrant e)).map fun _ => .engineGrant q else [])

/-- Events of the copies of a core. -/
def copyDue (s : State) (c : Nat) : List Instr :=
  let k := coreOf s c
  let run := k.jobs.filter fun j => j.running && !j.paused && decide (j.due ≤ s.time)
  run.map (fun j => if j.isSfill then .sfillLand c j.id else .copyComplete c j.id) ++
  (if (match (grpOf s c).sched with
    | e :: _ => e.released
    | [] => false) then [.schedEntrySubmit c] else []) ++
  (if (nextCopy s c).isSome then (k.jobs.filter fun j => !j.running).map fun _ => .copyStart c else [])

/-- Events of engines, copies and block transfers. -/
def workDue (s : State) : List Instr :=
  s.engs.flatMap (fun (q, e) => engineDue s q e) ++ (occupied s).flatMap (copyDue s) ++
  (s.hbm.btes.filter fun (d, _) => !(bteHeads s d).isEmpty && !mdieInReset s d).map fun (d, _) => .bteComplete d

/-! ## Groups and the dispatcher -/

/-- A register of a core that is still to be restored: thread and number (R412). -/
def absentReg (s : State) (c : Nat) : Option (Nat × Nat) :=
  (List.range 17).findSome? fun t => ((thrOf s c t).regs.find? fun (_, r) => r.absent).map fun (k, _) => (t, k % 256)

/-- Events in the life of a group: halt, checkpoint, restore. -/
def groupDue (s : State) (c : Nat) : List Instr :=
  match (coreOf s c).group with
  | none => []
  | some g =>
    (match g.st with
      | .halting _ _ _ => if haltReady s c then [.preemptHalt c] else []
      | .failing _ => if haltReady s c then [.preemptHalt c] else []
      | .restoring _ _ => [.groupRestore c]
      | _ => []) ++
    (if g.ck.isSome then [.checkpointWriteComplete c] else []) ++
    (match absentReg s c with
      | some (t, n) => [.registerRestoreBackground c t n]
      | none => [])

/-- A grid has ended (R39). -/
def gridOver (g : Grid) : Bool := (g.left || g.cancelled) && !g.dealing && !undealt g && g.live = 0 && g.btes = 0

/-- Queues whose head the dispatcher looks at now, ascending (R51): those with a head to validate, to enter or to release, and
those whose doorbells take effect; queue 0 where only withdrawals go on. -/
def headsDue (s : State) : List Nat :=
  let rung := match s.disp.bells with
    | b :: bs => if bellReady s b then (b :: bs).map Bell.queue else []
    | [] => []
  let heads := s.disp.queues.filterMap fun (q, r) => match r.head with
    | .fresh => if r.packets.isEmpty then none else some q
    | .waiting _ => some q
    | _ => none
  let qs := (List.range 64).filter fun q => rung.contains q || heads.contains q
  if qs.isEmpty && !(rung.isEmpty && s.disp.cancels.isEmpty) then [0] else qs

/-- Events of the dispatcher. -/
def dispatchDue (s : State) : List Instr :=
  let ready := s.disp.queues.any (fun (_, r) => !r.packets.isEmpty) || !s.disp.bells.isEmpty
  (s.disp.grids.filter fun (_, g) => gridOver g).map (fun (n, _) => .gridEnd n) ++
  (headsDue s).map .recordValidate ++
  s.disp.queues.filterMap (fun (q, r) => match r.head with
    | .ready _ t cls => if cls < 2 ∧ t + 4000000 ≤ nowNs s then some (.agePromote q) else none
    | _ => none) ++
  (if s.time % ticks 100 = 0 && ready then [.dispatchSelect] else []) ++
  (if s.fw.hotSince.any fun (_, t) => decide (t + 2000000 ≤ nowNs s) then [.thermalForcedDeal] else []) ++
  (if s.disp.dealDue || s.disp.grids.any (fun (_, g) => g.regain.isSome) then [.deal] else [])

/-- Every event that is due outside the cores. [DESIGN CHOICE: log 7] -/
def eventsDue (s : State) : List Instr :=
  fleetDue s ++ memoryDue s ++ banksDue s ++ workDue s ++ (occupied s).flatMap (groupDue s) ++ dispatchDue s

/-! ## The cycle of a core -/

/-- What a held thread, or lanes that wait at a hardware barrier, may come to in this cycle (R293, R320). -/
def holdDue (s : State) (c t : Nat) : List Instr :=
  (if (thrOf s c t).cbars.isEmpty then [] else [.completionHorizonPassed c t]) ++
  match (thrOf s c t).hold with
  | none => []
  | some o => match o.why with
    | .retry => []
    | .unissued => []
    | .send => []
    | .recv => [.recvDeliver c t, .portOrphan c t]
    | .sleep _ _ tEnd => if o.woken then [.sleepWake c t] else if decide (tEnd ≤ nowNs s) || sleepEarly s c t then [.sleepTimeout c t] else []
    | .regacq => []
    | .fence => [.completionHorizonPassed c t]
    | .mwait => if o.next ≤ s.time then [.mwaitReread c t] else []
    | .bwait _ _ => []
    | .tags => [.tagWaitReturn c t]
    | .basis => [.basisComplete c t]
    | .tlbi _ => [.tlbiComplete c t]
    | .footprint => if o.t0 + 4000 ≤ nowNs s then [.footprintFull c t] else []

/-- A write of a core is stalled by a page move (R104). -/
def writesStall (s : State) (c : Nat) : Bool :=
  s.mem.stores.any fun st => st.stalled.isSome && match st.by' with
    | .thread k _ _ => k = c
    | .engine k => k = c
    | .host => false

/-- The edge of a core: its cycle is counted, and counts in MIG_STALL while a write of the core is stalled (R104, R357); in a running group the proofing timers move on, and RECVs without a sender
are noted (R20, R36, R390). [DEDUCED: log 8] -/
def clockCore (s : State) (c : Nat) : State :=
  let p := periodOf s (quadOf c)
  let s := updCore s c fun k =>
    { k with cycle := (k.cycle + 1) % 2 ^ 64, edge := k.edge + p
             migStall := (k.migStall + if writesStall s c then 1 else 0) % 2 ^ 64 }
  if !((grpOf s c).st = .running) then s
  else
    let s := updGrp s c fun g => { g with baskets := g.baskets.map fun (b, k) => (b, { k with elapsed := k.elapsed + 1 }) }
    (threadsOf s c).foldl (fun s t => noteOrphan (updThr s c t serialReturn) c t) s

/-- What a core's threads and baskets may come to before they issue in this cycle. -/
def coreEvents (s : State) (c : Nat) : List Act :=
  let g := grpOf s c
  if !(g.st = .running) then []
  else
    let full := g.baskets.filter fun (_, b) => decide ((coreOf s c).proof.toNat ≤ b.elapsed)
    let is : List Instr := (threadsOf s c).flatMap (holdDue s c) ++ full.map (fun (b, _) => .basketProofLaunch c b) ++
      (if g.regq.isEmpty then [] else [.regacqGrant c])
    is.map .ev

/-- Cores whose edge has come. -/
def coresDue (s : State) : List Nat := (occupied s).filter fun c => decide ((coreOf s c).edge ≤ s.time)

/-- The agenda of an instant: events, then one cycle of the cores whose edge has come, quad by quad. [DESIGN CHOICE: log 7] -/
def agendaAt (s : State) (cs : List Nat) : List Act :=
  (eventsDue s).map .ev ++ cs.flatMap (coreEvents s) ++
    (cs.map quadOf).eraseDups.map fun q => .quad (cs.filter fun c => quadOf c = q)

/-- Lines that home caches evict at this instant: an open choice (R379). [DESIGN CHOICE: log 64] -/
def homeEvictions (s : State) : State :=
  (s.mem.hcache.filter fun (l, _) => Config.freeBit (openAt s 9 l)).foldl (fun s (l, _) => evictHome s l) s

/-- The next state when the agenda is empty. [DESIGN CHOICE: log 7] -/
def tick (s : State) : State :=
  let s := serveReads (homeEvictions (flushLog (retireByPolicy { s with time := nextTime s })))
  let cs := coresDue s
  let s := cs.foldl clockCore s
  { s with agenda := agendaAt s cs }

end Sys2Proof.Machine
end

