-- ==== Sys2Proof/Machine/Step.lean ====
section
/-! DEFINITION. One step: the head of the agenda, or the passing of time when it is empty; and the placing of one
instruction so that the next step fetches and runs it. -/

namespace Sys2Proof.Machine

/-- The head of the agenda, or the passing of time. [DESIGN CHOICE: log 6, 7] -/
def nextOf (s : State) : Next :=
  match s.agenda with
  | [] => .done (tick s)
  | .ev i :: rest => .run i { s with agenda := rest }
  | .fe c :: rest => .done (feCycle { s with agenda := rest } c)
  | .quad cs :: rest => let s := { s with agenda := rest }; .done (pushActs s (quadActs s cs))
  | .slot c :: rest => .done (slotCycle { s with agenda := rest } c)
  | .set c t m p d again :: rest => setNext { s with agenda := rest } c t m p d again

/-- One step of the package. [DESIGN CHOICE: log 6, 7, 11] -/
def step (s : State) : Host.Outcome State Fault Refusal :=
  if !s.powered then .fault .unpowered
  else match nextOf s with
    | .run i t => exec i t
    | .done t => .next t

/-- Physical address, and virtual address, of the placed instruction. [DESIGN CHOICE: log 6] -/
def placePc : Nat := 0x40000

/-- Page-table bytes of the placed instruction: ASID 0 with its root, one table pointer, one 512 MiB leaf with R, W, X
and U (R417 to R419). [DESIGN CHOICE: log 6] -/
def placeTables : List (Nat × Nat) :=
  [(0x10000, 0x20001), (0x20000, 0x30003), (0x30000, 0x3D)]

/-- The thread that runs the placed instruction: every lane live, supervisor mode. [DESIGN CHOICE: log 6] -/
def placeThr (lanes : Nat) : Thr :=
  { lanes := List.replicate lanes { pc := BitVec.ofNat 52 placePc }, sstatus := 0x10, slot := some 0 }

/-- s with one instruction stored where the next step fetches: on core 0 a group with one wattle and its FE, translation
on, and the set of all lanes (or the FE, for LOOP) next on the agenda. [DESIGN CHOICE: log 6] -/
def State.withFetchWord (s : State) (nbits w : Nat) : State :=
  let iw := BitVec.ofNat 96 (w % 2 ^ nbits)
  let fe := match decode .wattle true iw with
    | .error .stream => true
    | _ => false
  let mem := placeTables.foldl (fun m (a, v) => bsetL m a (natLe 8 v)) s.mem.bytes
  let mem := bsetL mem placePc (IWord.bytes iw)
  let g : Group := { resident := [0], super := true, feEntry := BitVec.ofNat 52 placePc, wEntry := BitVec.ofNat 52 placePc }
  let s := { s with
    mem := { s.mem with bytes := mem }
    xl := { s.xl with at' := 0x10001 }
    cores := mset s.cores 0 { mgetD s.cores 0 {} with group := some g }
    thrs := mset (mset s.thrs (tkey 0 0) (placeThr 32)) (tkey 0 feIdx) { placeThr 1 with slot := none } }
  { s with agenda := (if fe then .set 0 feIdx 1 (BitVec.ofNat 52 placePc) none false
                      else .set 0 0 0xFFFFFFFF (BitVec.ofNat 52 placePc) none false) :: s.agenda }

end Sys2Proof.Machine
end

