-- ==== Sys2Proof/Safety.lean ====
section
/-! DEFINITION. What counts as a safe state and a safe run: home memory and scratch in their canonical form, and a run that stops
only when the package has no power. -/

namespace Sys2Proof.Machine

/-- A safe state: the memory at the homes (R128), every scratchpad (R100) and every scratchpad that a checkpoint area
holds, lent cores' included (R411), have their one canonical form. -/
def State.Safe (s : State) : Prop :=
  Memory.wf s.mem.bytes = true ∧ (∀ e ∈ s.cores, Memory.wf e.2.scr = true) ∧
    ∀ e ∈ s.xl.ckImages, Memory.wf e.2.core.scr = true ∧ ∀ k ∈ e.2.lent, Memory.wf k.scr = true

/-- States that n steps reach without a stop. -/
def afterSteps : Nat → State → State → Prop
  | 0, s, t => s = t
  | n + 1, s, t => ∃ u, step s = .next u ∧ afterSteps n u t

/-- A safe run: every state that some number of steps reaches is safe. -/
def SafeRun (s : State) : Prop := ∀ n t, afterSteps n s t → t.Safe

end Sys2Proof.Machine
end

