-- ==== Sys2Proof/Claims.lean ====
section
/-! DEFINITION. The words in which the statements are written: arithmetic on mathematical integers, what an instruction
leaves behind, and what stays as it was. -/

namespace Sys2Proof.Claim

open Sys2Proof.Machine

/-! ## Arithmetic -/

/-- A w-bit pattern as a two's complement integer (R69). -/
def sgn (w v : Nat) : Int := if v % 2 ^ w < 2 ^ (w - 1) then ((v % 2 ^ w : Nat) : Int) else ((v % 2 ^ w : Nat) : Int) - ((2 ^ w : Nat) : Int)

/-- An integer reduced modulo 2^w, as a pattern (R69). -/
def wrap (w : Nat) (v : Int) : Nat := (v % ((2 ^ w : Nat) : Int)).toNat

/-- An exact result clamped to lo .. hi as a w-bit pattern, and whether the clamp changed it (R234). -/
def sat (w : Nat) (lo hi v : Int) : Nat × Bool := (wrap w (max lo (min hi v)), decide (v < lo ∨ hi < v))

/-- Element j, of width w, of an operand (R69). -/
def elem (w v j : Nat) : Nat := v / 2 ^ (w * j) % 2 ^ w

/-- Largest and smallest values of w bits. -/
def top (w : Nat) : Int := ((2 ^ (w - 1) : Nat) : Int) - 1
/-- The smallest signed value of w bits. -/
def bot (w : Nat) : Int := -((2 ^ (w - 1) : Nat) : Int)
/-- The largest unsigned value of w bits. -/
def utop (w : Nat) : Int := ((2 ^ w : Nat) : Int) - 1

/-- An exact result in the three forms: 0 wraps, 1 clamps to the signed range, 2 to the unsigned range (R234, R236); the
unsigned form works on the unsigned values. -/
def three (form w : Nat) (signed unsigned : Int) : Nat × Bool :=
  if form = 1 then sat w (bot w) (top w) signed
  else if form = 2 then sat w 0 (utop w) unsigned
  else (wrap w signed, false)

/-- k is the value of sign neg and magnitude m * 2^e, rounded to an integer in a mode (R73): toward zero, down, up, or to the
nearest with ties to even. -/
def RoundsTo (r : Rnd) (neg : Bool) (m : Nat) (e k : Int) : Prop :=
  let a : Int := if neg then -(m : Int) else m
  if 0 ≤ e then k = a * ((2 ^ e.toNat : Nat) : Int)
  else
    let d : Int := ((2 ^ (-e).toNat : Nat) : Int)
    match r with
    | .rtz => k = a.tdiv d
    | .rdn => k * d ≤ a ∧ a < (k + 1) * d
    | .rup => (k - 1) * d < a ∧ a ≤ k * d
    | .rne => 2 * (k * d - a) ≤ d ∧ -d ≤ 2 * (k * d - a) ∧ (2 * (k * d - a) = d ∨ 2 * (k * d - a) = -d → k % 2 = 0)

/-! ## Results -/

/-- Operands that an encoding can name: n destination registers below v256 and slots below 6, and the same of every
source (R192, R195). -/
structure Fits (i : Instr) (x : Form) (n : Nat) : Prop where
  dreg : x.d.index.toNat + n ≤ 256
  dslot : x.d.space = .cache → (x.d.flags.extractLsb' 0 3).toNat + n ≤ 6
  sreg : ∀ f ∈ fieldsOf i x, f.o.space = .main → f.o.index.toNat + f.n ≤ 256
  sslot : ∀ f ∈ fieldsOf i x, f.o.space = .cache → f.o.index.toNat + f.n ≤ 6

/-- Word k of a result in lane l of the issuing thread (R219, R221, R222): c is the cycle from which it is timed. The main
file holds it, readable 4 cycles later, or 10 when the register is lent (R64); a cache destination holds it in its slot, readable 2
cycles later, dirty, or with WB clean and in the main file as well. -/
structure Word' (x : Form) (s u : State) (c l k : Nat) (w : Word) (p : Bool) : Prop where
  main : x.d.space ≠ .cache ∨ x.wb = true →
    (regOf (curThr u) l (x.d.index.toNat + k)).cur =
      { v := w, full := true, poison := p, dead := false
        rdy := c + if isLent (curThr s) (actMask s x) (x.d.index.toNat + k) then 10 else 4 }
  slot : x.d.space = .cache →
    (slotOf (curThr u) l ((x.d.flags.extractLsb' 0 3).toNat + k)).cur =
      { ver := { v := w, full := true, poison := p, rdy := c + 2 }, home := x.d.index.toNat + k
        st := if x.wb then .clean else .dirty }

/-- What the effect of an instruction whose result is timed from cycle c leaves in u: in every active lane the n words and the poison
that f gives, and, for a wattle, the result in h0 and the old h0 in h1 (R220). -/
structure ResultAt (c : Nat) (x : Form) (n : Nat) (s u : State) (f : Nat → Val) : Prop where
  words : ∀ l ∈ lanesOf (actMask s x), ∀ k < n, Word' x s u c l k ((f l).w.getD k 0) (f l).p
  h0 : curFe s = false → ∀ l ∈ lanesOf (actMask s x),
    latOf (curThr u) l 0 = { v := latchVal (f l).w, valid := true, poison := (f l).p } ∧
    latOf (curThr u) l 1 = latOf (curThr s) l 0

/-- The result of a fixed-latency instruction: it is timed from the last issue cycle (R222, R223). -/
abbrev Result (i : Instr) (x : Form) (n : Nat) (s u : State) (f : Nat → Val) : Prop := ResultAt (lastCycle i x s) x n s u f

/-- The result of an instruction that holds its thread: it is timed from the cycle in which it completes (R293). -/
abbrev LateResult (i : Instr) (x : Form) (n : Nat) (s u : State) (f : Nat → Val) : Prop := ResultAt (endCycle i x s) x n s u f

/-- Main-file register r of lane l is no destination of an active lane, and no source marks it dead. -/
def RegOut (i : Instr) (x : Form) (s : State) (n l r : Nat) : Prop :=
  (l ∈ lanesOf (actMask s x) → x.d.space ≠ .cache ∨ x.wb = true → ¬ (x.d.index.toNat ≤ r ∧ r < x.d.index.toNat + n)) ∧
  (∀ f ∈ fieldsOf i x, f.o.dead = true → f.o.space = .main → ¬ (f.o.index.toNat ≤ r ∧ r < f.o.index.toNat + f.n))

/-- Slot r of lane l is no destination of an active lane, and no source marks it dead. -/
def SlotOut (i : Instr) (x : Form) (s : State) (n l r : Nat) : Prop :=
  (l ∈ lanesOf (actMask s x) → x.d.space = .cache →
    ¬ ((x.d.flags.extractLsb' 0 3).toNat ≤ r ∧ r < (x.d.flags.extractLsb' 0 3).toNat + n)) ∧
  (∀ f ∈ fieldsOf i x, f.o.dead = true → f.o.space = .cache → ¬ (f.o.index.toNat ≤ r ∧ r < f.o.index.toNat + f.n))

/-- Before the end of the instruction (`finish`) only its thread differs, and in it only main file, slots, latches and
NUMST; of these only destinations, registers and slots marked dead, latches of active lanes, and DEADRD (R220, R221,
R229). -/
structure OnlyResult (i : Instr) (x : Form) (n : Nat) (s u : State) : Prop where
  rest : u = updCur s fun _ => curThr u
  thr : { curThr u with regs := (curThr s).regs, slots := (curThr s).slots, lat := (curThr s).lat
                        numst := (curThr s).numst } = curThr s
  regs : ∀ l r, r < 256 → RegOut i x s n l r → regOf (curThr u) l r = regOf (curThr s) l r
  slots : ∀ l r, r < 6 → SlotOut i x s n l r → slotOf (curThr u) l r = slotOf (curThr s) l r
  lats : ∀ l, l ∉ lanesOf (actMask s x) → ∀ k < 2, latOf (curThr u) l k = latOf (curThr s) l k
  numst : (curThr u).numst = (curThr s).numst ∨ (curThr u).numst = (curThr s).numst ||| 2#32

/-- A fixed-latency instruction completes: it writes what f gives and ends (R201, R222). -/
def Completes (i : Instr) (x : Form) (n : Nat) (s t : State) (f : Nat → Val) : Prop :=
  ∃ u, Result i x n s u f ∧ OnlyResult i x n s u ∧ t = finish i x s false u

/-- An instruction that holds its thread completes: it writes what f gives and ends (R201, R293). -/
def CompletesLate (i : Instr) (x : Form) (n : Nat) (s t : State) (f : Nat → Val) : Prop :=
  ∃ u, LateResult i x n s u f ∧ OnlyResult i x n s u ∧ t = finish i x s false u

/-- An instruction completes with results that fill later (R226): every register of the destination is empty in the active
lanes, and one pending result of the issuing thread, due later, holds what f gives. -/
structure Pends (x : Form) (n : Nat) (s u : State) (f : Nat → Val) : Prop where
  empty : ∀ l ∈ lanesOf (actMask s x), ∀ k < n,
    (x.d.space ≠ .cache ∨ x.wb = true → (regOf (curThr u) l (x.d.index.toNat + k)).cur.full = false) ∧
    (x.d.space = .cache → (slotOf (curThr u) l ((x.d.flags.extractLsb' 0 3).toNat + k)).cur.ver.full = false)
  fill : ∃ fl, u.mem = { s.mem with fills := s.mem.fills ++ [fl] } ∧ fl.core = s.cur.core ∧ fl.thr = s.cur.thr ∧
    fl.lanes = actMask s x ∧ fl.dst = dstOf x n ∧ s.time < fl.due ∧
    fl.what = .value ((lanesOf (actMask s x)).map fun l => (l, (f l).w, (f l).p))
  rest : { u with thrs := s.thrs, mem := s.mem, nextId := s.nextId, choice := s.choice } = s
  others : ∀ k, k ≠ tkey s.cur.core s.cur.thr → mget u.thrs k = mget s.thrs k

/-- No source of an active lane is poisoned. -/
def Clean (i : Instr) (x : Form) (s : State) : Prop :=
  ∀ l ∈ readLanes i x s, ∀ no, (srcNo i x s no l).p = false

/-- An instruction completes with a predicate (R248): in every active lane predicate p of the thread is f's, and before its
end nothing else of the machine differs but dead-marked sources. -/
structure Predicate (i : Instr) (x : Form) (s u : State) (f : Nat → Bool) : Prop where
  value : ∀ l ∈ lanesOf (actMask s x), predOf (curThr u) l (x.d.index.toNat - 0x38) = f l
  other : ∀ l p, p < 8 → ¬ (l ∈ lanesOf (actMask s x) ∧ p = x.d.index.toNat - 0x38) →
    predOf (curThr u) l p = predOf (curThr s) l p
  lats : (curThr u).lat = (curThr s).lat
  rest : u = updCur s fun _ => curThr u
  pcs : ∀ l, (laneOf (curThr u) l).pc = (laneOf (curThr s) l).pc

end Sys2Proof.Claim
end

