-- ==== Sys2Proof/Certificates/Slice0/Obligations.lean ====
section
/-! DEFINITION. The statements for the provers, in the order of the spec's chapters. -/

namespace Sys2Proof.Claim

open Sys2Proof.Machine

/-! ## Integer instructions, by element -/

/-- The operands of field no in lane l, as a number. -/
def src (i : Instr) (x : Form) (s : State) (no l : Nat) : Nat := (srcNo i x s no l).n

/-- What the integer instructions of two element operands compute on one element of width w, with whether it clamps
(R236, R237, R240 to R242). -/
def elem2 : Instr → Option (Form × (Nat → Nat → Nat → Nat × Bool))
  | .iadd x => some (x, fun w a b => three (x.m 0 2) w (sgn w a + sgn w b) ((a : Int) + b))
  | .isub x => some (x, fun w a b => three (x.m 0 2) w (sgn w a - sgn w b) ((a : Int) - b))
  | .imul x => some (x, fun w a b => (wrap w (sgn w a * sgn w b), false))
  | .imulh x => some (x, fun w a b => (wrap w (sgn w a * sgn w b / ((2 ^ w : Nat) : Int)), false))
  | .imulhn x => some (x, fun w a b => (a * b / 2 ^ w, false))
  | .imin x => some (x, fun w a b => (wrap w (min (sgn w a) (sgn w b)), false))
  | .imax x => some (x, fun w a b => (wrap w (max (sgn w a) (sgn w b)), false))
  | .iminn x => some (x, fun _ a b => (min a b, false))
  | .imaxn x => some (x, fun _ a b => (max a b, false))
  | .and x => some (x, fun _ a b => (a &&& b, false))
  | .or x => some (x, fun _ a b => (a ||| b, false))
  | .xor x => some (x, fun _ a b => (a ^^^ b, false))
  | .andn x => some (x, fun w a b => (a &&& (2 ^ w - 1 - b), false))
  | .shl x => some (x, fun w a b => (if w ≤ b then 0 else a * 2 ^ b % 2 ^ w, false))
  | .shrl x => some (x, fun w a b => (if w ≤ b then 0 else a / 2 ^ b, false))
  | .shra x => some (x, fun w a b =>
      (wrap w (if w ≤ b then (if sgn w a < 0 then -1 else 0) else sgn w a / ((2 ^ b : Nat) : Int)), false))
  | _ => none

/-- What a one-operand integer instruction, or ROTL, leaves on an element: result r, and whether it clamps (R239, R242,
R243). -/
def elem1 : Instr → Option (Form × (Nat → Nat → Nat → Nat → Bool → Prop))
  | .ineg x => some (x, fun w a _ r c =>
      if x.m 0 1 = 1 then (r, c) = sat w (bot w) (top w) (-(sgn w a)) else r = wrap w (-(sgn w a)) ∧ c = false)
  | .iabs x => some (x, fun w a _ r c =>
      if x.m 0 1 = 1 then (r, c) = sat w (bot w) (top w) ((sgn w a).natAbs : Int)
      else r = wrap w ((sgn w a).natAbs : Int) ∧ c = false)
  | .rotl x => some (x, fun w a b r c => (∀ k < w, r.testBit k = a.testBit ((k + w - b % w) % w)) ∧ c = false)
  | .popc x => some (x, fun w a _ r c => r = ((List.range w).filter fun k => a.testBit k).length ∧ c = false)
  | .clz x => some (x, fun w a _ r c =>
      (if a = 0 then r = w else r < w ∧ 2 ^ (w - 1 - r) ≤ a ∧ a < 2 ^ (w - r)) ∧ c = false)
  | .ctz x => some (x, fun w a _ r c =>
      (if a = 0 then r = w else a.testBit r = true ∧ ∀ k < r, a.testBit k = false) ∧ c = false)
  | .brev x => some (x, fun w a _ r c => (∀ k < w, r.testBit k = a.testBit (w - 1 - k)) ∧ c = false)
  | _ => none

/-- The lane result of a division of R238 on one element: quotient truncating toward zero or remainder with the sign of the
dividend, all ones and the dividend for a zero divisor. -/
def divEl : Instr → Option (Form × (Nat → Nat → Nat → Nat))
  | .idiv x => some (x, fun w a b => if b = 0 then 2 ^ w - 1 else wrap w ((sgn w a).tdiv (sgn w b)))
  | .irem x => some (x, fun w a b => if b = 0 then a else wrap w ((sgn w a).tmod (sgn w b)))
  | .idivn x => some (x, fun w a b => if b = 0 then 2 ^ w - 1 else a / b)
  | .iremn x => some (x, fun _ a b => if b = 0 then a else a % b)
  | _ => none

/-- Bit k of a w-bit pattern extended with its sign or with zeros without end (R244). -/
def extBit (sgnd : Bool) (w a k : Nat) : Bool := if k < w then a.testBit k else sgnd && a.testBit (w - 1)

/-- The bit-field result of R244: the field, extended to w bits from its own top bit or with zeros. -/
def fieldBit (sgnd : Bool) (w a b k : Nat) : Bool :=
  let pos := b % 256
  let len := min (b / 256 % 256) w
  if len = 0 then false
  else if k < len then extBit sgnd w a (pos + k)
  else sgnd && extBit sgnd w a (pos + len - 1)

/-- The bit-field insertion of R245. -/
def insertBit (w a b c k : Nat) : Bool :=
  let pos := b % 256
  let len := min (b / 256 % 256) w
  if pos ≤ k ∧ k < pos + len then a.testBit (k - pos) else c.testBit k

/-- The number that the words of a destination hold in a lane of a value. -/
def numOf (v : Val) : Nat := wordsNat v.w

/-- The conditions of ICMP (R247). -/
def icmpHolds (c w a b : Nat) : Prop :=
  (c = 0 → a = b) ∧ (c = 1 → a ≠ b) ∧ (c = 2 → sgn w a < sgn w b) ∧ (c = 3 → sgn w a ≤ sgn w b) ∧
  (c = 4 → sgn w b < sgn w a) ∧ (c = 5 → sgn w b ≤ sgn w a) ∧ (c = 6 → a < b) ∧ (c = 7 → a ≤ b) ∧
  (c = 8 → b < a) ∧ (c = 9 → b ≤ a)

end Sys2Proof.Claim

open Sys2Proof Sys2Proof.Machine Sys2Proof.Claim

/-! ## Class 0 -/

/-- R234, R236, R237, R240 to R242: the two-operand integer instructions act on each element of each active lane on their own,
exactly, and reduce or clamp at the end; SAT is set when an element of an active lane is clamped. R239, R242, R243: INEG, IABS,
ROTL, POPC, CLZ, CTZ and BREV. -/
def Obligations.IntegerElements : Prop :=
  (∀ i x f s, elem2 i = some (x, f) → Runs i x s → Fits i x x.wregs →
      ∃ r : Nat → Nat × Bool, (∀ l, (r l).1 < 2 ^ (32 * x.wregs)) ∧
        (∀ l, ∀ j < elemE (x.m 4 2), elem (elemW (x.m 4 2)) (r l).1 j =
          (f (elemW (x.m 4 2)) (elem (elemW (x.m 4 2)) (src i x s 3 l) j) (elem (elemW (x.m 4 2)) (src i x s 4 l) j)).1) ∧
        (∀ l, (r l).2 = true ↔ ∃ j < elemE (x.m 4 2),
          (f (elemW (x.m 4 2)) (elem (elemW (x.m 4 2)) (src i x s 3 l) j) (elem (elemW (x.m 4 2)) (src i x s 4 l) j)).2 = true) ∧
        ∃ t, Completes i x x.wregs s t (fun l => { w := natWords x.wregs (r l).1, p := poisonedIn i x s l }) ∧
          exec i s = .next (stickyIf ((lanesOf (actMask s x)).any fun l => (r l).2) 0 t)) ∧
  (∀ i x R s, elem1 i = some (x, R) → Runs i x s → Fits i x x.wregs →
      ∃ r : Nat → Nat × Bool, (∀ l, (r l).1 < 2 ^ (32 * x.wregs)) ∧
        (∀ l, ∃ c : Nat → Bool, ((r l).2 = true ↔ ∃ j < elemE (x.m 4 2), c j = true) ∧ ∀ j < elemE (x.m 4 2),
          R (elemW (x.m 4 2)) (elem (elemW (x.m 4 2)) (src i x s 3 l) j) (elem (elemW (x.m 4 2)) (src i x s 4 l) j)
            (elem (elemW (x.m 4 2)) (r l).1 j) (c j)) ∧
        ∃ t, Completes i x x.wregs s t (fun l => { w := natWords x.wregs (r l).1, p := poisonedIn i x s l }) ∧
          exec i s = .next (stickyIf ((lanesOf (actMask s x)).any fun l => (r l).2) 0 t))

/-- R238, R70, R226: a division marks its destination empty, and its quotients or remainders are on their way. -/
def Obligations.DivisionsPend : Prop :=
  ∀ i x f s, divEl i = some (x, f) → Runs i x s → Fits i x x.wregs →
    ∃ r : Nat → Nat, (∀ l, ∀ j < elemE (x.m 4 2), elem (elemW (x.m 4 2)) (r l) j =
        f (elemW (x.m 4 2)) (elem (elemW (x.m 4 2)) (src i x s 3 l) j) (elem (elemW (x.m 4 2)) (src i x s 4 l) j)) ∧
      ∃ u, Pends x x.wregs s u (fun l => { w := natWords x.wregs (r l), p := poisonedIn i x s l }) ∧
        exec i s = .next (finish i x s false u)

/-- R237, R244 to R246: IMAD, BFX, BFXN, BFI and ISAT. R198, R249 to R251: SEL, MOV, LDI and LEA. -/
def Obligations.FieldsClampsSelectsAndMoves : Prop :=
  ((∀ x s, Runs (.imad x) x s → Fits (.imad x) x x.wregs → ∃ r : Nat → Nat,
      (∀ l, ∀ j < elemE (x.m 4 2), elem (elemW (x.m 4 2)) (r l) j = wrap (elemW (x.m 4 2))
        (sgn (elemW (x.m 4 2)) (elem (elemW (x.m 4 2)) (src (.imad x) x s 3 l) j) *
         sgn (elemW (x.m 4 2)) (elem (elemW (x.m 4 2)) (src (.imad x) x s 4 l) j) +
         sgn (elemW (x.m 4 2)) (elem (elemW (x.m 4 2)) (src (.imad x) x s 5 l) j))) ∧
      ∃ t, Completes (.imad x) x x.wregs s t (fun l => { w := natWords x.wregs (r l), p := poisonedIn (.imad x) x s l }) ∧
        exec (.imad x) s = .next t) ∧
    (∀ i x g s, (i = .bfx x ∧ g = true) ∨ (i = .bfxn x ∧ g = false) → x.m 4 2 ≤ 1 → Runs i x s → Fits i x x.wregs →
      ∃ r : Nat → Nat, (∀ l, r l < 2 ^ elemW (x.m 4 2) ∧ ∀ k < elemW (x.m 4 2), (r l).testBit k =
          fieldBit g (elemW (x.m 4 2)) (src i x s 3 l % 2 ^ elemW (x.m 4 2)) (src i x s 4 l) k) ∧
      ∃ t, Completes i x x.wregs s t (fun l => { w := natWords x.wregs (r l), p := poisonedIn i x s l }) ∧
        exec i s = .next t) ∧
    (∀ x s, x.m 4 2 ≤ 1 → Runs (.bfi x) x s → Fits (.bfi x) x x.wregs →
      ∃ r : Nat → Nat, (∀ l, r l < 2 ^ elemW (x.m 4 2) ∧ ∀ k < elemW (x.m 4 2), (r l).testBit k =
          insertBit (elemW (x.m 4 2)) (src (.bfi x) x s 3 l) (src (.bfi x) x s 4 l) (src (.bfi x) x s 5 l) k) ∧
      ∃ t, Completes (.bfi x) x x.wregs s t (fun l => { w := natWords x.wregs (r l), p := poisonedIn (.bfi x) x s l }) ∧
        exec (.bfi x) s = .next t) ∧
    (∀ x s, x.m 0 2 ≤ 2 → Runs (.isat x) x s → Fits (.isat x) x x.wregs → ∃ r : Nat → Nat × Bool,
      (∀ l, ∃ c : Nat → Bool, ((r l).2 = true ↔ ∃ j < elemE (x.m 4 2), c j = true) ∧ ∀ j < elemE (x.m 4 2),
        let w := elemW (x.m 4 2)
        let n := min (src (.isat x) x s 4 l % 128) w
        let a := elem w (src (.isat x) x s 3 l) j
        (elem w (r l).1 j, c j) =
          if x.m 0 2 = 0 then sat w (if n = 0 then 0 else bot n) (if n = 0 then 0 else top n) (sgn w a)
          else sat w 0 (utop n) (if x.m 0 2 = 1 then sgn w a else (a : Int))) ∧
      ∃ t, Completes (.isat x) x x.wregs s t (fun l => { w := natWords x.wregs (r l).1, p := poisonedIn (.isat x) x s l }) ∧
        exec (.isat x) s = .next (stickyIf ((lanesOf (actMask s x)).any fun l => (r l).2) 0 t))) ∧
  ((∀ x s, Runs (.sel x) x s → Fits (.sel x) x x.wregs → ∃ t, exec (.sel x) s = .next t ∧
      Completes (.sel x) x x.wregs s t fun l =>
        { w := natWords x.wregs (if src (.sel x) x s 5 l ≠ 0 then src (.sel x) x s 3 l else src (.sel x) x s 4 l)
          p := poisonedIn (.sel x) x s l }) ∧
    (∀ x s, Runs (.mov x) x s → Fits (.mov x) x x.wregs → ∃ t, exec (.mov x) s = .next t ∧
      Completes (.mov x) x x.wregs s t fun l => { w := natWords x.wregs (src (.mov x) x s 3 l), p := poisonedIn (.mov x) x s l }) ∧
    (∀ x s, Runs (.ldi x) x s → Fits (.ldi x) x 1 → ∃ t, exec (.ldi x) s = .next t ∧
      Completes (.ldi x) x 1 s t fun _ => { w := [x.mod.extractLsb' 0 4 ++ x.imm], p := false }) ∧
    (∀ x s, Runs (.lea x) x s → Fits (.lea x) x 2 → ∃ t, exec (.lea x) s = .next t ∧
      Completes (.lea x) x 2 s t fun l =>
        { w := natWords 2 (wrap 64 ((src (.lea x) x s 3 l : Int) +
            (if x.m 3 1 = 1 then (src (.lea x) x s 4 l : Int) else sgn 32 (src (.lea x) x s 4 l)) * ((2 ^ x.m 0 3 : Nat) : Int)))
          p := poisonedIn (.lea x) x s l }))

/-! ## Class 1 -/

/-- The exact value that an arithmetic float instruction rounds once, on one element of format f (R266, R267). -/
def Sys2Proof.Claim.exactOf : Instr → Option (Form × (Rnd → FV → FV → FV → FV))
  | .fadd x => some (x, fun r a b _ => fvAdd r a b)
  | .fsub x => some (x, fun r a b _ => fvAdd r a b.negate)
  | .fmul x => some (x, fun _ a b _ => fvMul a b)
  | .ffma x => some (x, fun r a b c => fvAdd r (fvMul a b) c)
  | .fdiv x => some (x, fun _ a b _ => fvDiv a b)
  | .fsqrt x => some (x, fun _ a _ _ => fvSqrt a)
  | _ => none

/-- FDIV and FSQRT fill later (R264). -/
def Sys2Proof.Claim.fillsLater : Instr → Bool
  | .fdiv _ => true
  | .fsqrt _ => true
  | _ => false

/-- Element j of a 32-bit float operand: the whole of it for f32, a half for the packed types (R262). -/
def Sys2Proof.Claim.felem (ty v j : Nat) : Nat := if ty = 0 then v % 2 ^ 32 else v / 2 ^ (16 * j) % 2 ^ 16

/-- The operand of field no with its float modifier (R191, R263), as a value of the type, subnormals zero under FTZ. -/
def Sys2Proof.Claim.fval (i : Instr) (x : Form) (s : State) (no l j : Nat) : FV :=
  fdec (fmtOf x.ty) x.ftz (felem x.ty (fsrc i x s no x.ty l) j)

/-- R262, R263, R266, R267: each element of FADD, FSUB, FMUL, FFMA, FDIV and FSQRT is the exact value rounded once. FDIV and
FSQRT fill later (R264). -/
def Obligations.FloatArithmeticRoundsOnce : Prop :=
  ∀ i x f s, exactOf i = some (x, f) → Runs i x s → Fits i x 1 → x.ty ≤ 2 →
    ∃ r : Nat → Nat, (∀ l, ∀ j < (if x.ty = 0 then 1 else 2), felem x.ty (r l) j =
        fround (fmtOf x.ty) x.rnd x.ftz (f x.rnd (fval i x s 3 l j) (fval i x s 4 l j) (fval i x s 5 l j))) ∧
      if fillsLater i then
        ∃ u, Pends x 1 s u (fun l => { w := [BitVec.ofNat 32 (r l)], p := poisonedIn i x s l }) ∧
          exec i s = .next (finish i x s false u)
      else ∃ t, exec i s = .next t ∧
        Completes i x 1 s t fun l => { w := [BitVec.ofNat 32 (r l)], p := poisonedIn i x s l }

/-- The value in the place of the wanted value of an approximate function on one element: what R268 and R75 say of special
operands, none where only a bound or nothing is said. -/
def Sys2Proof.Claim.approxOf : Instr → Option (Form × (Fmt → FV → Option Nat))
  | .frcp x => some (x, fun f v => match v with
    | .nan => some f.nan
    | .inf n => some (f.signed n 0)
    | .fin n m _ => if m = 0 then some (f.signed n f.inf) else none)
  | .frsq x => some (x, fun f v => match v with
    | .nan => some f.nan
    | .inf n => some (if n then f.nan else 0)
    | .fin n m _ => if m = 0 then some (f.signed n f.inf) else if n then some f.nan else none)
  | .fexp2 x => some (x, fun f v => match v with
    | .nan => some f.nan
    | .inf n => some (if n then 0 else f.inf)
    | .fin _ _ _ => none)
  | .flog2 x => some (x, fun f v => match v with
    | .nan => some f.nan
    | .inf n => some (if n then f.nan else f.inf)
    | .fin n m _ => if m = 0 then some (f.signed true f.inf) else if n then some f.nan else none)
  | .fsin x => some (x, fun f v => match v with
    | .nan => some f.nan
    | .inf _ => some f.nan
    | .fin n m _ => if m = 0 then some (f.signed n 0) else none)
  | .fcos x => some (x, fun f v => match v with
    | .nan => some f.nan
    | .inf _ => some f.nan
    | .fin _ _ _ => none)
  | _ => none

/-- R264, R268: the approximate functions fill later, with the special results of R268 where the operand is special. -/
def Obligations.ApproximationsPend : Prop :=
  ∀ i x f s, approxOf i = some (x, f) → Runs i x s → Fits i x 1 → x.ty ≤ 2 →
    ∃ r : Nat → Nat, (∀ l, ∀ j < (if x.ty = 0 then 1 else 2), ∀ v,
        f (fmtOf x.ty) (fval i x s 3 l j) = some v → felem x.ty (r l) j = v) ∧
      ∃ u, Pends x 1 s u (fun l => { w := [BitVec.ofNat 32 (r l)], p := poisonedIn i x s l }) ∧
        exec i s = .next (finish i x s false u)

/-- One element of FMIN, FMAX, FRND and FCLASS (R269, R270, R274). -/
def Sys2Proof.Claim.patternOf : Instr → Option (Form × (Nat → Nat → Nat → Nat))
  | .fmin x => some (x, fun _ a b => fminmax (fmtOf x.ty) false x.ftz a b)
  | .fmax x => some (x, fun _ a b => fminmax (fmtOf x.ty) true x.ftz a b)
  | .frnd x => some (x, fun _ a _ => frnd (fmtOf x.ty) x.rnd x.ftz a)
  | .fclass x => some (x, fun _ a _ => fclass (fmtOf x.ty) a)
  | _ => none

/-- R269, R270, R274: FMIN, FMAX, FRND and FCLASS complete element by element, and the class of an element is exactly one of the
ten. R271, R272: FSCALE multiplies by a power of two and FDOT2 adds two products to C, each with one rounding. -/
def Obligations.FloatPatternsScaleAndDot : Prop :=
  ((∀ i x f s, patternOf i = some (x, f) → Runs i x s → Fits i x 1 → x.ty ≤ 2 →
      ∃ r : Nat → Nat, (∀ l, ∀ j < (if x.ty = 0 then 1 else 2), felem x.ty (r l) j =
          f j (felem x.ty (fsrc i x s 3 x.ty l) j) (felem x.ty (fsrc i x s 4 x.ty l) j)) ∧
        ∃ t, exec i s = .next t ∧ Completes i x 1 s t fun l => { w := [BitVec.ofNat 32 (r l)], p := poisonedIn i x s l }) ∧
    (∀ ty v, ty ≤ 2 → ∃ k, k < 10 ∧ fclass (fmtOf ty) v = 2 ^ k)) ∧
  ((∀ x s, Runs (.fscale x) x s → Fits (.fscale x) x 1 → x.ty ≤ 2 →
      ∃ r : Nat → Nat, (∀ l, ∀ j < (if x.ty = 0 then 1 else 2), felem x.ty (r l) j =
          let k : Int := if x.ty = 0 then sgn 32 (src (.fscale x) x s 4 l) else sgn 16 (elem 16 (src (.fscale x) x s 4 l) j)
          match fval (.fscale x) x s 3 l j with
          | .fin n m e => fround (fmtOf x.ty) x.rnd x.ftz (.fin n m (if m = 0 then e else e + k))
          | v => fround (fmtOf x.ty) x.rnd x.ftz v) ∧
        ∃ t, exec (.fscale x) s = .next t ∧
          Completes (.fscale x) x 1 s t fun l => { w := [BitVec.ofNat 32 (r l)], p := poisonedIn (.fscale x) x s l }) ∧
    (∀ x s, Runs (.fdot2 x) x s → Fits (.fdot2 x) x 1 → ∃ t, exec (.fdot2 x) s = .next t ∧
      Completes (.fdot2 x) x 1 s t fun l =>
        { w := [BitVec.ofNat 32 (fdot2 x.rnd x.ftz x.ty (fsrc (.fdot2 x) x s 3 x.ty l) (fsrc (.fdot2 x) x s 4 x.ty l)
            (fsrc (.fdot2 x) x s 5 0 l))]
          p := poisonedIn (.fdot2 x) x s l }))

/-! ## Class 2 -/

/-- R277, R282, R283: an integer result of CVT is a float operand rounded to an integer under the mode and clamped to the range of
its type, with SAT when the clamp changes it or a NaN became 0; infinities give the bounds; between integers CVT only clamps; a float
result of CVT is the exact value of the operand rounded once, without SAT. QNT rounds and clamps the product of its operands; DQNT
scales and rounds once. -/
def Obligations.ConversionsComplete : Prop :=
  (∀ x s, Runs (.cvt x) x s → Fits (.cvt x) x (cvtRegs (x.f 4 4)) → ∃ t,
    (∃ u, t = stickyIf ((lanesOf (actMask s x)).any fun l =>
        (cvtVal (x.f 0 4) (x.f 4 4) x.rnd x.ftz x.a.fmod (src (.cvt x) x s 3 l)).2) 0 u ∧
      Completes (.cvt x) x (cvtRegs (x.f 4 4)) s u fun l =>
        { w := natWords (cvtRegs (x.f 4 4)) (cvtVal (x.f 0 4) (x.f 4 4) x.rnd x.ftz x.a.fmod (src (.cvt x) x s 3 l)).1
          p := poisonedIn (.cvt x) x s l }) ∧ exec (.cvt x) s = .next t) ∧
  (∀ st dt r ftz md v, 3 ≤ st → 3 ≤ dt → dt ≤ 10 →
    let k : Int := if (cvtInt st).2 then sgn (cvtInt st).1 v else ((v % 2 ^ (cvtInt st).1 : Nat) : Int)
    let lo : Int := if (cvtInt dt).2 then bot (cvtInt dt).1 else 0
    let hi : Int := if (cvtInt dt).2 then top (cvtInt dt).1 else utop (cvtInt dt).1
    cvtVal st dt r ftz md v = sat (if 9 ≤ dt then 64 else 32) lo hi k) ∧
  (∀ st dt r ftz md v, st ≤ 2 → 3 ≤ dt → dt ≤ 10 →
    let w := if 9 ≤ dt then 64 else 32
    let lo : Int := if (cvtInt dt).2 then bot (cvtInt dt).1 else 0
    let hi : Int := if (cvtInt dt).2 then top (cvtInt dt).1 else utop (cvtInt dt).1
    match fdec (fmtOf st) ftz (fmodBits (fmtOf st) md v) with
    | .nan => cvtVal st dt r ftz md v = (0, true)
    | .inf n => cvtVal st dt r ftz md v = (wrap w (if n then lo else hi), true)
    | .fin n m e => ∃ k, RoundsTo r n m e k ∧ cvtVal st dt r ftz md v = sat w lo hi k) ∧
  (∀ st dt r ftz md v, dt ≤ 2 →
    cvtVal st dt r ftz md v = (fround (fmtOf dt) r ftz (
      if st ≤ 2 then fdec (fmtOf st) ftz (fmodBits (fmtOf st) md v)
      else
        let k : Int := if (cvtInt st).2 then sgn (cvtInt st).1 v else ((v % 2 ^ (cvtInt st).1 : Nat) : Int)
        .fin (decide (k < 0)) k.natAbs 0), false)) ∧
  (∀ x s, Runs (.qnt x) x s → Fits (.qnt x) x 1 → ∃ u, Completes (.qnt x) x 1 s u (fun l =>
      { w := [BitVec.ofInt 32 (toIntClamp x.rnd (intRange (qType x).1 (qType x).2).1 (intRange (qType x).1 (qType x).2).2
          (fvMul (fdec f32 x.ftz (fsrc (.qnt x) x s 3 0 l)) (fdec f32 x.ftz (fsrc (.qnt x) x s 4 0 l)))).1]
        p := poisonedIn (.qnt x) x s l }) ∧
    exec (.qnt x) s = .next (stickyIf ((lanesOf (actMask s x)).any fun l =>
      (toIntClamp x.rnd (intRange (qType x).1 (qType x).2).1 (intRange (qType x).1 (qType x).2).2
          (fvMul (fdec f32 x.ftz (fsrc (.qnt x) x s 3 0 l)) (fdec f32 x.ftz (fsrc (.qnt x) x s 4 0 l)))).2) 0 u)) ∧
  (∀ x s, Runs (.dqnt x) x s → Fits (.dqnt x) x 1 → ∃ t, exec (.dqnt x) s = .next t ∧
    Completes (.dqnt x) x 1 s t fun l =>
      let k : Int := if (qType x).2 then sgn (qType x).1 (src (.dqnt x) x s 3 l) else ((src (.dqnt x) x s 3 l % 2 ^ (qType x).1 : Nat) : Int)
      { w := [BitVec.ofNat 32 (fround f32 x.rnd x.ftz
          (fvMul (.fin (decide (k < 0)) k.natAbs 0) (fdec f32 x.ftz (fsrc (.dqnt x) x s 4 0 l))))]
        p := poisonedIn (.dqnt x) x s l })

/-- R278 to R281, R284: CVTDX, UNDX, MAXABS, BLKSCL and PACK. CVTDX and BLKSCL give every active lane one block scale. -/
def Obligations.BlockConversionsComplete : Prop :=
  (∀ x s, Runs (.cvtdx x) x s → Fits (.cvtdx x) x 1 → ∃ u,
    Completes (.cvtdx x) x 1 s u (fun l =>
      { w := [BitVec.ofNat 32 ((dxEncode (x.m 0 1 = 1) (block32 (.cvtdx x) x s)).1 * 65536 +
          (dxEncode (x.m 0 1 = 1) (block32 (.cvtdx x) x s)).2.1.getD l 0)]
        p := (lanesOf (actMask s x)).any fun k => poisonedIn (.cvtdx x) x s k }) ∧
    exec (.cvtdx x) s = .next (stickyIf (dxEncode (x.m 0 1 = 1) (block32 (.cvtdx x) x s)).2.2 0 u)) ∧
  (∀ x s, Runs (.undx x) x s → Fits (.undx x) x 1 → ∃ t, exec (.undx x) s = .next t ∧
    Completes (.undx x) x 1 s t fun l =>
      { w := [BitVec.ofNat 32 (fround f32 .rne x.ftz (dxValue (x.m 0 1 = 1) (nbits (src (.undx x) x s 3 l) 16 16)
          (nbits (src (.undx x) x s 3 l) 0 8)))]
        p := poisonedIn (.undx x) x s l }) ∧
  (∀ x s, Runs (.maxabs x) x s → Fits (.maxabs x) x 1 → ∃ t, exec (.maxabs x) s = .next t ∧
    Completes (.maxabs x) x 1 s t fun _ =>
      { w := [BitVec.ofNat 32 (fround f32 .rne false
          (((lanesOf (actMask s x)).flatMap fun l => magsOf x.ty x.ftz (fsrc (.maxabs x) x s 3 x.ty l)).foldl maxMag (.fin false 0 0)))]
        p := (lanesOf (actMask s x)).any fun k => poisonedIn (.maxabs x) x s k }) ∧
  (∀ x s, Runs (.blkscl x) x s → Fits (.blkscl x) x 1 → ∃ u : State,
    let sc := blkS ((lanesOf (actMask s x)).map fun l => fdec f32 x.ftz (fsrc (.blkscl x) x s 3 0 l))
    let el (l : Nat) : Nat × Bool := blkEl x sc (fdec f32 x.ftz (fsrc (.blkscl x) x s 3 0 l))
    exec (.blkscl x) s = .next (stickyIf ((lanesOf (actMask s x)).any fun l => (el l).2) 0 u) ∧
    Completes (.blkscl x) x 1 s u fun l =>
      { w := natWords 1 ((src (.blkscl x) x s 4 l % 16 * 256 + sc) * 65536 + (el l).1)
        p := ((lanesOf (actMask s x)).any fun k => (srcNo (.blkscl x) x s 3 k).p) || (srcNo (.blkscl x) x s 4 l).p }) ∧
  (∀ x s, Runs (.pack x) x s → Fits (.pack x) x 1 → ∃ t, exec (.pack x) s = .next t ∧
    Completes (.pack x) x 1 s t fun l =>
      let a := src (.pack x) x s 3 l
      let b := src (.pack x) x s 4 l
      { w := [BitVec.ofNat 32 (if x.m 0 2 = 0 then elem 16 b 0 * 2 ^ 16 + elem 16 a 0
          else if x.m 0 2 = 1 then elem 16 b 1 * 2 ^ 16 + elem 16 a 1
          else elem 8 b 2 * 2 ^ 24 + elem 8 b 0 * 2 ^ 16 + elem 8 a 2 * 2 ^ 8 + elem 8 a 0)]
        p := poisonedIn (.pack x) x s l })

/-- R286 to R289: RMOD, RMAD and RSPLIT give mathematical remainders; RMOD outside the moduli 3 to 511, RSPLIT or RMRC under a basis
that is not loaded, and RSPLIT of a channel outside its basis raise ILLEGAL_OPERAND. RMRC rebuilds in a half the integer within ±H
whose residues the lanes of the half hold, clamped to 64 bits with SAT, and leaves a poisoned 0 with RBAD where a channel is not
active, poisoned or out of its range. -/
def Obligations.ResidueLanesComplete : Prop :=
  (∀ x s, Runs (.rmod x) x s → Fits (.rmod x) x 1 →
    (∀ l ∈ lanesOf (actMask s x), 3 ≤ src (.rmod x) x s 4 l ∧ src (.rmod x) x s 4 l ≤ 511) →
    ∃ t, exec (.rmod x) s = .next t ∧ Completes (.rmod x) x 1 s t fun l =>
      { w := [BitVec.ofInt 32 ((if x.m 0 1 = 1 then (src (.rmod x) x s 3 l : Int)
          else sgn (elemW (x.m 4 2)) (src (.rmod x) x s 3 l)) % (src (.rmod x) x s 4 l : Int))]
        p := poisonedIn (.rmod x) x s l }) ∧
  (∀ x s l, Runs (.rmod x) x s → l ∈ lanesOf (actMask s x) → (src (.rmod x) x s 4 l < 3 ∨ 511 < src (.rmod x) x s 4 l) →
    ∃ m, m.getLsbD l = true ∧ exec (.rmod x) s = .next (takeFault s { code := 0x02, mask := m, info := 8 })) ∧
  (∀ x s, Runs (.rmad x) x s → Fits (.rmad x) x 1 → x.f 14 9 ≠ 0 → ∃ t, exec (.rmad x) s = .next t ∧
    Completes (.rmad x) x 1 s t fun l =>
      let v (no : Nat) : Int := if x.m 0 1 = 1 then (src (.rmad x) x s no l : Int) else sgn 32 (src (.rmad x) x s no l)
      { w := [BitVec.ofInt 32 ((v 3 * v 4 + v 5) % (x.f 14 9 : Int))], p := poisonedIn (.rmad x) x s l }) ∧
  (∀ x s b, Runs (.rsplit x) x s → Fits (.rsplit x) x 1 → basisOf s s.cur.core (x.f 0 4) = some b → x.f 4 4 < b.n + 2 →
    ∃ t, exec (.rsplit x) s = .next t ∧ Completes (.rsplit x) x 1 s t fun l =>
      { w := [BitVec.ofNat 32 (imod (rInt x (src (.rsplit x) x s 3 l)) (b.moduli.getD (x.f 4 4) 1) +
          if (srcNo (.rsplit x) x s 3 l).p then 32768 else 0)]
        p := (srcNo (.rsplit x) x s 3 l).p }) ∧
  (∀ x s b, Runs (.rmrc x) x s → Fits (.rmrc x) x 2 → basisOf s s.cur.core (x.f 0 4) = some b →
    ∃ t c1 c2 c3, exec (.rmrc x) s = .next (stickyIf c1 3 (stickyIf c2 2 (stickyIf c3 0 t))) ∧
      Completes (.rmrc x) x 2 s t fun l =>
        { w := natWords 2 (rmrcHalf x s b (l / 16)).1, p := (rmrcHalf x s b (l / 16)).2.1 }) ∧
  (∀ x s b g (v : Int), Runs (.rmrc x) x s → Fits (.rmrc x) x 2 → basisOf s s.cur.core (x.f 0 4) = some b →
    b.moduli.length = b.n + 2 → (∀ m ∈ b.moduli, 2 ≤ m ∧ m ≤ 511) → b.moduli.Pairwise Nat.Coprime → g < 2 →
    v.natAbs ≤ ((b.moduli.take b.n).prod - 1) / 2 →
    (∀ c < b.n + 2, 16 * g + c ∈ lanesOf (actMask s x) ∧ (srcNo (.rmrc x) x s 3 (16 * g + c)).p = false ∧
      ((src (.rmrc x) x s 3 (16 * g + c) % 65536 : Nat) : Int) = v % (b.moduli.getD c 1 : Int)) →
    ∃ t c1 c2 c3 f, exec (.rmrc x) s = .next (stickyIf c1 3 (stickyIf c2 2 (stickyIf c3 0 t))) ∧ Completes (.rmrc x) x 2 s t f ∧
      (∀ l, l / 16 = g → f l = { w := natWords 2 (sat 64 (bot 64) (top 64) v).1, p := false }) ∧
      ((sat 64 (bot 64) (top 64) v).2 = true → c3 = true)) ∧
  (∀ x s b g c, Runs (.rmrc x) x s → Fits (.rmrc x) x 2 → basisOf s s.cur.core (x.f 0 4) = some b → g < 2 →
    (∃ l ∈ lanesOf (actMask s x), l / 16 = g) → c < b.n + 2 →
    (16 * g + c ∉ lanesOf (actMask s x) ∨ (srcNo (.rmrc x) x s 3 (16 * g + c)).p = true ∨
      b.moduli.getD c 1 ≤ src (.rmrc x) x s 3 (16 * g + c) % 65536) →
    ∃ t c2 c3 f, exec (.rmrc x) s = .next (stickyIf true 3 (stickyIf c2 2 (stickyIf c3 0 t))) ∧ Completes (.rmrc x) x 2 s t f ∧
      ∀ l, l / 16 = g → f l = { w := natWords 2 0, p := true }) ∧
  (∀ x s b, Runs (.rsplit x) x s → basisOf s s.cur.core (x.f 0 4) = some b → b.n + 2 ≤ x.f 4 4 →
    exec (.rsplit x) s = .next (takeFault s { code := 0x02, mask := actMask s x, info := 8 })) ∧
  (∀ i x s, i = .rsplit x ∨ i = .rmrc x → Runs i x s → basisOf s s.cur.core (x.f 0 4) = none →
    exec i s = .next (takeFault s { code := 0x02, mask := actMask s x, info := 8 }))

/-! ## Class 3 and predicates -/

/-- The truth that ICMP, FCMP, PAND, POR, PXOR, PMOV and VOTE write to their predicate in a lane (R247, R255, R259, R260,
R273). -/
def Sys2Proof.Claim.predIs : Instr → Option (Form × (State → Nat → Bool → Prop))
  | .icmp x => some (x, fun s l b => x.m 0 4 ≤ 9 → x.m 4 2 ≤ 1 → (b = true ↔
      icmpHolds (x.m 0 4) (elemW (x.m 4 2)) (src (.icmp x) x s 3 l) (src (.icmp x) x s 4 l)))
  | .fcmp x => some (x, fun s l b => b = fcmp (x.m 2 4) (fsrc (.fcmp x) x s 3 0 l) (fsrc (.fcmp x) x s 4 0 l))
  | .pand x => some (x, fun s l b => (b = true ↔
      (decide (src (.pand x) x s 3 l ≠ 0) ^^ decide (x.m 0 1 = 1)) = true ∧ (decide (src (.pand x) x s 4 l ≠ 0) ^^ decide (x.m 1 1 = 1)) = true))
  | .por x => some (x, fun s l b => (b = true ↔
      (decide (src (.por x) x s 3 l ≠ 0) ^^ decide (x.m 0 1 = 1)) = true ∨ (decide (src (.por x) x s 4 l ≠ 0) ^^ decide (x.m 1 1 = 1)) = true))
  | .pxor x => some (x, fun s l b => b =
      ((decide (src (.pxor x) x s 3 l ≠ 0) ^^ decide (x.m 0 1 = 1)) ^^ (decide (src (.pxor x) x s 4 l ≠ 0) ^^ decide (x.m 1 1 = 1))))
  | .pmov x => some (x, fun s l b => (x.m 0 2 = 0 → b = truthA (.pmov x) x s l) ∧ (x.m 0 2 = 1 → b = !truthA (.pmov x) x s l))
  | .vote x => some (x, fun s _ b =>
      (x.m 0 3 = 0 → (b = true ↔ ∀ k ∈ lanesOf (actMask s x), truthA (.vote x) x s k = true)) ∧
      (x.m 0 3 = 1 → (b = true ↔ ∃ k ∈ lanesOf (actMask s x), truthA (.vote x) x s k = true)) ∧
      (x.m 0 3 = 2 → (b = true ↔ ∀ j ∈ lanesOf (actMask s x), ∀ k ∈ lanesOf (actMask s x),
        src (.vote x) x s j = src (.vote x) x s k)))
  | _ => none

/-- R247, R248, R255, R259, R260, R273: with no poisoned source the predicate of D takes the stated truth in every active lane,
every other predicate and both latches stay, and nothing but the thread differs before the end. R228, R247, R255, R260, R273: a
poisoned source of an active lane of an instruction with a predicate destination raises POISON_CONSUMED, named with its field, A
before B, its lanes as MASK. PMOV.load writes p1 to p7 of every active lane from A[7:1], and PMOV.save reads them. -/
def Obligations.PredicatesAreWrittenAndMoved : Prop :=
  (∀ i x R s, predIs i = some (x, R) → (∀ y, i = .vote y → y.m 0 3 ≤ 2) → (∀ y, i = .pmov y → y.m 0 2 ≤ 1) →
      0x38 < x.d.index.toNat → x.d.index.toNat < 0x40 → Runs i x s → Clean i x s →
      ∃ u f, Predicate i x s u f ∧ (∀ l ∈ lanesOf (actMask s x), R s l (f l)) ∧ exec i s = .next (finish i x s false u)) ∧
  ((∀ i x R s l, predIs i = some (x, R) → (∀ y, i = .vote y → y.m 0 3 ≤ 2) → (∀ y, i = .pmov y → y.m 0 2 ≤ 1) →
        Runs i x s → l ∈ readLanes i x s → (srcNo i x s 3 l).p = true →
        ∃ m, m.getLsbD l = true ∧ exec i s = .next (takeFault s { code := 0x08, mask := m, info := 3 })) ∧
    (∀ i x R s l, predIs i = some (x, R) → (∀ y, i = .vote y → y.m 0 3 ≤ 2) → (∀ y, i = .pmov y → y.m 0 2 ≤ 1) →
        Runs i x s → (∀ k ∈ readLanes i x s, (srcNo i x s 3 k).p = false) → l ∈ readLanes i x s → (srcNo i x s 4 l).p = true →
        ∃ m, m.getLsbD l = true ∧ exec i s = .next (takeFault s { code := 0x08, mask := m, info := 4 })) ∧
    ((∀ x s, x.m 0 2 = 3 → Runs (.pmov x) x s → Clean (.pmov x) x s → ∃ u, exec (.pmov x) s = .next (finish (.pmov x) x s false u) ∧
        (∀ l ∈ lanesOf (actMask s x), ∀ p, 1 ≤ p → p < 8 → predOf (curThr u) l p = (src (.pmov x) x s 3 l).testBit p) ∧
        (∀ l, l ∉ lanesOf (actMask s x) → laneOf (curThr u) l = laneOf (curThr s) l) ∧ u = updCur s fun _ => curThr u) ∧
      (∀ x s, x.m 0 2 = 2 → Runs (.pmov x) x s → Fits (.pmov x) x 1 → ∃ t, exec (.pmov x) s = .next t ∧ ∃ w : Nat → Word,
        (∀ l, (w l).getLsbD 0 = true ∧ (∀ p, 1 ≤ p → p < 8 → (w l).getLsbD p = predOf (curThr s) l p) ∧ ∀ p, 8 ≤ p → (w l).getLsbD p = false) ∧
        Completes (.pmov x) x 1 s t fun l => { w := [w l], p := false })))

/-- The lane that SHFL reads for lane l with amount b (R254). -/
def Sys2Proof.Claim.shflLane (mode seg l b : Nat) : Option Nat :=
  if mode = 0 then some (l / seg * seg + b % seg)
  else if mode = 1 then some (l / seg * seg + (l % seg + b % seg) % seg)
  else if mode = 2 then
    if 0 ≤ (l % seg : Int) + sgn 32 b ∧ (l % seg : Int) + sgn 32 b < seg then some (l / seg * seg + ((l % seg : Int) + sgn 32 b).toNat) else none
  else some (l / seg * seg + (l % seg ^^^ b % seg))

/-- R253, R254: SHFL delivers A of the source lane when it exists and is active, else 0. -/
def Obligations.ShuffleDelivers : Prop :=
  ∀ x s, Runs (.shfl x) x s → Fits (.shfl x) x x.wregs → ∃ t, exec (.shfl x) s = .next t ∧
    Completes (.shfl x) x x.wregs s t fun l =>
      match shflLane (x.m 0 2) (32 / 2 ^ x.m 2 2) l (src (.shfl x) x s 4 l) with
      | some k =>
        if k ∈ lanesOf (actMask s x) then
          { w := natWords x.wregs (src (.shfl x) x s 3 k), p := (srcNo (.shfl x) x s 4 l).p || (srcNo (.shfl x) x s 3 k).p }
        else { w := natWords x.wregs 0, p := (srcNo (.shfl x) x s 4 l).p }
      | none => { w := natWords x.wregs 0, p := (srcNo (.shfl x) x s 4 l).p }

/-- The combining operations of R256 on patterns of width w. -/
def Sys2Proof.Claim.comb (op w a b : Nat) : Nat :=
  match op with
  | 0 => (a + b) % 2 ^ w
  | 1 => if sgn w a ≤ sgn w b then a else b
  | 2 => if sgn w a ≤ sgn w b then b else a
  | 3 => min a b
  | 4 => max a b
  | 5 => a &&& b
  | 6 => a ||| b
  | _ => a ^^^ b

/-- Their identities (R256). -/
def Sys2Proof.Claim.unit (op w : Nat) : Nat :=
  match op with
  | 1 => 2 ^ (w - 1) - 1
  | 2 => 2 ^ (w - 1)
  | 3 => 2 ^ w - 1
  | 5 => 2 ^ w - 1
  | _ => 0

/-- R255 to R258: REDUX combines the active lanes in ascending order, SCAN the prefix of each lane, VOTE gives the mask or
the count of true lanes, and MATCH the mask of equal lanes; poison of a lane that takes part poisons the result. -/
def Obligations.CrossLaneResults : Prop :=
  (∀ x s, Runs (.redux x) x s → Fits (.redux x) x x.wregs → ∃ t, exec (.redux x) s = .next t ∧
    Completes (.redux x) x x.wregs s t fun _ =>
      { w := natWords x.wregs (((lanesOf (actMask s x)).map fun k => src (.redux x) x s 3 k).foldl (comb (x.m 0 3) (elemW (x.m 4 2)))
          (Claim.unit (x.m 0 3) (elemW (x.m 4 2))))
        p := (lanesOf (actMask s x)).any fun k => (srcNo (.redux x) x s 3 k).p }) ∧
  (∀ x s, Runs (.scan x) x s → Fits (.scan x) x x.wregs → ∃ t, exec (.scan x) s = .next t ∧
    Completes (.scan x) x x.wregs s t fun l =>
      let ks := (lanesOf (actMask s x)).filter fun k => decide (k < l) || (k = l && x.m 3 1 = 0)
      { w := natWords x.wregs ((ks.map fun k => src (.scan x) x s 3 k).foldl (comb (x.m 0 3) (elemW (x.m 4 2)))
          (Claim.unit (x.m 0 3) (elemW (x.m 4 2))))
        p := ks.any fun k => (srcNo (.scan x) x s 3 k).p }) ∧
  (∀ x s, 3 ≤ x.m 0 3 → x.m 0 3 ≤ 4 → Runs (.vote x) x s → Fits (.vote x) x 1 → ∃ t, exec (.vote x) s = .next t ∧ ∃ w : Word,
    Completes (.vote x) x 1 s t (fun _ => { w := [w], p := (lanesOf (actMask s x)).any fun k => (srcNo (.vote x) x s 3 k).p }) ∧
    (x.m 0 3 = 3 → ∀ l, w.getLsbD l = true ↔ l ∈ lanesOf (actMask s x) ∧ truthA (.vote x) x s l = true) ∧
    (x.m 0 3 = 4 → w.toNat = ((lanesOf (actMask s x)).filter (truthA (.vote x) x s)).length)) ∧
  (∀ x s, Runs (.matchL x) x s → Fits (.matchL x) x 1 → ∃ t, exec (.matchL x) s = .next t ∧ ∃ w : Nat → Word,
    (∀ l k, (w l).getLsbD k = true ↔ k ∈ lanesOf (actMask s x) ∧ src (.matchL x) x s 3 k = src (.matchL x) x s 3 l) ∧
    Completes (.matchL x) x 1 s t fun l => { w := [w l], p := (lanesOf (actMask s x)).any fun k => (srcNo (.matchL x) x s 3 k).p })

/-! ## Operands, issue and the end of an instruction -/

/-- R191, R195, R197, R220, R222, R229: what a source of one register delivers in a lane: the version of the main file that is
readable in the issue cycle, 0 for a dead register; a slot, or its home when the slot is invalid; a latch; IMM sign-extended from 28 bits; a predicate. A result pushes
the older version down: a reader in an issue cycle before the new version is ready still sees what was there.
Where the rules leave a reading open the model's is in the log, assumption 9. -/
def Obligations.SourcesDeliver : Prop :=
  ((∀ s x l c o flt, o.space = .main →
      let v := readVer (regOf (curThr s) l o.index.toNat) c
      valOf s x l c o 1 flt = { w := [if v.dead then 0 else v.v], p := v.poison && !v.dead }) ∧
    (∀ r c, r.cur.rdy ≤ c → readVer r c = r.cur) ∧
    (∀ s x l c o flt, o.space = .latch → (latOf (curThr s) l o.index.toNat).valid = true →
      valOf s x l c o 1 flt = { w := [(latOf (curThr s) l o.index.toNat).v.setWidth 32], p := (latOf (curThr s) l o.index.toNat).poison }) ∧
    (∀ s x l c o flt, o.space = .cache →
      let v := readSlot (slotOf (curThr s) l o.index.toNat) c
      let r := readVer (regOf (curThr s) l v.home) c
      (v.st = .clean ∨ v.st = .dirty →
        valOf s x l c o 1 flt = { w := [if v.ver.dead then 0 else v.ver.v], p := v.ver.poison && !v.ver.dead }) ∧
      (v.st = .invalid → valOf s x l c o 1 flt = { w := [if r.dead then 0 else r.v], p := r.poison && !r.dead })) ∧
    (∀ s x l c o, o.space = .special → o.index = 0 →
      valOf s x l c o 1 false = { w := [x.imm.signExtend 32], p := false } ∧
      valOf s x l c o 1 true = { w := [x.imm ++ 0#4], p := false }) ∧
    (∀ s x l c o flt p, o.space = .special → p < 8 → o.index.toNat = 0x38 + p →
      valOf s x l c o 1 flt = { w := [if predOf (curThr s) l p then 1 else 0], p := false })) ∧
  (∀ (r : Reg) (c : Nat) (v : Ver) (k : Nat), v.rdy = c + 4 ∨ v.rdy = c + 10 → c < k →
      (v.rdy ≤ k → readVer (pushVer r c v) k = v) ∧ (k < v.rdy → readVer (pushVer r c v) k = readVer r k))

/-- R27, R201: at the end of an instruction without YLD, and not held at a yield point before, the PC of every issued lane
advances by 12, a lane of serial mode that goes on from its target uses up one nest count, nothing else of a lane changes, and
no register, slot, latch, predicate, NUMST, SSTATUS, other thread or byte of memory changes. Where the rules leave a reading
open the model's is in the log, assumptions 9, 83; that the nest count is used up as the PC advances past the instruction at the
target is assumption 92. R201: IADD, LD, ST, TRAP and QMMA with no active lane, with PCHK clear and their registers held, only
end: they advance the issued lanes. -/
def Obligations.InstructionsEndByAdvancing : Prop :=
  (∀ i x s0 u, x.yld = false → heldYield s0 = false →
      (∀ l, l < (curThr u).lanes.length → laneOf (curThr (finish i x s0 false u)) l =
        if l ∈ lanesOf u.cur.mask then { laneOf (curThr u) l with
          pc := (laneOf (curThr u) l).pc + 12
          nest := if (curThr u).serial = true ∧ (laneOf (curThr u) l).pc = (laneOf (curThr u) l).tgt then (laneOf (curThr u) l).nest - 1
            else (laneOf (curThr u) l).nest } else laneOf (curThr u) l) ∧
      (∀ l r, regOf (curThr (finish i x s0 false u)) l r = regOf (curThr u) l r) ∧
      (∀ l r, slotOf (curThr (finish i x s0 false u)) l r = slotOf (curThr u) l r) ∧
      (∀ l k, latOf (curThr (finish i x s0 false u)) l k = latOf (curThr u) l k) ∧
      (curThr (finish i x s0 false u)).numst = (curThr u).numst ∧
      (curThr (finish i x s0 false u)).sstatus = (curThr u).sstatus ∧
      (∀ k, k ≠ tkey u.cur.core u.cur.thr → mget (finish i x s0 false u).thrs k = mget u.thrs k) ∧
      (∀ die own a, viewByte (finish i x s0 false u) die own a = viewByte u die own a) ∧
      { finish i x s0 false u with thrs := u.thrs } = u) ∧
  (∀ x s, (curThr s).pchk = none → actMask s x = 0 →
      (notHeld (.iadd x) x s = none → exec (.iadd x) s = .next (finish (.iadd x) x s false s)) ∧
      (notHeld (.ld x) x s = none → exec (.ld x) s = .next (finish (.ld x) x s false s)) ∧
      (notHeld (.st x) x s = none → exec (.st x) s = .next (finish (.st x) x s false s)) ∧
      (notHeld (.trap x) x s = none → exec (.trap x) s = .next (finish (.trap x) x s false s)) ∧
      (notHeld (.qmma x) x s = none → exec (.qmma x) s = .next (finish (.qmma x) x s false s)))

/-- R46, R227, R220, R403: on IADD, with no checker fired, the shared checks raise their faults in their order: REG_NOT_HELD, then,
with an active lane and, in the FE, readable sources, EMPTY_READ under trap-on-empty, then LATCH_INVALID.
Where the rules leave a reading open the model's is in the log, assumption 13. -/
def Obligations.SharedChecksTrap : Prop :=
  ∀ x s, (curThr s).pchk = none →
    (∀ r, notHeld (.iadd x) x s = some r →
      exec (.iadd x) s = .next (takeFault s { code := 0x0A, mask := s.cur.mask, info := r })) ∧
    (∀ no m, notHeld (.iadd x) x s = none → actMask s x ≠ 0 → feWaits (.iadd x) x s = false → trapEmptyAt (.iadd x) x s = some (no, m) →
      exec (.iadd x) s = .next (takeFault s { code := 0x07, mask := m, info := no })) ∧
    (∀ no m, notHeld (.iadd x) x s = none → actMask s x ≠ 0 → feWaits (.iadd x) x s = false → trapEmptyAt (.iadd x) x s = none →
      latchBadAt (.iadd x) x s = some (no, m) →
      exec (.iadd x) s = .next (takeFault s { code := 0x09, mask := m, info := no }))

/-! ## Class 4 -/

/-- The thread's held instruction as the issuing one, for an event that completes it. -/
def Sys2Proof.Claim.resumed (s : State) (c t : Nat) (o : Hold) : State :=
  { s with cur := { core := c, thr := t, mask := o.mask, pc := o.pc, word := o.word, held := some (o.t0, o.yields, o.begun)
                    dual := o.dual, cyc := some o.cyc, cost := o.cost } }

/-- The target of a lane (R292): A, or PC + IMM × 4. -/
def Sys2Proof.Claim.target (i : Instr) (x : Form) (s : State) (reg : Bool) (l : Nat) : Addr :=
  if reg then BitVec.ofNat 52 (src i x s 3 l) else s.cur.pc + x.imm.signExtend 52 * 4#52

/-- A register target that R292 accepts in every active lane: not poisoned, below 2^52, a multiple of 4. -/
def Sys2Proof.Claim.TargetsOk (i : Instr) (x : Form) (s : State) : Prop :=
  ∀ l ∈ lanesOf (actMask s x), (srcNo i x s 3 l).p = false ∧ src i x s 3 l < 2 ^ 52 ∧ src i x s 3 l % 4 = 0

/-- R292, R295: BRA, BRX, CALL and RET put the target into the PC of every active lane; the other issued lanes advance, and
CALL writes PC + 12 to its pair. A register target, of SPAWN and REBASK too, is checked in the order poison, range, alignment; the
lowest failing lane gives the code and the address. -/
def Obligations.BranchesGoToTheirTargets : Prop :=
  ((∀ x s, Runs (.bra x) x s → exec (.bra x) s =
      .next (setPcs (finish (.bra x) x s false s) (lanesOf (actMask s x)) (target (.bra x) x s false))) ∧
    (∀ i x s, i = .brx x ∨ i = .ret x → Runs i x s → TargetsOk i x s → ∃ u, exec i s =
        .next (setPcs (finish i x s false u) (lanesOf (actMask s x)) (target i x s true)) ∧
      u = (updCur s fun _ => curThr u) ∧ (curThr u).lanes = (curThr s).lanes ∧ (curThr u).lat = (curThr s).lat) ∧
    (∀ x s, Runs (.call x) x s → Fits (.call x) x 2 → (x.m 0 1 = 1 → TargetsOk (.call x) x s) → ∃ t,
      Completes (.call x) x 2 s t (fun _ => { w := natWords 2 ((s.cur.pc.toNat + 12) % 2 ^ 52) }) ∧
      exec (.call x) s = .next (setPcs t (lanesOf (actMask s x)) (target (.call x) x s (x.m 0 1 = 1)))) ∧
    (∀ t ls f l, l ∈ ls → l < (curThr t).lanes.length → (laneOf (curThr (setPcs t ls f)) l).pc = f l) ∧
    (∀ t ls f l, l ∉ ls → laneOf (curThr (setPcs t ls f)) l = laneOf (curThr t) l)) ∧
  (∀ i x s l, i = .brx x ∨ i = .ret x ∨ (i = .call x ∧ x.m 0 1 = 1) ∨
        ((i = .spawn x ∨ i = .rebask x) ∧ x.m 0 1 = 1 ∧ spawnWaits x s = false) → Runs i x s → l ∈ lanesOf (actMask s x) →
      (∀ k ∈ lanesOf (actMask s x), k < l → (srcNo i x s 3 k).p = false ∧ src i x s 3 k < 2 ^ 52 ∧ src i x s 3 k % 4 = 0) →
      ∀ code, (((srcNo i x s 3 l).p = true ∧ code = 0x08) ∨
          ((srcNo i x s 3 l).p = false ∧ 2 ^ 52 ≤ src i x s 3 l ∧ code = 0x05) ∨
          ((srcNo i x s 3 l).p = false ∧ src i x s 3 l < 2 ^ 52 ∧ src i x s 3 l % 4 ≠ 0 ∧ code = 0x04)) →
        ∃ f, exec i s = .next (takeFault s f) ∧ f.code = code ∧ f.addr = src i x s 3 l ∧ f.mask.getLsbD l = true)

/-- R24, R26, R296: in normal mode MEET pushes the old meeting of each active lane and sets the new one; when an active lane
already has four, the wattle enters serial mode instead. That starve is 0 then is the model's choice, assumption 83, and that
running is 0 until a lane is picked, assumption 106. R297: EXIT sets the exited bits of the active lanes once their stores are
acknowledged and their atomics done, and the group is looked at again. -/
def Obligations.MeetAndExit : Prop :=
  (∀ x s, Runs (.meet x) x s → (curThr s).serial = false → ∃ u, exec (.meet x) s = .next (finish (.meet x) x s false u) ∧
      u = (updCur s fun _ => curThr u) ∧
      ((∀ l ∈ lanesOf (actMask s x), (laneOf (curThr s) l).depth < 4) → (curThr u).serial = false ∧
        (∀ l ∈ lanesOf (actMask s x), laneOf (curThr u) l = { laneOf (curThr s) l with
          stk := (laneOf (curThr s) l).mtg :: (laneOf (curThr s) l).stk, depth := (laneOf (curThr s) l).depth + 1
          mtg := s.cur.pc + x.imm.signExtend 52 * 4#52 }) ∧
        (∀ l, l ∉ lanesOf (actMask s x) → laneOf (curThr u) l = laneOf (curThr s) l)) ∧
      ((∃ l ∈ lanesOf (actMask s x), 4 ≤ (laneOf (curThr s) l).depth) → (curThr u).serial = true ∧ (curThr u).running = 0 ∧
        (curThr u).starve = 0 ∧ ∀ l, (laneOf (curThr s) l).live = true → (laneOf (curThr u) l).tgt = (laneOf (curThr s) l).mtg ∧
          (laneOf (curThr u) l).nest = 0)) ∧
  (∀ x s, Runs (.exit x) x s → ownStores s s.cur.core s.cur.thr (actMask s x) = [] →
      ownAtoms s s.cur.core s.cur.thr (actMask s x) = false → (curThr s).late = [] →
      ∃ u, exec (.exit x) s = .next (afterExit u s.cur.core s.cur.thr) ∧
        ∀ l, (laneOf (thrOf u s.cur.core s.cur.thr) l).exited =
          ((laneOf (curThr s) l).exited || decide (l ∈ lanesOf (actMask s x))))

/-- The group of a core with its issuing thread in it: the FE or a resident wattle, each wattle once, and no more than 16 wattles and
baskets (R33, R35). -/
def Sys2Proof.Claim.Housed (s : State) (c t : Nat) : Prop :=
  (coreOf s c).group.isSome = true ∧ (t = feIdx ∨ t ∈ (grpOf s c).resident) ∧ (grpOf s c).resident.Nodup ∧
    (grpOf s c).resident.length + (grpOf s c).baskets.length ≤ 16

/-- One thread for entry e with the registers vs comes to the baskets of a core, and ok says whether it found a place (R35): the
first basket of its key with room takes it and becomes a wattle at the entry with its 32nd thread; else the lowest free basket
takes it while there are fewer than 16 wattles and baskets; else nothing changes. -/
structure Sys2Proof.Claim.Comes (s u : State) (c : Nat) (e : Addr) (vs : List (Word × Bool)) (ok : Bool) : Prop where
  joins : ∀ b bk, ((grpOf s c).baskets.find? fun p => p.2.key = e && decide (p.2.threads.length < 32)) = some (b, bk) → ok = true ∧
    (bk.threads.length < 31 → mget (grpOf u c).baskets b = some { bk with threads := bk.threads ++ [vs] } ∧
      (grpOf u c).resident = (grpOf s c).resident) ∧
    (bk.threads.length = 31 → freeWattle (grpOf s c) ∈ (grpOf u c).resident ∧
      (keysRise 0 (grpOf s c).baskets = true → mget (grpOf u c).baskets b = none) ∧
      ∀ l < 32, (laneOf (thrOf u c (freeWattle (grpOf s c))) l).pc = e ∧ (laneOf (thrOf u c (freeWattle (grpOf s c))) l).live = true)
  opens : ((grpOf s c).baskets.find? fun p => p.2.key = e && decide (p.2.threads.length < 32)) = none →
    ∀ b, ((List.range 8).find? fun k => !mhas (grpOf s c).baskets k) = some b →
      (grpOf s c).resident.length + (grpOf s c).baskets.length < 16 →
      ok = true ∧ mget (grpOf u c).baskets b = some { key := e, threads := [vs] } ∧ (grpOf u c).resident = (grpOf s c).resident
  full : ((grpOf s c).baskets.find? fun p => p.2.key = e && decide (p.2.threads.length < 32)) = none →
    ((List.range 8).find? fun k => !mhas (grpOf s c).baskets k) = none ∨ 16 ≤ (grpOf s c).resident.length + (grpOf s c).baskets.length →
      ok = false ∧ grpOf u c = grpOf s c

/-- R34, R35, R37, R292, R298: SPAWN and REBASK, with the carried registers of their lanes full and good targets, complete: D of an
active lane is 1 when its thread found a place in the baskets and 0 when not, memory is as before, and the thread of one lane comes
to the baskets with its v0 to v7. SPAWN then ends as instructions do; REBASK also ends the lanes placed, and is held until their
stores are acknowledged, as at EXIT (assumption 17). With a carried register not full the thread is held.
Where the rules leave a reading open the model's is in the log, assumption 78. -/
def Obligations.SpawnAndRebaskPlaceThreads : Prop :=
  (∀ i x s, i = .spawn x ∨ i = .rebask x → Runs i x s → Fits i x 1 → spawnWaits x s = false → (x.m 0 1 = 1 → TargetsOk i x s) →
    Housed s s.cur.core s.cur.thr →
    (i = .rebask x → ownStores s s.cur.core s.cur.thr (actMask s x) = [] ∧ ownAtoms s s.cur.core s.cur.thr (actMask s x) = false ∧
      (curThr s).late = []) →
    ∃ (u : State) (placed : List Nat),
      (∀ l ∈ lanesOf (actMask s x), Word' x s u (endCycle i x s) l 0 (if l ∈ placed then 1 else 0) false) ∧
      (∀ l ∈ placed, l ∈ lanesOf (actMask s x)) ∧ u.mem = s.mem ∧
      (∀ l, lanesOf (actMask s x) = [l] →
        Comes s u s.cur.core (target i x s (x.m 0 1 = 1) l) (carried s l) (decide (l ∈ placed))) ∧
      (i = .spawn x → exec i s = .next (finish i x s false u)) ∧
      (i = .rebask x → ∃ v, exec i s = .next (afterExit v s.cur.core s.cur.thr) ∧
        v = exitLanes (finish i x s false u) s.cur.core s.cur.thr (maskOf placed) ∧
        ∀ l ∈ placed, (laneOf (thrOf v s.cur.core s.cur.thr) l).exited = true)) ∧
  (∀ i x s, i = .spawn x ∨ i = .rebask x → Runs i x s → spawnWaits x s = true → (curThr s).hold = none →
    ∃ t o, exec i s = .next t ∧ (curThr t).hold = some o ∧ o.why = (if curFe s then .unissued else .retry) ∧ o.instr = i ∧
      (curThr t).lanes = (curThr s).lanes) ∧
  (∀ x s, Runs (.rebask x) x s → spawnWaits x s = false → (x.m 0 1 = 1 → TargetsOk (.rebask x) x s) → (curThr s).hold = none →
    ownStores s s.cur.core s.cur.thr (maskOf (placeAll (.rebask x) x s).2) ≠ [] →
    ∃ t o, exec (.rebask x) s = .next t ∧ (curThr t).hold = some o ∧ o.why = .retry ∧ o.instr = .rebask x ∧ t.mem = s.mem ∧
      (curThr t).lanes = (curThr s).lanes)

/-- R299, R300: NOP and YIELD have no effect of their own, YIELD yields; LOOP counts its register down and branches while the
result is not 0. -/
def Obligations.NopYieldLoop : Prop :=
  (∀ x s, Runs (.nop x) x s → exec (.nop x) s = .next (finish (.nop x) x s false s)) ∧
  (∀ x s, Runs (.yield x) x s → exec (.yield x) s = .next (finish (.yield x) { x with yld := true } s false s)) ∧
  (∀ x s, Runs (.loop x) x s → Clean (.loop x) x s → x.d.index.toNat < 256 → ∃ u,
    (regOf (curThr u) 0 x.d.index.toNat).cur.v = BitVec.ofNat 32 (src (.loop x) x s 2 0) - 1 ∧
    u = (updCur s fun _ => curThr u) ∧ (curThr u).lanes = (curThr s).lanes ∧
    exec (.loop x) s = .next (if BitVec.ofNat 32 (src (.loop x) x s 2 0) = 1#32 then finish (.loop x) x s false u
      else setPcs (finish (.loop x) x s false u) [0] fun _ => s.cur.pc + x.imm.signExtend 52 * 4#52))

/-- R301, R397: LAUNCH with a good address and queue appends a packet of its grid and writes 1 when the queue takes device
launches of this ASID and mode and has room, and writes 0 and submits nothing otherwise. A poisoned operand, an address outside the
address space or not a multiple of 64, and a queue above 63 raise their faults, in this order, for the lowest active lane
(assumption 14).
Where the rules leave a reading open the model's is in the log, assumption 60. -/
def Obligations.LaunchSubmitsOrReports : Prop :=
  (∀ x s l, Runs (.launch x) x s → Fits (.launch x) x 1 → (lanesOf (actMask s x)).head? = some l →
    (srcNo (.launch x) x s 3 l).p = false → (srcNo (.launch x) x s 4 l).p = false →
    src (.launch x) x s 3 l < 2 ^ 52 → src (.launch x) x s 3 l % 64 = 0 → src (.launch x) x s 4 l ≤ 63 →
    let q := src (.launch x) x s 4 l
    let s' := if takesLaunch s q then updQueue s q fun r => { r with packets := r.packets ++
        [{ va := src (.launch x) x s 3 l, parent := some (grpOf s s.cur.core).grid, mark := s.mem.wasN }] } else s
    ∃ u, exec (.launch x) s = .next (finish (.launch x) x s false u) ∧ u.disp = s'.disp ∧ u.mem = s.mem ∧
      ∀ k ∈ lanesOf (actMask s x), Word' x s u (endCycle (.launch x) x s) k 0 (if takesLaunch s q then 1 else 0) false) ∧
  (∀ x s l code info addr, Runs (.launch x) x s → (lanesOf (actMask s x)).head? = some l →
    let a := src (.launch x) x s 3 l
    let pa := (srcNo (.launch x) x s 3 l).p
    let pb := (srcNo (.launch x) x s 4 l).p
    (pa = true ∧ code = 0x08 ∧ info = 3 ∧ addr = a) ∨ (pa = false ∧ pb = true ∧ code = 0x08 ∧ info = 4 ∧ addr = 0) ∨
      (pa = false ∧ pb = false ∧ 2 ^ 52 ≤ a ∧ code = 0x05 ∧ info = 0 ∧ addr = a) ∨
      (pa = false ∧ pb = false ∧ a < 2 ^ 52 ∧ a % 64 ≠ 0 ∧ code = 0x04 ∧ info = 0 ∧ addr = a) ∨
      (pa = false ∧ pb = false ∧ a < 2 ^ 52 ∧ a % 64 = 0 ∧ 63 < src (.launch x) x s 4 l ∧ code = 0x02 ∧ info = 8 ∧ addr = 0) →
    exec (.launch x) s = .next (takeFault s { code := code, mask := maskOf [l], info := info, addr := addr }))

/-- R230, R231, R302: a REGACQ that no other waits before is granted at once when its slices are free: the wattle holds the
blocks, and their registers hold 0, full, not poisoned, not dead; REGREL of held blocks without pending results gives them
back. -/
def Obligations.RegisterBlocksComeAndGo : Prop :=
  (∀ x s s', Runs (.regacq x) x s → (curThr s).blocks = 0 → (maskBlocks (x.f 0 3)).length ≤ (grpOf s s.cur.core).extMax →
    (grpOf s s.cur.core).regq = [] → grantBlocks s s.cur.core s.cur.thr (x.f 0 3) = some s' →
    ∃ u, exec (.regacq x) s = .next (finish (.regacq x) { x with yld := true } s false u) ∧ (curThr u).blocks = x.f 0 3 ∧
      (∀ l r, r < 256 → blockOf r ∈ maskBlocks (x.f 0 3) → regOf (curThr u) l r = {}) ∧
      (∀ l r, r < 256 → blockOf r ∉ maskBlocks (x.f 0 3) → regOf (curThr u) l r = regOf (curThr s) l r)) ∧
  (∀ x s, Runs (.regrel x) x s → (∀ b ∈ maskBlocks (x.f 0 3), (curThr s).blocks.testBit (b - 1) = true) →
    blockPending s s.cur.core s.cur.thr (x.f 0 3) = false →
    ∃ u, exec (.regrel x) s = .next (finish (.regrel x) x s false u) ∧ u = (updCur s fun _ => curThr u) ∧
      (∀ b < 3, (curThr u).blocks.testBit b = ((curThr s).blocks.testBit b && !(x.f 0 3).testBit b)) ∧
      (∀ l r, r < 256 → blockOf r ∉ maskBlocks (x.f 0 3) → regOf (curThr u) l r = regOf (curThr s) l r))

/-- R303: SLEEP with a good granule and timeout 0 answers 1 at once; with another timeout it reads its sources and holds the
thread. SLEEP_WAKE ends a woken SLEEP with status 0; SLEEP_TIMEOUT one that is due with status 0 when it is woken and 1 when it is not,
and before it is due it ends nothing or, as the device chooses, with status 2. A poisoned timeout poisons the status.
Where the rules leave a reading open the model's is in the log, assumption 24. -/
def Obligations.SleepHoldsUntilItEnds : Prop :=
  (∀ x s l a, Runs (.sleep x) x s → (lanesOf (actMask s x)).head? = some l →
      accessOf s 0 (memOff x) 1 .read l (srcNo (.sleep x) x s 3 l) = .ok a →
      (src (.sleep x) x s 4 l = 0 → Fits (.sleep x) x 1 → ∃ t, exec (.sleep x) s = .next t ∧
        CompletesLate (.sleep x) x 1 s t fun _ => { w := [1], p := (srcNo (.sleep x) x s 4 l).p }) ∧
      (src (.sleep x) x s 4 l ≠ 0 → s.cur.held = none → (curThr s).hold = none →
        ∃ t o, exec (.sleep x) s = .next t ∧ (curThr t).hold = some o ∧ o.instr = .sleep x ∧ o.mask = s.cur.mask ∧ o.pc = s.cur.pc ∧
          o.why = .sleep a.loc l (nowNs s + src (.sleep x) x s 4 l) ∧ o.vals = [(l, [], (srcNo (.sleep x) x s 4 l).p)] ∧
          (curThr t).lanes = (curThr s).lanes ∧
          ((∀ f ∈ fieldsOf (.sleep x) x, f.o.dead = false) → (curThr t).regs = (curThr s).regs))) ∧
  (∀ c t x s o loc l tEnd status i, (thrOf s c t).hold = some o → o.instr = .sleep x → o.why = .sleep loc l tEnd →
      (i = .sleepWake c t ∧ o.woken = true ∧ status = 0) ∨
        (i = .sleepTimeout c t ∧ tEnd ≤ nowNs s ∧ status = if o.woken then 0 else 1) →
      Fits (.sleep x) x 1 →
      ∃ t', exec i s = .next t' ∧ CompletesLate (.sleep x) x 1 (resumed s c t o) t' fun _ =>
        { w := [BitVec.ofNat 32 status], p := o.vals.any (·.2.2) }) ∧
  (∀ c t x s o loc l tEnd, (thrOf s c t).hold = some o → o.instr = .sleep x → o.why = .sleep loc l tEnd → nowNs s < tEnd →
      Fits (.sleep x) x 1 →
      ∃ t', exec (.sleepTimeout c t) s = .next t' ∧ (t' = s ∨ CompletesLate (.sleep x) x 1 (resumed s c t o) t' fun _ =>
        { w := [2], p := o.vals.any (·.2.2) }))

/-- The messages of a group's channel or decision queue (R13, R15). -/
def Sys2Proof.Claim.msgsOf (s : State) (c p : Nat) : List Msg :=
  if p = 0 then (grpOf s c).dq else if p < 16 then mgetD (grpOf s c).chans p [] else mgetD (mgetD s.teams (quadOf c) {}).chans p []

/-- The messages that a thread can receive on a port, oldest first (R13, R15, R19). -/
def Sys2Proof.Claim.forThread (s : State) (c t p : Nat) : List Msg :=
  if p = 0 then (grpOf s c).dq.filter (dqFor t) else if p < 32 then msgsOf s c p
  else (mgetD (coreOf s c).ports p []).map fun w => { words := [(w, false)] }

/-- D of a RECV holds the word of a message in every active lane: a message of one word gives it to every lane. -/
def Sys2Proof.Claim.Received (x : Form) (s u : State) (m : Msg) : Prop :=
  ∀ l ∈ lanesOf (actMask s x),
    (x.d.space ≠ .cache ∨ x.wb = true → (regOf (curThr u) l x.d.index.toNat).cur =
      { v := (m.word l).1, full := true, poison := (m.word l).2, dead := false, rdy := 0 }) ∧
    (x.d.space = .cache → (slotOf (curThr u) l (x.d.flags.extractLsb' 0 3).toNat).cur.ver =
      { v := (m.word l).1, full := true, poison := (m.word l).2, rdy := 0 })

/-- R13 to R15, R18, R304: SEND on an allowed port with room appends one message: on a channel of wattles the word of every
active lane and 0 for the others, on a team channel and in the decision queue the word of the lowest active lane, there with its
target, a live wattle or the broadcast. An entry for a wattle that is not live is dropped and counted. On a port that is not
allowed, or with no such target, SEND raises ILLEGAL_OPERAND; on a full channel it holds its thread. That the MASK of a bad
target is the lowest active lane alone is the model's reading, in the log, assumption 14. R14, R15, R18, R19, R305: RECV on an
allowed port, with no other thread waiting there for a message that has come, takes the oldest message for its thread, and D
holds its word in every active lane; with no message for it, it holds its thread. On a port that is not allowed it raises
ILLEGAL_OPERAND. Where the rules leave a reading open the model's is in the log, assumption 20. R18, R20, R305: RECV_DELIVER
completes a blocked RECV with the oldest message for its thread, as RECV does; SEND_UNBLOCK completes a blocked SEND once its
channel has room, which then holds the message as the last; PORT_ORPHAN raises PORT_ORPHAN with the port for a RECV that has had
no live sender for 1 ms. -/
def Obligations.PortsCarryMessages : Prop :=
  ((∀ x s, Runs (.send x) x s → x.f 0 6 = 0 → portBad s true 0 = false → (coreOf s s.cur.core).group.isSome = true →
      let n := src (.send x) x s 4 (lowLane s x)
      (chanFull s s.cur.core 0 = false →
        n = 0xFFFFFFFF ∨ (n < 16 ∧ n ∈ (grpOf s s.cur.core).resident ∧ wattleLive s s.cur.core n = true) →
        ∃ u, exec (.send x) s = .next (finish (.send x) x s false u) ∧ u.mem = s.mem ∧
          (grpOf u s.cur.core).dq = (grpOf s s.cur.core).dq ++ [{ target := n, words :=
            [(BitVec.ofNat 32 (src (.send x) x s 3 (lowLane s x)), (srcNo (.send x) x s 3 (lowLane s x)).p)] }]) ∧
      (n < 16 → ¬ (n ∈ (grpOf s s.cur.core).resident ∧ wattleLive s s.cur.core n = true) →
        ∃ u, exec (.send x) s = .next (finish (.send x) x s false u) ∧ u.mem = s.mem ∧
          (grpOf u s.cur.core).dq = (grpOf s s.cur.core).dq ∧
          (grpOf u s.cur.core).dqDropped = ((grpOf s s.cur.core).dqDropped + 1) % 2 ^ 64) ∧
      (16 ≤ n → n ≠ 0xFFFFFFFF → exec (.send x) s = .next (takeFault s (badValue (maskOf [lowLane s x]))))) ∧
    (∀ x s, Runs (.send x) x s → 1 ≤ x.f 0 6 → portBad s true (x.f 0 6) = false → chanFull s s.cur.core (x.f 0 6) = false →
      (coreOf s s.cur.core).group.isSome = true →
      ∃ u, exec (.send x) s = .next (finish (.send x) x s false u) ∧
        msgsOf u s.cur.core (x.f 0 6) = msgsOf s s.cur.core (x.f 0 6) ++ [sendMsg (.send x) x s (x.f 0 6)] ∧
        (x.f 0 6 < 16 → ∀ l < 32, ((sendMsg (.send x) x s (x.f 0 6)).words.getD l (0, false)) =
          if l ∈ lanesOf (actMask s x) then (BitVec.ofNat 32 (src (.send x) x s 3 l), (srcNo (.send x) x s 3 l).p) else (0, false)) ∧
        (16 ≤ x.f 0 6 → (sendMsg (.send x) x s (x.f 0 6)).words =
          [(BitVec.ofNat 32 (src (.send x) x s 3 (lowLane s x)), (srcNo (.send x) x s 3 (lowLane s x)).p)]) ∧
        u.mem = s.mem) ∧
    (∀ x s, Runs (.send x) x s → portBad s true (x.f 0 6) = true → exec (.send x) s = .next (takeFault s (badValue (actMask s x)))) ∧
    (∀ x s, Runs (.send x) x s → portBad s true (x.f 0 6) = false → chanFull s s.cur.core (x.f 0 6) = true → (curThr s).hold = none →
      (x.f 0 6 = 0 → src (.send x) x s 4 (lowLane s x) = 0xFFFFFFFF ∨ (src (.send x) x s 4 (lowLane s x) < 16 ∧
        src (.send x) x s 4 (lowLane s x) ∈ (grpOf s s.cur.core).resident ∧ wattleLive s s.cur.core (src (.send x) x s 4 (lowLane s x)) = true)) →
      ∃ t o, exec (.send x) s = .next t ∧ (curThr t).hold = some o ∧ o.why = .send ∧ o.instr = .send x ∧
        (curThr t).lanes = (curThr s).lanes)) ∧
  ((∀ x s m ms, Runs (.recv x) x s → Fits (.recv x) x 1 → portBad s false (x.f 0 6) = false →
      (coreOf s s.cur.core).group.isSome = true → waitsBefore s s.cur.core s.cur.thr (x.f 0 6) = false →
      forThread s s.cur.core s.cur.thr (x.f 0 6) = m :: ms →
      ∃ u, exec (.recv x) s = .next (finish (.recv x) x s true u) ∧ Received x s u m ∧
        forThread u s.cur.core s.cur.thr (x.f 0 6) = ms ∧ u.mem = s.mem) ∧
    (∀ x s, Runs (.recv x) x s → Fits (.recv x) x 1 → portBad s false (x.f 0 6) = false → (curThr s).hold = none →
      forThread s s.cur.core s.cur.thr (x.f 0 6) = [] →
      ∃ t o, exec (.recv x) s = .next t ∧ (curThr t).hold = some o ∧ o.why = .recv ∧ o.instr = .recv x ∧
        (curThr t).lanes = (curThr s).lanes ∧ t.mem = s.mem) ∧
    (∀ x s, Runs (.recv x) x s → portBad s false (x.f 0 6) = true → exec (.recv x) s = .next (takeFault s (badValue (actMask s x))))) ∧
  ((∀ c t x s o m ms, (thrOf s c t).hold = some o → o.instr = .recv x → o.why = .recv → Fits (.recv x) x 1 →
      (coreOf s c).group.isSome = true → forThread s c t (x.f 0 6) = m :: ms →
      ∃ u, exec (.recvDeliver c t) s = .next (finish (.recv x) x (resumed s c t o) true u) ∧ Received x (resumed s c t o) u m ∧
        forThread u c t (x.f 0 6) = ms ∧ u.mem = s.mem) ∧
    (∀ c t x s o, (thrOf s c t).hold = some o → o.instr = .send x → o.why = .send → chanFull s c (x.f 0 6) = false →
      (coreOf s c).group.isSome = true → (x.f 0 6 = 0 → targetGone s c (src (.send x) x (resumed s c t o) 4 (lowLane (resumed s c t o) x)) = false) →
      ∃ u, exec (.sendUnblock c t) s = .next (finish (.send x) x (resumed s c t o) false u) ∧ u.mem = s.mem ∧
        msgsOf u c (x.f 0 6) = msgsOf s c (x.f 0 6) ++ [sendMsg (.send x) x (resumed s c t o) (x.f 0 6)]) ∧
    (∀ c t x s o n, (thrOf s c t).hold = some o → o.instr = .recv x → o.why = .recv → o.orphanSince = some n →
      n + 1000000 ≤ nowNs s → liveSender s c t (x.f 0 6) = false →
      exec (.portOrphan c t) s = .next (enterTrap (resumed s c t o)
        { code := 0x0B, mask := actMask (resumed s c t o) x, info := x.f 0 6 })))

/-! ## Class 5 -/

/-- The machine behind a release at a scope: the write-back of earlier stores has started (R135, R153). -/
def Sys2Proof.Claim.released (x : Form) (s : State) (k : Nat) : State := relStart s s.cur.core s.cur.thr (actMask s x) k

/-- A release at a scope is done at once: nothing lost is to be raised, and its condition holds (R135, R145). -/
def Sys2Proof.Claim.Opens (x : Form) (s : State) (k : Nat) : Prop :=
  lateFault (released x s k) (lanesOf (actMask (released x s k) x)) = none ∧
    relReady (released x s k) s.cur.core s.cur.thr (actMask s x) k = true

/-- The state in which an access takes place: behind its release when its ORDER is lo or more (R126, R135, R136). -/
def Sys2Proof.Claim.behind (x : Form) (s : State) (lo : Nat) : State := if lo ≤ orderOf x then released x s (scopeOf x) else s

/-- ORDER is none of the reserved codes, and the release before the access, if there is one, is done (R126). -/
def Sys2Proof.Claim.Ordered (x : Form) (s : State) (lo : Nat) : Prop := orderOf x ≤ 2 ∧ (lo ≤ orderOf x → Opens x s (scopeOf x))

/-- The wait of a seq-cst access made in u for the fence after it (R136): the write-backs are started and the thread is held,
with the issue cycles of its issue (R223). -/
def Sys2Proof.Claim.trailing (i : Instr) (x : Form) (b u : State) : State :=
  holdOn i (noteCost i x b (relStart u b.cur.core b.cur.thr (actMask b x) (scopeOf x))) .fence false false true

/-- The accesses of LD, ST, ATOM and RED, LR and SC, with the checks of R120, R149, R307 and R315. -/
def Sys2Proof.Claim.accs : Instr → Option (Form × (State → Except FRec (List Acc)))
  | .ld x => some (x, fun s => accessAll (lanesOf (actMask s x)) fun l =>
      thenChk (accessOf s (x.m 3 2) (memOff x) (2 ^ x.m 0 3) .read l (srcNo (.ld x) x s 3 l)) rcellLoad)
  | .st x => some (x, fun s => accessAll (lanesOf (actMask s x)) fun l =>
      thenChk (accessOf s (x.m 3 2) (memOff x) (2 ^ x.m 0 3) .write l (srcNo (.st x) x s 3 l)) fun a => barrierChk a s)
  | .atom x => some (x, fun s => accessAll (lanesOf (actMask s x)) fun l =>
      thenChk (accessOf s 0 (memOff x) (if x.m 4 1 = 1 then 8 else 4) .both l (srcNo (.atom x) x s 3 l)) (atomChk s (x.m 0 4) (x.m 4 1 = 1)))
  | .red x => some (x, fun s => accessAll (lanesOf (actMask s x)) fun l =>
      thenChk (accessOf s 0 (memOff x) (if x.m 4 1 = 1 then 8 else 4) .both l (srcNo (.red x) x s 3 l)) (atomChk s (x.m 0 4) (x.m 4 1 = 1)))
  | .lr x => some (x, fun s => resvAccs (.lr x) x s false)
  | .sc x => some (x, fun s => resvAccs (.sc x) x s true)
  | _ => none

/-- A load is under way in u (R226, R309): every register of D is empty in the active lanes, and one pending result, due
later, will deliver what the accesses read; those of scratch have been read. No byte of memory differs. -/
structure Sys2Proof.Claim.Loads (x : Form) (n : Nat) (s u : State) (sx lr : Bool) (as : List Acc) : Prop where
  empty : ∀ l ∈ lanesOf (actMask s x), ∀ k < n,
    (x.d.space ≠ .cache ∨ x.wb = true → (regOf (curThr u) l (x.d.index.toNat + k)).cur.full = false) ∧
    (x.d.space = .cache → (slotOf (curThr u) l ((x.d.flags.extractLsb' 0 3).toNat + k)).cur.ver.full = false)
  fill : ∃ fl, u.mem.fills = s.mem.fills ++ [fl] ∧ fl.core = s.cur.core ∧ fl.thr = s.cur.thr ∧ fl.lanes = actMask s x ∧
    fl.dst = dstOf x n ∧ s.time < fl.due ∧ fl.what = .load sx as ∧ fl.lr = lr ∧ fl.got = scrLoads s sx as
  bytes : u.mem.bytes = s.mem.bytes
  stores : u.mem.stores = s.mem.stores

/-- For LR at die scope or wider the lines go home first: the die's buffered stores to them are written back and its leased
copies dropped (R146). -/
def Sys2Proof.Claim.homeward (x : Form) (s : State) (as : List Acc) : State :=
  as.foldl (fun t a => if a.isMem && decide (2 ≤ scopeOf x) then
    dropCopy (writeBackLine t (dieOf s.cur.core) a.line) (dieOf s.cur.core) a.line else t) s

/-- R126, R134, R136, R226, R307, R309, R316: LD and LR, with accesses that pass their checks, no acquire of the lanes still to be
performed, room among the core's requests and their release done, mark D empty, leave a pending result and end, or, with ORDER 2, hold
the thread for the fence behind them; an acquire still to be performed or no room holds LD, to be tried again; a failing check of LD,
ST, ATOM, RED, LR or SC raises its fault. LR in scratch sets its lanes' reservations for 2,000 ns. RESULT_FILL delivers a ready result
that no other waits for: with one value, its lane's main-file destination or operand-cache slots hold its words, full and with its
poison, and the pending result is gone.
Where the rules leave a reading open the model's is in the log, assumptions 10, 21, 86, 88. -/
def Obligations.LoadsIssueAndDeliver : Prop :=
  ((∀ x s as, Runs (.ld x) x s → begun s = false → Fits (.ld x) x (sizeRegs (x.m 0 3)) →
      (∃ F, accs (.ld x) = some (x, F) ∧ F s = .ok as) →
      (acqPending s s.cur.core s.cur.thr (actMask s x) = false → reqFull s as = false → Ordered x s 2 →
        let b := behind x s 2
        ∃ u, Loads x (sizeRegs (x.m 0 3)) b u (x.m 5 1 = 1) false as ∧
          exec (.ld x) s = .next (if orderOf x = 2 then trailing (.ld x) x b u else finish (.ld x) x b false u)) ∧
      (acqPending s s.cur.core s.cur.thr (actMask s x) = true ∨ reqFull s as = true →
        exec (.ld x) s = .next (holdOn (.ld x) s .retry false false false))) ∧
    (∀ x s as, Runs (.lr x) x s → begun s = false → Fits (.lr x) x (sizeRegs (x.m 0 3)) →
      (∃ F, accs (.lr x) = some (x, F) ∧ F s = .ok as) → anyBusy s as = false →
      let h := homeward x s as
      acqPending h h.cur.core h.cur.thr (actMask h x) = false → Ordered x h 2 →
      let b := behind x h 2
      ∃ u, Loads x (sizeRegs (x.m 0 3)) b u false true as ∧ u.mem.bytes = s.mem.bytes ∧
        (∀ a ∈ as, a.isMem = false → ∃ r ∈ u.mem.resvs, r.core = s.cur.core ∧ r.thr = s.cur.thr ∧ r.lane = a.lane ∧
          r.until' = nowNs s + 2000) ∧
        exec (.lr x) s = .next (if orderOf x = 2 then trailing (.lr x) x b u else finish (.lr x) x b false u)) ∧
    (∀ i x F s f, accs i = some (x, F) → begun s = false → Runs i x s → F s = .error f → exec i s = .next (takeFault s f))) ∧
  (∀ s f id, s.mem.fills.find? (fun f => f.id = id) = some f → fillReady s f = true → mhas s.thrs (tkey f.core f.thr) = true →
      (∀ g ∈ s.mem.fills, f.id ∉ g.behind) →
      ∃ t, exec (.resultFill id) s = .next t ∧ (∀ g ∈ t.mem.fills, g.id ≠ id) ∧ t.mem.bytes = s.mem.bytes ∧
        ∀ l ws p, fillVals s f = [(l, ws, p)] → l < 32 → f.lanes.getLsbD l = true →
          (f.dst.cache = true → f.depth = (thrOf s f.core f.thr).tdepth → f.dst.slot + f.dst.n ≤ 6 → ∀ k < f.dst.n,
            (slotOf (thrOf t f.core f.thr) l (f.dst.slot + k)).cur.ver = { v := ws.getD k 0, full := true, poison := p, rdy := 0 }) ∧
          (f.dst.cache = false → f.dst.reg + f.dst.n ≤ 256 → (∀ k < f.dst.n, (regOf (thrOf t f.core f.thr) l (f.dst.reg + k)).cur =
            { v := ws.getD k 0, full := true, poison := p, dead := false, rdy := 0 }) ∧
          (∀ l' r, r < 256 → ¬ (l' = l ∧ f.dst.reg ≤ r ∧ r < f.dst.reg + f.dst.n) →
            regOf (thrOf t f.core f.thr) l' r = regOf (thrOf s f.core f.thr) l' r)))

/-- The bytes that lane stores of ST leave at a scratch place: those of the highest lane that covers it (R308, R310). -/
def Sys2Proof.Claim.lastStore (x : Form) (s : State) (k off : Nat) (as : List Acc) : Option Byte :=
  ((as.filter fun a => match a.loc with
    | .scr k' o => k' = k && decide (o ≤ off) && decide (off < o + a.size)
    | .mem _ => false).getLast?).map fun a => match a.loc with
      | .scr _ o => ((storeBytes (.st x) x s a).getD (off - o) (0, false)).1
      | .mem _ => 0

/-- R127, R129, R130, R136, R308, R310: ST whose accesses pass their checks, with no acquire of its lanes still to be performed, no
earlier access of a lane to its line under way and its release done, completes; with ORDER 2 and a fence behind it that has to wait it
holds the thread. It stores the low bytes of B: a scratch byte is that of the highest lane that covers it, and every other scratch byte
stays; a store to memory enters the memory system with its bytes, and the bytes at their homes stay. With no other store under way,
every reader finds every byte outside the stored ranges as before.
Where the rules leave a reading open the model's is in the log, assumptions 18, 21. -/
def Obligations.StoresGoWhereTheySay : Prop :=
  ∀ x s as, s.Safe → Runs (.st x) x s → begun s = false → (∃ F, accs (.st x) = some (x, F) ∧ F s = .ok as) →
    acqPending s s.cur.core s.cur.thr (actMask s x) = false → (∀ a ∈ as, laneBusy s s.cur.core s.cur.thr a = false) → Ordered x s 1 →
    let b := behind x s 1
    ∃ t u, exec (.st x) s = .next t ∧
      (t = finish (.st x) x b false u ∨ (orderOf x = 2 ∧ t = holdOn (.st x) u .fence false false true)) ∧
      (∀ k off, bget (coreOf u k).scr off = (lastStore x b k off as).getD (bget (coreOf b k).scr off)) ∧
      u.mem.bytes = s.mem.bytes ∧
      (∀ a ∈ as, ∀ pa, a.loc = .mem pa → (∀ o, regionOf pa ≠ .reg o) → ∃ st ∈ u.mem.stores, st.pa = pa ∧ st.va = a.va ∧
        st.bytes = storeBytes (.st x) x b a ∧ st.by' = .thread s.cur.core s.cur.thr a.lane) ∧
      (s.mem.stores = [] → ∀ die own pa, (∀ o, regionOf pa ≠ .reg o) →
        (∀ a ∈ as, ∀ q, a.loc = .mem q → ¬ (q ≤ pa ∧ pa < q + a.size)) → viewByte t die own pa = viewByte s die own pa)

/-- The results of R313 on patterns of width w, but for those of floats. -/
def Sys2Proof.Claim.rmw (op w old b cmp : Nat) : Nat :=
  match op with
  | 0 => (old + b) % 2 ^ w
  | 1 => if sgn w old ≤ sgn w b then old else b
  | 2 => if sgn w old ≤ sgn w b then b else old
  | 3 => min old b
  | 4 => max old b
  | 5 => old &&& b
  | 6 => old ||| b
  | 7 => old ^^^ b
  | 8 => b
  | 9 => if old = cmp then b else old
  | 10 => if b ≤ old then 0 else old + 1
  | _ => if old = 0 ∨ b < old then b else old - 1

/-- A pending result of D, of n registers, with values known at issue and operations under way. -/
def Sys2Proof.Claim.pendingIn (u : State) (x : Form) (n : Nat) (b : State) (ops : List Nat) (got : List (Nat × List Word × Bool)) : Prop :=
  ∃ fl ∈ u.mem.fills, fl.dst = dstOf x n ∧ fl.lanes = actMask b x ∧ fl.what = .atomic ops ∧ fl.got = got

/-- R146, R228, R308, R313, R315: ATOM and RED with accesses that pass their checks and nothing to wait for complete; with ORDER
2 and a fence behind them that has to wait they hold the thread. No byte at a home differs. An access that goes to a hearth is
on its way there. Of a single active lane, an operation in scratch changes its place alone, to the new value; one in the die's
L2 leaves a store of the new value, visible on the die; and ATOM leaves a pending result with the old value, poisoned by the old
word or an operand. The new value of the integer operations is that of the table. Where the rules leave a reading open the
model's is in the log, assumptions 22. R146, R151, R228, R316: SC with accesses that pass their checks and nothing to wait for
completes; with ORDER 2 and a fence behind it that has to wait it holds the thread. No byte at a home differs. An access that
goes to a hearth is on its way there. Of a single active lane, SC in scratch or in the die's L2 leaves a pending result,
poisoned by B: 0 while the lane's reservation is intact, which it then loses, and its bytes are stored, in the L2 as a store
visible on the die; else 1, and nothing is stored. Where the rules leave a reading open the model's is in the log, assumptions
22, 23. -/
def Obligations.AtomicsAndConditionalStores : Prop :=
  ((∀ i x s as n, (i = .atom x ∧ n = atomRegs x ∨ i = .red x ∧ n = 0) → s.Safe → Runs i x s → begun s = false →
        (∃ F, accs i = some (x, F) ∧ F s = .ok as) → atomWaits x s as = false → Ordered x s 1 →
        let b := behind x s 1
        let op (a : Acc) : Rmw := rmwOf i x b (x.m 4 1 = 1) a.lane
        ∃ t u, exec i s = .next t ∧ (t = finish i x b false u ∨ (orderOf x = 2 ∧ t = holdOn i u .fence false false true)) ∧
          u.mem.bytes = s.mem.bytes ∧
          (∀ a ∈ as, atHearth (scopeOf x) a = true → ∃ o ∈ u.mem.atoms, o.acc = a ∧ o.rmw = op a ∧ o.ret = decide (0 < n) ∧ s.time < o.due) ∧
          (∀ a k off, as = [a] → a.loc = .scr k off →
            let r := scrRead b k off a.size
            (∀ j < a.size, bget (coreOf u k).scr (off + j) = (natLe a.size (rmwNew (op a) (BitVec.ofNat 64 (leNat r.1))).toNat).getD j 0) ∧
            (∀ k' off', ¬ (k' = k ∧ off ≤ off' ∧ off' < off + a.size) → bget (coreOf u k').scr off' = bget (coreOf b k').scr off') ∧
            (i = .atom x → pendingIn u x n b [] [(a.lane, natWords (a.size / 4) (leNat r.1), r.2 || (op a).poison)])) ∧
          (∀ a pa, as = [a] → a.loc = .mem pa → inL2 (scopeOf x) a = true → (∀ o, regionOf pa ≠ .reg o) →
            let r := viewBytes b (dieOf s.cur.core) (readerOf s.cur.core s.cur.thr a.lane) pa a.size
            (∃ st ∈ u.mem.stores, st.pa = pa ∧ st.vis = true ∧ st.by' = .thread s.cur.core s.cur.thr a.lane ∧
              st.bytes = (natLe a.size (rmwNew (op a) (BitVec.ofNat 64 (leNat r.1))).toNat).map fun w => (w, r.2 || (op a).poison)) ∧
            (i = .atom x → pendingIn u x n b [] [(a.lane, natWords (a.size / 4) (leNat r.1), r.2 || (op a).poison)]))) ∧
    (∀ r old, r.op < 12 → let w := if r.wide then 64 else 32
      (rmwNew r old).toNat = rmw r.op w (old.toNat % 2 ^ w) (r.b.toNat % 2 ^ w) (r.cmp.toNat % 2 ^ w))) ∧
  (∀ x s as, s.Safe → Runs (.sc x) x s → begun s = false → (∃ F, accs (.sc x) = some (x, F) ∧ F s = .ok as) → atomWaits x s as = false →
        Ordered x s 1 →
        let b := behind x s 1
        let intact (a : Acc) : Bool := resvIntact b s.cur.core s.cur.thr a.lane a.loc (scopeOf x)
        let bad (a : Acc) : Bool := (storeBytes (.sc x) x b a).any (·.2)
        ∃ t u, exec (.sc x) s = .next t ∧
          (t = finish (.sc x) x b false u ∨ (orderOf x = 2 ∧ t = holdOn (.sc x) u .fence false false true)) ∧
          u.mem.bytes = s.mem.bytes ∧
          (∀ a ∈ as, atHearth (scopeOf x) a = true → ∃ o ∈ u.mem.atoms, o.acc = a ∧
            o.sc = some ((storeBytes (.sc x) x b a).map (·.1)) ∧ o.ret = true ∧ s.time < o.due) ∧
          (∀ a, as = [a] → atHearth (scopeOf x) a = false →
            pendingIn u x 1 b [] [(a.lane, [if intact a then 0 else 1], bad a)] ∧
            (intact a = true → ∀ r ∈ u.mem.resvs, ¬ (r.core = s.cur.core ∧ r.thr = s.cur.thr ∧ r.lane = a.lane)) ∧
            (intact a = false → (∀ k off, bget (coreOf u k).scr off = bget (coreOf b k).scr off) ∧
              ∀ st ∈ u.mem.stores, ∃ o ∈ b.mem.stores, o.id = st.id) ∧
            (∀ k off, a.loc = .scr k off → intact a = true →
              (∀ j < a.size, bget (coreOf u k).scr (off + j) = ((storeBytes (.sc x) x b a).getD j (0, false)).1) ∧
              (∀ k' off', ¬ (k' = k ∧ off ≤ off' ∧ off' < off + a.size) → bget (coreOf u k').scr off' = bget (coreOf b k').scr off')) ∧
            (∀ pa, a.loc = .mem pa → (∀ o, regionOf pa ≠ .reg o) → intact a = true → ∃ st ∈ u.mem.stores, st.pa = pa ∧ st.vis = true ∧
              st.bytes = storeBytes (.sc x) x b a)))

/-! ### Barriers -/

/-- B of a barrier instruction: that of the lowest active lane (R319). -/
def Sys2Proof.Claim.count (i : Instr) (x : Form) (s : State) : Nat := src i x s 4 (lowLane s x)

/-- Scratch outside the sixteen bytes of an object of a core is as before. -/
def Sys2Proof.Claim.OnlyObject (s u : State) (c off : Nat) : Prop :=
  ∀ k o, ¬ (k = c ∧ off ≤ o ∧ o < off + 16) → bget (coreOf u k).scr o = bget (coreOf s k).scr o

/-- What arrivals and expectations leave of an object: its phase passes when they meet (R121). -/
def Sys2Proof.Claim.tested (b : Bar) : Bar :=
  if b.arrived = b.expect ∧ b.fills = 0 then { b with arrived := 0, fills := 0, landed := 0, phase := (b.phase + 1) % 2 ^ 32 } else b

/-- R120, R121, R319: the barrier instructions on an object that passes their checks complete: BINIT makes it live and empty,
BARRIVE, whose release is done and which keeps within the count, adds its arrivals and gives the old phase, BEXPECT, below 2^31 fills,
adds fills, both passing the phase when it is due, BWAIT goes on when the phase is not B and holds the thread when it is, and BDROP
ends an object that nothing waits for. A failing check raises its fault; too many arrivals or fills raise ILLEGAL_OPERAND.
That the MASK of these faults is the lowest active lane alone is the model's reading, in the log, assumption 14. -/
def Obligations.BarrierObjects : Prop :=
  (∀ x s off, s.Safe → Runs (.binit x) x s → barChk (.binit x) x s (some (1, 65535)) false = .ok off →
      ∃ u, exec (.binit x) s = .next (finish (.binit x) x s false u) ∧ barLive u s.cur.core off = true ∧
        barGet u s.cur.core off = { expect := Claim.count (.binit x) x s, arrived := 0, fills := 0, landed := 0, phase := 0 } ∧
        OnlyObject s u s.cur.core off ∧ u.mem.bytes = s.mem.bytes) ∧
  (∀ x s off, s.Safe → Runs (.barrive x) x s → Fits (.barrive x) x 1 → barChk (.barrive x) x s (some (1, 65535)) true = .ok off →
      let b := barGet s s.cur.core off
      (b.arrived + Claim.count (.barrive x) x s ≤ b.expect → Opens x s 0 → bwaitsOn s s.cur.core off s.cur.thr = none →
        ∃ u, exec (.barrive x) s = .next (finish (.barrive x) x s false u) ∧ OnlyObject s u s.cur.core off ∧
          LateResult (.barrive x) x 1 s u (fun _ => { w := [BitVec.ofNat 32 b.phase] }) ∧
          barGet u s.cur.core off = tested { b with arrived := b.arrived + Claim.count (.barrive x) x s }) ∧
      (b.expect < b.arrived + Claim.count (.barrive x) x s →
        exec (.barrive x) s = .next (takeFault s (badValue (maskOf [lowLane s x]))))) ∧
  (∀ x s off, s.Safe → Runs (.bexpect x) x s → barChk (.bexpect x) x s (some (1, 65535)) true = .ok off →
      let b := barGet s s.cur.core off
      (b.fills + Claim.count (.bexpect x) x s ≤ 2 ^ 31 - 1 →
        ∃ u, exec (.bexpect x) s = .next (finish (.bexpect x) x s false u) ∧ OnlyObject s u s.cur.core off ∧
          barGet u s.cur.core off = tested { b with fills := b.fills + Claim.count (.bexpect x) x s }) ∧
      (2 ^ 31 - 1 < b.fills + Claim.count (.bexpect x) x s →
        exec (.bexpect x) s = .next (takeFault s (badValue (maskOf [lowLane s x]))))) ∧
  (∀ x s off, Runs (.bwait x) x s → barChk (.bwait x) x s (some (0, 2 ^ 32)) true = .ok off →
      ((barGet s s.cur.core off).phase ≠ Claim.count (.bwait x) x s →
        exec (.bwait x) s = .next (finish (.bwait x) x s true (killDead (.bwait x) x s))) ∧
      ((barGet s s.cur.core off).phase = Claim.count (.bwait x) x s → (curThr s).hold = none → ∃ t o, exec (.bwait x) s = .next t ∧
        (curThr t).hold = some o ∧ o.why = .bwait off (Claim.count (.bwait x) x s) ∧ (curThr t).lanes = (curThr s).lanes)) ∧
  (∀ x s off, Runs (.bdrop x) x s → keysRise 0 (coreOf s s.cur.core).scrT = true → barChk (.bdrop x) x s none true = .ok off →
      sfillOn s s.cur.core off = false → (∀ t ∈ threadsOf s s.cur.core, bwaitsOn s s.cur.core off t = none) →
      ∃ u, exec (.bdrop x) s = .next (finish (.bdrop x) x s false u) ∧ barLive u s.cur.core off = false ∧
        ∀ k o, bget (coreOf u k).scr o = bget (coreOf s k).scr o) ∧
  (∀ i x s b live f, (i = .binit x ∧ b = some (1, 65535) ∧ live = false) ∨
      ((i = .barrive x ∨ i = .bexpect x) ∧ b = some (1, 65535) ∧ live = true) ∨ (i = .bwait x ∧ b = some (0, 2 ^ 32) ∧ live = true) ∨
      (i = .bdrop x ∧ b = none ∧ live = true) → Runs i x s → barChk i x s b live = .error f → exec i s = .next (takeFault s f))

/-- R122, R311: SFILL whose lanes pass their checks, with a live object named, no acquire of the lanes still to be performed and room
among the core's requests, appends one copy of its lanes to the core's list and completes; no byte of memory differs. SFILL_LAND of a
copy that is due and can be read writes the bytes that it reads then at its lane's scratch offset and no other of the scratchpad, but
for those of the object, and tells a live object of one fill; with that the copy is gone. A failing check of a lane raises its
fault; an object that is not aligned raises MISALIGNED, and one outside the limit, or none at that place, ILLEGAL_OPERAND.
Where the rules leave a reading open the model's is in the log, assumptions 10, 14 (MASK), 27, 86. -/
def Obligations.ScratchFills : Prop :=
  (∀ x s as, Runs (.sfill x) x s → accessAll (lanesOf (actMask s x)) (sfillAcc (.sfill x) x s (2 ^ x.m 0 3)) = .ok as →
      let bar := pairHi (srcNo (.sfill x) x s 4 (lowLane s x))
      bar % 16 = 0 → bar + 16 ≤ slimit (grpOf s s.cur.core) → overBarrier s s.cur.core bar 16 = true →
      acqPending s s.cur.core s.cur.thr (actMask s x) = false → reqFull s as = false →
      ∃ u j, exec (.sfill x) s = .next (finish (.sfill x) x s false u) ∧ u.mem.bytes = s.mem.bytes ∧ u.mem.stores = s.mem.stores ∧
        (coreOf u s.cur.core).jobs = (coreOf s s.cur.core).jobs ++ [j] ∧ s.time < j.due ∧
        j.work = .sfill (2 ^ x.m 0 3) bar (as.map fun a => (a.lane, a, pairLo (srcNo (.sfill x) x s 4 a.lane)))) ∧
  (∀ x s, Runs (.sfill x) x s →
      let as := accessAll (lanesOf (actMask s x)) (sfillAcc (.sfill x) x s (2 ^ x.m 0 3))
      let bar := pairHi (srcNo (.sfill x) x s 4 (lowLane s x))
      (∀ f, as = .error f → exec (.sfill x) s = .next (takeFault s f)) ∧
      ((∃ r, as = .ok r) → bar % 16 ≠ 0 →
        exec (.sfill x) s = .next (takeFault s { laneErr 0x04 bar with mask := maskOf [lowLane s x] })) ∧
      ((∃ r, as = .ok r) → bar % 16 = 0 → (slimit (grpOf s s.cur.core) < bar + 16 ∨ overBarrier s s.cur.core bar 16 = false) →
        exec (.sfill x) s = .next (takeFault s (badValue (maskOf [lowLane s x]))))) ∧
  (∀ s c id j size bar l a dst, s.Safe → jobOf s c id = some j → j.work = .sfill size bar [(l, a, dst)] → j.running = true → j.paused = false →
      j.due ≤ s.time → waiting s (j.waits.getD []) = false → agentReady s c a.loc size = true →
      ∃ t, exec (.sfillLand c id) s = .next t ∧ jobOf t c id = none ∧ t.mem.bytes = s.mem.bytes ∧
        (barLive s c bar = false ∨ dst + size ≤ bar ∨ bar + 16 ≤ dst →
          (∀ k < size, bget (coreOf t c).scr (dst + k) = ((agentBytes s c (some (j.mark, j.id)) a.loc size).getD k (0, false)).1) ∧
          ∀ o, ¬ (dst ≤ o ∧ o < dst + size) → ¬ (barLive s c bar = true ∧ bar ≤ o ∧ o < bar + 16) →
            bget (coreOf t c).scr o = bget (coreOf s c).scr o) ∧
        (barLive s c bar = true → dst + size ≤ bar ∨ bar + 16 ≤ dst → -(2 ^ 31) < (barGet s c bar).fills →
          barGet t c bar = tested { barGet s c bar with
            fills := (barGet s c bar).fills - 1, landed := ((barGet s c bar).landed + 1) % 2 ^ 32 }))

/-- Lanes arrived at a hardware barrier, at PC + 12 (R320). -/
def Sys2Proof.Claim.arrives (i : Instr) (x : Form) (s : State) (kind id : Nat) : State :=
  arrive (finish i x s true s) (actMask s x) kind id

/-- Lanes of a thread that wait at a hardware barrier, as the issuing ones. -/
def Sys2Proof.Claim.at' (s : State) (c t : Nat) (o : Hold) : State :=
  { s with cur := { core := c, thr := t, mask := o.mask, pc := o.pc, word := o.word, dual := o.dual, cyc := some o.cyc, cost := o.cost } }

/-- Lanes of a held CBAR or QBAR wait for their release at its PC, and the other issued lanes have gone on (R22, R320). -/
def Sys2Proof.Claim.WaitsAt (x : Form) (s t : State) (kind id : Nat) : Prop :=
  (∀ l ∈ lanesOf (actMask s x), (laneOf (curThr t) l).arrived = some (kind + 2, id) ∧ (laneOf (curThr t) l).pc = (laneOf (curThr s) l).pc) ∧
  (∀ l, l ∉ lanesOf s.cur.mask → laneOf (curThr t) l = laneOf (curThr s) l) ∧
  (∀ l ∈ lanesOf s.cur.mask, l ∉ lanesOf (actMask s x) → l < (curThr s).lanes.length →
    (laneOf (curThr t) l).pc = (laneOf (curThr s) l).pc + 12)

/-- Every live wattle that the count of a CBAR asks for has arrived (R320). -/
def Sys2Proof.Claim.allCame (u : State) (c id n : Nat) : Prop :=
  if n = 0 then ∀ w ∈ (grpOf u c).resident, wattleLive u c w = true → w ∈ cbarCame u c id else n ≤ (cbarCame u c id).length

/-- R22, R320, R321: CBAR and QBAR whose release is done complete with their active lanes arrived at PC + 12; a CBAR generation alone
in its group is released, in every wattle, when the wattles of its count have arrived, and stays before that. Behind a release that is
not done the active lanes wait alone at its PC, and COMPLETION_HORIZON_PASSED moves those of a CBAR on to PC + 12 once it is. A
differing count of CBAR, and QBAR outside a team, raise ILLEGAL_OPERAND.
Where the rules leave a reading open the model's is in the log, assumptions 85, 93. -/
def Obligations.HardwareBarriersHold : Prop :=
  (∀ x s, Runs (.cbar x) x s → Opens x s 0 → cbarOther s s.cur.core (x.f 0 4) (x.f 4 5) = false →
    let c := s.cur.core
    let u := updGrp (arrives (.cbar x) x s 0 (x.f 0 4)) c fun g => { g with cbar := mset g.cbar (x.f 0 4) (x.f 4 5) }
    exec (.cbar x) s = .next (leaveIfHeld (cbarCheck u c) c s.cur.thr) ∧
    (∀ l ∈ lanesOf (actMask s x), (laneOf (curThr u) l).arrived = some (0, x.f 0 4) ∧
      (laneOf (curThr u) l).pc = (laneOf (curThr s) l).pc + 12) ∧
    ((grpOf u c).cbar = [(x.f 0 4, x.f 4 5)] →
      (¬ allCame u c (x.f 0 4) (x.f 4 5) → cbarCheck u c = u) ∧
      (allCame u c (x.f 0 4) (x.f 4 5) → ∀ w ∈ (grpOf u c).resident, ∀ l,
        (laneOf (thrOf (cbarCheck u c) c w) l).arrived ≠ some (0, x.f 0 4)))) ∧
  (∀ x s, Runs (.cbar x) x s → cbarOther s s.cur.core (x.f 0 4) (x.f 4 5) = true →
    exec (.cbar x) s = .next (takeFault s (badValue (actMask s x)))) ∧
  (∀ x s, Runs (.qbar x) x s → inTeam s s.cur.core = true → Opens x s 1 →
    let u := arrives (.qbar x) x s 1 (x.f 0 4)
    exec (.qbar x) s = .next (leaveIfHeld (qbarCheck u (quadOf s.cur.core)) s.cur.core s.cur.thr) ∧
    ∀ l ∈ lanesOf (actMask s x), (laneOf (curThr u) l).arrived = some (1, x.f 0 4) ∧
      (laneOf (curThr u) l).pc = (laneOf (curThr s) l).pc + 12) ∧
  (∀ x s, Runs (.qbar x) x s → inTeam s s.cur.core = false → exec (.qbar x) s = .next (takeFault s (badValue (actMask s x)))) ∧
  (∀ i x s kind, (i = .cbar x ∧ kind = 0 ∧ cbarOther s s.cur.core (x.f 0 4) (x.f 4 5) = false) ∨
      (i = .qbar x ∧ kind = 1 ∧ inTeam s s.cur.core = true) → Runs i x s → lateFault s (lanesOf (actMask s x)) = none →
    relReady s s.cur.core s.cur.thr (actMask s x) kind = false →
    ∃ t, exec i s = .next t ∧ WaitsAt x s t kind (x.f 0 4)) ∧
  (∀ c t x s o, mhas s.thrs (tkey c t) = true → (thrOf s c t).hold = none → (thrOf s c t).cbars = [o] → o.instr = .cbar x →
    lateFault (at' s c t o) (lanesOf o.mask) = none → relReady s c t o.mask 0 = true → cbarOther s c (x.f 0 4) (x.f 4 5) = false →
    ∃ v, exec (.completionHorizonPassed c t) s = .next v ∧ (thrOf v c t).cbars = [] ∧
      ∀ l ∈ lanesOf o.mask, l < (thrOf s c t).lanes.length → (laneOf (thrOf v c t) l).pc = (laneOf (thrOf s c t) l).pc + 12 ∧
        ((laneOf (thrOf v c t) l).arrived = some (0, x.f 0 4) ∨ (laneOf (thrOf v c t) l).arrived = none))

/-! ### Fences, hints and MWAIT -/

/-- The machine at a fence: the write-backs that it asks for have started (R137, R153, R317). -/
def Sys2Proof.Claim.fenced (x : Form) (s : State) : State :=
  if x.m 0 3 = 0 ∨ x.m 0 3 = 2 then released x s (scopeOf x)
  else if x.m 0 3 = 1 then s
  else writeBackThread s s.cur.core s.cur.thr (actMask s x)

/-- The condition of a fence: FENCE.full and .rel that of their scope, .acq every load performed, .eng and .dma every store home
(R135, R137, R317). -/
def Sys2Proof.Claim.fencePassed (x : Form) (s : State) : Bool :=
  if x.m 0 3 = 0 ∨ x.m 0 3 = 2 then relReady (fenced x s) s.cur.core s.cur.thr (actMask s x) (scopeOf x)
  else if x.m 0 3 = 1 then loadsDone s s.cur.core s.cur.thr (actMask s x)
  else storesHome (fenced x s) s.cur.core s.cur.thr (actMask s x)

/-- Nothing lost is to be raised by a fence; .acq raises nothing (R145, R154). -/
def Sys2Proof.Claim.nothingLost (x : Form) (s : State) : Prop :=
  x.m 0 3 = 1 ∨ lateFault (fenced x s) (lanesOf (actMask (fenced x s) x)) = none

/-- What a fence leaves before its end: form 3 makes the lanes' stores seen by every engine (R137). -/
def Sys2Proof.Claim.fenceDone (x : Form) (s : State) : State :=
  if x.m 0 3 = 3 then passEngineFence (fenced x s) s.cur.core s.cur.thr (actMask s x) else fenced x s

/-- R135, R137, R145, R153, R317: a FENCE of any form whose condition holds, with nothing lost to be raised, completes: the
thread advances, with the write-backs of the form started, and form 3 makes every engine see the thread's stores; one whose
condition does not hold holds the thread; one that meets a lost store raises its fault. COMPLETION_HORIZON_PASSED completes a
held fence once its condition holds. Where the rules leave a reading open the model's is in the log, assumptions 17, 27. R312,
R318: PREF, whose address is not poisoned in any active lane, and CCTL, whose address passes its checks in every one, complete
and change no byte and no poison at a home; PREF leaves the stores as they are too. PREF of levels 0 and 1 of a line in memory
that may be leased, with one active lane, leaves the die a copy. CCTL 0 and 1 of one line in memory that may be cached leave no
store of the die to it unsent, and 2 drops it from the L1 and no leased copy. A poisoned address of PREF and a failing check of
CCTL raise their faults. -/
def Obligations.FencesAndCacheHints : Prop :=
  ((∀ x s, Runs (.fence x) x s → x.m 0 3 ≤ 4 → nothingLost x s →
        (fencePassed x s = true → exec (.fence x) s = .next (finish (.fence x) x s false (fenceDone x s))) ∧
        (fencePassed x s = false → (curThr s).hold = none → ∃ t o, exec (.fence x) s = .next t ∧ (curThr t).hold = some o ∧
          o.why = .fence ∧ o.instr = .fence x ∧ o.mask = s.cur.mask ∧ o.pc = s.cur.pc ∧ (curThr t).lanes = (curThr s).lanes)) ∧
    (∀ x s f, Runs (.fence x) x s → x.m 0 3 ≤ 4 → x.m 0 3 ≠ 1 →
        lateFault (fenced x s) (lanesOf (actMask (fenced x s) x)) = some f →
        exec (.fence x) s = .next (takeLate (fenced x s) f (lanesOf (actMask (fenced x s) x)))) ∧
    (∀ c t x s o, (thrOf s c t).hold = some o → (thrOf s c t).cbars = [] → o.instr = .fence x → o.why = .fence → x.m 0 3 ≤ 4 →
        let r := resumed s c t o
        nothingLost x r → fencePassed x r = true →
        exec (.completionHorizonPassed c t) s = .next (finish (.fence x) x r false (fenceDone x r)))) ∧
  ((∀ x s, Runs (.pref x) x s → poisonFault (.pref x) x s [3] = none →
        ∃ u, exec (.pref x) s = .next (finish (.pref x) x s false u) ∧ u.mem.bytes = s.mem.bytes ∧ u.mem.poison = s.mem.poison ∧
          u.mem.stores = s.mem.stores ∧
          ∀ l a, lanesOf (actMask s x) = [l] → accessOf s 0 (memOff x) 1 .read l (srcNo (.pref x) x s 3 l) = .ok a → a.isMem = true →
            a.attr.rcell = false → x.m 0 2 ≤ 1 → leasable s (dieOf s.cur.core) a.pa a.attr = true →
            (∀ st ∈ s.mem.stores, st.isAccepted = true → st.line ≠ a.line) → (copyOf u (dieOf s.cur.core) a.line).isSome = true) ∧
    (∀ x s l, Runs (.pref x) x s → l ∈ lanesOf (actMask s x) → (srcNo (.pref x) x s 3 l).p = true →
        ∃ f, exec (.pref x) s = .next (takeFault s f) ∧ f.code = 0x08 ∧ f.info = 3 ∧ f.mask.getLsbD l = true) ∧
    (∀ x s as, Runs (.cctl x) x s → memAccs (.cctl x) x s 0 1 .read = .ok as →
        ∃ u, exec (.cctl x) s = .next (finish (.cctl x) x s false u) ∧ u.mem.bytes = s.mem.bytes ∧ u.mem.poison = s.mem.poison ∧
          ∀ a, as = [a] → a.isMem = true → a.attr.rcell = false → leaseNs a.attr ≠ 0 →
            (x.m 0 2 ≤ 1 → ∀ st ∈ u.mem.stores, st.die = dieOf s.cur.core → st.line = a.line → st.st ≠ .buffered) ∧
            (x.m 0 2 = 2 → keysRise 0 (coreOf s s.cur.core).l1 = true → mget (coreOf u s.cur.core).l1 a.line = none ∧ u.mem.copies = s.mem.copies)) ∧
    (∀ x s f, Runs (.cctl x) x s → memAccs (.cctl x) x s 0 1 .read = .error f → exec (.cctl x) s = .next (takeFault s f)))

/-- What MWAIT reads for a lane: scratch, or memory as the thread sees it. -/
def Sys2Proof.Claim.seen (s : State) (a : Acc) : List Byte × Bool :=
  match a.loc with
  | .scr k off => scrRead s k off a.size
  | .mem pa => viewBytes s (dieOf s.cur.core) (readerOf s.cur.core s.cur.thr a.lane) pa a.size

/-- No tagged work of the core has writes that a thread may still have to see (R332), and every access of MWAIT is to scratch, or
there is one, to plain memory that can be read now. -/
def Sys2Proof.Claim.Readable (s : State) (as : List Acc) : Prop :=
  (coreOf s s.cur.core).past = [] ∧
  ((∀ a ∈ as, a.isMem = false) ∨ ∃ a pa, as = [a] ∧ a.loc = .mem pa ∧ a.attr.rcell = false ∧ (∀ o, regionOf pa ≠ .reg o) ∧
    locReady s s.cur.core s.cur.thr a.lane a.loc a.size = true ∧ laneBusy s s.cur.core s.cur.thr a = false)

/-- The condition of MWAIT on a lane's value (R322); a poisoned value meets it. -/
def Sys2Proof.Claim.meets (x : Form) (s : State) (a : Acc) : Prop :=
  (seen s a).2 = true ∨
    let v := leNat (seen s a).1
    let b := src (.mwait x) x s 4 a.lane
    (x.m 0 2 = 0 ∧ v = b) ∨ (x.m 0 2 = 1 ∧ v ≠ b) ∨ (2 ≤ x.m 0 2 ∧ b ≤ v)

/-- The values MWAIT gives (R322). -/
def Sys2Proof.Claim.waited (x : Form) (s : State) (as : List Acc) (l : Nat) : Val :=
  match as.find? fun a => a.lane = l with
  | some a => { w := natWords (a.size / 4) (leNat (seen s a).1), p := (seen s a).2 || (srcNo (.mwait x) x s 4 l).p }
  | none => {}

/-- R322: MWAIT whose accesses pass their checks, can be read now and all meet their condition completes with the values read; one with
a lane that does not is held, to be read again 100 ns later; an acquire still to be performed holds it, to be tried again, and a failing
check raises its fault. MWAIT_REREAD, once it is due, completes a held MWAIT of which no lane was done when the accesses of its lanes,
checked anew, can be read and meet their condition.
Where the rules leave a reading open the model's is in the log, assumption 25. -/
def Obligations.MwaitWaitsForItsValue : Prop :=
  let n (x : Form) := if x.m 2 1 = 1 then 2 else 1
  let as (x : Form) (s : State) := accessAll (lanesOf (actMask s x)) fun l =>
    thenChk (accessOf s 0 (memOff x) (if x.m 2 1 = 1 then 8 else 4) .read l (srcNo (.mwait x) x s 3 l)) rcellLoad
  (∀ x s r, Runs (.mwait x) x s → Fits (.mwait x) x (n x) → as x s = .ok r →
    (Readable s r → acqPending s s.cur.core s.cur.thr (actMask s x) = false →
      ((∀ a ∈ r, meets x s a) → ∃ u, exec (.mwait x) s = .next (finish (.mwait x) x s true u) ∧
        LateResult (.mwait x) x (n x) s u (waited x s r) ∧ u.mem.bytes = s.mem.bytes) ∧
      ((∃ a ∈ r, ¬ meets x s a) → (curThr s).hold = none → ∃ t o, exec (.mwait x) s = .next t ∧ (curThr t).hold = some o ∧
        o.why = .mwait ∧ o.accs = r ∧ o.next = s.time + ticks 100 ∧ t.mem.bytes = s.mem.bytes)) ∧
    (acqPending s s.cur.core s.cur.thr (actMask s x) = true → (curThr s).hold = none → ∃ t o, exec (.mwait x) s = .next t ∧
      (curThr t).hold = some o ∧ o.why = .retry ∧ o.instr = .mwait x ∧ (curThr t).lanes = (curThr s).lanes)) ∧
  (∀ x s f, Runs (.mwait x) x s → as x s = .error f → exec (.mwait x) s = .next (takeFault s f)) ∧
  (∀ c t x s o r, (thrOf s c t).hold = some o → o.instr = .mwait x → o.why = .mwait → o.vals = [] → o.next ≤ s.time →
    Fits (.mwait x) x (n x) → as x (resumed s c t o) = .ok r → Readable (resumed s c t o) r →
    (∀ a ∈ r, meets x (resumed s c t o) a) →
    ∃ u, exec (.mwaitReread c t) s = .next (finish (.mwait x) x (resumed s c t o) true u) ∧
      LateResult (.mwait x) x (n x) (resumed s c t o) u (waited x (resumed s c t o) r))

/-! ## Class 6 -/

/-- A copy is submitted on a tag (R110, R330): the tag is busy and its error bit clear, the copy waits at the end of the core's
list, every other tag, every byte of memory and every store under way are as before. -/
structure Sys2Proof.Claim.Submits (s u : State) (c tag : Nat) (ev : Bool) (w : CopyWork) : Prop where
  job : ∃ j, (coreOf u c).jobs = (coreOf s c).jobs ++ [j] ∧ j.tag = some tag ∧ j.work = w ∧ j.ev = ev ∧ j.running = false ∧ s.time < j.due
  busy : tagOf u c tag = .busy
  err : (coreOf u c).tagerr.getLsbD tag = false
  others : ∀ k, k ≠ tag → tagOf u c k = tagOf s c k
  mem : u.mem.bytes = s.mem.bytes ∧ u.mem.stores = s.mem.stores

/-- A group that some wattle or the front-end keeps alive. -/
def Sys2Proof.Claim.Alive (s : State) (c : Nat) : Prop := (coreOf s c).group.isSome = true ∧ (grpOf s c).st = .running ∧ wattleLive s c feIdx = true

/-- The reads at issue of the issuing thread have been served by their walks and banks, or wait for none (R105, R106, R324). -/
def Sys2Proof.Claim.Served (s : State) (rs : List (Nat × Nat)) : Prop := waiting (cardReads s rs).1 (cardReads s rs).2 = false

/-- R110, R115, R328, R329, R330: CPY and CPYJ whose operands, card and records pass their checks, with room among the footprints,
submit one copy on their tag and complete, CPYJ once the reads of its card and records are served. The first of these raises its fault:
of CPY a poisoned operand, a bad length, a source and a destination outside the address space or misaligned, a busy tag, a target above
the scratch limit, a range that leaves its window; of CPYJ a poisoned, too large or misaligned address, a card that cannot be read, bad
fields, a misaligned address of the card, a record that cannot be read or is bad, a busy tag, a target above the scratch limit. SADV
raises the stage, up to 255, and releases the entries whose stage has come, and SCHED_ENTRY_SUBMIT submits the first released entry,
with a free tag and its target below the scratch limit, as a copy.
Where the rules leave a reading open the model's is in the log, assumptions 14 (MASK), 31, 81, 87. -/
def Obligations.CopiesAreSubmitted : Prop :=
  (∀ x s, Runs (.cpy x) x s → poisonFault (.cpy x) x s [2, 3, 4] = none →
    let l := lowLane s x
    let d := src (.cpy x) x s 2 l
    let a := src (.cpy x) x s 3 l
    let n := src (.cpy x) x s 4 l
    let m := maskOf [l]
    let traps (f : FRec) : Prop := exec (.cpy x) s = .next (takeFault s f)
    (¬ (n % 16 = 0 ∧ 16 ≤ n ∧ n ≤ 2 ^ 30) → traps (badValue m)) ∧
    (n % 16 = 0 → 16 ≤ n → n ≤ 2 ^ 30 →
      (2 ^ 52 ≤ a → traps { code := 0x05, mask := m, addr := a }) ∧
      (a < 2 ^ 52 → 2 ^ 52 ≤ d → traps { code := 0x05, mask := m, addr := d }) ∧
      (a < 2 ^ 52 → d < 2 ^ 52 → a % 16 ≠ 0 → traps { code := 0x04, mask := m, addr := a }) ∧
      (a < 2 ^ 52 → d < 2 ^ 52 → a % 16 = 0 → d % 16 ≠ 0 → traps { code := 0x04, mask := m, addr := d }) ∧
      (a < 2 ^ 52 → d < 2 ^ 52 → a % 16 = 0 → d % 16 = 0 →
        (tagOf s s.cur.core (x.f 0 6) = .busy → traps { code := 0x18, mask := m, info := x.f 0 6 }) ∧
        (tagOf s s.cur.core (x.f 0 6) ≠ .busy →
          (retired s d n = true → traps { code := 0x17, mask := m, info := x.f 0 6, addr := d }) ∧
          (retired s d n = false → leavesWindow s a n = true → traps { code := 0x05, mask := m, addr := a }) ∧
          (retired s d n = false → leavesWindow s a n = false → leavesWindow s d n = true → traps { code := 0x05, mask := m, addr := d }) ∧
          (retired s d n = false → leavesWindow s a n = false → leavesWindow s d n = false →
            ∃ u, exec (.cpy x) s = .next (finish (.cpy x) x s false u) ∧
              Submits s u s.cur.core (x.f 0 6) (x.f 6 1 = 1) (.plain a d n)))))) ∧
  (∀ i x s f nos, (i = .cpy x ∧ nos = [2, 3, 4]) ∨ (i = .cpyj x ∧ nos = [3]) → Runs i x s → poisonFault i x s nos = some f →
    ∃ g, exec i s = .next (takeFault s g) ∧ g.code = 0x08 ∧ g.info = f.info ∧ g.mask = f.mask) ∧
  (∀ x s b so d aux, Runs (.cpyj x) x s → poisonFault (.cpyj x) x s [3] = none →
    let m := maskOf [lowLane s x]
    let a := src (.cpyj x) x s 3 (lowLane s x)
    let k := CopyCard.of b
    let bas := basisOf s s.cur.core k.basis
    a < 2 ^ 52 → a % 64 = 0 → readCard s m a 128 = .got b → k.fieldsOk b = true → k.misaligned = none →
    cardIf (k.kind = 1 && k.sfmt = 10) (readCard s m k.src 32) = .got so →
    cardIf (k.kind = 1 && k.dfmt = 10) (readCard s m k.dst 32) = .got d →
    cardIf (k.kind = 1 && k.sfmt = 3) (readCard s m k.aux 32) = .got aux →
    (k.kind = 1 → k.sfmt = 10 → planeChk m so k.basis bas = none) → (k.kind = 1 → k.dfmt = 10 → planeChk m d k.basis bas = none) →
    (k.kind = 1 → k.sfmt = 3 → scaleChk m aux = none) → tagOf s s.cur.core k.tag ≠ .busy →
    retired s (k.target d) (k.extent so d) = false →
    Served s [(a, 128), (k.src, so.length), (k.dst, d.length), (k.aux, aux.length)] →
    fpRoom s (grpOf s s.cur.core).part ((footsAt b 0x30 4).getD []).length = true →
    ∃ u, exec (.cpyj x) s = .next (finish (.cpyj x) x s false u) ∧
      Submits s u s.cur.core k.tag (k.flags.testBit 1) (.card b so d aux (if k.res then moduliOf bas else []))) ∧
  (∀ x s, Runs (.cpyj x) x s → poisonFault (.cpyj x) x s [3] = none →
    let m := maskOf [lowLane s x]
    let a := src (.cpyj x) x s 3 (lowLane s x)
    let traps (f : FRec) : Prop := exec (.cpyj x) s = .next (takeFault s f)
    (2 ^ 52 ≤ a → traps { code := 0x05, mask := m, addr := a }) ∧
    (a < 2 ^ 52 → a % 64 ≠ 0 → traps { code := 0x04, mask := m, addr := a }) ∧
    (a < 2 ^ 52 → a % 64 = 0 → (∀ f, readCard s m a 128 = .bad f → traps f) ∧
      ∀ b, readCard s m a 128 = .got b →
        let k := CopyCard.of b
        let bas := basisOf s s.cur.core k.basis
        (k.fieldsOk b = false → traps (badValue m)) ∧
        (k.fieldsOk b = true → ∀ v, k.misaligned = some v → traps { code := 0x04, mask := m, addr := v }) ∧
        (k.fieldsOk b = true → k.misaligned = none →
          let rs := cardIf (k.kind = 1 && k.sfmt = 10) (readCard s m k.src 32)
          let rd := cardIf (k.kind = 1 && k.dfmt = 10) (readCard s m k.dst 32)
          let rx := cardIf (k.kind = 1 && k.sfmt = 3) (readCard s m k.aux 32)
          (∀ f, rs = .bad f → traps f) ∧ (∀ so f, rs = .got so → rd = .bad f → traps f) ∧
          (∀ so d f, rs = .got so → rd = .got d → rx = .bad f → traps f) ∧
          ∀ so d aux, rs = .got so → rd = .got d → rx = .got aux →
            let ps := if k.kind = 1 ∧ k.sfmt = 10 then planeChk m so k.basis bas else none
            let pd := if k.kind = 1 ∧ k.dfmt = 10 then planeChk m d k.basis bas else none
            let pa := if k.kind = 1 ∧ k.sfmt = 3 then scaleChk m aux else none
            (∀ f, ps = some f → traps f) ∧ (∀ f, ps = none → pd = some f → traps f) ∧
            (∀ f, ps = none → pd = none → pa = some f → traps f) ∧
            (ps = none → pd = none → pa = none → tagOf s s.cur.core k.tag = .busy →
              traps { code := 0x18, mask := m, info := k.tag }) ∧
            (ps = none → pd = none → pa = none → tagOf s s.cur.core k.tag ≠ .busy → retired s (k.target d) (k.extent so d) = true →
              traps { code := 0x17, mask := m, info := k.tag, addr := k.target d })))) ∧
  (∀ x s, Runs (.sadv x) x s → (coreOf s s.cur.core).group.isSome = true →
    ∃ u, exec (.sadv x) s = .next (finish (.sadv x) x s false u) ∧ u.mem = s.mem ∧
      (grpOf u s.cur.core).stage = min 255 ((grpOf s s.cur.core).stage + x.f 0 8) ∧
      ∀ e ∈ (grpOf u s.cur.core).sched, e.stage ≤ (grpOf u s.cur.core).stage → e.released = true) ∧
  (∀ s c e es, (grpOf s c).sched = e :: es → e.released = true → tagOf s c e.tag ≠ .busy → copiesRun s c = true →
    (coreOf s c).group.isSome = true → (e.dst < scrWin ∨ lentWin ≤ e.dst ∨ e.dst - scrWin + e.len * e.rows ≤ slimit (grpOf s c)) →
    ∃ u, exec (.schedEntrySubmit c) s = .next (tryEnd u c) ∧ (grpOf u c).sched = es ∧
      Submits s u c e.tag false (.rows e.src e.dst e.len e.stride e.rows))

/-- R111, R112, R120, R138, R328: COPY_START runs the first waiting copy while a place is free; COPY_COMPLETE of a running plain copy
within the scratchpad that has not been paused, whose reads are served and whose sources no unfenced store of a thread has written,
moves the bytes (where source and destination overlap, every byte comes from a source byte of the same place among its sixteen), changes
no other byte of the scratchpad, and ends its tag as done without an error; one whose writes are performed ends, with its status, once
they are applied.
Where the rules leave a reading open the model's is in the log, assumptions 27, 28, 30, 89. -/
def Obligations.CopiesMoveBytes : Prop :=
  (∀ s c j, nextCopy s c = some j → copiesRun s c = true →
    ∃ t j', exec (.copyStart c) s = .next t ∧ jobOf t c j.id = some j' ∧ j'.running = true ∧ s.time < j'.due ∧ t.mem = s.mem) ∧
  (∀ s c id j so d len, s.Safe → jobOf s c id = some j → j.running = true → j.paused = false → j.due ≤ s.time → j.fin = none →
    (∃ ids, j.waits = some ids ∧ waiting s ids = false) → j.done = 0 → j.work = .plain (scrWin + so) (scrWin + d) len → Alive s c → so + len ≤ slimit (grpOf s c) → d + len ≤ slimit (grpOf s c) →
    so + len ≤ scrBytes → d + len ≤ scrBytes → (∀ k < len, overBarrier s c (d + k) 1 = false) →
    (∀ st ∈ s.mem.stores, st.by' ≠ .engine c) → (∀ k < len, mgetD s.mem.was (scrKey c (so + k)) [] = []) →
    ∃ t, exec (.copyComplete c id) s = .next t ∧
      ((so = d ∨ so + len ≤ d ∨ d + len ≤ so) → ∀ k < len, bget (coreOf t c).scr (d + k) = bget (coreOf s c).scr (so + k)) ∧
      (so % 16 = 0 → d % 16 = 0 → ∀ k < len, ∃ k' < len, k' % 16 = k % 16 ∧
        bget (coreOf t c).scr (d + k) = bget (coreOf s c).scr (so + k')) ∧
      (∀ o, ¬ (d ≤ o ∧ o < d + len) → bget (coreOf t c).scr o = bget (coreOf s c).scr o) ∧ t.mem.bytes = s.mem.bytes ∧
      jobOf t c id = none ∧ ∀ g, j.tag = some g → tagOf t c g = .done ∧ (coreOf t c).tagerr.getLsbD g = false) ∧
  (∀ s c id j n st, jobOf s c id = some j → j.running = true → j.paused = false → j.isSfill = false → j.due ≤ s.time →
    j.fin = some (n, st) → agentDone s c n = true → Alive s c →
    ∃ t, exec (.copyComplete c id) s = .next t ∧ jobOf t c id = none ∧
      ∀ g, j.tag = some g → g < 64 → tagOf t c g = .done ∧ (coreOf t c).tagerr.getLsbD g = decide (st ≠ 0))

/-- What TWAIT and TWANY return on (R331): no tag of the mask busy, or, for TWANY, one of them done. -/
def Sys2Proof.Claim.Come (s : State) (c : Nat) (anyOf : Bool) (m : DWord) : Prop :=
  tagMask s c .busy &&& m = 0 ∨ (anyOf = true ∧ tagBits s c &&& m ≠ 0)

/-- What they write: the error bits, or the done bits, of the mask. -/
def Sys2Proof.Claim.tagWord (s : State) (anyOf : Bool) (m : DWord) : DWord :=
  (if anyOf then tagBits s s.cur.core else (coreOf s s.cur.core).tagerr) &&& m

/-- D of a long-latency instruction is there at its end: every word full and not poisoned, in every active lane. -/
def Sys2Proof.Claim.There (x : Form) (n : Nat) (s u : State) (w : Nat → Word) : Prop :=
  ∀ l ∈ lanesOf (actMask s x), ∀ k < n,
    (x.d.space ≠ .cache ∨ x.wb = true → (regOf (curThr u) l (x.d.index.toNat + k)).cur =
      { v := w k, full := true, poison := false, dead := false, rdy := 0 }) ∧
    (x.d.space = .cache → (slotOf (curThr u) l ((x.d.flags.extractLsb' 0 3).toNat + k)).cur.ver =
      { v := w k, full := true, poison := false, rdy := 0 })

/-- R110, R331: with an unpoisoned mask, TWAIT and TWANY complete with the error or done bits of their mask when its tags have come and
hold the thread when not, and TAG_WAIT_RETURN completes a held one when they have; TFIRST completes with the lowest done tag and its
error, or 0x80000000 without one, due later, and its clr form makes the tag idle; TCLR without a busy tag in its mask completes and makes
the done tags of it idle, and with one raises TAG_BUSY with the lowest. That its MASK is the lowest active lane alone is the model's
reading, in the log, assumption 14. -/
def Obligations.TagInstructions : Prop :=
  (∀ i x s anyOf, (i = .twait x ∧ anyOf = false) ∨ (i = .twany x ∧ anyOf = true) → Runs i x s → Fits i x 2 →
    poisonFault i x s [3] = none →
    let m := BitVec.ofNat 64 (src i x s 3 (lowLane s x))
    (Come s s.cur.core anyOf m → ∃ u, exec i s = .next (finish i x s true u) ∧ u.mem = s.mem ∧
      There x 2 s u fun k => (tagWord s anyOf m).extractLsb' (32 * k) 32) ∧
    (¬ Come s s.cur.core anyOf m → (curThr s).hold = none → ∃ t o, exec i s = .next t ∧ (curThr t).hold = some o ∧ o.why = .tags ∧
      o.instr = i ∧ (curThr t).lanes = (curThr s).lanes)) ∧
  (∀ c t i x s o anyOf, (thrOf s c t).hold = some o → o.instr = i → o.why = .tags →
    (i = .twait x ∧ anyOf = false) ∨ (i = .twany x ∧ anyOf = true) → Fits i x 2 →
    let r := resumed s c t o
    let m := BitVec.ofNat 64 (src i x r 3 (lowLane r x))
    poisonFault i x r [3] = none → Come r c anyOf m →
    ∃ u, exec (.tagWaitReturn c t) s = .next (finish i x r true u) ∧ There x 2 r u fun k => (tagWord r anyOf m).extractLsb' (32 * k) 32) ∧
  (∀ x s, Runs (.tfirst x) x s → Fits (.tfirst x) x 1 → poisonFault (.tfirst x) x s [3] = none →
    let m := tagBits s s.cur.core &&& BitVec.ofNat 64 (src (.tfirst x) x s 3 (lowLane s x))
    ∃ u fl v, exec (.tfirst x) s = .next (finish (.tfirst x) x s false u) ∧ u.mem.fills = s.mem.fills ++ [fl] ∧
      fl.dst = dstOf x 1 ∧ fl.lanes = actMask s x ∧ s.time < fl.due ∧
      fl.what = .value ((lanesOf (actMask s x)).map fun l => (l, [BitVec.ofNat 32 v], false)) ∧
      (m = 0 → v = 0x80000000) ∧
      (∀ t, m.getLsbD t = true → (∀ k < t, m.getLsbD k = false) →
        v = t + (if (coreOf s s.cur.core).tagerr.getLsbD t then 64 else 0) ∧
        (x.m 0 1 = 1 → keysRise 0 (coreOf s s.cur.core).tags = true → tagOf u s.cur.core t = .idle) ∧
        (x.m 0 1 = 0 → (coreOf u s.cur.core).tags = (coreOf s s.cur.core).tags))) ∧
  (∀ x s, Runs (.tclr x) x s → poisonFault (.tclr x) x s [3] = none →
    let m := BitVec.ofNat 64 (src (.tclr x) x s 3 (lowLane s x))
    (tagMask s s.cur.core .busy &&& m = 0 → ∃ u, exec (.tclr x) s = .next (finish (.tclr x) x s false u) ∧ u.mem = s.mem ∧
      (keysRise 0 (coreOf s s.cur.core).tags = true → ∀ t, (tagBits s s.cur.core &&& m).getLsbD t = true → tagOf u s.cur.core t = .idle) ∧
      (∀ t, (tagBits s s.cur.core &&& m).getLsbD t = false → tagOf u s.cur.core t = tagOf s s.cur.core t)) ∧
    (∀ t, (tagMask s s.cur.core .busy &&& m).getLsbD t = true → (∀ k < t, (tagMask s s.cur.core .busy &&& m).getLsbD k = false) →
      exec (.tclr x) s = .next (takeFault s { code := 0x18, mask := maskOf [lowLane s x], info := t })))

/-- The job that a BTE_COMPLETE of a die serves (R124): the first that heads its ring and has not to wait. -/
def Sys2Proof.Claim.Turn (s : State) (die : Nat) (j : BteJob) : Prop :=
  mdieInReset s die = false ∧ ∃ pre post, bteHeads s die = pre ++ j :: post ∧ ∀ o ∈ pre, bteStep s die o = none

/-- R123, R124, R344: BTJOB with a good descriptor and ring, read, and room among the footprints completes: it answers, later, 2 when the die
is away, 0 when its queue is full, and else 1 with the job at the end of the queue. BTE_COMPLETE serves the first job of a die that
heads its ring and has not to wait: one whose reads are served writes its data and keeps its status and byte count; one whose data is in
place writes its record into its ring's next entry while the ring has room; one whose record is in place raises PROD by one and leaves.
Where the rules leave a reading open the model's is in the log, assumptions 10, 51, 87. -/
def Obligations.BlockTransfers : Prop :=
  (∀ x s b r, Runs (.btjob x) x s → poisonFault (.btjob x) x s [3, 4] = none →
    let l := lowLane s x
    let m := maskOf [l]
    let a := src (.btjob x) x s 3 l
    let g := grpOf s s.cur.core
    let die := x.f 0 3
    a < 2 ^ 52 → a % 64 = 0 → readCard s m a 64 = .got b → bteOk b = true → leAt b 0x18 8 < 2 ^ 52 → leAt b 0x18 8 % 64 = 0 →
    readCard s m (leAt b 0x18 8) 64 = .got r → ringOk r = true → leAt r 0 8 < 2 ^ 52 → leAt r 0 8 % (32 * 2 ^ leAt r 8 1) = 0 →
    Served s [(a, 64), (leAt b 0x18 8, 64)] →
    fpRoom s g.part ((footsAt b 0x20 2).getD []).length = true →
    let away := mdieInReset s die || !((mdiesOf (partWord s g.part)).contains die && partEn s g.part)
    let v : Nat := if away then 2 else if 256 ≤ (mgetD s.hbm.btes die []).length then 0 else 1
    ∃ u fl, exec (.btjob x) s = .next (finish (.btjob x) x s false u) ∧ u.mem.fills = s.mem.fills ++ [fl] ∧ fl.dst = dstOf x 1 ∧
      fl.lanes = actMask s x ∧ fl.what = .value ((lanesOf (actMask s x)).map fun l => (l, [BitVec.ofNat 32 v], false)) ∧
      u.mem.bytes = s.mem.bytes ∧
      (v ≠ 1 → mgetD u.hbm.btes die [] = mgetD s.hbm.btes die []) ∧
      (v = 1 → ∃ j, mgetD u.hbm.btes die [] = mgetD s.hbm.btes die [] ++ [j] ∧ j.src = leAt b 0 8 ∧ j.dst = leAt b 8 8 ∧
        j.len = leAt b 0x10 4 ∧ j.ring = leAt b 0x18 8 ∧ j.jobId = src (.btjob x) x s 4 l ∧ j.grid = g.grid ∧ s.time < j.due)) ∧
  (∀ s die j ids, Turn s die j → j.fin = none → j.waits = some ids → waiting s ids = false →
    let r := runPlain s (bteAgent s die j) j.src j.dst j.len j.len 1
    r.waits = false → ∃ u n addr, exec (.bteComplete die) s = .next u ∧ u.mem = (r.write s (bteAgent s die j)).mem ∧
      { j with fin := some (n, r.status, r.status % 128, r.total, addr) } ∈ mgetD u.hbm.btes die []) ∧
  (∀ s die j n status fault bytes addr b, Turn s die j → j.fin = some (n, status, fault, bytes, addr) → j.recd = none →
    agentDone s j.core n = true → agentGet s (bteAgent s die j) j.ring 64 = .ok b →
    let r := rawBytes b
    let lg := leAt r 8 1
    let prod := leAt r 0x10 8
    prod - leAt r 0x18 8 < 2 ^ lg → ∃ u k, exec (.bteComplete die) s = .next u ∧
      u.mem = (agentPut s (bteAgent s die j) (leAt r 0 8 + 32 * (prod % 2 ^ lg)) (plain (bteRecord s j prod lg status fault bytes addr))).mem ∧
      { j with recd := some k } ∈ mgetD u.hbm.btes die []) ∧
  (∀ s die j f k p, Turn s die j → j.fin = some f → j.recd = some k → agentDone s j.core k = true →
    agentGet s (bteAgent s die j) (j.ring + 0x10) 8 = .ok p →
    exec (.bteComplete die) s = .next (bteLeave (agentPut s (bteAgent s die j) (j.ring + 0x10)
      (plain (natLe 8 (leNat (rawBytes p) + 1)))) die j f.2.1))

/-! ### The engine -/

/-- An entry takes its place at the end of an engine's table, and the claims and releases whose turn has come take effect (R167,
R335); every byte of memory and every store under way are as before. -/
def Sys2Proof.Claim.Enters (s u : State) (q : Nat) (n : Ent) : Prop :=
  engOf u q = settleSlots { engOf s q with table := (engOf s q).table ++ [n], idle := false } ∧
    u.mem.bytes = s.mem.bytes ∧ u.mem.stores = s.mem.stores

/-- The optional tag of an engine instruction is free. -/
def Sys2Proof.Claim.TagFree (s : State) (t : Option Nat) : Prop := ∀ k, t = some k → tagOf s s.cur.core k ≠ .busy

/-- R163, R166, R170, R334, R335, R339, R340, R343: OCLM, OREL, QMMA issued alone and ACLR, on an engine in service with room in its
table and with their checks passed, complete and enter the table of the quad's engine with their operands; OCLM answers, later, with the
claim, once it has taken effect, and the any form without a free slot answers 0xFFFFFFFF and enters nothing. MSTAT completes with the
word named, and its clearing form clears the CCR. BASIS with a valid list that has been read enters so and holds its thread, and with
another raises BASIS_INVALID. A QMMA issued alone that covers part of a quarter raises MMA_PARTIAL_QUARTER. On an engine whose units are
out of service OCLM, OREL, ACLR and QMMA raise ILLEGAL_OPERAND, as OCLM of a named slot and OREL do for a slot above 63, and OREL for a
slot that is free, a job's or another ASID's raises the fault of its check.
Where the rules leave a reading open the model's is in the log, assumptions 14 (MASK), 35, 49, 87. -/
def Obligations.EngineInstructionsEnter : Prop :=
  (∀ x s, Runs (.oclm x) x s → Fits (.oclm x) x 1 → poisonFault (.oclm x) x s [3] = none → outOfService (engOf s (curQuad s)) = false →
    let a := src (.oclm x) x s 3 (lowLane s x)
    (x.m 0 1 = 1 ∨ a ≤ 63) → ∃ (u : State) (fl : Fill) (v : Nat), exec (.oclm x) s = .next (finish (.oclm x) x s false u) ∧
      u.mem = { s.mem with fills := s.mem.fills ++ [fl] } ∧ fl.dst = dstOf x 1 ∧ fl.lanes = actMask s x ∧
      fl.what = .value ((lanesOf (actMask s x)).map fun l => (l, [BitVec.ofNat 32 v], false)) ∧
      (∀ k, (x.m 0 1 = 0 ∧ k = a ∧ v = 1 ∨ x.m 0 1 = 1 ∧ k < 64 ∧ v = k ∧ ∀ j < k, mhas (laterEng s).slots j = true) →
        mhas (laterEng s).slots k = false → ∃ id, fl.waits = [id] ∧ engOf u (curQuad s) = settleSlots { engOf s (curQuad s) with
          table := (engOf s (curQuad s)).table ++ [{ entry s (.oclm (x.m 0 1 = 1) k) with id := id }], idle := false }) ∧
      (x.m 0 1 = 0 → v = if mhas (laterEng s).slots a then 0 else 1) ∧
      (x.m 0 1 = 1 → (∀ j < 64, mhas (laterEng s).slots j = true) → v = 0xFFFFFFFF ∧ u.engs = s.engs) ∧
      (x.m 0 1 = 1 → ∀ k < 64, mhas (laterEng s).slots k = false → (∀ j < k, mhas (laterEng s).slots j = true) → v = k)) ∧
  (∀ x s, Runs (.orel x) x s → poisonFault (.orel x) x s [3] = none → outOfService (engOf s (curQuad s)) = false →
    let a := src (.orel x) x s 3 (lowLane s x)
    a ≤ 63 → orelChk (laterEng s) (curGrp s).asid a (maskOf [lowLane s x]) = none →
    ∃ u id, exec (.orel x) s = .next (finish (.orel x) x s false u) ∧ Enters s u (curQuad s) { entry s (.orel a) with id := id }) ∧
  (∀ i x s, (((i = .oclm x ∨ i = .orel x) ∧ poisonFault i x s [3] = none) ∨ i = .aclr x) → Runs i x s →
    outOfService (engOf s (curQuad s)) = true → exec i s = .next (takeFault s (badValue (maskOf [lowLane s x])))) ∧
  (∀ i x s, (i = .oclm x ∧ x.m 0 1 = 0) ∨ i = .orel x → poisonFault i x s [3] = none → Runs i x s →
    outOfService (engOf s (curQuad s)) = false → 63 < src i x s 3 (lowLane s x) →
    exec i s = .next (takeFault s (badValue (maskOf [lowLane s x])))) ∧
  (∀ x s f, Runs (.orel x) x s → poisonFault (.orel x) x s [3] = none → outOfService (engOf s (curQuad s)) = false →
    let a := src (.orel x) x s 3 (lowLane s x)
    a ≤ 63 → orelChk (laterEng s) (curGrp s).asid a (maskOf [lowLane s x]) = some f → exec (.orel x) s = .next (takeFault s f)) ∧
  (∀ x s, Runs (.aclr x) x s → outOfService (engOf s (curQuad s)) = false →
    (∀ t, accOf (laterEng s) (x.m 0 2) (x.f 0 1) = some t → t.asid = (curGrp s).asid) →
    tableFull (engOf s (curQuad s)) = false → engineDown s (curQuad s) = false →
    ∃ u id, exec (.aclr x) s = .next (finish (.aclr x) x s false u) ∧
      Enters s u (curQuad s) { entry s (.aclr (x.m 0 2) (x.f 0 1)) with id := id }) ∧
  (∀ x s, Runs (.qmma x) x s → s.cur.dual = none →
    ((∃ q < 4, quarter (actMask s x) q ≠ 0 ∧ quarter (actMask s x) q ≠ 0xFF) →
      ∃ w : BitVec 4, (∀ q < 4, w.getLsbD q = true ↔ quarter (actMask s x) q ≠ 0 ∧ quarter (actMask s x) q ≠ 0xFF) ∧
        exec (.qmma x) s = .next (takeFault s { code := 0x0D, mask := actMask s x, info := w.toNat })) ∧
    ((∀ q < 4, quarter (actMask s x) q = 0 ∨ quarter (actMask s x) q = 0xFF) → outOfService (engOf s (curQuad s)) = true →
      exec (.qmma x) s = .next (takeFault s (badValue (actMask s x)))) ∧
    ((∀ q < 4, quarter (actMask s x) q = 0 ∨ quarter (actMask s x) q = 0xFF) → outOfService (engOf s (curQuad s)) = false →
      qmmaSlots (laterEng s) (curGrp s).asid (x.m 0 2) (x.f 0 6) (x.f 6 6) (x.f 12 1) (x.f 15 3 + 1) (actMask s x) = none →
      accChk (laterEng s) (curGrp s).asid (x.m 0 2) (x.f 13 2) ((mget (laterEng s).slots (x.f 0 6)).map (·.basis)) (actMask s x) = none →
      tableFull (engOf s (curQuad s)) = false → engineDown s (curQuad s) = false →
      ∃ (u : State) (id : Nat) (w : BitVec 4), exec (.qmma x) s = .next (finish (.qmma x) x s false u) ∧
        (∀ q < 4, w.getLsbD q = true ↔ quarter (actMask s x) q = 0xFF) ∧
        Enters s u (curQuad s) { entry s (.qmma (x.m 0 2) (x.f 13 2) (x.f 0 6) (x.f 6 6) (x.f 12 1) (x.f 15 3 + 1) w) with id := id })) ∧
  (∀ x s b e, Runs (.basis x) x s → poisonFault (.basis x) x s [3] = none →
    let m := maskOf [lowLane s x]
    let a := src (.basis x) x s 3 (lowLane s x)
    a < 2 ^ 52 → a % 2 = 0 → readCard s m a 32 = .got b → (curThr s).hold = none →
    (basisFrom b (some (curGrp s).asid) = none →
      exec (.basis x) s = .next (takeFault s { code := 0x10, mask := m, info := x.f 0 4, addr := a })) ∧
    (basisFrom b (some (curGrp s).asid) = some e → Served s [(a, 32)] →
      ∃ t o id due, exec (.basis x) s = .next t ∧ (curThr t).hold = some o ∧ o.why = .basis ∧
      s.time < due ∧ Enters s t (curQuad s) { entry s (.basis (x.f 0 4) s.cur.thr e) with id := id, due := due })) ∧
  (∀ x s, Runs (.mstat x) x s → Fits (.mstat x) x 2 → ∃ u, exec (.mstat x) s = .next (finish (.mstat x) x s false u) ∧ u.mem = s.mem ∧
    There x 2 s u (fun k => (BitVec.ofNat 64 (mstatWord (engOf s (curQuad s)) (curThr s).super (curGrp s).asid (x.f 0 3))).extractLsb' (32 * k) 32) ∧
    (x.f 0 3 = 1 → engOf u (curQuad s) = { engOf s (curQuad s) with ccr := 0, ccrAsid := none }) ∧
    (x.f 0 3 ≠ 1 → u.engs = s.engs))

/-- R177, R179, R334, R336, R338, R341, R342: OLOAD, SCLD, ADRAIN and MJOB whose checks pass, whose addresses translate, whose records
have been read, with room in the engine's table, complete and enter the table of an engine with their operands, the translations of
OLOAD, SCLD and ADRAIN captured, and their tag busy. MJOB goes to the engine and basis that its placing gives; with none it completes,
enters no engine, and its tag is done.
Where the rules leave a reading open the model's is in the log, assumptions 31, 32, 35, 87. -/
def Obligations.LoadsDrainsAndJobsEnter : Prop :=
  (∀ x s pl ps, Runs (.oload x) x s → poisonFault (.oload x) x s [3, 4] = none → outOfService (engOf s (curQuad s)) = false →
    let m := maskOf [lowLane s x]
    let fmt := x.m 2 4
    let a := src (.oload x) x s 3 (lowLane s x)
    let b := if fmt = 10 then 0 else src (.oload x) x s 4 (lowLane s x)
    let bas := basisIn (laterEng s) (curGrp s).asid (x.f 8 4)
    let tag := optTag (x.f 17 6) (x.f 23 1)
    (fmt ≠ 10 → segBytes fmt ≤ b ∧ b % fmtAlign fmt = 0) → basisFits (laterEng s) (x.m 0 2) bas = true → a < 2 ^ 52 →
    a % oloadAlign fmt = 0 → cardIf (fmt = 10) (readCard s m a 32) = .got pl → (fmt = 10 → planeChk m pl (x.f 8 4) bas = none) →
    slotChk (laterEng s) (curGrp s).asid (x.f 0 6) m = none → TagFree s tag →
    capture s (agentOf s s.cur.core (curThr s).super) .read (oloadSegs fmt (x.f 6 1) a b pl) = .ok ps →
    Served s [(a, pl.length)] →
    tableFull (engOf s (curQuad s)) = false → engineDown s (curQuad s) = false →
    ∃ u id due, exec (.oload x) s = .next (finish (.oload x) x s false u) ∧ s.time < due ∧
      Enters s u (curQuad s) { entry s (.oload (x.m 0 2) fmt (x.f 0 6) (x.f 6 1) (x.f 7 1) (x.f 8 4) (x.f 12 5 + 8) a b (moduliOf bas) pl tag)
        with pages := ps, id := id, due := due } ∧
      ∀ k, tag = some k → tagOf u s.cur.core k = .busy) ∧
  (∀ x s bs ps, Runs (.scld x) x s → poisonFault (.scld x) x s [2, 3, 4] = none → outOfService (engOf s (curQuad s)) = false →
    let m := maskOf [lowLane s x]
    let col := src (.scld x) x s 2 (lowLane s x)
    let a := src (.scld x) x s 3 (lowLane s x)
    let row := src (.scld x) x s 4 (lowLane s x)
    let n := x.f 0 9 + 1
    let tag := optTag (x.f 9 6) (x.f 15 1)
    a < 2 ^ 52 → readCard s m a 32 = .got bs → scaleChk m bs = none → row + n ≤ (Scales.of bs).rows → col < (Scales.of bs).blocks →
    (mgetD (laterEng s).staged (x.m 0 2) []).length + n ≤ 512 → TagFree s tag →
    capture s (agentOf s s.cur.core (curThr s).super) .read (scldSegs (Scales.of bs) row col n) = .ok ps →
    Served s [(a, 32)] →
    tableFull (engOf s (curQuad s)) = false → engineDown s (curQuad s) = false →
    ∃ u id due, exec (.scld x) s = .next (finish (.scld x) x s false u) ∧ s.time < due ∧
      Enters s u (curQuad s) { entry s (.scld (x.m 0 2) bs col row n tag) with pages := ps, id := id, due := due } ∧
      ∀ k, tag = some k → tagOf u s.cur.core k = .busy) ∧
  (∀ x s pl ps, Runs (.adrain x) x s → poisonFault (.adrain x) x s [2, 3, 4] = none → outOfService (engOf s (curQuad s)) = false →
    let m := maskOf [lowLane s x]
    let fmt := x.f 1 3
    let stats : Bool := x.m 5 1 = 1 || fmt = 6
    let d := src (.adrain x) x s 2 (lowLane s x)
    let a := if stats then src (.adrain x) x s 3 (lowLane s x) else 0
    let b := if fmt = 1 then 0 else src (.adrain x) x s 4 (lowLane s x)
    let bas := drainBasis (engOf s (curQuad s)) (laterEng s) (curGrp s).asid (x.m 0 2) (x.f 0 1) pl
    let tag := optTag (x.f 4 6) (x.f 10 1)
    accChk (laterEng s) (curGrp s).asid (x.m 0 2) (x.f 0 1) none m = none → (fmt ≠ 1 → drainRow fmt ≤ b ∧ b % drainAlign fmt = 0) →
    d < 2 ^ 52 → d % drainAlign fmt = 0 → (stats = true → a < 2 ^ 52 ∧ a % 16 = 0) → cardIf (fmt = 1) (readCard s m d 32) = .got pl →
    (fmt = 1 → planeChk m pl bas.1 bas.2 = none) → TagFree s tag →
    capture s (agentOf s s.cur.core (curThr s).super) .write (drainSegs fmt d a b stats pl) = .ok ps →
    Served s [(d, pl.length)] →
    tableFull (engOf s (curQuad s)) = false → engineDown s (curQuad s) = false →
    ∃ u id, exec (.adrain x) s = .next (finish (.adrain x) x s false u) ∧
      Enters s u (curQuad s) { entry s (.adrain (x.m 0 2) fmt (x.f 0 1) (x.m 2 2) (x.m 4 1 = 1) stats d a b (moduliOf bas.2) pl tag)
        with pages := ps, id := id } ∧
      ∀ k, tag = some k → tagOf u s.cur.core k = .busy) ∧
  (∀ x s b pa pb pc sa sb, Runs (.mjob x) x s → poisonFault (.mjob x) x s [3] = none →
    let m := maskOf [lowLane s x]
    let a := src (.mjob x) x s 3 (lowLane s x)
    let k := JobCard.of b
    let bas := basisIn (laterEng s) (curGrp s).asid k.basis
    a < 2 ^ 52 → a % 64 = 0 → readCard s m a 256 = .got b → k.fieldsOk b = true → k.misaligned = none →
    cardIf (k.afmt = 10) (readCard s m k.abase 32) = .got pa → cardIf (k.bfmt = 10) (readCard s m k.bbase 32) = .got pb →
    cardIf (k.dfmt = 1) (readCard s m k.cbase 32) = .got pc → cardIf (k.afmt = 3) (readCard s m k.ascale 32) = .got sa →
    cardIf (k.bfmt = 3) (readCard s m k.bscale 32) = .got sb → tagOf s s.cur.core k.tag ≠ .busy →
    (∃ e, bas = some e ∧ e.n ≤ if k.grp = 0 then 10 else 4) →
    (k.afmt = 3 → scaleChk m sa = none) → (k.bfmt = 3 → scaleChk m sb = none) →
    Served s [(a, 256), (k.abase, pa.length), (k.bbase, pb.length), (k.cbase, pc.length), (k.ascale, sa.length), (k.bscale, sb.length)] →
    (∀ q id use, jobPlace s k bas (basisIn (laterEng s) (curGrp s).asid k.alt) = some (q, id, use) →
      (k.afmt = 10 → planeChk m pa id use = none) → (k.bfmt = 10 → planeChk m pb id use = none) →
      (k.dfmt = 1 → planeChk m pc id use = none) →
      (k.keep = true → accChk (foreseen (engOf s q)) (curGrp s).asid k.grp k.acc (some id) m = none) →
      tableFull (engOf s q) = false → engineDown s q = false →
      fpRoom s (curGrp s).part ((footsAt b 0xC0 4).getD []).length = true →
      ∃ u n task, exec (.mjob x) s = .next (finish (.mjob x) x s false u) ∧
        Enters s u q { entry s (.job b [pa, pb, pc, sa, sb] id (moduliOf use)) with id := n, task := task } ∧
        tagOf u s.cur.core k.tag = .busy) ∧
    (jobPlace s k bas (basisIn (laterEng s) (curGrp s).asid k.alt) = none →
      (k.afmt = 10 → planeChk m pa k.basis bas = none) → (k.bfmt = 10 → planeChk m pb k.basis bas = none) →
      (k.dfmt = 1 → planeChk m pc k.basis bas = none) →
      ∃ u, exec (.mjob x) s = .next (finish (.mjob x) x s false u) ∧ tagOf u s.cur.core k.tag = .done ∧ u.engs = s.engs))

/-- R85, R94, R163, R169, R174, R178, R180, R181, R184, R334, R338, R340: what the engine's own events do. A grant goes to the entry
whose turn it is, without aged entries one of the highest PRIO among those whose unit is free; an ACLR ends with its accumulator clear; an OLOAD and
an SCLD whose reads are served end with the slot loaded and the records staged; a drain writes its rows, of a cleared accumulator zeros,
and ends once they are applied; a job takes the four lowest free slots, makes its passes once their reads are served, and ends with its
tag done; a pass that is not the last of a QMMA adds the products of its tiles to the accumulator, element by element modulo each
modulus; a re-proof ends when it is due; BASIS_COMPLETE puts a basis that is not in use into its entry and ends BASIS, and for one in
use raises ILLEGAL_OPERAND and leaves the entries as they are.
Where the rules leave a reading open the model's is in the log, assumptions 14 (MASK), 36, 39, 41, 48. -/
def Obligations.EngineEvents : Prop :=
  (∀ s q n, nextGrant (engOf s q) (nowNs s) = some n →
    ∃ t, exec (.engineGrant q) s = .next t ∧ t.mem = s.mem ∧
      (∀ m ∈ (engOf t q).table, m.id = n.id → m.granted.isSome = true ∧ s.time ≤ m.due) ∧
      ((∀ m ∈ (engOf s q).table, aged (nowNs s) m = false) → ∀ m ∈ (engOf s q).table, waitsGrant (engOf s q) m = true →
        unitFree (engOf s q) m = true → m.prio ≤ n.prio)) ∧
  (∀ s q ent n g acc k, entOf (engOf s q) ent = some n → n.op = .aclr g acc → n.granted = some k → n.due ≤ s.time →
    ∃ u, exec (.aclrComplete q ent) s = .next (endEntry u q n none 0) ∧ u.mem = s.mem ∧
      accOf (engOf u q) g acc = some { asid := n.asid, core := n.core }) ∧
  (∀ s q ent n g fmt slot kind half basis w addr stride ms pl tag r o, entOf (engOf s q) ent = some n →
    n.op = .oload g fmt slot kind half basis w addr stride ms pl tag → eligible (engOf s q) n = true → n.due ≤ s.time → (∃ ids, n.waits = some ids ∧ waiting s ids = false) →
    oloadRun s (engOf s q) (entAgent q n) n = .ok r → mget (engOf s q).slots slot = some o →
    ∃ u, exec (.oloadComplete q ent) s = .next (endEntry u q n tag (if r.sat then 128 else 0)) ∧ u.mem.bytes = s.mem.bytes ∧
      mget (engOf u q).slots slot = some (loadSlot o g kind half basis ms r.tile)) ∧
  (∀ s q ent n g bs col row cnt tag rs, entOf (engOf s q) ent = some n → n.op = .scld g bs col row cnt tag →
    eligible (engOf s q) n = true → n.due ≤ s.time → (∃ ids, n.waits = some ids ∧ waiting s ids = false) → scldRecs s (entAgent q n) n.asid n.core (Scales.of bs) col row cnt = some rs →
    ∃ u, exec (.scldComplete q ent) s = .next (endEntry u q n tag 0) ∧ u.mem = s.mem ∧
      mgetD (engOf u q).staged g [] = mgetD (engOf s q).staged g [] ++ rs) ∧
  (∀ s q ent n g fmt acc rnd ftz stats dst sta stride ms pl tag k st, entOf (engOf s q) ent = some n →
    n.op = .adrain g fmt acc rnd ftz stats dst sta stride ms pl tag →
    (n.fin = some (k, st) → agentDone s n.core k = true → exec (.drainComplete q ent) s = .next (endEntry s q n tag st)) ∧
    (n.fin = none → n.granted = some k → n.due ≤ s.time →
      let r := adrainRun s q n
      ∃ m k' st', entOf (engOf r q) ent = some m ∧ m.fin = some (k', st') ∧ (st' = 0 ∨ st' = 128) ∧
        exec (.drainComplete q ent) s = .next (if agentDone r n.core k' then endEntry r q m tag st' else r))) ∧
  (∀ fmt rnd ftz stats (t : AccT) ms (dst : Int) sta stride tile pl i, fmt ≠ 1 → i < 256 →
    (drainPieces fmt rnd ftz stats t ms dst sta stride tile pl).1[i]? =
      some (dst + ((i * stride : Nat) : Int), (rowBytes fmt rnd ftz t i ((drainRows t).getD i [])).1)) ∧
  (∀ (t : AccT) i j, t.bad = false → t.cert = .zero → ((t.el.getD i []).getD j {}).poison = false → drainAt t i j = .value 0) ∧
  (∀ s q ent n b recs id ms, entOf (engOf s q) ent = some n → n.op = .job b recs id ms → n.run = none → n.paused = false →
    n.fin = none → eligible (engOf s q) n = true → fpClear s n.task = true →
    let free := (List.range 64).filter fun k => !(mhas (engOf s q).slots k)
    4 ≤ free.length → ∃ t, exec (.jobStart q ent) s = .next t ∧ t.mem = s.mem ∧
      (∀ k ∈ free.take 4, mget (engOf t q).slots k = some { use := .job, core := n.core, asid := n.asid }) ∧
      (∀ m ∈ (engOf t q).table, m.id = ent → ∃ r, m.run = some r ∧ r.slots = free.take 4)) ∧
  (∀ s q ent n b recs id ms k st, entOf (engOf s q) ent = some n → n.op = .job b recs id ms → n.fin = some (k, st) →
    agentDone s n.core k = true → ∃ u, exec (.jobComplete q ent) s = .next (endEntry u q n none 0) ∧
      tagOf u n.core (JobCard.of b).tag = .done) ∧
  (∀ s q n b recs id ms r, (engOf s q).table.find? (fun n => onArrays n = some (JobCard.of b).grp && n.fusedInto = none && decide (n.due ≤ s.time)) = some n →
    n.op = .job b recs id ms → n.run = some r → (∃ ids, n.waits = some ids ∧ waiting s ids = false) → exec (.passComplete q (JobCard.of b).grp) s = .next (jobPass s q n b recs id ms r)) ∧
  (∀ s q n g acc a b h k qs o, (engOf s q).table.find? (fun n => onArrays n = some g && n.fusedInto = none && decide (n.due ≤ s.time)) = some n →
    n.op = .qmma g acc a b h k qs → n.run = none → n.granted = some 2 → mhas (engOf s q).reproof g = false → mget (engOf s q).slots a = some o →
    ∃ t, exec (.passComplete q g) s = .next t ∧ t.mem = s.mem ∧
      accOf (engOf t q) g acc = some (passAcc ((accOf (engOf s q) g acc).getD { asid := n.asid, core := n.core }) o.basis o.ms
        (mgetD (engOf s q).passes g 0 + 1) (passBands (engOf s q) n (k - 2)) (tileB (engOf s q) (b + (k - 2)) h))) ∧
  (∀ ms old cs as bs (a b : List (List Nat)) bad c, c < ms.length → (passElem ms old cs as bs (some a) b bad).res.getD c 0 =
    (resAt old.res c * 2 ^ cs + ((List.range 32).map fun k => resAt (a.getD k []) c * resAt (b.getD k []) c).sum * 2 ^ (as + bs)) % ms.getD c 0) ∧
  (∀ s q g due core asid acc, mget (engOf s q).reproof g = some (due, core, asid, acc) → due ≤ s.time → keysRise 0 (engOf s q).reproof = true →
    ∃ t, exec (.reproofPass q g) s = .next t ∧ mget (engOf t q).reproof g = none) ∧
  (∀ s core thr o x n id b, (thrOf s core thr).hold = some o → o.instr = .basis x →
    basisEntOf (engOf s (quadOf core)) core thr = some (n, id, b) → eligible (engOf s (quadOf core)) n = true → n.due ≤ s.time →
    (grpOf s core).st = .running →
    (basisInUse (engOf s (quadOf core)) id = false → ∃ u, exec (.basisComplete core thr) s =
        .next (finish (.basis x) x (resumed s core thr o) false u) ∧ mget (engOf u (quadOf core)).bases id = some b) ∧
    (basisInUse (engOf s (quadOf core)) id = true → ∃ u, exec (.basisComplete core thr) s =
        .next (enterTrap u (badValue (maskOf [lowLane (resumed s core thr o) x]))) ∧ (engOf u (quadOf core)).bases = (engOf s (quadOf core)).bases))

/-! ## Class 7 -/

/-- The line i of a frame at fa is a posted store of the frame's bytes: its place, its bytes, not early forwarded, by the
lowest live lane (R406). -/
def Sys2Proof.Claim.LinePosted (s u : State) (fa i pa : Nat) (bs : List (Byte × Bool)) : Prop :=
  ∃ st ∈ u.mem.stores, st.pa = pa ∧ st.va = fa + 64 * i ∧ st.bytes = (bs.drop (64 * i)).take 64 ∧ st.ef = false ∧
    st.by' = .thread s.cur.core s.cur.thr (lowestLive (curThr s))

/-- The thread is held at nothing: no instruction, no CBAR or QBAR, no leave actions. -/
structure Sys2Proof.Claim.Unheld (t : Thr) : Prop where
  hold : t.hold = none
  bars : t.cbars = []
  leave : t.leaving = false

/-- R348, R349, R405, R406, R408: TRAP, and BRK with BRKH clear, end as instructions do and enter the handler with
SOFTWARE_TRAP and the code; BRK with BRKH set halts the group. Trap entry saves the mode, raises TDEPTH, sends every live lane
to TVEC in supervisor mode, invalidates latches and slots, leaves registers, predicates, NUMST and blocks, and posts the lines
of the frame that lie in memory, the record first. At TDEPTH 2, or without TVEC, TFRAME or a writable frame, the group is to end:
it drains, and once that is done it is gone and the record goes to CKBASE + 0x40 of its checkpoint area.
Where the rules leave a reading open the model's is in the log, assumptions 14, 57. -/
def Obligations.TrapsEnterTheHandler : Prop :=
  (∀ x s, Runs (.trap x) x s → s.cur.dual = none → frameWaits s = false → exec (.trap x) s = .next (enterTrap (finish (.trap x) x s false s)
    { code := 0x1A, mask := actMask s x, info := x.f 0 16 })) ∧
  (∀ x s, Runs (.brk x) x s → s.cur.dual = none → frameWaits s = false → (curThr s).sstatus.getLsbD 3 = false →
    exec (.brk x) s = .next (enterTrap (finish (.brk x) x s false s)
      { code := 0x1A, mask := actMask s x, info := x.f 0 16, brk := true })) ∧
  (∀ x s, Runs (.brk x) x s → (curThr s).sstatus.getLsbD 3 = true → (coreOf s s.cur.core).group.isSome = true →
    (grpOf s s.cur.core).st = .running →
    ∃ t, exec (.brk x) s = .next t ∧ (grpOf t s.cur.core).st = .halting (nowNs s) true true) ∧
  (∀ s f locs, Unheld (curThr s) → (curThr s).tdepth < 2 → (grpOf s s.cur.core).tvec ≠ 0 → (grpOf s s.cur.core).tframe ≠ 0 →
    let fa := (grpOf s s.cur.core).tframe.toNat + (s.cur.thr * 2 + (curThr s).tdepth) * 4096
    frameLocs s s.cur.core .write fa = some locs →
    let t := curThr (enterTrap s f)
    (∀ k < 32, t.sstatus.getLsbD k = if k = 4 then true else if k = 5 then (curThr s).super
      else if k = 6 ∨ k = 7 then ((curThr s).tdepth + 1).testBit (k - 6) else (curThr s).sstatus.getLsbD k) ∧
    (∀ l, (laneOf (curThr s) l).live = true → (laneOf t l).pc = (grpOf s s.cur.core).tvec.setWidth 52 ∧ (laneOf t l).mtg = nullMtg ∧
      (laneOf t l).depth = 0 ∧ (laneOf t l).nest = 0) ∧
    (∀ l, (laneOf t l).live = (laneOf (curThr s) l).live ∧ (laneOf t l).preds = (laneOf (curThr s) l).preds) ∧
    t.serial = false ∧ t.starve = 0 ∧ t.numst = (curThr s).numst ∧ t.blocks = (curThr s).blocks ∧ t.slot = (curThr s).slot ∧
    (∀ l k, (latOf t l k).valid = false ∧ (slotOf t l k).cur.st = .none) ∧
    (∀ l r, (regOf t l r).cur = { (regOf (curThr s) l r).cur with rdy := (regOf t l r).cur.rdy }) ∧
    ∀ i < 64, ∀ pa a, locs[i]? = some (Loc.mem pa, a) → (∀ o, regionOf pa ≠ .reg o) →
      LinePosted s (enterTrap s f) fa i pa (frameBytes (curThr s) (curFe s) (recBytes s f false))) ∧
  (∀ s f, Unheld (curThr s) → (coreOf s s.cur.core).group.isSome = true → (2 ≤ (curThr s).tdepth ∨ (grpOf s s.cur.core).tvec = 0 ∨ (grpOf s s.cur.core).tframe = 0 ∨
      frameLocs s s.cur.core .write ((grpOf s s.cur.core).tframe.toNat + (s.cur.thr * 2 + (curThr s).tdepth) * 4096) = none) →
    (grpOf (enterTrap s f) s.cur.core).st = .failing (recBytes s f true)) ∧
  (∀ c s g r, (coreOf s c).group = some g → g.st = .failing r → haltReady s c = true →
    ∃ t, exec (.preemptHalt c) s = .next t ∧ (coreOf t c).group = none ∧
      (g.area = true → (∀ o, regionOf (g.ckbase.toNat + 0x40) ≠ .reg o) →
        ∃ st ∈ t.mem.stores, st.pa = g.ckbase.toNat + 0x40 ∧ st.bytes = plain r)) ∧
  (∀ s f e t fe, (frameBytes t fe (recBytes s f e)).take 64 = plain (recBytes s f e) ∧ (recBytes s f e).length = 64 ∧
    leAt (recBytes s f e) 0x00 1 = f.code % 256 ∧
    (leAt (recBytes s f e) 0x01 1).testBit 0 = f.brk ∧ (leAt (recBytes s f e) 0x01 1).testBit 1 = curFe s ∧
    (leAt (recBytes s f e) 0x01 1).testBit 3 = s.cur.dual.isSome ∧ (leAt (recBytes s f e) 0x01 1).testBit 5 = e ∧
    leAt (recBytes s f e) 0x03 1 = (curThr s).tdepth ∧ leAt (recBytes s f e) 0x04 4 = f.mask.toNat ∧
    leAt (recBytes s f e) 0x08 8 = s.cur.pc.toNat ∧ leAt (recBytes s f e) 0x10 8 = f.addr % 2 ^ 64 ∧
    leAt (recBytes s f e) 0x1C 4 = f.info % 2 ^ 32 ∧ leAt (recBytes s f e) 0x20 8 = nowNs s % 2 ^ 64 ∧
    leAt (recBytes s f e) 0x28 4 = s.cur.mask.toNat ∧
    leAt (recBytes s f e) 0x30 12 = if f.fetch then 0 else s.cur.word.toNat)

/-- A wattle's saved fields within the widths of the frame (R9, R25, R407). -/
structure Sys2Proof.Claim.Framable (t : Thr) : Prop where
  lanes : t.lanes.length = 32
  stk : ∀ l < 32, (laneOf t l).depth ≤ 4 ∧ (laneOf t l).stk.length = (laneOf t l).depth ∧ (laneOf t l).nest < 256
  mode : t.running < 32 ∧ t.starve < 4096
  homes : ∀ l < 32, ∀ k < 6, (slotOf t l k).cur.home < 256

/-- R350, R406, R407: ERET with a readable frame and no odd PC takes the thread back to what the frame gives; ERET at TDEPTH 0
raises ILLEGAL_OPERAND, and one whose frame holds an odd PC of a live lane raises MISALIGNED for those lanes, its latches and slots
untouched. A wattle that a trap sent away, and whose handler left the frame as it was, comes back with its PCs, meetings, masks, mode,
latches and operand cache, and TDEPTH is as before. That the MASK at TDEPTH 0 is the lowest active lane alone is assumption 14 of the
log; what comes back of each lane's shadow, predicates, depth and frame bit 12 is assumption 57. -/
def Obligations.EretReversesTheTrap : Prop :=
  (∀ x s bs, Runs (.eret x) x s → (curThr s).tdepth ≠ 0 →
    let c := s.cur.core
    let fa := frameAddr (grpOf s c) s.cur.thr ((curThr s).tdepth - 1)
    frameFault s c fa = none → frameReady s c s.cur.thr fa = true → readFrame s c s.cur.thr fa = some bs →
    (∀ l < (curThr s).lanes.length, (laneOf (eretThr (curThr s) (curFe s) bs) l).pc.toNat % 4 = 0) →
    (x.yld = true → curFe s = false → leaveBlocked (curThr s) = false) →
    ∃ v, exec (.eret x) s = .next (afterExit v c s.cur.thr) ∧
      (curThr v).lanes = (eretThr (curThr s) (curFe s) bs).lanes ∧ (curThr v).sstatus = (eretThr (curThr s) (curFe s) bs).sstatus ∧
      (curThr v).serial = (eretThr (curThr s) (curFe s) bs).serial ∧
      v.mem.bytes = s.mem.bytes ∧ v.mem.stores = s.mem.stores) ∧
  (∀ x s bs l ls, Runs (.eret x) x s → (curThr s).tdepth ≠ 0 →
    let c := s.cur.core
    let fa := frameAddr (grpOf s c) s.cur.thr ((curThr s).tdepth - 1)
    let r := eretThr (curThr s) (curFe s) bs
    frameFault s c fa = none → frameReady s c s.cur.thr fa = true → readFrame s c s.cur.thr fa = some bs → oddLanes r = l :: ls →
    exec (.eret x) s = .next (takeFault s { code := 0x04, mask := maskOf (l :: ls), addr := (laneOf r l).pc.toNat })) ∧
  (∀ x s, Runs (.eret x) x s → (curThr s).tdepth = 0 →
    exec (.eret x) s = .next (takeFault s { code := 0x02, mask := maskOf [lowLane s x], info := 8 })) ∧
  (∀ t v r, Framable t → t.tdepth < 2 → r.length = 64 →
    let u := eretThr (trapThr t v) false (frameBytes t false r)
    u.super = t.super ∧ u.tdepth = t.tdepth ∧ u.serial = t.serial ∧ u.running = t.running ∧ u.starve = t.starve ∧
    u.numst = t.numst ∧ u.shadows = t.shadows ∧
    ∀ l < 32, (laneOf u l).pc = (laneOf t l).pc ∧ (laneOf u l).mtg = (laneOf t l).mtg ∧ (laneOf u l).stk = (laneOf t l).stk ∧
      (laneOf u l).depth = (laneOf t l).depth ∧ (laneOf u l).nest = (laneOf t l).nest ∧ (laneOf u l).exited = (laneOf t l).exited ∧
      (laneOf u l).launch = (laneOf t l).launch ∧ (laneOf u l).tgt = (laneOf t l).tgt ∧
      (laneOf u l).preds = (laneOf t l).preds ∧
      (∀ k < 2, latOf u l k = latOf t l k) ∧
      ∀ k < 6, (slotOf u l k).cur.st = (slotOf t l k).cur.st ∧ (slotOf u l k).cur.ver.v = (slotOf t l k).cur.ver.v ∧
        (slotOf u l k).cur.ver.full = (slotOf t l k).cur.ver.full ∧ (slotOf u l k).cur.home = (slotOf t l k).cur.home ∧
        (slotOf u l k).cur.ver.poison = (slotOf t l k).cur.ver.poison)

/-- What CSRW, CSRS and CSRC with an accepted operand make of a register (R351): the new value, or nothing. -/
def Sys2Proof.Claim.csrNew (i : Instr) (s : State) (rw ro old a : DWord) : Option DWord :=
  match i with
  | .csrw _ => if a &&& ~~~rw = old &&& ro then some a else none
  | .csrs _ => if a &&& ~~~rw = 0 then some (old ||| a) else none
  | .csrc _ => if a &&& ~~~rw = 0 then some (old &&& ~~~a) else none
  | _ => let _ := s; none

/-- R351 to R357: CSRR, TIME and PERF write what they read; CSRW, CSRS and CSRC with an accepted value change their register and
no other, and raise ILLEGAL_OPERAND and change nothing with any other value. That TIME gives the very time of the machine is the
model's choice, assumption 102 of the log: the rules allow a skew between cores. That the MASK of the faults is the lowest
active lane alone is assumption 14. R108, R358, R359: RESIZE to the code in force does nothing; to another one, with no live
barrier object above the new limit, room for the launch's scratch and no copy there, the group has the new L1 code, no scratch
byte at or above the limit is kept, and those below it are as they were. TIERH with a good address completes; with B = 0 no hint
changes. -/
def Obligations.ControlRegistersSplitAndHints : Prop :=
  ((∀ x s n, Runs (.csrr x) x s → csrRegs (x.f 0 12) = some n → Fits (.csrr x) x n →
      ∃ t, exec (.csrr x) s = .next t ∧ Completes (.csrr x) x n s t fun _ => { w := natWords n (csrVal s (x.f 0 12)).toNat }) ∧
    (∀ i x s rw v, i = .csrw x ∨ i = .csrs x ∨ i = .csrc x → Runs i x s → Clean i x s → (coreOf s s.cur.core).group.isSome = true →
      csrRw (x.f 0 12) = some rw →
      csrNew i s rw (csrRo (x.f 0 12)) (csrVal s (x.f 0 12)) (BitVec.ofNat 64 (src i x s 3 (lowLane s x))) = some v →
      csrRange (x.f 0 12) v = true → v.toNat < 2 ^ (32 * (csrRegs (x.f 0 12)).getD 1) →
      ∃ u, exec i s = .next (finish i x s false u) ∧ csrVal u (x.f 0 12) = v ∧ u.mem = s.mem ∧ u.xl = s.xl ∧
        (∀ n, n ≠ 0 → n ≠ x.f 0 12 → ¬ (x.f 0 12 = 0x840 ∧ n = 0x841) → csrVal u n = csrVal s n) ∧
        (x.f 0 12 ≠ 0 → ∀ k, k ≠ 1 → (curThr u).numst.getLsbD k = (curThr s).numst.getLsbD k)) ∧
    (∀ i x s, i = .csrw x ∨ i = .csrs x ∨ i = .csrc x → Runs i x s → Clean i x s →
      (csrRw (x.f 0 12) = none ∨ ∃ rw, csrRw (x.f 0 12) = some rw ∧ ∀ v,
        csrNew i s rw (csrRo (x.f 0 12)) (csrVal s (x.f 0 12)) (BitVec.ofNat 64 (src i x s 3 (lowLane s x))) = some v →
        csrRange (x.f 0 12) v = false) →
      exec i s = .next (takeFault s { code := 0x02, mask := maskOf [lowLane s x], info := 8 })) ∧
    (∀ s, csrVal s 0x000 = (curThr s).numst.setWidth 64 ∧ csrVal s 0x001 = (coreOf s s.cur.core).tagerr ∧
      csrVal s 0x800 = (curThr s).sstatus.setWidth 64 ∧ csrVal s 0x801 = (grpOf s s.cur.core).tvec ∧
      csrVal s 0x802 = (grpOf s s.cur.core).tframe ∧ csrVal s 0x804 = BitVec.ofNat 64 (grpOf s s.cur.core).asid ∧
      csrVal s 0x805 = (grpOf s s.cur.core).ckbase) ∧
    (∀ x s, Runs (.time x) x s → Fits (.time x) x 2 → (x.m 0 1 = 1 → producersOut s x = false) →
      ∃ t, exec (.time x) s = .next t ∧ Completes (.time x) x 2 s t fun _ => { w := natWords 2 (nowNs s) }) ∧
    (∀ x s, Runs (.perf x) x s → Fits (.perf x) x 2 →
      ∃ t, exec (.perf x) s = .next t ∧ Completes (.perf x) x 2 s t fun _ => { w := natWords 2 (perfVal s (x.f 0 8)) })) ∧
  ((∀ x s, Runs (.resize x) x s → x.f 0 2 = (grpOf s s.cur.core).l1 → exec (.resize x) s = .next (finish (.resize x) x s false s)) ∧
    (∀ x s, Runs (.resize x) x s → x.f 0 2 ≠ (grpOf s s.cur.core).l1 → (coreOf s s.cur.core).group.isSome = true →
      let new := 0xC0000 - l1Bytes (x.f 0 2)
      let lim := min new (slimit (grpOf s s.cur.core))
      (grpOf s s.cur.core).scratchNeed ≤ new → barrierAbove s s.cur.core lim = false → scratchUsed s s.cur.core lim = false →
      ∃ u, exec (.resize x) s = .next (finish (.resize x) x s false u) ∧ (grpOf u s.cur.core).l1 = x.f 0 2 ∧ u.mem = s.mem ∧
        u.thrs = s.thrs ∧ (∀ a, bget (coreOf u s.cur.core).scr a = if a < lim then bget (coreOf s s.cur.core).scr a else 0) ∧
        ∀ c, c ≠ s.cur.core → coreOf u c = coreOf s c) ∧
    (∀ x s, Runs (.resize x) x s → x.f 0 2 ≠ (grpOf s s.cur.core).l1 →
      (0xC0000 - l1Bytes (x.f 0 2) < (grpOf s s.cur.core).scratchNeed ∨
        barrierAbove s s.cur.core (min (0xC0000 - l1Bytes (x.f 0 2)) (slimit (grpOf s s.cur.core))) = true) →
      exec (.resize x) s = .next (takeFault s { code := 0x02, mask := maskOf [lowLane s x], info := 8 })) ∧
    (∀ x s, Runs (.tierh x) x s → Clean (.tierh x) x s → src (.tierh x) x s 3 (lowLane s x) < 2 ^ 52 →
      ∃ u, exec (.tierh x) s = .next (finish (.tierh x) x s false u) ∧ u.mem = s.mem ∧ u.cores = s.cores ∧
        (src (.tierh x) x s 4 (lowLane s x) = 0 → u.xl = s.xl) ∧
        ∀ p, p ∈ tierPages s (src (.tierh x) x s 3 (lowLane s x)) (src (.tierh x) x s 4 (lowLane s x)) →
          (x.m 0 2 = 0 → mget u.xl.hints p = some (s.cur.core + 1)) ∧ (x.m 0 2 = 1 → mget u.xl.hints p = some 0)))

/-- The forms of TLBI with their numbers (R360). -/
def Sys2Proof.Claim.tlbiOf : Instr → Option (Form × Nat)
  | .tlbiVa x => some (x, 0)
  | .tlbiAsid x => some (x, 1)
  | .tlbiAll x => some (x, 2)
  | _ => none

/-- D of the active lanes holds a status before the end of the instruction. -/
def Sys2Proof.Claim.Answered (i : Instr) (x : Form) (s w : State) (v : Word) : Prop :=
  ∀ k ∈ lanesOf (actMask s x), Word' x s w (endCycle i x s) k 0 v false

/-- R360, R422, R423, R104: a TLBI drops what it names from the core's cache and its die's, and with .pkg from those of every core
and die of the partition, and then answers 0 or 0x19 or holds the thread; it answers 0 at once when nothing can have used a
dropped entry. TLBI_COMPLETE ends a held one once its conditions hold. A walk that ends with a good leaf is cached for its die
and its cores. A page move begins and ends with no byte changed and no reservation on the page, and leaves it in its new place.
Where the rules leave a reading open the model's is in the log, assumptions 14 (MASK), 59, 63, 66. -/
def Obligations.TranslationsAreDroppedCachedAndMoved : Prop :=
  (∀ i x form s, tlbiOf i = some (x, form) → Runs i x s → (curThr s).hold = none → Clean i x s → Fits i x 1 →
    (form ≠ 2 → src i x s 4 (lowLane s x) ≤ 1023) →
    let part := (grpOf s s.cur.core).part
    let hits := tlbiHits s part form (src i x s 3 (lowLane s x)) (src i x s 4 (lowLane s x))
    ∃ v, exec i s = .next v ∧ v.mem.bytes = s.mem.bytes ∧
      (∀ k ∈ tlbiCores s part s.cur.core (x.m 2 1 = 1), ∀ e ∈ (coreOf v k).tlb, hits e = false) ∧
      (∀ e ∈ mgetD v.xl.dtlb (dieOf s.cur.core) [], x.m 2 1 = 0 → hits e = false) ∧
      (x.m 2 1 = 1 → (∀ d < 4, partHasDie s part d = true → ∀ e ∈ mgetD v.xl.dtlb d [], hits e = false) ∧
        ∀ d ∈ mdiesOf (partWord s part), ∀ e ∈ mgetD v.xl.dtlb (d + 4) [], hits e = false) ∧
      ((∃ w, v = finish i x s false w ∧ (Answered i x s w 0 ∨ Answered i x s w 0x19)) ∨
        ∃ o id, (curThr v).hold = some o ∧ o.instr = i ∧ o.mask = s.cur.mask ∧ o.pc = s.cur.pc ∧ o.why = .tlbi id ∧
          ∃ t ∈ v.xl.tlbis, t.id = id ∧ t.core = s.cur.core) ∧
      (s.mem.fills = [] → s.mem.atoms = [] → s.resets = [] → s.xl.inVault = [] → (∀ k, (coreOf s k).jobs = []) →
        (∀ e ∈ s.engs, e.2.table = []) → ∃ w, v = finish i x s false w ∧ Answered i x s w 0)) ∧
  (∀ i x form s, tlbiOf i = some (x, form) → Runs i x s → (curThr s).hold = none → Clean i x s → form ≠ 2 →
    1023 < src i x s 4 (lowLane s x) →
    exec i s = .next (takeFault s { code := 0x02, mask := maskOf [lowLane s x], info := 8 })) ∧
  (∀ i x form s c n o id t, tlbiOf i = some (x, form) → (thrOf s c n).hold = some o → o.instr = i → o.why = .tlbi id →
    (s.xl.tlbis.find? fun t => t.id = id) = some t → tlbiDone s t = true → Fits i x 1 →
    ∃ w, exec (.tlbiComplete c n) s = .next (finish i x (resumed s c n o) false w) ∧
      Answered i x (resumed s c n o) w (if t.reset then 0x19 else 0)) ∧
  (∀ id s w big leaf p, (s.xl.walks.find? fun w => w.id = id) = some w → w.due ≤ s.time → (walksRunning s).contains w = true →
    w.res = some (big, leaf) → (if w.die < 4 then partOfDie s w.die else partOfMdie s (w.die - 4)) = some p → leafOk s p big leaf (w.page * 65536) = true →
    let e : TlbEnt := { asid := w.asid, vpn := if big then w.page / 8192 else w.page, big := big, leaf := leaf, via := w.via }
    ∃ t, exec (.pageWalkComplete id) s = .next t ∧ e ∈ mgetD t.xl.dtlb w.die [] ∧
      (∀ c ∈ w.cores, c < 336 → e ∈ (coreOf t c).tlb) ∧ (∀ v ∈ t.xl.walks, v.id ≠ id) ∧ t.mem = s.mem) ∧
  (∀ page s, (s.xl.moves.any fun v => v.page = page) = false → mhas s.xl.inVault page = true →
    ∃ t, exec (.pageMoveStart page) s = .next t ∧ t.xl.moves = s.xl.moves ++ [{ page := page, dst := none, t := nowNs s }] ∧
      t.mem.bytes = s.mem.bytes ∧ ∀ r ∈ t.mem.resvs, ¬ (0 < r.place ∧ r.gran / 1024 = page)) ∧
  (∀ page s v, (s.xl.moves.find? fun v => v.page = page) = some v → keysRise 0 s.xl.inVault = true → s.xl.tpcfgNext = none →
    ∃ t, exec (.pageMoveComplete page) s = .next t ∧ t.mem.bytes = s.mem.bytes ∧ (∀ w ∈ t.xl.moves, w.page ≠ page) ∧
      (∀ r ∈ t.mem.resvs, ¬ (0 < r.place ∧ r.gran / 1024 = page)) ∧ mget t.xl.inVault page = v.dst)

/-- PARK or CKPT of another logical core, with a good operand: c is that core. -/
def Sys2Proof.Claim.Other (i : Instr) (x : Form) (s : State) (c : Nat) : Prop :=
  Runs i x s ∧ Clean i x s ∧ Fits i x 1 ∧ physOf s (grpOf s s.cur.core).part (src i x s 3 (lowLane s x)) = some c ∧ c ≠ s.cur.core

/-- The instruction completes with a 32-bit status. -/
def Sys2Proof.Claim.Status (i : Instr) (x : Form) (s : State) (v : Nat) : Prop :=
  ∃ t, exec i s = .next t ∧ CompletesLate i x 1 s t fun _ => { w := [BitVec.ofNat 32 v] }

/-- The thread holds this instruction, which has started something: its aim. -/
def Sys2Proof.Claim.Aims (i : Instr) (s t : State) (aim : Nat) : Prop :=
  ∃ o, (curThr t).hold = some o ∧ o.instr = i ∧ o.mask = s.cur.mask ∧ o.pc = s.cur.pc ∧ o.aim = aim

/-- R361 to R363: PARK.query answers 0 to 3 by the state of the group. PARK.halt of a core without a group answers 0, of a
running group starts its halt and holds the thread, and then answers 1; of a group that was parked before it answers 2. PARK.run
of a parked group whose loads can issue again lets it go on and answers 1, and answers 0 where there is none. CKPT of a parked group
starts a checkpoint and then answers 1, and answers 0 where there is none or it runs. RSTO places a saved group on a free core
and then answers 1; it answers 0 for a core that is none of the partition, not free or not fit, 2 for a bad header or a dead ASID, 3
where a lender is not free, and raises MISALIGNED for an area off 64 KiB; while stores to the area, or to the ASID's entry, are under way
it holds its thread. PARK and CKPT of a core that is none of the partition, or of their own, raise ILLEGAL_OPERAND.
Where the rules leave a reading open the model's is in the log, assumptions 14 (MASK), 53, 56. -/
def Obligations.GroupsAreParkedSavedAndRestored : Prop :=
  (∀ x s c, Other (.parkQuery x) x s c → Status (.parkQuery x) x s (parkState s c)) ∧
  (∀ s c g, (coreOf s c).group = some g → parkState s c = match g.st with
    | .running => 1
    | .ended => 1
    | .parked _ => 2
    | .restoring true _ => 2
    | .restoring false _ => 1
    | .halting _ _ _ => 3
    | .failing _ => 3
    | .saving => 3) ∧ (∀ s c, (coreOf s c).group = none → parkState s c = 0) ∧
  (∀ x s c, Other (.parkHalt x) x s c → (curThr s).hold = none →
    ((coreOf s c).group = none → Status (.parkHalt x) x s 0) ∧
    (∀ g, (coreOf s c).group = some g → g.st = .running → ∃ t, exec (.parkHalt x) s = .next t ∧ Aims (.parkHalt x) s t 1 ∧
      (grpOf t c).st = .halting (nowNs s) true false) ∧
    (∀ g b, (coreOf s c).group = some g → g.st = .parked b → Status (.parkHalt x) x s 2)) ∧
  (∀ x s c g b, Other (.parkHalt x) x s c → Aims (.parkHalt x) s s 1 → (coreOf s c).group = some g → g.st = .parked b →
    Status (.parkHalt x) x s 1) ∧
  (∀ x s c, Other (.parkRun x) x s c → (curThr s).hold = none →
    ((coreOf s c).group = none ∨ (grpOf s c).st = .running → Status (.parkRun x) x s 0) ∧
    (∀ g b, (coreOf s c).group = some g → g.st = .parked b → g.ck = none → wattleLive s c feIdx = true →
      replayWaits s c = false → ∃ w, exec (.parkRun x) s = .next (finish (.parkRun x) x s false w) ∧ Answered (.parkRun x) x s w 1 ∧
        (grpOf w c).st = .running ∧ (grpOf w c).replay = [] ∧ ∀ j ∈ (coreOf w c).jobs, j.paused = false)) ∧
  (∀ x s c, Other (.ckpt x) x s c → (curThr s).hold = none →
    ((coreOf s c).group = none ∨ (grpOf s c).st = .running → Status (.ckpt x) x s 0) ∧
    (∀ g b, (coreOf s c).group = some g → g.st = .parked b → g.ck = none → ∃ t, exec (.ckpt x) s = .next t ∧
      Aims (.ckpt x) s t 1 ∧ (grpOf t c).ck.isSome = true ∧
      ∃ n, mget t.xl.ckLast (areaKey g) = some n ∧ mhas t.xl.ckImages n = true)) ∧
  (∀ x s c, Other (.ckpt x) x s c → Aims (.ckpt x) s s 1 → (grpOf s c).ck = none → Status (.ckpt x) x s 1) ∧
  (∀ i x s, i = .parkQuery x ∨ i = .parkHalt x ∨ i = .parkRun x ∨ i = .ckpt x → Runs i x s → Clean i x s → (curThr s).hold = none →
    (∀ c, physOf s (grpOf s s.cur.core).part (src i x s 3 (lowLane s x)) = some c → c = s.cur.core) →
    exec i s = .next (takeFault s { code := 0x02, mask := maskOf [lowLane s x], info := 8 })) ∧
  (∀ x s, Runs (.rsto x) x s → Clean (.rsto x) x s → Fits (.rsto x) x 1 →
    let part := (grpOf s s.cur.core).part
    let area := src (.rsto x) x s 3 (lowLane s x)
    let h := (homeBytes s area 64).map (·.1)
    (area % 65536 = 0 → (curThr s).hold = none → (areaBusy s area (areaBytes 3) = true ∨ asidWaits s (leAt h 4 4) = true) →
      ∃ t, exec (.rsto x) s = .next t ∧ Aims (.rsto x) s t 0 ∧ (curThr t).lanes = (curThr s).lanes ∧ t.mem = s.mem) ∧
    (physOf s part (src (.rsto x) x s 4 (lowLane s x)) = none → area % 65536 = 0 → (curThr s).hold = none →
      areaBusy s area (areaBytes 3) = false → asidWaits s (leAt h 4 4) = false → Status (.rsto x) x s 0) ∧
    (∀ c, physOf s part (src (.rsto x) x s 4 (lowLane s x)) = some c → area % 65536 = 0 → (curThr s).hold = none →
      areaBusy s area (areaBytes 3) = false → asidWaits s (leAt h 4 4) = false →
      (coreFree s c = false → Status (.rsto x) x s 0) ∧
      (coreFree s c = true → headerOk h = false ∨ asidLive s part (leAt h 4 4) = false → Status (.rsto x) x s 2) ∧
      (coreFree s c = true → headerOk h = true → asidLive s part (leAt h 4 4) = true →
        (corePresent s part c = false ∨ atLimit s 0x10 c = true ∨ classSeat s c (leAt h 0x0C 1) = false → Status (.rsto x) x s 0) ∧
        (corePresent s part c = true → atLimit s 0x10 c = false → classSeat s c (leAt h 0x0C 1) = true →
          ((∃ l ∈ lendersFor s c (leAt h 0x0C 1), coreFree s l = false) → Status (.rsto x) x s 3) ∧
          ((∀ l ∈ lendersFor s c (leAt h 0x0C 1), coreFree s l = true) → c ≠ s.cur.core →
            ∃ t, exec (.rsto x) s = .next t ∧ Aims (.rsto x) s t (1 + c) ∧
              (grpOf t c).st = .restoring (decide (x.m 0 1 = 1)) false ∧ (grpOf t c).ckbase = BitVec.ofNat 64 area ∧
              (grpOf t c).area = true)))) ∧
    (∀ c, Aims (.rsto x) s s (1 + c) → (grpOf s c).isRestoring = false → Status (.rsto x) x s 1) ∧
    ((curThr s).hold = none → area % 65536 ≠ 0 →
      exec (.rsto x) s = .next (takeFault s { code := 0x04, mask := maskOf [lowLane s x], addr := area })))

/-- R410 to R412, R66: PREEMPT_REQUEST stops a running group. PREEMPT_HALT halts it once its drain steps are done: it is parked, or its
checkpoint is begun. When the stores of the checkpoint are past Tw its header is written, and then a pre-empted group leaves its
core and waits to be dealt again; each waits while a store to the header is under way. GROUP_RESTORE, once the area's stores are
applied, brings tags and ports back and issues the replay list again, or keeps it for a
group that stays parked, and REGISTER_RESTORE_BACKGROUND brings a register of a lane from section 3.
Where the rules leave a reading open the model's is in the log, assumptions 54, 55, 61, 91, 96. -/
def Obligations.PreemptionSavesAndRestores : Prop :=
  (∀ c s g, (coreOf s c).group = some g → g.st = .running →
    ∃ t, exec (.preemptRequest c) s = .next t ∧ (grpOf t c).st = .halting (nowNs s) false false ∧ t.mem.bytes = s.mem.bytes) ∧
  (∀ c s g n brk, (coreOf s c).group = some g → g.st = .halting n true brk → haltReady s c = true →
    ∃ t, exec (.preemptHalt c) s = .next t ∧ (grpOf t c).st = .parked brk ∧ (∀ f ∈ t.mem.fills, f.core ≠ c) ∧
      (grpOf t c).replay = g.replay ++ s.mem.fills.filter (fun f => f.core = c) ∧ (∀ r ∈ t.mem.resvs, r.core ≠ c) ∧
      (∀ j ∈ (coreOf t c).jobs, j.paused = true)) ∧
  (∀ c s g n brk, (coreOf s c).group = some g → g.st = .halting n false brk → haltReady s c = true →
    ∃ t, exec (.preemptHalt c) s = .next t ∧ (grpOf t c).st = .saving ∧ (∃ k, (grpOf t c).ck = some (k, false)) ∧
      ∃ k, mget t.xl.ckLast (areaKey g) = some k ∧ mhas t.xl.ckImages k = true) ∧
  (∀ c s g n, (coreOf s c).group = some g → g.ck = some (n, false) → agentDone s c n = true →
    (g.area = true → areaBusy s g.ckbase.toNat 64 = false) →
    ∃ t, exec (.checkpointWriteComplete c) s = .next t ∧ (∃ k, (grpOf t c).ck = some (k, true)) ∧ (grpOf t c).st = g.st ∧
      (g.area = true → g.ckbase.toNat % 64 = 0 → (∀ o, regionOf g.ckbase.toNat ≠ .reg o) →
        ∃ st ∈ t.mem.stores, st.pa = g.ckbase.toNat ∧ st.bytes = plain (ckHeader s c))) ∧
  (∀ c s g n r, (coreOf s c).group = some g → g.ck = some (n, true) → agentDone s c n = true → g.st = .saving → g.moving = false →
    (g.area = true → areaBusy s g.ckbase.toNat 64 = false) →
    mget s.disp.grids g.grid = some r →
    ∃ t r', exec (.checkpointWriteComplete c) s = .next t ∧ (coreOf t c).group = none ∧ mget t.disp.grids g.grid = some r' ∧
      (g.pos, areaKey g) ∈ r'.again) ∧
  (∀ c s g park halt, (coreOf s c).group = some g → g.st = .restoring park halt → replayWaits s c = false →
    (g.area = true → areaBusy s g.ckbase.toNat (areaBytes g.lenders.length) = false) →
    let m := savedImage s (areaKey g)
    (park = true ∨ halt = true ∨ wattleLive (restoreFrom s c m) c feIdx = true) →
    ∃ t, exec (.groupRestore c) s = .next t ∧ (coreOf t c).tags = m.core.tags ∧ (coreOf t c).ports = m.core.ports ∧
      (park = true ∨ halt = true → (grpOf t c).st = .parked (g.parkedBy.getD false) ∧ (grpOf t c).replay = g.replay ∧ t.mem.fills = s.mem.fills) ∧
      (park = false → halt = false → (grpOf t c).st = .running ∧ (grpOf t c).replay = [] ∧
        t.mem.fills.length = s.mem.fills.length + (g.replay.filter Fill.isLoad).length)) ∧
  (∀ c n reg s g l r, (coreOf s c).group = some g → g.area = true → g.isRestoring = false → reg < 256 → l < 32 →
    areaBusy s (g.ckbase.toNat + secOff 0 3) 524544 = false →
    mget (thrOf s c n).regs (l * 256 + reg) = some r → r.absent = true →
    ∃ t, exec (.registerRestoreBackground c n reg) s = .next t ∧ regOf (thrOf t c n) l reg = { r with
        cur := { r.cur with v := BitVec.ofNat 32 (leNat ((List.range 4).map fun i =>
          homeByte s (g.ckbase.toNat + secOff g.lenders.length 3 + regSlot n l reg + i))) }
        absent := false } ∧ t.mem = s.mem)

/-! ## Events of memory, banks and threads -/

/-- R128 to R130, R153, R393, R394: a store is accepted with Tw the latest of now, the end of the leases and the Tw before it;
applied, it writes its bytes and no others; after Tw its writer learns of it. Leases end, buffered lines are written back after
1 us or when evicted, and the host writes at the home and reads there once no accepted store, reset or bank keeps it waiting.
Where the rules leave a reading open the model's is in the log, assumptions 21, 64. -/
def Obligations.StoresReachTheirHomes : Prop :=
  (∀ id s o, storeOf s id = some o → o.atHome s = true → acceptable s o = true →
    let tw := max (nowNs s) (max (mgetD s.mem.leaseEnd (o.pa / 64) 0) (mgetD s.mem.lastTw (o.pa / 64) 0))
    ∃ t o', exec (.storeAccept id) s = .next t ∧ storeOf t id = some o' ∧ o'.st = .accepted tw ∧ o'.bytes = o.bytes ∧ o'.pa = o.pa ∧
      mgetD t.mem.lastTw (o.pa / 64) 0 = tw ∧ t.mem.bytes = s.mem.bytes) ∧
  (∀ id s o tw, storeOf s id = some o → o.st = .accepted tw → applicable s o = true → Memory.wf s.mem.bytes = true →
    (∀ k, regionOf o.pa ≠ .reg k) →
    ∃ t o', exec (.storeApply id) s = .next t ∧ storeOf t id = some o' ∧ o'.st = .applied tw ∧
      (∀ a, bget t.mem.bytes a = if o.pa ≤ a ∧ a < o.pa + o.bytes.length then (o.bytes.getD (a - o.pa) (0, false)).1
        else bget s.mem.bytes a)) ∧
  (∀ id s o tw, storeOf s id = some o → o.st = .applied tw → tw ≤ nowNs s →
    ∃ t, exec (.storeAck id) s = .next t ∧ storeOf t id = none ∧ t.mem.bytes = s.mem.bytes ∧ t.thrs = s.thrs) ∧
  (∀ die line s, (∃ c ∈ s.mem.copies, c.die = die ∧ c.line = line ∧ c.until' ≤ nowNs s + 8) →
    ∃ t, exec (.leaseExpire die line) s = .next t ∧ (∀ c ∈ t.mem.copies, ¬ (c.die = die ∧ c.line = line)) ∧ t.mem.bytes = s.mem.bytes) ∧
  (∀ die s, ∃ t, exec (.writebackAge die) s = .next t ∧ t.mem.bytes = s.mem.bytes ∧
    ∀ st ∈ t.mem.stores, st.die = die → st.st = .buffered → nowNs s < st.t + 1000) ∧
  (∀ die line s, ∃ t, exec (.lineEvict die line) s = .next t ∧ t.mem.bytes = s.mem.bytes ∧
    (∀ c ∈ t.mem.copies, ¬ (c.die = die ∧ c.line = line)) ∧
    ∀ st ∈ t.mem.stores, st.die = die → st.pa / 64 = line → st.st ≠ .buffered) ∧
  (∀ pa bytes s, hostWritable s pa = true → hostWritable s (pa + (bytes.length - 1)) = true →
    (∀ a o, pa ≤ a → a < pa + bytes.length → regionOf a ≠ .reg o) →
    ∃ t, exec (.hostMemWrite pa bytes) s = .next t ∧ t.mem.bytes = s.mem.bytes ∧
      ∀ a, pa ≤ a → a < pa + bytes.length → ∃ st ∈ t.mem.stores, st.pa ≤ a ∧ a < st.pa + st.bytes.length ∧
        st.bytes.getD (a - st.pa) (0, true) = (bytes.getD (a - pa) 0, false) ∧ st.by' = .host) ∧
  (∀ pa bytes s, hostWritable s pa = false → exec (.hostMemWrite pa bytes) s = .next s) ∧
  (∀ pa len s, s.link.hostWait = [] →
    let r := touchRange s hostReq 4 pa len false
    ((∃ k < len, lineStalls s ((pa + k) / 64) = true) → ∃ t, exec (.hostMemRead pa len) s = .next t ∧ t.mem = s.mem ∧
      t.link.hostWait = [{ pa := pa, n := len }] ∧ t.link.hostRead = s.link.hostRead) ∧
    ((∀ k < len, lineStalls s ((pa + k) / 64) = false) → ∃ t, exec (.hostMemRead pa len) s = .next t ∧ t.mem.bytes = s.mem.bytes ∧
      t.mem.stores = s.mem.stores ∧
      (waiting r.1 r.2 = false → t.link.hostWait = [] ∧ ∃ p, t.link.hostRead =
        ((List.range len).map (fun k => if hostWritable s (pa + k) then viewByte s 4 nobody (pa + k) else 0), p) :: s.link.hostRead) ∧
      (waiting r.1 r.2 = true → t.link.hostWait = [{ pa := pa, n := len, waits := some r.2 }] ∧ t.link.hostRead = s.link.hostRead)))

/-- R146, R151, R313, R316, R402: an atomic outside reduction cells reaches its bank first; once it is served there and its hearth can
perform it, it returns the home's value and writes the new one, a conditional store with its reservation returns 0 and stores, one
whose reservation is gone returns 1 and stores nothing. A child's sum is added to the cell of its tree, unless the cell is done or
there is no such tree, and waits for an accepted store of the cell. -/
def Obligations.HearthsPerformAtomics : Prop :=
  (∀ id s o, (s.mem.atoms.find? fun o => o.id = id) = some o → atomReady s o = true → o.touched = false →
    let r := touchHome (countHeat s o.acc.attr o.acc.pa) o.core o.acc.pa o.acc.attr.nhc true
    r.2 ≠ [] → ∃ t, exec (.hearthAtomic id) s = .next t ∧ t.mem.bytes = s.mem.bytes ∧ t.mem.stores = s.mem.stores ∧
      (t.mem.atoms.find? fun o => o.id = id) = some { o with waits := r.2, touched := true }) ∧
  (∀ id s o, (s.mem.atoms.find? fun o => o.id = id) = some o → atomReady s o = true → o.touched = true → o.acc.attr.rcell = false →
    (o.ret = false → o.sc = none → ∃ t, exec (.hearthAtomic id) s = .next t ∧ (∀ a ∈ t.mem.atoms, a.id ≠ id) ∧
      t.mem.bytes = s.mem.bytes ∧ ∃ st ∈ t.mem.stores, st.pa = o.acc.pa ∧ st.bytes.map (·.1) =
        natLe o.acc.size (rmwNew o.rmw (BitVec.ofNat 64 (leNat (viewBytes s 4 nobody o.acc.pa o.acc.size).1))).toNat) ∧
    (o.ret = true → o.sc = none → ∃ t o', exec (.hearthAtomic id) s = .next t ∧ (t.mem.atoms.find? fun o => o.id = id) = some o' ∧
      o'.old = some (natWords (o.acc.size / 4) (leNat (viewBytes s 4 nobody o.acc.pa o.acc.size).1 % 2 ^ 64),
        (viewBytes s 4 nobody o.acc.pa o.acc.size).2 || o.rmw.poison) ∧ o'.tw.isSome = true ∧ t.mem.bytes = s.mem.bytes ∧
      ∃ st ∈ t.mem.stores, st.pa = o.acc.pa ∧ st.bytes.map (·.1) =
        natLe o.acc.size (rmwNew o.rmw (BitVec.ofNat 64 (leNat (viewBytes s 4 nobody o.acc.pa o.acc.size).1))).toNat) ∧
    (∀ new, o.ret = true → o.sc = some new → resvIntact s o.core o.thr o.acc.lane o.acc.loc 2 = true → ∃ t o', exec (.hearthAtomic id) s = .next t ∧
      (t.mem.atoms.find? fun o => o.id = id) = some o' ∧ o'.old = some ([0], o.rmw.poison) ∧
      (∀ r ∈ t.mem.resvs, ¬ (r.core = o.core ∧ r.thr = o.thr ∧ r.lane = o.acc.lane)) ∧
      ∃ st ∈ t.mem.stores, st.pa = o.acc.pa ∧ st.bytes.map (·.1) = new) ∧
    (∀ new, o.ret = true → o.sc = some new → resvIntact s o.core o.thr o.acc.lane o.acc.loc 2 = false → ∃ t o', exec (.hearthAtomic id) s = .next t ∧
      (t.mem.atoms.find? fun o => o.id = id) = some o' ∧ o'.old = some ([1], o.rmw.poison) ∧ t.mem.stores = s.mem.stores)) ∧
  (∀ tree off sum status s, s.mem.partials = [] →
    ((s.link.trees.find? fun (_, t) => t.lo.getLsbD 0 && nbits t.lo.toNat 24 8 = tree) = none →
      ∃ t, exec (.rcellPartialArrive tree off sum status) s = .next t ∧
        mgetD t.mem.rcellLate 0 0 = mgetD s.mem.rcellLate 0 0 + 1 ∧ t.mem.stores = s.mem.stores) ∧
    (∀ k e, (s.link.trees.find? fun (_, t) => t.lo.getLsbD 0 && nbits t.lo.toNat 24 8 = tree) = some (k, e) →
      let pa := e.base.toNat + off % 65536 / 64 * 64
      let v := leNat (viewBytes s 4 nobody pa 64).1
      ∃ t, exec (.rcellPartialArrive tree off sum status) s = .next t ∧
        (lineBusy s (pa / 64) = true → t.mem.partials = [(tree, off, sum, status)] ∧ t.mem.stores = s.mem.stores) ∧
        (lineBusy s (pa / 64) = false → t.mem.partials = []) ∧
        (lineBusy s (pa / 64) = false → v.testBit 395 = true → t.mem.stores = s.mem.stores ∧ t.mem.bytes = s.mem.bytes) ∧
        (lineBusy s (pa / 64) = false → v.testBit 395 = false → (∀ o, regionOf pa ≠ .reg o) → ∃ st ∈ t.mem.stores, st.pa = pa ∧
          leNat (st.bytes.map (·.1)) % 2 ^ 384 = (v + sum.toNat) % 2 ^ 384 ∧
          nbits (leNat (st.bytes.map (·.1))) 416 32 = min (nbits v 416 32 + 1) (2 ^ 32 - 1))))

/-- R105, R106, R379 to R383, R450: vault banks sleep after their idle time, wake and serve what they held, and take a NACKed
access again. The first request of an HBM4E bank is served when its row is open, else the row is activated and counted, unless
that reaches the threshold: then the bank alerts, at once, and is blocked for 350 ns behind a refresh under way, at whose end the
row is open and its counter 0, or 1 in a new window.
A refresh closes the row for 410 ns, behind a scrub under way, and is owed while the bank is blocked or alerts; a scrub, which waits
for both, takes at most 60 ns, and an uncorrectable word that it finds is poisoned; every window begins with empty counters.
Where the rules leave a reading open the model's is in the log, assumptions 64, 65. -/
def Obligations.BanksSleepWakeAlertAndRefresh : Prop :=
  (∀ b s, (vbankOf s b).asleep = false → (vbankOf s b).wakeAt = none → (vbankOf s b).idle ≠ 0 →
    (vbankOf s b).last + (vbankOf s b).idle ≤ nowNs s →
    ∃ t, exec (.vaultBankSleep b) s = .next t ∧ (vbankOf t b).asleep = true ∧ t.mem = s.mem) ∧
  (∀ b s n, (vbankOf s b).wakeAt = some n → n ≤ nowNs s → ∃ t, exec (.vaultBankWake b) s = .next t ∧ (vbankOf t b).wakeAt = none ∧
    (∀ r ∈ t.mem.reqs, ¬ (r.vault = true ∧ r.bank = b ∧ r.held = true)) ∧ t.mem.bytes = s.mem.bytes) ∧
  (∀ id s r n, (s.mem.reqs.find? fun r => r.id = id) = some r → r.replay = some n → n ≤ nowNs s →
    ((vbankOf s r.bank).asleep = false → (vbankOf s r.bank).wakeAt = none →
      ∃ t, exec (.vaultReplay id) s = .next t ∧ ∀ q ∈ t.mem.reqs, q.id ≠ id) ∧
    ((vbankOf s r.bank).asleep = true → heldAt s r.die < 16 → ∃ t, exec (.vaultReplay id) s = .next t ∧
      (vbankOf t r.bank).wakeAt = some (nowNs s + 120) ∧ ∃ q ∈ t.mem.reqs, q.id = id ∧ q.held = true)) ∧
  (∀ die bank s r rs, mgetD s.hbm.win die 0 = windowNo s → bankReqs s die bank = r :: rs → (bankOf s die bank).blockedTo = none →
    let b := bankOf s die bank
    let n := mgetD b.cnt r.row 0 + 1
    let thr := mgetD s.hbm.thr die 1024
    ∃ t, exec (.hbmBankAccess die bank) s = .next t ∧ t.mem.bytes = s.mem.bytes ∧
      (b.refreshTo ≤ nowNs s → b.alerted ≠ some r.id → b.openRow = some r.row →
        bankOf t die bank = b ∧ ∀ q ∈ t.mem.reqs, q.id ≠ r.id) ∧
      (b.refreshTo ≤ nowNs s → b.alerted ≠ some r.id → b.openRow ≠ some r.row → (thr = 0 ∨ n < thr) → (bankOf t die bank).openRow = some r.row ∧
        mgetD (bankOf t die bank).cnt r.row 0 = min 65535 n ∧ ∀ q ∈ t.mem.reqs, q.id ≠ r.id) ∧
      (b.alerted ≠ some r.id → b.openRow ≠ some r.row → thr ≠ 0 → thr ≤ n →
        (bankOf t die bank).alerts = min (b.alerts + 1) (2 ^ 32 - 1) ∧ (bankOf t die bank).lastRow = r.row ∧ t.mem.reqs = s.mem.reqs ∧
        (nowNs s < b.refreshTo → (bankOf t die bank).blockedTo = none ∧ (bankOf t die bank).alerted = some r.id)) ∧
      (b.refreshTo ≤ nowNs s → b.alerted = some r.id → (bankOf t die bank).alerts = b.alerts) ∧
      (b.refreshTo ≤ nowNs s → b.alerted = some r.id ∨ (b.openRow ≠ some r.row ∧ thr ≠ 0 ∧ thr ≤ n) →
        (bankOf t die bank).openRow = none ∧ (bankOf t die bank).blockedTo = some (nowNs s + 350) ∧ t.mem.reqs = s.mem.reqs)) ∧
  (∀ die bank s r rs e, mgetD s.hbm.win die 0 = windowNo s → bankReqs s die bank = r :: rs →
    (bankOf s die bank).blockedTo = some e → e ≤ nowNs s → keysRise 0 (bankOf s die bank).cnt = true →
    ∃ t, exec (.rfmBlockEnd die bank) s = .next t ∧ (bankOf t die bank).blockedTo = none ∧ (bankOf t die bank).openRow = some r.row ∧
      mgetD (bankOf t die bank).cnt r.row 0 = (if (bankOf s die bank).lastWin = windowNo s % 2 ^ 32 then 0 else 1) ∧
      (bankOf t die bank).backoff = ((bankOf s die bank).backoff + ((r :: rs).map fun q => e - max q.t (e - 350)).sum) % 2 ^ 64 ∧
      ∀ q ∈ t.mem.reqs, q.id ≠ r.id) ∧
  (∀ die bank s, let b := bankOf s die bank
    let free := b.blockedTo = none ∧ b.alerted = none
    (free → ∃ t, exec (.hbmRefresh die bank) s = .next t ∧ t.mem = s.mem ∧
      bankOf t die bank = { b with openRow := none, refreshTo := max (nowNs s) b.refreshTo + 410, refreshOwed := false }) ∧
    (¬ free → ∃ t, exec (.hbmRefresh die bank) s = .next t ∧ t.mem = s.mem ∧ bankOf t die bank = { b with refreshOwed := true }) ∧
    (free → b.refreshTo ≤ nowNs s → ∃ t n, exec (.patrolScrub die bank) s = .next t ∧ n ≤ 60 ∧
        t.mem.bytes = s.mem.bytes ∧ bankOf t die bank = { b with refreshTo := nowNs s + n, scrubFinds := none } ∧
        ((∀ pa, b.scrubFinds ≠ some (pa, true)) → t.mem = s.mem) ∧
        (∀ pa, b.scrubFinds = some (pa, true) → (∃ row, hbmPlace s pa = some (die, bank, row)) → mget s.mem.hcache (pa / 64) ≠ some false →
          ∀ k < 8, mhas t.mem.poison (pa / 32 * 8 + k) = true)) ∧
      (¬ free ∨ nowNs s < b.refreshTo → exec (.patrolScrub die bank) s = .next s)) ∧
  (∀ s, ∃ t, exec .activationWindowStart s = .next t ∧ t.mem = s.mem ∧ ∀ die < 8, mgetD t.hbm.win die 0 = windowNo s ∧
    (mgetD s.hbm.win die 0 ≠ windowNo s → mgetD t.hbm.thr die 1024 = policy s 0x15 ∧ ∀ b < 1024, (bankOf t die b).cnt = []))

/-- R21, R25, R27, R31, R33, R36, R54, R231: a fairness switch issues the highest set, in this cycle or, where the two sets cannot issue
together, in the next, and starts the counter anew; a serial rotation passes issue to the next lane; a vacated place takes the wattle that is ready longest; a basket whose proofing time has come becomes
a wattle at its entry with the threads' registers; the REGACQ that waits first gets its blocks; a stall of 4 us on the footprint
table traps.
Where the rules leave a reading open the model's is in the log, assumptions 12, 14 (MASK), 61, 77. -/
def Obligations.ThreadsAreScheduled : Prop :=
  (∀ c w s ph, canIssue s c w = true → fairDue (thrOf s c w) = true →
    maxPc ((voters (meetRelease (thrOf s c w))).map fun l => (laneOf (meetRelease (thrOf s c w)) l).pc) = some ph →
    ∃ t m, exec (.fairnessSwitch c w) s = .next t ∧ (thrOf t c w).fairsw = (thrOf s c w).fairsw + 1 ∧
      (∀ l < 32, m.getLsbD l = true ↔ l ∈ voters (meetRelease (thrOf s c w)) ∧ (laneOf (meetRelease (thrOf s c w)) l).pc = ph) ∧
      (((thrOf t c w).second = some (m, ph) ∧ (thrOf t c w).starve = 1) ∨
        ((thrOf t c w).starve = 0 ∧ ∃ d, Act.set c w m ph d false ∈ t.agenda))) ∧
  (∀ c w s, canIssue s c w = true → rotateDue (thrOf s c w) = true →
    let l := nextLane ((unstopped (thrOf s c w)).filter fun l => !(laneOf (thrOf s c w) l).arrived.isSome) (thrOf s c w).running
    ∃ t, exec (.serialRotate c w) s = .next t ∧ (thrOf t c w).running = l ∧ (thrOf t c w).starve = 1 ∧
      t.agenda = .set c w (1#32 <<< l) (laneOf (thrOf s c w) l).pc none false :: s.agenda) ∧
  (∀ c s k w, (coreOf s c).group.isSome = true → freePlace (noteReady s c) c = some k → longestReady (noteReady s c) c = some w →
    ∃ t, exec (.activeSetFill c) s = .next t ∧ (thrOf t c w).slot = some k ∧ (thrOf t c w).lastIssue = none ∧ t.mem = s.mem) ∧
  (∀ c b s g bk, (coreOf s c).group = some g → mget g.baskets b = some bk → (coreOf s c).proof.toNat ≤ bk.elapsed → g.st = .running →
    keysRise 0 g.baskets = true → bk.threads.length ≤ 32 → (∀ th ∈ bk.threads, th.length ≤ 8) →
    let w := freeWattle g
    ∃ t, exec (.basketProofLaunch c b) s = .next t ∧ w ∈ (grpOf t c).resident ∧ mget (grpOf t c).baskets b = none ∧
      (∀ l < 32, (laneOf (thrOf t c w) l).pc = bk.key ∧ (laneOf (thrOf t c w) l).live = decide (l < bk.threads.length)) ∧
      (∀ l k th v, bk.threads[l]? = some th → th[k]? = some v → (regOf (thrOf t c w) l k).cur = { v := v.1, poison := v.2 }) ∧
      t.mem = s.mem) ∧
  (∀ c s w m rest x o s', (grpOf s c).st = .running → (grpOf s c).regq = (w, m) :: rest → grantBlocks s c w m = some s' →
    (∀ e ∈ rest, e.1 ≠ w) → (coreOf s c).group.isSome = true → (thrOf s c w).hold = some o → o.instr = .regacq x →
    ∃ t, exec (.regacqGrant c) s = .next t ∧ (thrOf t c w).blocks = (thrOf s c w).blocks ||| m ∧ (thrOf t c w).hold = none ∧
      (∀ e ∈ (grpOf t c).regq, e.1 ≠ w) ∧ t.mem.bytes = s.mem.bytes) ∧
  (∀ c n s o x, (thrOf s c n).hold = some o → o.why = .footprint → o.instr.form = some x → o.t0 + 4000 ≤ nowNs s →
    exec (.footprintFull c n) s = .next (enterTrap (resumed s c n o)
      { code := 0x16, mask := maskOf [lowLane (resumed s c n o) x] }))

/-! ## Dispatcher, heat, links, resets, firmware -/

/-- The 32 bytes of a completion record are posted at COMPL (R398). -/
def Sys2Proof.Claim.Recorded (t : State) (pa status badoff faulted tag start now : Nat) : Prop :=
  ∃ st ∈ t.mem.stores, st.pa = pa ∧ st.bytes.length = 32 ∧ (∀ b ∈ st.bytes, b.2 = false) ∧
    let r := st.bytes.map (·.1)
    leAt r 0x00 1 = status ∧ leAt r 0x01 1 = 0 ∧ leAt r 0x02 2 = badoff % 2 ^ 16 ∧ leAt r 0x04 4 = faulted % 2 ^ 32 ∧
    leAt r 0x08 8 = tag % 2 ^ 64 ∧ leAt r 0x10 8 = start % 2 ^ 64 ∧ leAt r 0x18 8 = now % 2 ^ 64

/-- R39, R45, R49, R50, R60, R67, R395, R396, R398: doorbells enter packets or report why not, behind the host writes before them; control
words change only EN while it is set; QCANCEL empties the queue and withdraws its head; a head is refused with its record, or is
ready, grows older, is selected, and a group of a grid that alone deals goes to the place that R59 and R60 give, also when all
is hot; an ended grid leaves its completion record.
Where the rules leave a reading open the model's is in the log, assumptions 60, 62, 97, 98, 99. -/
def Obligations.QueuesAndGrids : Prop :=
  (∀ q n v s, let r := queueOf s q
    let b : Bell := { queue := q, nbytes := n, v := v, mark := s.nextId }
    (s.disp.bells ≠ [] ∨ bellReady s b = false → ∃ t, exec (.doorbell q n v) s = .next t ∧ t.mem = s.mem ∧ t.cores = s.cores ∧
      queueOf t q = r ∧ t.disp.bells = s.disp.bells ++ [b]) ∧
    (s.disp.bells = [] → bellReady s b = true →
      ∃ t, exec (.doorbell q n v) s = .next t ∧ t.mem = s.mem ∧ t.cores = s.cores ∧ t.disp.bells = [] ∧ queueOf t q =
      let bad : Bool := decide (n ≠ 8 ∨ v.toNat % 64 ≠ 0 ∨ 2 ^ 52 ≤ v.toNat)
      let full : Bool := decide (r.ctl.getLsbD 32 = false ∨ 256 ≤ r.packets.length)
      if bad ∨ full then { r with baddb := r.baddb || bad, ovf := r.ovf || full }
      else { r with packets := r.packets ++ [{ va := v.toNat, mark := s.mem.wasN }] })) ∧
  (∀ q v s, let r := queueOf s q
    (∃ t, exec (.queueControlWrite q 0 v) s = .next t ∧ t.mem = s.mem ∧
      ∀ k < 64, (queueOf t q).ctl.getLsbD k = if k = 32 then v.getLsbD k else if r.ctl.getLsbD 32 then r.ctl.getLsbD k
        else v.getLsbD k && decide (k < 16 ∨ (33 ≤ k ∧ k < 48))) ∧
    ∃ t, exec (.queueControlWrite q 8 v) s = .next t ∧ t.mem = s.mem ∧ queueOf t q =
      { r with cwfail := r.cwfail && !v.getLsbD 18, baddb := r.baddb && !v.getLsbD 17, ovf := r.ovf && !v.getLsbD 16 }) ∧
  (∀ q v s, v.getLsbD 0 = true → ∃ t, exec (.qcancel q v) s = .next t ∧ (queueOf t q).packets = [] ∧ (queueOf t q).head = .fresh ∧
    ∀ n g, (queueOf s q).head = .waiting n ∨ (∃ a b, (queueOf s q).head = .ready n a b) ∨ (queueOf s q).head = .dealing n →
      mget s.disp.grids n = some g → ∃ g', mget t.disp.grids n = some g' ∧ g'.cancelled = true ∧ g'.nextPos = gridSize g ∧
        g'.live = g.live) ∧
  (∀ q s p ps, s.disp.bells = [] → s.disp.cancels = [] → (queueOf s q).packets = p :: ps → (queueOf s q).head = .fresh →
    (validate s q p.va = .unreadable → ∃ t, exec (.recordValidate q) s = .next t ∧ (queueOf t q).packets = ps ∧
      (queueOf t q).cwfail = true ∧ (queueOf t q).cwaddr = 0) ∧
    (∀ off b pois pa a, validate s q p.va = .bad off b true pois → (∀ o, regionOf pa ≠ .reg o) →
      queueXlate s (queueOf s q).part (queueOf s q).asid (queueOf s q).super .write (leAt b 0x40 8) = .ok (pa, a) →
      ∃ t, exec (.recordValidate q) s = .next t ∧ (queueOf t q).packets = ps ∧
        Recorded t pa 0x02 off 0 (leAt b 0x48 8) 0 (nowNs s)) ∧
    (∀ rc, validate s q p.va = .ok rc → complWaits s (queueOf s q).part (queueOf s q).asid (leAt rc.bytes 0x40 8) = false →
      (placeable s (queueOf s q).part (leAt rc.bytes 0x1F 1) ((leAt rc.bytes 0x28 1).testBit 0) = true → recFoots rc.bytes = [] →
        p.parent = none → ∃ t n g, exec (.recordValidate q) s = .next t ∧
          (queueOf t q).head = .ready n (nowNs s) (leAt rc.bytes 0x25 1) ∧ mget t.disp.grids n = some g ∧ g.rec' = rc ∧ g.queue = q) ∧
      (∀ pa a, placeable s (queueOf s q).part (leAt rc.bytes 0x1F 1) ((leAt rc.bytes 0x28 1).testBit 0) = false →
        queueXlate s (queueOf s q).part (queueOf s q).asid (queueOf s q).super .write (leAt rc.bytes 0x40 8) = .ok (pa, a) →
        (∀ o, regionOf pa ≠ .reg o) → ∃ t, exec (.recordValidate q) s = .next t ∧ (queueOf t q).packets = ps ∧
          Recorded t pa 0x03 0 0 (leAt rc.bytes 0x48 8) 0 (nowNs s)))) ∧
  (∀ q s n t0 cls, (queueOf s q).head = .ready n t0 cls → cls < 2 → t0 + 4000000 ≤ nowNs s →
    ∃ t, exec (.agePromote q) s = .next t ∧ (queueOf t q).head = .ready n (t0 + 4000000) (cls + 1) ∧ t.disp.grids = s.disp.grids) ∧
  (∀ s, (∀ g ∈ s.disp.grids, g.2.regain = none) → s.time % 8400 = 0 → s.disp.selected ≠ nowNs s → (dealing s).length < 8 →
    (∃ e ∈ s.disp.queues, ∃ n t0 cls, e.2.head = .ready n t0 cls) →
    let at' := fun n => ((mget s.disp.grids n).map (·.readyAt)).getD 0
    ∃ t q r n t0 cls, exec .dispatchSelect s = .next t ∧ (q, r) ∈ s.disp.queues ∧ r.head = .ready n t0 cls ∧
      (queueOf t q).head = .dealing n ∧ (∀ g, mget s.disp.grids n = some g → mget t.disp.grids n = some { g with dealing := true, cls := cls }) ∧
      ∀ q' r' n' t' cls', (q', r') ∈ s.disp.queues → r'.head = .ready n' t' cls' → cls' ≤ cls ∧ (cls' = cls → at' n ≤ at' n')) ∧
  (∀ s n g c, s.disp.grids = [(n, g)] → g.dealing = true → g.regain = none → g.again = [] → gridTeam g = false → undealt g = true →
    placeFor s g false = some c →
    ∃ t v, exec .deal s = .next t ∧ (coreOf t c).group = some v ∧ v.grid = n ∧ v.pos = g.nextPos ∧ t.mem.bytes = s.mem.bytes) ∧
  (∀ s p t0 n g c, s.fw.hotSince = [(p, t0)] → p < 4 → t0 + 2000000 ≤ nowNs s → s.disp.grids = [(n, g)] → g.dealing = true →
    g.part = p → gridPrio g ≠ 3 → g.again = [] → gridTeam g = false → undealt g = true → placeFor s g true = some c →
    ∃ t v, exec .thermalForcedDeal s = .next t ∧ (coreOf t c).group = some v ∧ v.grid = n ∧ v.pos = g.nextPos ∧
      mget t.fw.hotSince p = some (t0 + 2000000)) ∧
  (∀ s n g pa a, mget s.disp.grids n = some g → keysRise 0 s.disp.grids = true → (g.left || g.cancelled) = true → g.dealing = false →
    undealt g = false → g.live = 0 → g.btes = 0 → (∀ o, regionOf pa ≠ .reg o) →
    complWaits s g.part g.asid (leAt g.rec'.bytes 0x40 8) = false →
    queueXlate s g.part g.asid g.super .write (leAt g.rec'.bytes 0x40 8) = .ok (pa, a) →
    ∃ t, exec (.gridEnd n) s = .next t ∧ mget t.disp.grids n = none ∧
      Recorded t pa (if g.cancelled then 0x04 else if g.faulted = 0 then 0x00 else 0x01) 0 g.faulted (leAt g.rec'.bytes 0x48 8) g.start (nowNs s))

/-- R65, R66, R386 to R390, R433, R443, R444, R446: a sample, no sooner than 100 us after the last, puts the thresholds in force and sets
temperature and state of its columns; a group at the migration threshold
moves when it has a place, and that of a retired core in any case; groups of a quad at the hard limit for 1 ms are pre-empted; a boost boundary puts every quad on 600, 700 or
800 MHz, on 800 only if it claims, and on 800 if it claims and there are permits for all.
Where the rules leave a reading open the model's is in the log, assumptions 63, 107. -/
def Obligations.HeatAndBoost : Prop :=
  (∀ rs s, (rs.map (·.1)).Nodup → sampleDue s = true → ∃ t, exec (.sensorSample rs) s = .next t ∧ t.mem.bytes = s.mem.bytes ∧ t.fw.seq = (s.fw.seq + 1) % 2 ^ 32 ∧
    t.disp.dealDue = true ∧ ∀ c v, (c, v) ∈ rs → c < 336 → v < 65536 → (mgetD t.cols c {}).temp = v ∧ (mgetD t.cols c {}).tstate =
      (if 8 * policy s 0x12 ≤ v then 3 else if 8 * policy s 0x11 ≤ v then 2 else if 8 * policy s 0x10 ≤ v then 1 else 0)) ∧
  (∀ rs s, sampleDue s = false → exec (.sensorSample rs) s = .next s) ∧
  (∀ c s g, (coreOf s c).group = some g → g.st = .running → g.team = none → policyHeld s 0x18 = 1 → s.fw.alive = true →
    atLimit s 0x11 c = true → g.migrateAt ≤ nowNs s →
    ((logCores (without s c) g.part).any (eligibleCore (without s c) g.part g.heat) = true →
      ∃ t, exec (.migrateGroup c) s = .next t ∧ (grpOf t c).st = .halting (nowNs s) false false ∧ (grpOf t c).moving = true) ∧
    ((logCores (without s c) g.part).any (eligibleCore (without s c) g.part g.heat) = false → coreEnabled s c = true →
      ∃ t, exec (.migrateGroup c) s = .next t ∧ (grpOf t c).migrateAt = nowNs s + 1000000 ∧ (grpOf t c).st = .running)) ∧
  (∀ c s g, (coreOf s c).group = some g → g.st = .running ∨ g.st = .ended → g.team = none → coreEnabled s c = false →
    ∃ t, exec (.migrateGroup c) s = .next t ∧ (grpOf t c).st = .halting (nowNs s) false false ∧ (grpOf t c).moving = true) ∧
  (∀ q s c t0, c ∈ coresOf q → (mgetD s.cols c {}).hotSince = some t0 → t0 + 1000000 ≤ nowNs s →
    ∃ t, exec (.hardLimitPreempt q) s = .next t ∧
      ∀ k ∈ coresOf q, canHalt s k = true → (grpOf t k).st = .halting (nowNs s) false false) ∧
  (∀ s, s.time % 336000 = 0 → ∃ t, exec .boostBoundary s = .next t ∧ t.mem = s.mem ∧ ∀ q < 84,
    let old := (mgetD s.qboost q {}).clock
    let new := (mgetD t.qboost q {}).clock
    (new = 6 ∨ new = 7 ∨ new = 8) ∧ (new = 8 → claims s q = true ∧ s.fw.alive = true) ∧
    (claims s q = false → new = if quadHot s 0x12 q then 6 else if old = 8 then 7 else 6) ∧
    (claims s q = true → s.fw.alive = true → nowNs s / 4000 % 8 ≠ 0 → 21 ≤ (mgetD s.dboost (q / 21) {}).pool → new = 8))

/-- R393, R394, R400, R401, R420, R425, R427, R429: ports train, come up, go down and reset; partition and transplant registers take
a word whose conditions hold and set their error bit otherwise; ATBASE changes only with ATEN clear; a host write of register space
does what the event of its register does; a host link reset leaves memory and the agenda's other items; a core table is rebuilt when
its partition is idle.
Where the rules leave a reading open the model's is in the log, assumptions 70, 74, 75. -/
def Obligations.LinksAndRegisters : Prop :=
  (∀ p v s, ∃ t, exec (.ualinkPortEnable p v) s = .next t ∧ t.mem = s.mem ∧
    let r := mgetD s.link.ports p {}
    mgetD t.link.ports p {} = if r.st = 5 then { r with en := v.getLsbD 0 }
      else if v.getLsbD 0 then (if r.en then r else { r with en := true, st := 1, lanes := 0 })
      else { r with en := false, st := 0, lanes := 0 }) ∧
  (∀ p s, (inReset s 3 p = false → inReset s 7 0 = false → ∃ t r, exec (.ualinkPortRst p) s = .next t ∧ (mgetD t.link.ports p {}).st = 5 ∧
      r ∈ t.resets ∧ r.kind = 3 ∧ r.unit = p ∧ nowNs s < r.t) ∧
    (inReset s 3 p = true → exec (.ualinkPortRst p) s = .next s)) ∧
  (∀ p lanes peer s, (mgetD s.link.ports p {}).en = true → (mgetD s.link.ports p {}).st = 1 → 1 ≤ lanes → lanes ≤ 4 → peer < 1024 →
    ∃ t, exec (.ualinkPortTrained p lanes peer) s = .next t ∧ mgetD t.link.ports p {} =
      { mgetD s.link.ports p {} with st := if lanes = 4 then 2 else 3, lanes := lanes, peer := peer }) ∧
  (∀ p s, ∃ t, exec (.ualinkPortDown p) s = .next t ∧ mgetD t.link.ports p {} = { mgetD s.link.ports p {} with
    st := 4, lanes := 0, errcnt := min ((mgetD s.link.ports p {}).errcnt + 1) 255 }) ∧
  (∀ l s, ∃ t, exec (.hostLinkReset l) s = .next t ∧ t.mem.bytes = s.mem.bytes ∧ t.cores = s.cores ∧ (∀ a ∈ t.agenda, a ∈ s.agenda) ∧
    ∀ a ∈ s.agenda, (∀ i, a ≠ .ev i) → a ∈ t.agenda) ∧
  (∀ v s, (∃ t, exec (.translationRegisterWrite 0x8000 v) s = .next t ∧ t.mem = s.mem ∧ ∀ k < 64, t.xl.at'.getLsbD k =
      if k = 0 then v.getLsbD 0 else if aten s then s.xl.at'.getLsbD k else v.getLsbD k && decide (16 ≤ k ∧ k < 49)) ∧
    ∃ t, exec (.translationRegisterWrite 0x8008 v) s = .next t ∧ t.xl.tperr = (s.xl.tperr && !v.getLsbD 1) ∧
      t.xl.pcerr = (s.xl.pcerr && !v.getLsbD 0)) ∧
  (∀ p v s, p < 4 → s.xl.parts.length = 4 → ∃ t, exec (.partWrite p v) s = .next t ∧ t.mem = s.mem ∧
    (partOk s p (v &&& 0x1FFF#64) = true → partWord t p = v &&& 0x1FFF#64 ∧ (partIdle s p = true → l2pOf t p = buildL2p t p) ∧
      ∀ k < 4, k ≠ p → partWord t k = partWord s k) ∧
    (partOk s p (v &&& 0x1FFF#64) = false → t.xl.parts = s.xl.parts ∧ t.xl.pcerr = true)) ∧
  (∀ v s, (288 < nbits v.toNat 23 9 + nbits v.toNat 14 9 → ∃ t, exec (.tpcfgWrite v) s = .next t ∧ t.xl.tpcfg = s.xl.tpcfg ∧
      t.xl.tperr = true) ∧
    (nbits v.toNat 23 9 + nbits v.toNat 14 9 ≤ 288 → ∃ t, exec (.tpcfgWrite v) s = .next t ∧ t.mem.bytes = s.mem.bytes ∧
      (aboveQuota s (nbits v.toNat 23 9) = [] → (∀ m ∈ s.xl.moves, ∀ d, m.dst = some d → 288 - nbits v.toNat 23 9 ≤ d % 288) →
        t.xl.tpcfg = v &&& 0xFFFFFFFFFFFFC001#64 ∧ t.xl.tpcfgNext = none) ∧
      (aboveQuota s (nbits v.toNat 23 9) ≠ [] → t.xl.tpcfg = s.xl.tpcfg ∧ t.xl.tpcfgNext = some (v &&& 0xFFFFFFFFFFFFC001#64) ∧
        ∀ p ∈ aboveQuota s (nbits v.toNat 23 9), ∃ m ∈ t.xl.moves, m.page = p))) ∧
  (∀ v s, inReset s 7 0 = false →
    (∀ q < 64, exec (.registerWrite (0x100000 + 4096 * q) v) s = exec (.doorbell q 8 v) s ∧
      exec (.registerWrite (0x10000 + 64 * q) v) s = exec (.queueControlWrite q 0 v) s ∧
      exec (.registerWrite (0x10000 + 64 * q + 8) v) s = exec (.queueControlWrite q 8 v) s ∧
      exec (.registerWrite (0x10000 + 64 * q + 16) v) s = exec (.qcancel q v) s) ∧
    (∀ off, off % 8 ≠ 0 →
      (∀ q < 64, off < 0x100000 + 4096 * q + 8 → 0x100000 + 4096 * q < off + 8 →
        exec (.registerWrite off v) s = exec (.doorbell q 0 v) s) ∧
      ((∀ q < 64, ¬ (off < 0x100000 + 4096 * q + 8 ∧ 0x100000 + 4096 * q < off + 8)) → exec (.registerWrite off v) s = .next s)) ∧
    exec (.registerWrite 0x18000 v) s = exec (.translationRegisterWrite 0x8000 v) s ∧
    exec (.registerWrite 0x18010 v) s = exec (.tpcfgWrite v) s ∧
    (∀ p < 4, exec (.registerWrite (0x18020 + 8 * p) v) s = exec (.partWrite p v) s) ∧
    exec (.registerWrite 0x11B1000 v) s = exec (.einjWrite v) s) ∧
  (∀ p s, partIdle s p = true → ∃ t, exec (.l2pRebuild p) s = .next t ∧ l2pOf t p = buildL2p s p ∧ logQuads t p = buildQuads s p ∧
    t.mem = s.mem)

/-- The mailbox resets with the kinds of R436. -/
def Sys2Proof.Claim.resetOf : Instr → Option (Nat × Nat)
  | .engineReset u => some (1, u)
  | .umagilLinkReset u => some (2, u)
  | .ualinkPortResetCmd u => some (3, u)
  | .computeDieReset u => some (4, u)
  | .memoryDieReset u => some (5, u)
  | .partitionReset u => some (6, u)
  | .packageReset => some (7, 0)
  | _ => none

/-- R431, R432, R435, R436, R441: a reset by mailbox of an existing unit is under way until its end, with its effects at once, unless a
wider one absorbs it; of no unit it answers 1; while a command runs it is discarded. At its end the command completes with 0. Power
loss leaves the stored image and the leaf counters only.
Where the rules leave a reading open the model's is in the log, assumptions 69, 70. -/
def Obligations.ResetsBeginAndEnd : Prop :=
  (∀ i kind unit s, resetOf i = some (kind, unit) →
    (mailFree s = false → exec i s = .next s) ∧
    (mailFree s = true → resetUnit s kind unit = none → ∃ t, exec i s = .next t ∧ t.fw.cmd = none ∧ t.fw.result = 1 ∧ t.cores = s.cores ∧
      t.mem = s.mem) ∧
    (∀ u, mailFree s = true → resetUnit s kind unit = some u →
      ((s.resets.any fun r => covers s r kind u) = true → ∃ t, exec i s = .next t ∧ t.resets.length = s.resets.length ∧ t.cores = s.cores ∧
        t.mem = s.mem) ∧
      ((s.resets.any fun r => covers s r kind u) = false → ∃ t, exec i s = .next t ∧
        (∃ r ∈ t.resets, r.kind = kind ∧ r.unit = u ∧ r.mailbox = true ∧ nowNs t < r.t ∧ (kind ≠ 3 → r.t ≤ nowNs t + resetBound kind)) ∧
        (kind = 3 → (mgetD t.link.ports u {}).st = 5) ∧ (kind = 4 → ∀ c, dieOf c = u → (coreOf t c).group = none) ∧
        (kind = 5 → ∀ b, b / 1024 = u → mget t.hbm.banks b = none) ∧ (kind = 7 → t.cores = [] ∧ t.mem.bytes = [] ∧ t.fw.leaf0 = s.fw.leaf0)))) ∧
  (∀ kind unit s r, (s.resets.find? fun r => r.kind = kind && r.unit = unit && decide (r.t ≤ nowNs s)) = some r →
    ∃ t, exec (.resetComplete kind unit) s = .next t ∧ t.resets = s.resets.erase r ∧ t.mem = s.mem ∧
      (r.mailbox = true → t.fw.cmd = none ∧ t.fw.result = 0) ∧
      (kind = 3 → (mgetD t.link.ports unit {}).st = if (mgetD s.link.ports unit {}).en then 1 else 0)) ∧
  (∀ s, ∃ t, exec .powerLoss s = .next t ∧ t.powered = false ∧ t.agenda = [] ∧ t.cores = [] ∧ t.mem.bytes = [] ∧
    t.fw.store = s.fw.store ∧ t.fw.leaf0 = s.fw.leaf0 ∧ t.fw.leaf4 = s.fw.leaf4)

/-- R202, R404, R429, R430, R434, R448, R449, R451: a slot or core that is retired stays so; a failed column test retires its core; a
detection poisons, marks or stops what its class names; injected detections come one by one until none is left; a word with an
unassigned OPC traps.
Where the rules leave a reading open the model's is in the log, assumptions 52, 72, 73. -/
def Obligations.ErrorsRetireAndContain : Prop :=
  (∀ u s, mailFree s = true →
    (quadNo s (u / 16) = none ∨ 11 < u % 16 → ∃ t, exec (.retireSlot u) s = .next t ∧ t.fw.cmd = none ∧ t.fw.result = 1 ∧ t.engs = s.engs) ∧
    (∀ q, quadNo s (u / 16) = some q → u % 16 ≤ 11 →
      (outOfService (engOf s q) = true ∨ u % 16 ∈ (engOf s q).retired → ∃ t, exec (.retireSlot u) s = .next t ∧ t.fw.result = 0 ∧ t.engs = s.engs) ∧
      (outOfService (engOf s q) = false → u % 16 ∉ (engOf s q).retired → ∃ t, exec (.retireSlot u) s = .next t ∧
        u % 16 ∈ (engOf t q).retired))) ∧
  (∀ u s c, mailFree s = true → coreNo s u = some c → c < 336 → s.xl.good.length = 4 → s.xl.enabled.length = 4 → coreRetired s c = false →
    ∃ t, exec (.retireCore u) s = .next t ∧ coreRetired t c = true ∧ coreEnabled t c = false ∧ t.fw.result = 0 ∧ t.fw.cmd = none ∧
      ∀ k < 336, k ≠ c → coreEnabled t k = coreEnabled s k) ∧
  (∀ c out s, c < 336 → coreFree s c = true → policy s 0x19 ≠ 0 →
    (∀ t0, (coreOf s c).tested = some t0 → t0 + policy s 0x19 * 1000000 ≤ nowNs s) → s.xl.good.length = 4 → s.xl.enabled.length = 4 →
    ∃ t, exec (.columnTest c out) s = .next t ∧ (coreOf t c).tested = some (nowNs s) ∧
      (out = 1 → coreEnabled t c = false ∧ (mgetD t.cols c {}).ctfail = true) ∧ (out ≠ 1 → t.xl = s.xl)) ∧
  (∀ u s c syn, coreNo s u = some c →
    (∀ a, a.testBit 31 = false → a.testBit 30 = false → mhas s.thrs (tkey c (nbits a 16 5)) = true → ∃ t, exec (.errorDetect 2 u a syn) s = .next t ∧
      (regOf (thrOf t c (nbits a 16 5)) (nbits a 8 5) (nbits a 0 8)).cur.poison = true) ∧
    (∀ a, 1 ≤ syn → syn ≤ 3 → mhas s.thrs (tkey c (a % 32)) = true → ∃ t b, exec (.errorDetect 5 u a syn) s = .next t ∧
      (thrOf t c (a % 32)).pchk = some (syn, b))) ∧
  (∀ u a s syn, 4 ≤ u → mget s.mem.hcache (a / 64) ≠ some false → ∃ t, exec (.errorDetect 4 u a syn) s = .next t ∧ t.mem.bytes = s.mem.bytes ∧
    ∀ k < 8, mhas t.mem.poison (a / 32 * 8 + k) = true) ∧
  (∀ u a s syn, ∃ t, exec (.errorDetect 18 u a syn) s = .next t ∧ t.fw.alive = false ∧ t.mem = s.mem) ∧
  (∀ v s, let bad := s.fw.einj.getLsbD 0 = true ∨ nbits v.toNat 24 8 = 0 ∨ 16 < nbits v.toNat 24 8 ∨ nbits v.toNat 16 8 = 0 ∨
      unitOk s (nbits v.toNat 24 8) (nbits v.toNat 32 16) = false
    (bad → ∃ t, exec (.einjWrite v) s = .next t ∧ t.fw.einj = s.fw.einj ||| 2#64 ∧ t.fw.einjLeft = s.fw.einjLeft) ∧
    (¬ bad → ∃ t, exec (.einjWrite v) s = .next t ∧ t.fw.einj.getLsbD 0 = v.getLsbD 0 ∧
      (v.getLsbD 0 = true → ∃ d ≤ 10000, t.fw.einjLeft = some (nbits v.toNat 16 8, nowNs s + d)))) ∧
  (∀ s n t0, s.fw.einjLeft = some (n, t0) → t0 ≤ nowNs s → ∃ t, exec .injectedDetection s = .next t ∧ t.mem.bytes = s.mem.bytes ∧
    t.fw.einjLeft = (if n ≤ 1 then none else some (n - 1, t0 + 10000)) ∧ (n ≤ 1 → t.fw.einj.getLsbD 0 = false)) ∧
  (∀ w s, exec (.illegalOpcode w) s = .next (takeFault s { code := 0x01, mask := s.cur.mask }))

/-- R435, R436, R439 to R443: SETPOL sets a policy to a value in its range and answers 0, else 1; LOAD refuses what does not verify and
keeps a verified image for the next boost boundary; ATTEST commits the leaf counter in both copies, then writes its report and
answers 0; a LOAD whose memory has its home in reset waits; the standby controller takes over with every policy.
Where the rules leave a reading open the model's is in the log, assumptions 5, 71. -/
def Obligations.FirmwareCommands : Prop :=
  (∀ s, mailFree s = true →
    (policyOk s s.fw.arg0.toNat s.fw.arg1.toNat = true → ∃ t, exec .setpol s = .next t ∧ policy t s.fw.arg0.toNat = s.fw.arg1.toNat ∧
      t.fw.cmd = none ∧ t.fw.result = 0 ∧ ∀ p, p ≠ s.fw.arg0.toNat → policy t p = policy s p) ∧
    (policyOk s s.fw.arg0.toNat s.fw.arg1.toNat = false → ∃ t, exec .setpol s = .next t ∧ t.fw.cmd = none ∧ t.fw.result = 1 ∧
      t.fw.pol = s.fw.pol)) ∧
  (∀ s, mailFree s = true →
    (s.fw.arg1.toNat < 4096 → ∃ t, exec .load s = .next t ∧ t.fw.result = 1 ∧ t.fw.image = s.fw.image ∧ t.fw.cmd = none) ∧
    (∀ bs, 4096 ≤ s.fw.arg1.toNat → s.fw.arg1.toNat ≤ 4096 + 0x1000000 →
      rangeDown s s.fw.arg0.toNat s.fw.arg1.toNat = false →
      mailRead (updFw s fun f => { f with cmd := some (1, 0, 0) }) s.fw.arg0.toNat s.fw.arg1.toNat = some bs →
      ∃ t, exec .load s = .next t ∧ t.fw.image = s.fw.image ∧ match verifyImage s.fw.minSvn bs with
        | .error e => t.fw.result = e ∧ t.fw.cmd = none
        | .ok im => t.fw.next = some im ∧ t.fw.cmd = some (1, 0, 0)) ∧
    (4096 ≤ s.fw.arg1.toNat → s.fw.arg1.toNat ≤ 4096 + 0x1000000 → rangeDown s s.fw.arg0.toNat s.fw.arg1.toNat = true →
      ∃ t, exec .load s = .next t ∧ t.fw.cmd = some (1, 0, 0) ∧ t.fw.held = some (1, s.fw.arg0.toNat, s.fw.arg1.toNat) ∧
        t.fw.image = s.fw.image)) ∧
  (∀ s im, s.fw.next = some im → s.time % 336000 = 0 → s.fw.alive = true → ∃ t, exec .firmwareHandover s = .next t ∧
    t.fw.image = some im ∧ t.fw.st = 2 ∧ t.fw.next = none ∧ t.fw.result = 0 ∧ t.fw.cmd = none ∧ t.fw.pol = s.fw.pol) ∧
  (∀ s nonce, mailFree s = true → rangeDown s s.fw.arg0.toNat 32 = false → mailRead (updFw s fun f => { f with cmd := some (3, 0, 0) }) s.fw.arg0.toNat 32 = some nonce →
    hostWritable s s.fw.arg1.toNat = true →
    hostWritable s (s.fw.arg1.toNat + 3071) = true →
    let leaf := max s.fw.leaf0 s.fw.leaf4
    s.fw.att = none →
    (leaf < 2 ^ 20 → ∃ t a, exec .attest s = .next t ∧ t.fw.leaf0 = leaf + 1 ∧ t.fw.leaf4 = leaf + 1 ∧ t.fw.cmd = some (3, 0, 0) ∧
      t.fw.att = some a ∧ a.leaf = leaf ∧ a.out = s.fw.arg1.toNat ∧ a.nonce = nonce ∧ t.fw.result = s.fw.result ∧ t.mem = s.mem) ∧
    (2 ^ 20 ≤ leaf → ∃ t, exec .attest s = .next t ∧ t.fw.cmd = none ∧ t.fw.result = 6 ∧ t.fw.leaf0 = s.fw.leaf0 ∧ t.mem = s.mem)) ∧
  (∀ s a, s.fw.att = some a → a.due ≤ nowNs s → s.fw.alive = true → ∃ t, exec .attest s = .next t ∧ t.fw.att = none ∧
    t.fw.cmd = none ∧ t.fw.result = 0 ∧ t.fw.leaf0 = s.fw.leaf0 ∧ t.fw.leaf4 = s.fw.leaf4 ∧
    t.mem = (physPut s .host a.out (a.nonce ++ plain ((reportBytes s (rawBytes a.nonce) a.leaf).drop 32))).mem ∧ t.mem.bytes = s.mem.bytes) ∧
  (∀ s a, s.fw.att = some a → nowNs s < a.due → exec .attest s = .next s) ∧
  (∀ s, s.fw.alive = false → s.fw.standby = false → ∃ t, exec .standbyTakeover s = .next t ∧ t.fw.alive = true ∧ t.fw.standby = true ∧
    t.fw.pol = s.fw.pol ∧ t.mem.bytes = s.mem.bytes)

/-! ## Decoding, the step, and what every step keeps -/

/-- R189, R202: the words whose encodings the spec works out decode to the instructions they stand for, bit field by bit
field. -/
def Obligations.SpecWordsDecode : Prop :=
  decode .wattle true 0x20C034A080A8800000001C14#96 = .ok (.ffma
    { mod := 0, gn := false, gp := 3, d := { space := .cache, index := 40, flags := 2 }, a := { space := .main, index := 10, flags := 8 }
      b := { space := .latch, index := 0, flags := 0 }, imm := 0x70, stall := 2, yld := true, wb := false }) ∧
  decode .wattle true 0x0000000C0010C003FFFFFEC0#96 = .ok (.iadd
    { mod := 0, gn := false, gp := 0, d := { space := .main, index := 3, flags := 0 }, a := { space := .main, index := 1, flags := 0 }
      b := { space := .special, index := 0, flags := 0 }, imm := 0xFFFFFFB, stall := 0, yld := false, wb := false }) ∧
  decode .wattle true 0xA00200240040000160001000#96 = .ok (.ld
    { mod := 2, gn := false, gp := 0, d := { space := .main, index := 9, flags := 0 }, a := { space := .main, index := 4, flags := 0 }
      b := Opnd.zero, imm := 0x5800040, stall := 0, yld := false, wb := false }) ∧
  decode .wattle true 0xC2C2100000000000006E8200#96 = .ok (.qmma
    { mod := 2, gn := false, gp := 1, d := Opnd.zero, a := Opnd.zero, b := Opnd.zero, imm := 0x1BA08, stall := 0, yld := false
      wb := false }) ∧
  decode .fe true 0xE20400080040018000000000#96 = .ok (.tlbiVa
    { mod := 4, gn := false, gp := 0, d := { space := .main, index := 2, flags := 0 }, a := { space := .main, index := 4, flags := 0 }
      b := { space := .main, index := 6, flags := 0 }, imm := 0, stall := 0, yld := false, wb := false }) ∧
  decode .fe true 0x838000400120038000000000#96 = .ok (.sleep
    { mod := 0, gn := false, gp := 0, d := { space := .main, index := 16, flags := 0 }, a := { space := .main, index := 18, flags := 0 }
      b := { space := .main, index := 14, flags := 0 }, imm := 0, stall := 0, yld := false, wb := false })

/-- Instructions that R204 makes privileged, with those whose own descriptions confine a form to supervisor mode, and the INFO of their
PRIV: the CSR number, else 0 (R204, R334, R343, R357, R403). -/
def Sys2Proof.Claim.privileged : Instr → Option Nat
  | .eret _ | .ckpt _ | .rsto _ | .tlbiVa _ | .tlbiAsid _ | .tlbiAll _ | .parkHalt _ | .parkRun _ | .parkQuery _ => some 0
  | .csrr x | .csrw x | .csrs x | .csrc x => if 0x800 ≤ x.f 0 12 then some (x.f 0 12) else none
  | .mstat x => if x.f 0 3 = 1 then some 0 else none
  | .basis x => if x.f 0 4 ≤ 1 then some 0 else none
  | .perf x => if x.f 0 8 = 10 ∨ x.f 0 8 = 11 then some 0 else none
  | _ => none

/-- R189, R202, R204, R205: the encoder and the decoder agree on every instruction that a word can say, with every operand at
every value that its encoding admits; and a word that decodes to an instruction with fields is the word of that instruction,
which is well formed. So it is in supervisor mode; in user mode the words of privileged forms are refused with PRIV, which the step
takes as a fault, and every other word decodes to the same instruction. That the selector of MSTAT and the counter of PERF are judged
with PRIV at decoding is assumption 76 of the log. -/
def Obligations.DecodeInvertsEncode : Prop :=
  (∀ st i, i.wellFormed st = true → ∃ w, encode i = some w ∧ decode st true w = .ok i) ∧
  (∀ st w i, decode st true w = .ok i → encode i = some w ∧ (i.form.isSome = true → i.wellFormed st = true)) ∧
  (∀ st w i, decode st true w = .ok i →
    (∀ n, privileged i = some n → decode st false w = .error (.priv n)) ∧ (privileged i = none → decode st false w = .ok i)) ∧
  (∀ s c t m p w i n rest, s.powered = true → s.agenda = .set c t m p none false :: rest → mhas s.thrs (tkey c t) = true →
    (thrOf s c t).hold = none → (thrOf s c t).super = false → privileged i = some n →
    decode (if t = feIdx then .fe else .wattle) true w = .ok i → fetch { s with agenda := rest } c false p = .ok w →
    step s = .next (takeFault { fetchTouch { s with agenda := rest } c false p.toNat with
      cur := { core := c, thr := t, mask := m, pc := p, word := w } } { code := 0x03, mask := m, info := n }))

/-- R190, R205, R406, R293: a step runs the first item of the agenda. A set of lanes of a thread fetches its 12 bytes at its PC, which
reaches the walks and banks of their pages, and runs exactly the instruction that they decode to, or takes the fault of the fetch or of
decoding; a held instruction runs
again from the copy that its thread holds; an event runs as itself; a core takes its turn; with no item the time passes.
Where the rules leave a reading open the model's is in the log, assumptions 7, 13, 87. -/
def Obligations.StepRunsTheDecodedInstruction : Prop :=
  (∀ s c t m p d again rest, s.powered = true → s.agenda = .set c t m p d again :: rest → mhas s.thrs (tkey c t) = true →
    let base : Issue := { core := c, thr := t, mask := m, pc := p, dual := d, again := again }
    let u := { s with agenda := rest }
    ((thrOf s c t).hold.filter (fun o => o.mask = m && o.pc = p) = none →
      (∀ e a, fetch u c (thrOf s c t).super p = .error (e, a) →
        step s = .next (takeFault { u with cur := base } { code := e, mask := m, addr := a, fetch := true })) ∧
      (∀ w, fetch u c (thrOf s c t).super p = .ok w →
        let v := { fetchTouch u c (thrOf s c t).super p.toNat with cur := { base with word := w } }
        (∀ i, decode (if t = feIdx then .fe else .wattle) (thrOf s c t).super w = .ok i → step s = exec i v) ∧
        (decode (if t = feIdx then .fe else .wattle) (thrOf s c t).super w = .error .stream →
          step s = .next (takeFault v { code := 0x01, mask := m })) ∧
        (∀ n, decode (if t = feIdx then .fe else .wattle) (thrOf s c t).super w = .error (.priv n) →
          step s = .next (takeFault v { code := 0x03, mask := m, info := n })) ∧
        (∀ n, decode (if t = feIdx then .fe else .wattle) (thrOf s c t).super w = .error (.operand n) →
          step s = .next (takeFault v { code := 0x02, mask := m, info := n })))) ∧
    (∀ o, (thrOf s c t).hold = some o → o.mask = m → o.pc = p →
      step s = exec o.instr { u with cur :=
        if o.why = .unissued then { base with word := o.word, dual := o.dual }
        else { base with word := o.word, held := some (o.t0, o.yields, o.begun), dual := o.dual, cyc := some o.cyc, cost := o.cost } })) ∧
  (∀ s i rest, s.powered = true → s.agenda = .ev i :: rest → step s = exec i { s with agenda := rest }) ∧
  (∀ s c rest, s.powered = true →
    (s.agenda = .fe c :: rest → step s = .next (feCycle { s with agenda := rest } c)) ∧
    (s.agenda = .slot c :: rest → step s = .next (slotCycle { s with agenda := rest } c))) ∧
  (∀ s cs rest, s.powered = true → s.agenda = .quad cs :: rest →
    step s = .next (pushActs { s with agenda := rest } (quadActs { s with agenda := rest } cs))) ∧
  (∀ s, s.powered = true → s.agenda = [] → step s = .next (tick s))

/-- R406, R408: nothing stops the package but the loss of its power: every instruction and every event of the table answers a next
state from every state, and a step stops exactly where there is no power. That it is so is the model's choice, assumption 11 of the log:
a fault is a trap entry or the end of its group, and either is a next state. -/
def Obligations.OnlyPowerStopsTheMachine : Prop :=
  (∀ i s, ∃ t, exec i s = .next t) ∧
  (∀ s, s.powered = true → ∃ t, step s = .next t) ∧
  (∀ s, s.powered = false → step s = .fault .unpowered)

/-- R100, R128, R411: every step keeps the home memory, every scratchpad and every scratchpad of a checkpoint area in their one
canonical form. -/
def Obligations.EveryStepKeepsTheMemoryForm : Prop :=
  ∀ s t, s.Safe → step s = .next t → t.Safe

/-- R420, R425, R427: the state after reset is safe and powered, translation is off, partition 0 holds every
column, TPCFG is at its reset value, the time base is 0, and no group, thread, store, reservation, grid or
launch is there. The memory that lists nothing is the model's choice, assumption 1 of the log; so are the empty register tables and the
time base of 0, assumption 2: the rules give the time base no reset value. -/
def Obligations.ResetLeavesASafeState : Prop :=
  State.reset.Safe ∧ State.reset.powered = true ∧ State.reset.time = 0 ∧ State.reset.xl.at' = 0 ∧
  State.reset.xl.parts = [0x1FFF, 0, 0, 0] ∧ State.reset.xl.tpcfg = 0x4020300000 ∧
  (∀ c, (coreOf State.reset c).group = none) ∧ (∀ c t, mhas State.reset.thrs (tkey c t) = false) ∧
  State.reset.mem = {} ∧ State.reset.disp = {} ∧ State.reset.agenda = []
end

