-- ==== Sys2Proof/Laws/Elements.lean ====
section
/-! SUPPORT. Elements of an operand: taking them apart and joining results (R69, R234), and that the integer operations are
exact arithmetic reduced or clamped at the end. -/

namespace Sys2Proof.Machine

open Sys2Proof.Claim

theorem length_elems (w n v : Nat) : (elems w n v).length = n := by
  induction n generalizing v with
  | zero => rfl
  | succ n ih => simp [elems, ih]

theorem getD_elems (w n v j : Nat) (h : j < n) : (elems w n v).getD j 0 = elem w v j := by
  induction n generalizing v j with
  | zero => omega
  | succ n ih =>
    cases j with
    | zero => simp [elems, elem]
    | succ j =>
      have := ih (v / 2 ^ w) j (by omega)
      simp only [elems, List.getD_cons_succ, this, elem, Nat.div_div_eq_div_mul]
      rw [← Nat.pow_add, show w + w * j = w * (j + 1) from by rw [Nat.mul_add]; omega]

theorem joinEl_lt (w : Nat) (es : List Nat) : joinEl w es < 2 ^ (w * es.length) := by
  induction es with
  | nil => simp [joinEl]
  | cons e es ih =>
    have h1 : e % 2 ^ w < 2 ^ w := Nat.mod_lt _ (Nat.two_pow_pos w)
    simp only [joinEl, List.length_cons]
    rw [show w * (es.length + 1) = w + w * es.length from by rw [Nat.mul_add]; omega, Nat.pow_add]
    calc e % 2 ^ w + 2 ^ w * joinEl w es
        < 2 ^ w + 2 ^ w * joinEl w es := by omega
      _ = 2 ^ w * (joinEl w es + 1) := by rw [Nat.mul_add]; omega
      _ ≤ 2 ^ w * 2 ^ (w * es.length) := Nat.mul_le_mul_left _ ih

theorem elem_joinEl (w : Nat) (es : List Nat) (j : Nat) (h : j < es.length) : elem w (joinEl w es) j = es.getD j 0 % 2 ^ w := by
  induction es generalizing j with
  | nil => simp at h
  | cons e es ih =>
    have hp := Nat.two_pow_pos w
    cases j with
    | zero => simp [elem, joinEl, Nat.add_mul_mod_self_left]
    | succ j =>
      have := ih j (by simpa using h)
      have e1 : (e % 2 ^ w + 2 ^ w * joinEl w es) / 2 ^ w = joinEl w es := by
        rw [Nat.add_mul_div_left _ _ hp, Nat.div_eq_of_lt (Nat.mod_lt _ hp), Nat.zero_add]
      simp only [elem, joinEl, List.getD_cons_succ] at this ⊢
      rw [show w * (j + 1) = w + w * j from by rw [Nat.mul_add]; omega, Nat.pow_add, ← Nat.div_div_eq_div_mul, e1, this]

/-- Clamping is the least change that reaches the range. -/
theorem clampTo_eq_sat {w : Nat} {lo hi v : Int} (h : lo ≤ hi) : clampTo w lo hi v = sat w lo hi v := by
  unfold clampTo sat
  split
  · rename_i h1
    have : max lo (min hi v) = lo := by omega
    simp [this, h1]; rfl
  · split
    · rename_i h1 h2
      have : max lo (min hi v) = hi := by omega
      simp [this, h2]; rfl
    · rename_i h1 h2
      have : max lo (min hi v) = v := by omega
      simp [this, h1, h2]; rfl

end Sys2Proof.Machine
end

