-- ==== Sys2Proof/Laws/Map.lean ====
section
/-! SUPPORT. Laws of the sparse tables: a read after a write of the same key gives what was written, a read of any other
key what it gave before; memory keeps its canonical form. -/

namespace Sys2Proof.Machine

theorem mget_mset_self {α : Type} (m : FMap α) (k : Nat) (x : α) : mget (mset m k x) k = some x := by
  induction m with
  | nil => simp [mset, mget]
  | cons c m ih =>
    obtain ⟨j, v⟩ := c
    simp only [mset]
    split
    · simp [mget]
    · split
      · simp [mget]
      · simp [mget, *]

theorem mget_mset_other {α : Type} (m : FMap α) {k j : Nat} (x : α) (h : j ≠ k) : mget (mset m k x) j = mget m j := by
  induction m with
  | nil => simp [mset, mget, Ne.symm h]
  | cons c m ih =>
    obtain ⟨i, v⟩ := c
    simp only [mset]
    split
    · simp [mget, Ne.symm h]
    · split
      · rename_i h2; subst h2; simp [mget, Ne.symm h]
      · simp only [mget]; split <;> simp_all

theorem mgetD_mset_self {α : Type} (m : FMap α) (k : Nat) (x d : α) : mgetD (mset m k x) k d = x := by
  simp [mgetD, mget_mset_self]

theorem mgetD_mset_other {α : Type} (m : FMap α) {k j : Nat} (x d : α) (h : j ≠ k) :
    mgetD (mset m k x) j d = mgetD m j d := by
  simp [mgetD, mget_mset_other m x h]

theorem mgetD_mupd_self {α : Type} (m : FMap α) (k : Nat) (d : α) (f : α → α) :
    mgetD (mupd m k d f) k d = f (mgetD m k d) := by
  simp [mupd, mgetD_mset_self]

theorem mgetD_mupd_other {α : Type} (m : FMap α) {k j : Nat} (d e : α) (f : α → α) (h : j ≠ k) :
    mgetD (mupd m k d f) j e = mgetD m j e := by
  simp [mupd, mgetD_mset_other m _ _ h]

theorem mget_mupd_self {α : Type} (m : FMap α) (k : Nat) (d : α) (f : α → α) :
    mget (mupd m k d f) k = some (f (mgetD m k d)) := by
  simp [mupd, mget_mset_self]

theorem mget_mupd_other {α : Type} (m : FMap α) {k j : Nat} (d : α) (f : α → α) (h : j ≠ k) :
    mget (mupd m k d f) j = mget m j := by
  simp [mupd, mget_mset_other m _ h]

theorem mget_mdel_other {α : Type} (m : FMap α) {k j : Nat} (h : j ≠ k) : mget (mdel m k) j = mget m j := by
  induction m with
  | nil => rfl
  | cons c m ih =>
    obtain ⟨i, v⟩ := c
    simp only [mdel]
    split
    · rename_i h2; subst h2; simp [mget, Ne.symm h]
    · simp only [mget]; split <;> simp_all

/-! ## Keys that rise -/

theorem keysRise_le {α : Type} {m : FMap α} {i k : Nat} (h : keysRise k m = true) (hi : i ≤ k) : keysRise i m = true := by
  cases m with
  | nil => rfl
  | cons c m =>
    obtain ⟨j, v⟩ := c
    simp only [keysRise, Bool.and_eq_true, decide_eq_true_eq] at h ⊢
    exact ⟨Nat.le_trans hi h.1, h.2⟩

theorem mget_below {α : Type} {m : FMap α} {k j : Nat} (h : keysRise k m = true) (hj : j < k) : mget m j = none := by
  induction m generalizing k with
  | nil => rfl
  | cons c m ih =>
    obtain ⟨i, v⟩ := c
    simp only [keysRise, Bool.and_eq_true, decide_eq_true_eq] at h
    have : i ≠ j := by omega
    simp only [mget, this, if_false]
    exact ih h.2 (by omega)

theorem keysRise_mset {α : Type} {m : FMap α} {i k : Nat} (x : α) (h : keysRise i m = true) (hk : i ≤ k) :
    keysRise i (mset m k x) = true := by
  induction m generalizing i with
  | nil => simp [mset, keysRise, hk]
  | cons c m ih =>
    obtain ⟨j, v⟩ := c
    simp only [keysRise, Bool.and_eq_true, decide_eq_true_eq] at h
    simp only [mset]
    split
    · simp only [keysRise, Bool.and_eq_true, decide_eq_true_eq]
      exact ⟨hk, by omega, h.2⟩
    · split
      · rename_i h2; subst h2; simp [keysRise, h]
      · simp only [keysRise, Bool.and_eq_true, decide_eq_true_eq]
        exact ⟨h.1, ih h.2 (by omega)⟩

theorem keysRise_mdel {α : Type} {m : FMap α} {i : Nat} (k : Nat) (h : keysRise i m = true) : keysRise i (mdel m k) = true := by
  induction m generalizing i with
  | nil => rfl
  | cons c m ih =>
    obtain ⟨j, v⟩ := c
    simp only [keysRise, Bool.and_eq_true, decide_eq_true_eq] at h
    simp only [mdel]
    split
    · exact keysRise_le h.2 (by omega)
    · simp only [keysRise, Bool.and_eq_true, decide_eq_true_eq]
      exact ⟨h.1, ih h.2⟩

theorem mget_mdel_self {α : Type} {m : FMap α} {i : Nat} (k : Nat) (h : keysRise i m = true) : mget (mdel m k) k = none := by
  induction m generalizing i with
  | nil => rfl
  | cons c m ih =>
    obtain ⟨j, v⟩ := c
    simp only [keysRise, Bool.and_eq_true, decide_eq_true_eq] at h
    simp only [mdel]
    split
    · rename_i h2; subst h2; exact mget_below h.2 (by omega)
    · rename_i h2; simp only [mget, h2, if_false]; exact ih h.2

theorem all_mset {α : Type} {m : FMap α} {p : Nat × α → Bool} {k : Nat} {x : α} (h : m.all p = true) (hx : p (k, x) = true) :
    (mset m k x).all p = true := by
  induction m with
  | nil => simp [mset, hx]
  | cons c m ih =>
    obtain ⟨j, v⟩ := c
    simp only [List.all_cons, Bool.and_eq_true] at h
    simp only [mset]
    split
    · simp only [List.all_cons, Bool.and_eq_true]; exact ⟨hx, h.1, h.2⟩
    · split
      · simp only [List.all_cons, Bool.and_eq_true]; exact ⟨hx, h.2⟩
      · simp only [List.all_cons, Bool.and_eq_true]; exact ⟨h.1, ih h.2⟩

theorem all_mdel {α : Type} {m : FMap α} {p : Nat × α → Bool} (k : Nat) (h : m.all p = true) : (mdel m k).all p = true := by
  induction m with
  | nil => rfl
  | cons c m ih =>
    obtain ⟨j, v⟩ := c
    simp only [List.all_cons, Bool.and_eq_true] at h
    simp only [mdel]
    split
    · exact h.2
    · simp only [List.all_cons, Bool.and_eq_true]; exact ⟨h.1, ih h.2⟩

/-! ## Memory -/

/-- Storing a byte keeps the canonical form. -/
theorem wf_bset {m : List Host.Cell} (a : Nat) (b : Byte) (h : Memory.wf m = true) : Memory.wf (bset m a b) = true := by
  simp only [Memory.wf, Bool.and_eq_true] at h ⊢
  simp only [bset]
  split
  · exact ⟨keysRise_mdel a h.1, all_mdel a h.2⟩
  · rename_i hb
    exact ⟨keysRise_mset b h.1 (Nat.zero_le a), all_mset h.2 (by simpa using hb)⟩

/-- Storing bytes keeps the canonical form. -/
theorem wf_bsetL {m : List Host.Cell} (a : Nat) (bs : List Byte) (h : Memory.wf m = true) : Memory.wf (bsetL m a bs) = true := by
  induction bs generalizing m a with
  | nil => exact h
  | cons b bs ih => exact ih (a + 1) (wf_bset a b h)

/-- Storing a byte leaves every other address alone. -/
theorem bget_bset_other (m : List Host.Cell) {a c : Nat} (b : Byte) (h : c ≠ a) : bget (bset m a b) c = bget m c := by
  simp only [bget, bset]
  split
  · simp [mgetD, mget_mdel_other m h]
  · exact mgetD_mset_other m _ _ h

/-- A byte stored in memory of canonical form reads back. -/
theorem bget_bset_self {m : List Host.Cell} (a : Nat) (b : Byte) (h : Memory.wf m = true) : bget (bset m a b) a = b := by
  simp only [Memory.wf, Bool.and_eq_true] at h
  simp only [bget, bset]
  split
  · rename_i hb; simp [mgetD, mget_mdel_self a h.1, hb]
  · exact mgetD_mset_self m _ _ _

/-- Storing bytes leaves every address outside them alone. -/
theorem bget_bsetL_other (m : List Host.Cell) (a : Nat) (bs : List Byte) {c : Nat} (h : c < a ∨ a + bs.length ≤ c) :
    bget (bsetL m a bs) c = bget m c := by
  induction bs generalizing m a with
  | nil => rfl
  | cons b bs ih =>
    simp only [List.length_cons] at h
    rw [bsetL, ih (bset m a b) (a + 1) (by omega), bget_bset_other m b (by omega)]

/-- A stored byte reads back. -/
theorem bget_bsetL_self {m : List Host.Cell} (a : Nat) (bs : List Byte) (i : Nat) (hi : i < bs.length) (h : Memory.wf m = true) :
    bget (bsetL m a bs) (a + i) = bs.getD i unlistedByte := by
  induction bs generalizing m a i with
  | nil => simp at hi
  | cons b bs ih =>
    cases i with
    | zero => rw [bsetL, bget_bsetL_other _ _ _ (by omega)]; simpa using bget_bset_self a b h
    | succ i =>
      have := ih (a + 1) i (by simpa using hi) (wf_bset a b h)
      rw [bsetL, show a + (i + 1) = a + 1 + i from by omega, this]
      simp

/-- Equal reads at every address are equal memories: the canonical form is one. -/
theorem memory_ext {m n : List Host.Cell} {k : Nat} (hm : keysRise k m = true) (hn : keysRise k n = true)
    (am : m.all (fun c => !(c.2 = unlistedByte)) = true) (an : n.all (fun c => !(c.2 = unlistedByte)) = true)
    (h : ∀ a, bget m a = bget n a) : m = n := by
  induction m generalizing n k with
  | nil =>
    cases n with
    | nil => rfl
    | cons c n =>
      obtain ⟨j, v⟩ := c
      have := h j
      simp only [bget, mgetD, mget, if_true, Option.getD_some, Option.getD_none] at this
      simp [← this] at an
  | cons c m ih =>
    obtain ⟨j, v⟩ := c
    simp only [keysRise, Bool.and_eq_true, decide_eq_true_eq, List.all_cons, Bool.not_eq_true', decide_eq_false_iff_not] at hm am
    cases n with
    | nil =>
      have := h j
      simp only [bget, mgetD, mget, if_true, Option.getD_some, Option.getD_none] at this
      exact absurd this am.1
    | cons d n =>
      obtain ⟨i, w⟩ := d
      simp only [keysRise, Bool.and_eq_true, decide_eq_true_eq, List.all_cons, Bool.not_eq_true', decide_eq_false_iff_not] at hn an
      have hj := h j
      have hi := h i
      simp only [bget, mgetD, mget, if_true, Option.getD_some] at hj hi
      by_cases e : i = j
      · subst e
        simp only [if_true, Option.getD_some] at hj
        subst hj
        have : m = n := ih hm.2 hn.2 am.2 an.2 fun a => by
          have ha := h a
          simp only [bget, mgetD, mget] at ha
          by_cases ea : i = a
          · subst ea; simp [bget, mgetD, mget_below hm.2 (Nat.lt_succ_self i), mget_below hn.2 (Nat.lt_succ_self i)]
          · simpa [bget, mgetD, ea] using ha
        rw [this]
      · by_cases lt : i < j
        · rw [if_neg (by omega), mget_below hm.2 (by omega)] at hi
          exact absurd hi.symm an.1
        · rw [if_neg (by omega), mget_below hn.2 (by omega)] at hj
          exact absurd hj am.1

end Sys2Proof.Machine
end

