-- ==== Sys2Proof/Laws/State.lean ====
section
/-! SUPPORT. Each update of the state, field by field: what it writes, and that it leaves every other field alone. -/

namespace Sys2Proof.Machine

@[simp] theorem updCore_powered (s : State) (c : Nat) (f : Core → Core) : (updCore s c f).powered = s.powered := rfl
@[simp] theorem updCore_time (s : State) (c : Nat) (f : Core → Core) : (updCore s c f).time = s.time := rfl
@[simp] theorem updCore_cores (s : State) (c : Nat) (f : Core → Core) : (updCore s c f).cores = mupd s.cores c {} f := rfl
@[simp] theorem updCore_thrs (s : State) (c : Nat) (f : Core → Core) : (updCore s c f).thrs = s.thrs := rfl
@[simp] theorem updCore_engs (s : State) (c : Nat) (f : Core → Core) : (updCore s c f).engs = s.engs := rfl
@[simp] theorem updCore_teams (s : State) (c : Nat) (f : Core → Core) : (updCore s c f).teams = s.teams := rfl
@[simp] theorem updCore_mem (s : State) (c : Nat) (f : Core → Core) : (updCore s c f).mem = s.mem := rfl
@[simp] theorem updCore_xl (s : State) (c : Nat) (f : Core → Core) : (updCore s c f).xl = s.xl := rfl
@[simp] theorem updCore_disp (s : State) (c : Nat) (f : Core → Core) : (updCore s c f).disp = s.disp := rfl
@[simp] theorem updCore_hbm (s : State) (c : Nat) (f : Core → Core) : (updCore s c f).hbm = s.hbm := rfl
@[simp] theorem updCore_qboost (s : State) (c : Nat) (f : Core → Core) : (updCore s c f).qboost = s.qboost := rfl
@[simp] theorem updCore_dboost (s : State) (c : Nat) (f : Core → Core) : (updCore s c f).dboost = s.dboost := rfl
@[simp] theorem updCore_cols (s : State) (c : Nat) (f : Core → Core) : (updCore s c f).cols = s.cols := rfl
@[simp] theorem updCore_link (s : State) (c : Nat) (f : Core → Core) : (updCore s c f).link = s.link := rfl
@[simp] theorem updCore_fw (s : State) (c : Nat) (f : Core → Core) : (updCore s c f).fw = s.fw := rfl
@[simp] theorem updCore_resets (s : State) (c : Nat) (f : Core → Core) : (updCore s c f).resets = s.resets := rfl
@[simp] theorem updCore_agenda (s : State) (c : Nat) (f : Core → Core) : (updCore s c f).agenda = s.agenda := rfl
@[simp] theorem updCore_cur (s : State) (c : Nat) (f : Core → Core) : (updCore s c f).cur = s.cur := rfl
@[simp] theorem updCore_choice (s : State) (c : Nat) (f : Core → Core) : (updCore s c f).choice = s.choice := rfl
@[simp] theorem updCore_nextId (s : State) (c : Nat) (f : Core → Core) : (updCore s c f).nextId = s.nextId := rfl

@[simp] theorem updGrp_powered (s : State) (c : Nat) (f : Group → Group) : (updGrp s c f).powered = s.powered := rfl
@[simp] theorem updGrp_time (s : State) (c : Nat) (f : Group → Group) : (updGrp s c f).time = s.time := rfl
@[simp] theorem updGrp_cores (s : State) (c : Nat) (f : Group → Group) : (updGrp s c f).cores = mupd s.cores c {} fun k => { k with group := k.group.map f } := rfl
@[simp] theorem updGrp_thrs (s : State) (c : Nat) (f : Group → Group) : (updGrp s c f).thrs = s.thrs := rfl
@[simp] theorem updGrp_engs (s : State) (c : Nat) (f : Group → Group) : (updGrp s c f).engs = s.engs := rfl
@[simp] theorem updGrp_teams (s : State) (c : Nat) (f : Group → Group) : (updGrp s c f).teams = s.teams := rfl
@[simp] theorem updGrp_mem (s : State) (c : Nat) (f : Group → Group) : (updGrp s c f).mem = s.mem := rfl
@[simp] theorem updGrp_xl (s : State) (c : Nat) (f : Group → Group) : (updGrp s c f).xl = s.xl := rfl
@[simp] theorem updGrp_disp (s : State) (c : Nat) (f : Group → Group) : (updGrp s c f).disp = s.disp := rfl
@[simp] theorem updGrp_hbm (s : State) (c : Nat) (f : Group → Group) : (updGrp s c f).hbm = s.hbm := rfl
@[simp] theorem updGrp_qboost (s : State) (c : Nat) (f : Group → Group) : (updGrp s c f).qboost = s.qboost := rfl
@[simp] theorem updGrp_dboost (s : State) (c : Nat) (f : Group → Group) : (updGrp s c f).dboost = s.dboost := rfl
@[simp] theorem updGrp_cols (s : State) (c : Nat) (f : Group → Group) : (updGrp s c f).cols = s.cols := rfl
@[simp] theorem updGrp_link (s : State) (c : Nat) (f : Group → Group) : (updGrp s c f).link = s.link := rfl
@[simp] theorem updGrp_fw (s : State) (c : Nat) (f : Group → Group) : (updGrp s c f).fw = s.fw := rfl
@[simp] theorem updGrp_resets (s : State) (c : Nat) (f : Group → Group) : (updGrp s c f).resets = s.resets := rfl
@[simp] theorem updGrp_agenda (s : State) (c : Nat) (f : Group → Group) : (updGrp s c f).agenda = s.agenda := rfl
@[simp] theorem updGrp_cur (s : State) (c : Nat) (f : Group → Group) : (updGrp s c f).cur = s.cur := rfl
@[simp] theorem updGrp_choice (s : State) (c : Nat) (f : Group → Group) : (updGrp s c f).choice = s.choice := rfl
@[simp] theorem updGrp_nextId (s : State) (c : Nat) (f : Group → Group) : (updGrp s c f).nextId = s.nextId := rfl

@[simp] theorem setThr_powered (s : State) (c t : Nat) (h : Thr) : (setThr s c t h).powered = s.powered := rfl
@[simp] theorem setThr_time (s : State) (c t : Nat) (h : Thr) : (setThr s c t h).time = s.time := rfl
@[simp] theorem setThr_cores (s : State) (c t : Nat) (h : Thr) : (setThr s c t h).cores = s.cores := rfl
@[simp] theorem setThr_thrs (s : State) (c t : Nat) (h : Thr) : (setThr s c t h).thrs = mset s.thrs (tkey c t) h := rfl
@[simp] theorem setThr_engs (s : State) (c t : Nat) (h : Thr) : (setThr s c t h).engs = s.engs := rfl
@[simp] theorem setThr_teams (s : State) (c t : Nat) (h : Thr) : (setThr s c t h).teams = s.teams := rfl
@[simp] theorem setThr_mem (s : State) (c t : Nat) (h : Thr) : (setThr s c t h).mem = s.mem := rfl
@[simp] theorem setThr_xl (s : State) (c t : Nat) (h : Thr) : (setThr s c t h).xl = s.xl := rfl
@[simp] theorem setThr_disp (s : State) (c t : Nat) (h : Thr) : (setThr s c t h).disp = s.disp := rfl
@[simp] theorem setThr_hbm (s : State) (c t : Nat) (h : Thr) : (setThr s c t h).hbm = s.hbm := rfl
@[simp] theorem setThr_qboost (s : State) (c t : Nat) (h : Thr) : (setThr s c t h).qboost = s.qboost := rfl
@[simp] theorem setThr_dboost (s : State) (c t : Nat) (h : Thr) : (setThr s c t h).dboost = s.dboost := rfl
@[simp] theorem setThr_cols (s : State) (c t : Nat) (h : Thr) : (setThr s c t h).cols = s.cols := rfl
@[simp] theorem setThr_link (s : State) (c t : Nat) (h : Thr) : (setThr s c t h).link = s.link := rfl
@[simp] theorem setThr_fw (s : State) (c t : Nat) (h : Thr) : (setThr s c t h).fw = s.fw := rfl
@[simp] theorem setThr_resets (s : State) (c t : Nat) (h : Thr) : (setThr s c t h).resets = s.resets := rfl
@[simp] theorem setThr_agenda (s : State) (c t : Nat) (h : Thr) : (setThr s c t h).agenda = s.agenda := rfl
@[simp] theorem setThr_cur (s : State) (c t : Nat) (h : Thr) : (setThr s c t h).cur = s.cur := rfl
@[simp] theorem setThr_choice (s : State) (c t : Nat) (h : Thr) : (setThr s c t h).choice = s.choice := rfl
@[simp] theorem setThr_nextId (s : State) (c t : Nat) (h : Thr) : (setThr s c t h).nextId = s.nextId := rfl

@[simp] theorem updThr_powered (s : State) (c t : Nat) (f : Thr → Thr) : (updThr s c t f).powered = s.powered := rfl
@[simp] theorem updThr_time (s : State) (c t : Nat) (f : Thr → Thr) : (updThr s c t f).time = s.time := rfl
@[simp] theorem updThr_cores (s : State) (c t : Nat) (f : Thr → Thr) : (updThr s c t f).cores = s.cores := rfl
@[simp] theorem updThr_thrs (s : State) (c t : Nat) (f : Thr → Thr) : (updThr s c t f).thrs = mupd s.thrs (tkey c t) {} f := rfl
@[simp] theorem updThr_engs (s : State) (c t : Nat) (f : Thr → Thr) : (updThr s c t f).engs = s.engs := rfl
@[simp] theorem updThr_teams (s : State) (c t : Nat) (f : Thr → Thr) : (updThr s c t f).teams = s.teams := rfl
@[simp] theorem updThr_mem (s : State) (c t : Nat) (f : Thr → Thr) : (updThr s c t f).mem = s.mem := rfl
@[simp] theorem updThr_xl (s : State) (c t : Nat) (f : Thr → Thr) : (updThr s c t f).xl = s.xl := rfl
@[simp] theorem updThr_disp (s : State) (c t : Nat) (f : Thr → Thr) : (updThr s c t f).disp = s.disp := rfl
@[simp] theorem updThr_hbm (s : State) (c t : Nat) (f : Thr → Thr) : (updThr s c t f).hbm = s.hbm := rfl
@[simp] theorem updThr_qboost (s : State) (c t : Nat) (f : Thr → Thr) : (updThr s c t f).qboost = s.qboost := rfl
@[simp] theorem updThr_dboost (s : State) (c t : Nat) (f : Thr → Thr) : (updThr s c t f).dboost = s.dboost := rfl
@[simp] theorem updThr_cols (s : State) (c t : Nat) (f : Thr → Thr) : (updThr s c t f).cols = s.cols := rfl
@[simp] theorem updThr_link (s : State) (c t : Nat) (f : Thr → Thr) : (updThr s c t f).link = s.link := rfl
@[simp] theorem updThr_fw (s : State) (c t : Nat) (f : Thr → Thr) : (updThr s c t f).fw = s.fw := rfl
@[simp] theorem updThr_resets (s : State) (c t : Nat) (f : Thr → Thr) : (updThr s c t f).resets = s.resets := rfl
@[simp] theorem updThr_agenda (s : State) (c t : Nat) (f : Thr → Thr) : (updThr s c t f).agenda = s.agenda := rfl
@[simp] theorem updThr_cur (s : State) (c t : Nat) (f : Thr → Thr) : (updThr s c t f).cur = s.cur := rfl
@[simp] theorem updThr_choice (s : State) (c t : Nat) (f : Thr → Thr) : (updThr s c t f).choice = s.choice := rfl
@[simp] theorem updThr_nextId (s : State) (c t : Nat) (f : Thr → Thr) : (updThr s c t f).nextId = s.nextId := rfl

@[simp] theorem updCur_powered (s : State) (f : Thr → Thr) : (updCur s f).powered = s.powered := rfl
@[simp] theorem updCur_time (s : State) (f : Thr → Thr) : (updCur s f).time = s.time := rfl
@[simp] theorem updCur_cores (s : State) (f : Thr → Thr) : (updCur s f).cores = s.cores := rfl
@[simp] theorem updCur_thrs (s : State) (f : Thr → Thr) : (updCur s f).thrs = mupd s.thrs (tkey s.cur.core s.cur.thr) {} f := rfl
@[simp] theorem updCur_engs (s : State) (f : Thr → Thr) : (updCur s f).engs = s.engs := rfl
@[simp] theorem updCur_teams (s : State) (f : Thr → Thr) : (updCur s f).teams = s.teams := rfl
@[simp] theorem updCur_mem (s : State) (f : Thr → Thr) : (updCur s f).mem = s.mem := rfl
@[simp] theorem updCur_xl (s : State) (f : Thr → Thr) : (updCur s f).xl = s.xl := rfl
@[simp] theorem updCur_disp (s : State) (f : Thr → Thr) : (updCur s f).disp = s.disp := rfl
@[simp] theorem updCur_hbm (s : State) (f : Thr → Thr) : (updCur s f).hbm = s.hbm := rfl
@[simp] theorem updCur_qboost (s : State) (f : Thr → Thr) : (updCur s f).qboost = s.qboost := rfl
@[simp] theorem updCur_dboost (s : State) (f : Thr → Thr) : (updCur s f).dboost = s.dboost := rfl
@[simp] theorem updCur_cols (s : State) (f : Thr → Thr) : (updCur s f).cols = s.cols := rfl
@[simp] theorem updCur_link (s : State) (f : Thr → Thr) : (updCur s f).link = s.link := rfl
@[simp] theorem updCur_fw (s : State) (f : Thr → Thr) : (updCur s f).fw = s.fw := rfl
@[simp] theorem updCur_resets (s : State) (f : Thr → Thr) : (updCur s f).resets = s.resets := rfl
@[simp] theorem updCur_agenda (s : State) (f : Thr → Thr) : (updCur s f).agenda = s.agenda := rfl
@[simp] theorem updCur_cur (s : State) (f : Thr → Thr) : (updCur s f).cur = s.cur := rfl
@[simp] theorem updCur_choice (s : State) (f : Thr → Thr) : (updCur s f).choice = s.choice := rfl
@[simp] theorem updCur_nextId (s : State) (f : Thr → Thr) : (updCur s f).nextId = s.nextId := rfl

@[simp] theorem updEng_powered (s : State) (q : Nat) (f : Eng → Eng) : (updEng s q f).powered = s.powered := rfl
@[simp] theorem updEng_time (s : State) (q : Nat) (f : Eng → Eng) : (updEng s q f).time = s.time := rfl
@[simp] theorem updEng_cores (s : State) (q : Nat) (f : Eng → Eng) : (updEng s q f).cores = s.cores := rfl
@[simp] theorem updEng_thrs (s : State) (q : Nat) (f : Eng → Eng) : (updEng s q f).thrs = s.thrs := rfl
@[simp] theorem updEng_engs (s : State) (q : Nat) (f : Eng → Eng) : (updEng s q f).engs = mupd s.engs q {} f := rfl
@[simp] theorem updEng_teams (s : State) (q : Nat) (f : Eng → Eng) : (updEng s q f).teams = s.teams := rfl
@[simp] theorem updEng_mem (s : State) (q : Nat) (f : Eng → Eng) : (updEng s q f).mem = s.mem := rfl
@[simp] theorem updEng_xl (s : State) (q : Nat) (f : Eng → Eng) : (updEng s q f).xl = s.xl := rfl
@[simp] theorem updEng_disp (s : State) (q : Nat) (f : Eng → Eng) : (updEng s q f).disp = s.disp := rfl
@[simp] theorem updEng_hbm (s : State) (q : Nat) (f : Eng → Eng) : (updEng s q f).hbm = s.hbm := rfl
@[simp] theorem updEng_qboost (s : State) (q : Nat) (f : Eng → Eng) : (updEng s q f).qboost = s.qboost := rfl
@[simp] theorem updEng_dboost (s : State) (q : Nat) (f : Eng → Eng) : (updEng s q f).dboost = s.dboost := rfl
@[simp] theorem updEng_cols (s : State) (q : Nat) (f : Eng → Eng) : (updEng s q f).cols = s.cols := rfl
@[simp] theorem updEng_link (s : State) (q : Nat) (f : Eng → Eng) : (updEng s q f).link = s.link := rfl
@[simp] theorem updEng_fw (s : State) (q : Nat) (f : Eng → Eng) : (updEng s q f).fw = s.fw := rfl
@[simp] theorem updEng_resets (s : State) (q : Nat) (f : Eng → Eng) : (updEng s q f).resets = s.resets := rfl
@[simp] theorem updEng_agenda (s : State) (q : Nat) (f : Eng → Eng) : (updEng s q f).agenda = s.agenda := rfl
@[simp] theorem updEng_cur (s : State) (q : Nat) (f : Eng → Eng) : (updEng s q f).cur = s.cur := rfl
@[simp] theorem updEng_choice (s : State) (q : Nat) (f : Eng → Eng) : (updEng s q f).choice = s.choice := rfl
@[simp] theorem updEng_nextId (s : State) (q : Nat) (f : Eng → Eng) : (updEng s q f).nextId = s.nextId := rfl

@[simp] theorem updMem_powered (s : State) (f : Mem → Mem) : (updMem s f).powered = s.powered := rfl
@[simp] theorem updMem_time (s : State) (f : Mem → Mem) : (updMem s f).time = s.time := rfl
@[simp] theorem updMem_cores (s : State) (f : Mem → Mem) : (updMem s f).cores = s.cores := rfl
@[simp] theorem updMem_thrs (s : State) (f : Mem → Mem) : (updMem s f).thrs = s.thrs := rfl
@[simp] theorem updMem_engs (s : State) (f : Mem → Mem) : (updMem s f).engs = s.engs := rfl
@[simp] theorem updMem_teams (s : State) (f : Mem → Mem) : (updMem s f).teams = s.teams := rfl
@[simp] theorem updMem_mem (s : State) (f : Mem → Mem) : (updMem s f).mem = f s.mem := rfl
@[simp] theorem updMem_xl (s : State) (f : Mem → Mem) : (updMem s f).xl = s.xl := rfl
@[simp] theorem updMem_disp (s : State) (f : Mem → Mem) : (updMem s f).disp = s.disp := rfl
@[simp] theorem updMem_hbm (s : State) (f : Mem → Mem) : (updMem s f).hbm = s.hbm := rfl
@[simp] theorem updMem_qboost (s : State) (f : Mem → Mem) : (updMem s f).qboost = s.qboost := rfl
@[simp] theorem updMem_dboost (s : State) (f : Mem → Mem) : (updMem s f).dboost = s.dboost := rfl
@[simp] theorem updMem_cols (s : State) (f : Mem → Mem) : (updMem s f).cols = s.cols := rfl
@[simp] theorem updMem_link (s : State) (f : Mem → Mem) : (updMem s f).link = s.link := rfl
@[simp] theorem updMem_fw (s : State) (f : Mem → Mem) : (updMem s f).fw = s.fw := rfl
@[simp] theorem updMem_resets (s : State) (f : Mem → Mem) : (updMem s f).resets = s.resets := rfl
@[simp] theorem updMem_agenda (s : State) (f : Mem → Mem) : (updMem s f).agenda = s.agenda := rfl
@[simp] theorem updMem_cur (s : State) (f : Mem → Mem) : (updMem s f).cur = s.cur := rfl
@[simp] theorem updMem_choice (s : State) (f : Mem → Mem) : (updMem s f).choice = s.choice := rfl
@[simp] theorem updMem_nextId (s : State) (f : Mem → Mem) : (updMem s f).nextId = s.nextId := rfl

@[simp] theorem updXl_powered (s : State) (f : Xl → Xl) : (updXl s f).powered = s.powered := rfl
@[simp] theorem updXl_time (s : State) (f : Xl → Xl) : (updXl s f).time = s.time := rfl
@[simp] theorem updXl_cores (s : State) (f : Xl → Xl) : (updXl s f).cores = s.cores := rfl
@[simp] theorem updXl_thrs (s : State) (f : Xl → Xl) : (updXl s f).thrs = s.thrs := rfl
@[simp] theorem updXl_engs (s : State) (f : Xl → Xl) : (updXl s f).engs = s.engs := rfl
@[simp] theorem updXl_teams (s : State) (f : Xl → Xl) : (updXl s f).teams = s.teams := rfl
@[simp] theorem updXl_mem (s : State) (f : Xl → Xl) : (updXl s f).mem = s.mem := rfl
@[simp] theorem updXl_xl (s : State) (f : Xl → Xl) : (updXl s f).xl = f s.xl := rfl
@[simp] theorem updXl_disp (s : State) (f : Xl → Xl) : (updXl s f).disp = s.disp := rfl
@[simp] theorem updXl_hbm (s : State) (f : Xl → Xl) : (updXl s f).hbm = s.hbm := rfl
@[simp] theorem updXl_qboost (s : State) (f : Xl → Xl) : (updXl s f).qboost = s.qboost := rfl
@[simp] theorem updXl_dboost (s : State) (f : Xl → Xl) : (updXl s f).dboost = s.dboost := rfl
@[simp] theorem updXl_cols (s : State) (f : Xl → Xl) : (updXl s f).cols = s.cols := rfl
@[simp] theorem updXl_link (s : State) (f : Xl → Xl) : (updXl s f).link = s.link := rfl
@[simp] theorem updXl_fw (s : State) (f : Xl → Xl) : (updXl s f).fw = s.fw := rfl
@[simp] theorem updXl_resets (s : State) (f : Xl → Xl) : (updXl s f).resets = s.resets := rfl
@[simp] theorem updXl_agenda (s : State) (f : Xl → Xl) : (updXl s f).agenda = s.agenda := rfl
@[simp] theorem updXl_cur (s : State) (f : Xl → Xl) : (updXl s f).cur = s.cur := rfl
@[simp] theorem updXl_choice (s : State) (f : Xl → Xl) : (updXl s f).choice = s.choice := rfl
@[simp] theorem updXl_nextId (s : State) (f : Xl → Xl) : (updXl s f).nextId = s.nextId := rfl

@[simp] theorem updDisp_powered (s : State) (f : Disp → Disp) : (updDisp s f).powered = s.powered := rfl
@[simp] theorem updDisp_time (s : State) (f : Disp → Disp) : (updDisp s f).time = s.time := rfl
@[simp] theorem updDisp_cores (s : State) (f : Disp → Disp) : (updDisp s f).cores = s.cores := rfl
@[simp] theorem updDisp_thrs (s : State) (f : Disp → Disp) : (updDisp s f).thrs = s.thrs := rfl
@[simp] theorem updDisp_engs (s : State) (f : Disp → Disp) : (updDisp s f).engs = s.engs := rfl
@[simp] theorem updDisp_teams (s : State) (f : Disp → Disp) : (updDisp s f).teams = s.teams := rfl
@[simp] theorem updDisp_mem (s : State) (f : Disp → Disp) : (updDisp s f).mem = s.mem := rfl
@[simp] theorem updDisp_xl (s : State) (f : Disp → Disp) : (updDisp s f).xl = s.xl := rfl
@[simp] theorem updDisp_disp (s : State) (f : Disp → Disp) : (updDisp s f).disp = f s.disp := rfl
@[simp] theorem updDisp_hbm (s : State) (f : Disp → Disp) : (updDisp s f).hbm = s.hbm := rfl
@[simp] theorem updDisp_qboost (s : State) (f : Disp → Disp) : (updDisp s f).qboost = s.qboost := rfl
@[simp] theorem updDisp_dboost (s : State) (f : Disp → Disp) : (updDisp s f).dboost = s.dboost := rfl
@[simp] theorem updDisp_cols (s : State) (f : Disp → Disp) : (updDisp s f).cols = s.cols := rfl
@[simp] theorem updDisp_link (s : State) (f : Disp → Disp) : (updDisp s f).link = s.link := rfl
@[simp] theorem updDisp_fw (s : State) (f : Disp → Disp) : (updDisp s f).fw = s.fw := rfl
@[simp] theorem updDisp_resets (s : State) (f : Disp → Disp) : (updDisp s f).resets = s.resets := rfl
@[simp] theorem updDisp_agenda (s : State) (f : Disp → Disp) : (updDisp s f).agenda = s.agenda := rfl
@[simp] theorem updDisp_cur (s : State) (f : Disp → Disp) : (updDisp s f).cur = s.cur := rfl
@[simp] theorem updDisp_choice (s : State) (f : Disp → Disp) : (updDisp s f).choice = s.choice := rfl
@[simp] theorem updDisp_nextId (s : State) (f : Disp → Disp) : (updDisp s f).nextId = s.nextId := rfl

@[simp] theorem updFw_powered (s : State) (f : Fw → Fw) : (updFw s f).powered = s.powered := rfl
@[simp] theorem updFw_time (s : State) (f : Fw → Fw) : (updFw s f).time = s.time := rfl
@[simp] theorem updFw_cores (s : State) (f : Fw → Fw) : (updFw s f).cores = s.cores := rfl
@[simp] theorem updFw_thrs (s : State) (f : Fw → Fw) : (updFw s f).thrs = s.thrs := rfl
@[simp] theorem updFw_engs (s : State) (f : Fw → Fw) : (updFw s f).engs = s.engs := rfl
@[simp] theorem updFw_teams (s : State) (f : Fw → Fw) : (updFw s f).teams = s.teams := rfl
@[simp] theorem updFw_mem (s : State) (f : Fw → Fw) : (updFw s f).mem = s.mem := rfl
@[simp] theorem updFw_xl (s : State) (f : Fw → Fw) : (updFw s f).xl = s.xl := rfl
@[simp] theorem updFw_disp (s : State) (f : Fw → Fw) : (updFw s f).disp = s.disp := rfl
@[simp] theorem updFw_hbm (s : State) (f : Fw → Fw) : (updFw s f).hbm = s.hbm := rfl
@[simp] theorem updFw_qboost (s : State) (f : Fw → Fw) : (updFw s f).qboost = s.qboost := rfl
@[simp] theorem updFw_dboost (s : State) (f : Fw → Fw) : (updFw s f).dboost = s.dboost := rfl
@[simp] theorem updFw_cols (s : State) (f : Fw → Fw) : (updFw s f).cols = s.cols := rfl
@[simp] theorem updFw_link (s : State) (f : Fw → Fw) : (updFw s f).link = s.link := rfl
@[simp] theorem updFw_fw (s : State) (f : Fw → Fw) : (updFw s f).fw = f s.fw := rfl
@[simp] theorem updFw_resets (s : State) (f : Fw → Fw) : (updFw s f).resets = s.resets := rfl
@[simp] theorem updFw_agenda (s : State) (f : Fw → Fw) : (updFw s f).agenda = s.agenda := rfl
@[simp] theorem updFw_cur (s : State) (f : Fw → Fw) : (updFw s f).cur = s.cur := rfl
@[simp] theorem updFw_choice (s : State) (f : Fw → Fw) : (updFw s f).choice = s.choice := rfl
@[simp] theorem updFw_nextId (s : State) (f : Fw → Fw) : (updFw s f).nextId = s.nextId := rfl

@[simp] theorem updHbm_powered (s : State) (f : Hbm → Hbm) : (updHbm s f).powered = s.powered := rfl
@[simp] theorem updHbm_time (s : State) (f : Hbm → Hbm) : (updHbm s f).time = s.time := rfl
@[simp] theorem updHbm_cores (s : State) (f : Hbm → Hbm) : (updHbm s f).cores = s.cores := rfl
@[simp] theorem updHbm_thrs (s : State) (f : Hbm → Hbm) : (updHbm s f).thrs = s.thrs := rfl
@[simp] theorem updHbm_engs (s : State) (f : Hbm → Hbm) : (updHbm s f).engs = s.engs := rfl
@[simp] theorem updHbm_teams (s : State) (f : Hbm → Hbm) : (updHbm s f).teams = s.teams := rfl
@[simp] theorem updHbm_mem (s : State) (f : Hbm → Hbm) : (updHbm s f).mem = s.mem := rfl
@[simp] theorem updHbm_xl (s : State) (f : Hbm → Hbm) : (updHbm s f).xl = s.xl := rfl
@[simp] theorem updHbm_disp (s : State) (f : Hbm → Hbm) : (updHbm s f).disp = s.disp := rfl
@[simp] theorem updHbm_hbm (s : State) (f : Hbm → Hbm) : (updHbm s f).hbm = f s.hbm := rfl
@[simp] theorem updHbm_qboost (s : State) (f : Hbm → Hbm) : (updHbm s f).qboost = s.qboost := rfl
@[simp] theorem updHbm_dboost (s : State) (f : Hbm → Hbm) : (updHbm s f).dboost = s.dboost := rfl
@[simp] theorem updHbm_cols (s : State) (f : Hbm → Hbm) : (updHbm s f).cols = s.cols := rfl
@[simp] theorem updHbm_link (s : State) (f : Hbm → Hbm) : (updHbm s f).link = s.link := rfl
@[simp] theorem updHbm_fw (s : State) (f : Hbm → Hbm) : (updHbm s f).fw = s.fw := rfl
@[simp] theorem updHbm_resets (s : State) (f : Hbm → Hbm) : (updHbm s f).resets = s.resets := rfl
@[simp] theorem updHbm_agenda (s : State) (f : Hbm → Hbm) : (updHbm s f).agenda = s.agenda := rfl
@[simp] theorem updHbm_cur (s : State) (f : Hbm → Hbm) : (updHbm s f).cur = s.cur := rfl
@[simp] theorem updHbm_choice (s : State) (f : Hbm → Hbm) : (updHbm s f).choice = s.choice := rfl
@[simp] theorem updHbm_nextId (s : State) (f : Hbm → Hbm) : (updHbm s f).nextId = s.nextId := rfl

@[simp] theorem updLink_powered (s : State) (f : Link → Link) : (updLink s f).powered = s.powered := rfl
@[simp] theorem updLink_time (s : State) (f : Link → Link) : (updLink s f).time = s.time := rfl
@[simp] theorem updLink_cores (s : State) (f : Link → Link) : (updLink s f).cores = s.cores := rfl
@[simp] theorem updLink_thrs (s : State) (f : Link → Link) : (updLink s f).thrs = s.thrs := rfl
@[simp] theorem updLink_engs (s : State) (f : Link → Link) : (updLink s f).engs = s.engs := rfl
@[simp] theorem updLink_teams (s : State) (f : Link → Link) : (updLink s f).teams = s.teams := rfl
@[simp] theorem updLink_mem (s : State) (f : Link → Link) : (updLink s f).mem = s.mem := rfl
@[simp] theorem updLink_xl (s : State) (f : Link → Link) : (updLink s f).xl = s.xl := rfl
@[simp] theorem updLink_disp (s : State) (f : Link → Link) : (updLink s f).disp = s.disp := rfl
@[simp] theorem updLink_hbm (s : State) (f : Link → Link) : (updLink s f).hbm = s.hbm := rfl
@[simp] theorem updLink_qboost (s : State) (f : Link → Link) : (updLink s f).qboost = s.qboost := rfl
@[simp] theorem updLink_dboost (s : State) (f : Link → Link) : (updLink s f).dboost = s.dboost := rfl
@[simp] theorem updLink_cols (s : State) (f : Link → Link) : (updLink s f).cols = s.cols := rfl
@[simp] theorem updLink_link (s : State) (f : Link → Link) : (updLink s f).link = f s.link := rfl
@[simp] theorem updLink_fw (s : State) (f : Link → Link) : (updLink s f).fw = s.fw := rfl
@[simp] theorem updLink_resets (s : State) (f : Link → Link) : (updLink s f).resets = s.resets := rfl
@[simp] theorem updLink_agenda (s : State) (f : Link → Link) : (updLink s f).agenda = s.agenda := rfl
@[simp] theorem updLink_cur (s : State) (f : Link → Link) : (updLink s f).cur = s.cur := rfl
@[simp] theorem updLink_choice (s : State) (f : Link → Link) : (updLink s f).choice = s.choice := rfl
@[simp] theorem updLink_nextId (s : State) (f : Link → Link) : (updLink s f).nextId = s.nextId := rfl

@[simp] theorem pushActs_powered (s : State) (as : List Act) : (pushActs s as).powered = s.powered := rfl
@[simp] theorem pushActs_time (s : State) (as : List Act) : (pushActs s as).time = s.time := rfl
@[simp] theorem pushActs_cores (s : State) (as : List Act) : (pushActs s as).cores = s.cores := rfl
@[simp] theorem pushActs_thrs (s : State) (as : List Act) : (pushActs s as).thrs = s.thrs := rfl
@[simp] theorem pushActs_engs (s : State) (as : List Act) : (pushActs s as).engs = s.engs := rfl
@[simp] theorem pushActs_teams (s : State) (as : List Act) : (pushActs s as).teams = s.teams := rfl
@[simp] theorem pushActs_mem (s : State) (as : List Act) : (pushActs s as).mem = s.mem := rfl
@[simp] theorem pushActs_xl (s : State) (as : List Act) : (pushActs s as).xl = s.xl := rfl
@[simp] theorem pushActs_disp (s : State) (as : List Act) : (pushActs s as).disp = s.disp := rfl
@[simp] theorem pushActs_hbm (s : State) (as : List Act) : (pushActs s as).hbm = s.hbm := rfl
@[simp] theorem pushActs_qboost (s : State) (as : List Act) : (pushActs s as).qboost = s.qboost := rfl
@[simp] theorem pushActs_dboost (s : State) (as : List Act) : (pushActs s as).dboost = s.dboost := rfl
@[simp] theorem pushActs_cols (s : State) (as : List Act) : (pushActs s as).cols = s.cols := rfl
@[simp] theorem pushActs_link (s : State) (as : List Act) : (pushActs s as).link = s.link := rfl
@[simp] theorem pushActs_fw (s : State) (as : List Act) : (pushActs s as).fw = s.fw := rfl
@[simp] theorem pushActs_resets (s : State) (as : List Act) : (pushActs s as).resets = s.resets := rfl
@[simp] theorem pushActs_agenda (s : State) (as : List Act) : (pushActs s as).agenda = as ++ s.agenda := rfl
@[simp] theorem pushActs_cur (s : State) (as : List Act) : (pushActs s as).cur = s.cur := rfl
@[simp] theorem pushActs_choice (s : State) (as : List Act) : (pushActs s as).choice = s.choice := rfl
@[simp] theorem pushActs_nextId (s : State) (as : List Act) : (pushActs s as).nextId = s.nextId := rfl

@[simp] theorem freeN_powered (s : State) : ((freeN s).2).powered = s.powered := rfl
@[simp] theorem freeN_time (s : State) : ((freeN s).2).time = s.time := rfl
@[simp] theorem freeN_cores (s : State) : ((freeN s).2).cores = s.cores := rfl
@[simp] theorem freeN_thrs (s : State) : ((freeN s).2).thrs = s.thrs := rfl
@[simp] theorem freeN_engs (s : State) : ((freeN s).2).engs = s.engs := rfl
@[simp] theorem freeN_teams (s : State) : ((freeN s).2).teams = s.teams := rfl
@[simp] theorem freeN_mem (s : State) : ((freeN s).2).mem = s.mem := rfl
@[simp] theorem freeN_xl (s : State) : ((freeN s).2).xl = s.xl := rfl
@[simp] theorem freeN_disp (s : State) : ((freeN s).2).disp = s.disp := rfl
@[simp] theorem freeN_hbm (s : State) : ((freeN s).2).hbm = s.hbm := rfl
@[simp] theorem freeN_qboost (s : State) : ((freeN s).2).qboost = s.qboost := rfl
@[simp] theorem freeN_dboost (s : State) : ((freeN s).2).dboost = s.dboost := rfl
@[simp] theorem freeN_cols (s : State) : ((freeN s).2).cols = s.cols := rfl
@[simp] theorem freeN_link (s : State) : ((freeN s).2).link = s.link := rfl
@[simp] theorem freeN_fw (s : State) : ((freeN s).2).fw = s.fw := rfl
@[simp] theorem freeN_resets (s : State) : ((freeN s).2).resets = s.resets := rfl
@[simp] theorem freeN_agenda (s : State) : ((freeN s).2).agenda = s.agenda := rfl
@[simp] theorem freeN_cur (s : State) : ((freeN s).2).cur = s.cur := rfl
@[simp] theorem freeN_choice (s : State) : ((freeN s).2).choice = s.choice + 1 := rfl
@[simp] theorem freeN_nextId (s : State) : ((freeN s).2).nextId = s.nextId := rfl

@[simp] theorem freeB_powered (s : State) : ((freeB s).2).powered = s.powered := rfl
@[simp] theorem freeB_time (s : State) : ((freeB s).2).time = s.time := rfl
@[simp] theorem freeB_cores (s : State) : ((freeB s).2).cores = s.cores := rfl
@[simp] theorem freeB_thrs (s : State) : ((freeB s).2).thrs = s.thrs := rfl
@[simp] theorem freeB_engs (s : State) : ((freeB s).2).engs = s.engs := rfl
@[simp] theorem freeB_teams (s : State) : ((freeB s).2).teams = s.teams := rfl
@[simp] theorem freeB_mem (s : State) : ((freeB s).2).mem = s.mem := rfl
@[simp] theorem freeB_xl (s : State) : ((freeB s).2).xl = s.xl := rfl
@[simp] theorem freeB_disp (s : State) : ((freeB s).2).disp = s.disp := rfl
@[simp] theorem freeB_hbm (s : State) : ((freeB s).2).hbm = s.hbm := rfl
@[simp] theorem freeB_qboost (s : State) : ((freeB s).2).qboost = s.qboost := rfl
@[simp] theorem freeB_dboost (s : State) : ((freeB s).2).dboost = s.dboost := rfl
@[simp] theorem freeB_cols (s : State) : ((freeB s).2).cols = s.cols := rfl
@[simp] theorem freeB_link (s : State) : ((freeB s).2).link = s.link := rfl
@[simp] theorem freeB_fw (s : State) : ((freeB s).2).fw = s.fw := rfl
@[simp] theorem freeB_resets (s : State) : ((freeB s).2).resets = s.resets := rfl
@[simp] theorem freeB_agenda (s : State) : ((freeB s).2).agenda = s.agenda := rfl
@[simp] theorem freeB_cur (s : State) : ((freeB s).2).cur = s.cur := rfl
@[simp] theorem freeB_choice (s : State) : ((freeB s).2).choice = s.choice + 1 := rfl
@[simp] theorem freeB_nextId (s : State) : ((freeB s).2).nextId = s.nextId := rfl

@[simp] theorem freshId_powered (s : State) : ((freshId s).2).powered = s.powered := rfl
@[simp] theorem freshId_time (s : State) : ((freshId s).2).time = s.time := rfl
@[simp] theorem freshId_cores (s : State) : ((freshId s).2).cores = s.cores := rfl
@[simp] theorem freshId_thrs (s : State) : ((freshId s).2).thrs = s.thrs := rfl
@[simp] theorem freshId_engs (s : State) : ((freshId s).2).engs = s.engs := rfl
@[simp] theorem freshId_teams (s : State) : ((freshId s).2).teams = s.teams := rfl
@[simp] theorem freshId_mem (s : State) : ((freshId s).2).mem = s.mem := rfl
@[simp] theorem freshId_xl (s : State) : ((freshId s).2).xl = s.xl := rfl
@[simp] theorem freshId_disp (s : State) : ((freshId s).2).disp = s.disp := rfl
@[simp] theorem freshId_hbm (s : State) : ((freshId s).2).hbm = s.hbm := rfl
@[simp] theorem freshId_qboost (s : State) : ((freshId s).2).qboost = s.qboost := rfl
@[simp] theorem freshId_dboost (s : State) : ((freshId s).2).dboost = s.dboost := rfl
@[simp] theorem freshId_cols (s : State) : ((freshId s).2).cols = s.cols := rfl
@[simp] theorem freshId_link (s : State) : ((freshId s).2).link = s.link := rfl
@[simp] theorem freshId_fw (s : State) : ((freshId s).2).fw = s.fw := rfl
@[simp] theorem freshId_resets (s : State) : ((freshId s).2).resets = s.resets := rfl
@[simp] theorem freshId_agenda (s : State) : ((freshId s).2).agenda = s.agenda := rfl
@[simp] theorem freshId_cur (s : State) : ((freshId s).2).cur = s.cur := rfl
@[simp] theorem freshId_choice (s : State) : ((freshId s).2).choice = s.choice := rfl
@[simp] theorem freshId_nextId (s : State) : ((freshId s).2).nextId = s.nextId + 1 := rfl

end Sys2Proof.Machine
end

