-- ==== Sys2Proof/Laws/Safe.lean ====
section
/-! SUPPORT. The canonical form of memory and scratch: the reset state has it, every operation that writes memory or scratch keeps
it, and every other update of the state leaves it alone. -/

namespace Sys2Proof.Machine

/-- The memory of the reset state is in canonical form. -/
theorem reset_memory_wf : Memory.wf State.reset.mem.bytes = true := rfl

/-- Entries of a map after a key is set. -/
theorem mem_mset {α : Type} {m : FMap α} {k : Nat} {x : α} {e : Nat × α} (h : e ∈ mset m k x) : e = (k, x) ∨ e ∈ m := by
  induction m with
  | nil => exact .inl (List.mem_singleton.1 h)
  | cons p m ih =>
    obtain ⟨j, v⟩ := p
    simp only [mset] at h
    split at h
    · rcases List.mem_cons.1 h with h | h
      · exact .inl h
      · exact .inr h
    · split at h
      · rcases List.mem_cons.1 h with h | h
        · exact .inl h
        · exact .inr (List.mem_cons_of_mem _ h)
      · rcases List.mem_cons.1 h with h | h
        · exact .inr (h ▸ List.mem_cons_self)
        · exact (ih h).imp id (List.mem_cons_of_mem _)

/-- A listed value is an entry. -/
theorem mem_of_mget {α : Type} {m : FMap α} {k : Nat} {x : α} (h : mget m k = some x) : (k, x) ∈ m := by
  induction m with
  | nil => cases h
  | cons p m ih =>
    obtain ⟨j, v⟩ := p
    simp only [mget] at h
    split at h
    · rename_i e
      cases h
      exact e ▸ List.mem_cons_self
    · exact List.mem_cons_of_mem _ (ih h)

/-- Entries that are left after a key is removed were there before. -/
theorem mem_mdel {α : Type} {m : FMap α} {k : Nat} {e : Nat × α} (h : e ∈ mdel m k) : e ∈ m := by
  induction m with
  | nil => exact h
  | cons p m ih =>
    obtain ⟨j, v⟩ := p
    simp only [mdel] at h
    split at h
    · exact List.mem_cons_of_mem _ h
    · rcases List.mem_cons.1 h with h | h
      · exact h ▸ List.mem_cons_self
      · exact List.mem_cons_of_mem _ (ih h)

/-- Keeping some bytes keeps the rise of addresses. -/
theorem keysRise_filter {α : Type} (p : Nat × α → Bool) {m : FMap α} {k : Nat} (h : keysRise k m = true) : keysRise k (m.filter p) = true := by
  induction m generalizing k with
  | nil => rfl
  | cons e m ih =>
    obtain ⟨j, v⟩ := e
    simp only [keysRise, Bool.and_eq_true, decide_eq_true_eq] at h
    simp only [List.filter_cons]
    split
    · simp only [keysRise, Bool.and_eq_true, decide_eq_true_eq]
      exact ⟨h.1, ih h.2⟩
    · exact keysRise_le (ih h.2) (Nat.le_succ_of_le h.1)

/-- Keeping some bytes keeps the canonical form (RESIZE, R108). -/
theorem wf_filter (p : Nat × Byte → Bool) {m : List Host.Cell} (h : Memory.wf m = true) : Memory.wf (m.filter p) = true := by
  simp only [Memory.wf, Bool.and_eq_true, List.all_eq_true] at h ⊢
  exact ⟨keysRise_filter p h.1, fun e he => h.2 e (List.mem_filter.1 he).1⟩

/-- Storing bytes one by one from an empty memory gives the canonical form (R412). -/
theorem wf_foldl_bset {α : Type} (l : List α) (a : α → Nat) (b : α → Byte) {m : List Host.Cell} (h : Memory.wf m = true) :
    Memory.wf (l.foldl (fun m x => bset m (a x) (b x)) m) = true := by
  induction l generalizing m with
  | nil => exact h
  | cons x l ih => exact ih (wf_bset _ _ h)

/-! ## Safety of an updated state -/

/-- A state that differs in neither memory, cores nor checkpoint areas is as safe. -/
theorem State.Safe.same {s t : State} (h : s.Safe) (hm : t.mem.bytes = s.mem.bytes) (hc : t.cores = s.cores)
    (hx : t.xl.ckImages = s.xl.ckImages) : t.Safe := by
  unfold State.Safe
  rw [hm, hc, hx]
  exact h

/-- The scratchpad of a core of a safe state. -/
theorem State.Safe.scr {s : State} (h : s.Safe) (c : Nat) : Memory.wf (coreOf s c).scr = true := by
  unfold coreOf mgetD
  cases e : mget s.cores c with
  | none => rfl
  | some k => exact h.2.1 _ (mem_of_mget e)

theorem State.Safe.updCore {s : State} {c : Nat} {f : Core → Core} (h : s.Safe)
    (hf : ∀ k, Memory.wf k.scr = true → Memory.wf (f k).scr = true) : (updCore s c f).Safe := by
  refine ⟨h.1, fun e he => ?_, h.2.2⟩
  rcases mem_mset he with e | e
  · rw [e]
    exact hf _ (h.scr c)
  · exact h.2.1 _ e

theorem State.Safe.updGrp {s : State} {c : Nat} {f : Group → Group} (h : s.Safe) : (updGrp s c f).Safe := h.updCore fun _ k => k

theorem State.Safe.setThr {s : State} {c t : Nat} {u : Thr} (h : s.Safe) : (setThr s c t u).Safe := h
theorem State.Safe.updThr {s : State} {c t : Nat} {f : Thr → Thr} (h : s.Safe) : (updThr s c t f).Safe := h
theorem State.Safe.updCur {s : State} {f : Thr → Thr} (h : s.Safe) : (updCur s f).Safe := h
theorem State.Safe.updEng {s : State} {q : Nat} {f : Eng → Eng} (h : s.Safe) : (updEng s q f).Safe := h
theorem State.Safe.updDisp {s : State} {f : Disp → Disp} (h : s.Safe) : (updDisp s f).Safe := h
theorem State.Safe.updFw {s : State} {f : Fw → Fw} (h : s.Safe) : (updFw s f).Safe := h
theorem State.Safe.updHbm {s : State} {f : Hbm → Hbm} (h : s.Safe) : (updHbm s f).Safe := h
theorem State.Safe.updLink {s : State} {f : Link → Link} (h : s.Safe) : (updLink s f).Safe := h
theorem State.Safe.pushActs {s : State} {as : List Act} (h : s.Safe) : (pushActs s as).Safe := h
theorem State.Safe.freeN {s : State} (h : s.Safe) : (freeN s).2.Safe := h
theorem State.Safe.freeB {s : State} (h : s.Safe) : (freeB s).2.Safe := h
theorem State.Safe.freshId {s : State} (h : s.Safe) : (freshId s).2.Safe := h

theorem State.Safe.updMem {s : State} {f : Mem → Mem} (h : s.Safe) (hf : Memory.wf (f s.mem).bytes = true) : (updMem s f).Safe :=
  ⟨hf, h.2.1, h.2.2⟩

theorem State.Safe.updXl {s : State} {f : Xl → Xl} (h : s.Safe)
    (hf : ∀ e ∈ (f s.xl).ckImages, Memory.wf e.2.core.scr = true ∧ ∀ k ∈ e.2.lent, Memory.wf k.scr = true) :
    (updXl s f).Safe := ⟨h.1, h.2.1, hf⟩

/-- A write at the home keeps the canonical form (R128). -/
theorem State.Safe.homeWrite {s : State} {pa : Nat} {bs : List (Byte × Bool)} (h : s.Safe) : (homeWrite s pa bs).Safe := by
  unfold Machine.homeWrite
  split
  · exact h
  · exact h.updMem (wf_bsetL _ _ h.1)

/-- The new limit of a scratchpad keeps the canonical form (R108). -/
theorem State.Safe.setSplit {s : State} {c k lim : Nat} (h : s.Safe) : (setSplit s c k lim).Safe :=
  (h.updCore fun _ w => wf_filter _ w).updGrp

/-- A fold of safe updates is safe. -/
theorem State.Safe.foldl {α : Type} {f : State → α → State} (hf : ∀ s a, s.Safe → (f s a).Safe) {s : State} (h : s.Safe) (l : List α) :
    (l.foldl f s).Safe := by
  induction l generalizing s with
  | nil => exact h
  | cons a l ih => exact ih (hf s a h)

/-- Storing several runs of bytes keeps the canonical form. -/
theorem wf_foldl_bsetL {α : Type} (l : List α) (a : α → Nat) (b : α → List Byte) {m : List Host.Cell} (h : Memory.wf m = true) :
    Memory.wf (l.foldl (fun m x => bsetL m (a x) (b x)) m) = true := by
  induction l generalizing m with
  | nil => exact h
  | cons x l ih => exact ih (wf_bsetL _ _ h)

/-- A placed program keeps the canonical form. -/
theorem withFetchWord_bytes {s : State} (nbits w : Nat) (h : Memory.wf s.mem.bytes = true) :
    Memory.wf (s.withFetchWord nbits w).mem.bytes = true :=
  wf_bsetL _ _ (wf_foldl_bsetL placeTables (fun p => p.1) (fun p => natLe 8 p.2) h)

end Sys2Proof.Machine
end

