-- ==== Sys2Proof/Laws/Ops.lean ====
section
/-! SUPPORT. What the shared operations of the machine can do, once for each: checks, the end of an instruction, holds, pending results,
tags, entries of an engine's table, writes of memory and scratch. -/

namespace Sys2Proof.Machine

/-! ## Checks before an effect -/

@[simp] theorem checked_none (s go : State) : checked s none go = go := rfl
@[simp] theorem checked_some (s go : State) (f : FRec) : checked s (some f) go = takeFault s f := rfl
@[simp] theorem badIf_false (f : FRec) : badIf false f = none := rfl
@[simp] theorem badIf_true (f : FRec) : badIf true f = some f := rfl
@[simp] theorem firstBad_nil : firstBad [] = none := rfl
@[simp] theorem firstBad_none (l : List (Option FRec)) : firstBad (none :: l) = firstBad l := rfl
@[simp] theorem firstBad_some (f : FRec) (l : List (Option FRec)) : firstBad (some f :: l) = some f := rfl
@[simp] theorem withCard_got (i : Instr) (s : State) (bs : List Byte) (go : List Byte → State) : withCard i s (.got bs) go = go bs := rfl
@[simp] theorem withCard_bad (i : Instr) (s : State) (f : FRec) (go : List Byte → State) : withCard i s (.bad f) go = takeFault s f := rfl

/-- No check failed exactly when each passes. -/
theorem firstBad_eq_none (l : List (Option FRec)) : firstBad l = none ↔ ∀ f ∈ l, f = none := by
  simp [firstBad]

/-- With room and an engine in service the entry takes its place. -/
theorem withRoom_go {i : Instr} {s go : State} {q : Nat} (h : tableFull (engOf s q) = false) (g : engineDown s q = false) :
    withRoom i s q go = go := by
  simp [withRoom, h, g]

/-! ## Operations that change one thread only -/

/-- From s to u only the thread t of core c changes. -/
structure ThreadOnly (c t : Nat) (s u : State) : Prop where
  rest : { u with thrs := s.thrs } = s
  others : ∀ k, k ≠ tkey c t → mget u.thrs k = mget s.thrs k

theorem ThreadOnly.refl (c t : Nat) (s : State) : ThreadOnly c t s s := ⟨rfl, fun _ _ => rfl⟩

theorem ThreadOnly.trans {c t : Nat} {s u v : State} (h : ThreadOnly c t s u) (k : ThreadOnly c t u v) : ThreadOnly c t s v := by
  refine ⟨?_, fun j e => (k.others j e).trans (h.others j e)⟩
  have a := h.rest
  have b := k.rest
  rw [← b] at a
  exact a

theorem threadOnly_updThr (s : State) (c t : Nat) (f : Thr → Thr) : ThreadOnly c t s (updThr s c t f) :=
  ⟨rfl, fun _ h => mget_mupd_other s.thrs {} f h⟩

theorem threadOnly_setThr (s : State) (c t : Nat) (u : Thr) : ThreadOnly c t s (setThr s c t u) :=
  ⟨rfl, fun _ h => mget_mset_other s.thrs u h⟩

theorem threadOnly_updCur (s : State) (f : Thr → Thr) : ThreadOnly s.cur.core s.cur.thr s (updCur s f) := threadOnly_updThr s _ _ f

/-- The issued set stays what it was. -/
theorem ThreadOnly.cur {c t : Nat} {s u : State} (h : ThreadOnly c t s u) : u.cur = s.cur := by rw [← h.rest]
theorem ThreadOnly.mem {c t : Nat} {s u : State} (h : ThreadOnly c t s u) : u.mem = s.mem := by rw [← h.rest]
theorem ThreadOnly.cores {c t : Nat} {s u : State} (h : ThreadOnly c t s u) : u.cores = s.cores := by rw [← h.rest]
theorem ThreadOnly.engs {c t : Nat} {s u : State} (h : ThreadOnly c t s u) : u.engs = s.engs := by rw [← h.rest]
theorem ThreadOnly.xl {c t : Nat} {s u : State} (h : ThreadOnly c t s u) : u.xl = s.xl := by rw [← h.rest]

/-- Such a change keeps a state safe. -/
theorem ThreadOnly.safe {c t : Nat} {s u : State} (h : ThreadOnly c t s u) (k : s.Safe) : u.Safe :=
  k.same (congrArg Mem.bytes h.mem) h.cores (congrArg Xl.ckImages h.xl)

theorem threadOnly_killDead (i : Instr) (x : Form) (s : State) : ThreadOnly s.cur.core s.cur.thr s (killDead i x s) := threadOnly_updCur s _
theorem threadOnly_emptyAll (i : Instr) (x : Form) (n : Nat) (s0 s : State) : ThreadOnly s.cur.core s.cur.thr s (emptyAll i x n s0 s) :=
  threadOnly_updCur s _
theorem threadOnly_advance (s : State) : ThreadOnly s.cur.core s.cur.thr s (advance s) := threadOnly_updCur s _
theorem threadOnly_account (x : Form) (a b : Nat) (s : State) : ThreadOnly s.cur.core s.cur.thr s (account x a b s) := threadOnly_updCur s _
theorem threadOnly_leavePlace (s : State) : ThreadOnly s.cur.core s.cur.thr s (leavePlace s) := threadOnly_updCur s _

/-- One of two changes of the issuing thread, the second perhaps with leaving its place. -/
theorem threadOnly_choice (s : State) (f g : Thr → Thr) (other b : Bool) : ThreadOnly s.cur.core s.cur.thr s
    (if other then updCur s f else if b then leavePlace (updCur s g) else updCur s g) := by
  cases other
  · cases b
    · exact threadOnly_updCur s g
    · exact (threadOnly_updCur s g).trans (threadOnly_leavePlace (updCur s g))
  · exact threadOnly_updCur s f

/-- A hold changes the issuing thread only. -/
theorem threadOnly_holdOn (i : Instr) (s : State) (why : Why) (a b c : Bool) : ThreadOnly s.cur.core s.cur.thr s (holdOn i s why a b c) :=
  threadOnly_choice s _ _ _ _

/-! ## Safety of what shared operations leave -/

theorem State.Safe.leaveNow {s : State} {c t : Nat} (h : s.Safe) : (leaveNow s c t).Safe := by
  unfold Machine.leaveNow
  dsimp only
  split
  · exact h.setThr
  · exact State.Safe.updMem h.setThr h.1

theorem State.Safe.leaveSoon {s : State} (h : s.Safe) : (leaveSoon s).Safe := by
  unfold Machine.leaveSoon
  split
  · exact h.updCur
  · exact h.leaveNow

theorem State.Safe.yieldNow {s : State} (h : s.Safe) : (yieldNow s).Safe := by
  unfold Machine.yieldNow
  split
  · exact h
  · dsimp only
    split
    · exact (threadOnly_leavePlace _).safe h.leaveSoon
    · exact h.leaveSoon

/-- The leave actions at the end of an instruction keep a state safe. -/
theorem safe_leaving {x : Form} {s0 u : State} {b : Bool} (h : u.Safe) :
    (if curFe s0 then u else if x.yld then yieldNow u else if b || heldYield s0 then leaveSoon u else u).Safe := by
  cases curFe s0
  · cases x.yld
    · cases b || heldYield s0
      · exact h
      · exact h.leaveSoon
    · exact h.yieldNow
  · exact h

/-- The end of an instruction keeps a state safe. -/
theorem State.Safe.finish {i : Instr} {x : Form} {s0 s : State} {b : Bool} (h : s.Safe) : (finish i x s0 b s).Safe :=
  safe_leaving ((threadOnly_account x _ _ (advance s)).safe ((threadOnly_advance s).safe h))

/-- A pending result is added, and nothing else but the counters changes. -/
theorem addFill_spec (x : Form) (n : Nat) (lanes : BitVec 32) (what : FillWhat) (s : State) (g : Fill → Fill) :
    ∃ f : Fill, (addFill x n lanes what s g).mem = { s.mem with fills := s.mem.fills ++ [g f] } ∧ f.core = s.cur.core ∧
      f.thr = s.cur.thr ∧ f.lanes = lanes ∧ f.dst = dstOf x n ∧ f.what = what ∧ s.time < f.due ∧
      { addFill x n lanes what s g with mem := s.mem, nextId := s.nextId, choice := s.choice } = s :=
  ⟨_, rfl, rfl, rfl, rfl, rfl, rfl, by simp; omega, rfl⟩

theorem State.Safe.addFill {x : Form} {n : Nat} {lanes : BitVec 32} {what : FillWhat} {s : State} {g : Fill → Fill} (h : s.Safe) :
    (addFill x n lanes what s g).Safe := h

/-- A tag becomes busy, done or idle; no other tag of the core changes. -/
theorem tagOf_tagBusy (s : State) (c t : Nat) : tagOf (tagBusy s c t) c t = .busy := by
  simp [tagOf, tagBusy, coreOf, mgetD_mupd_self, mgetD_mset_self]
theorem tagOf_tagDone (s : State) (c t n : Nat) : tagOf (tagDone s c t n) c t = .done := by
  simp [tagOf, tagDone, coreOf, mgetD_mupd_self, mgetD_mset_self]
theorem tagOf_tagBusy_other (s : State) (c : Nat) {t k : Nat} (h : k ≠ t) : tagOf (tagBusy s c t) c k = tagOf s c k := by
  simp [tagOf, tagBusy, coreOf, mgetD_mupd_self, mgetD_mset_other _ _ _ h]
theorem tagOf_tagDone_other (s : State) (c n : Nat) {t k : Nat} (h : k ≠ t) : tagOf (tagDone s c t n) c k = tagOf s c k := by
  simp [tagOf, tagDone, coreOf, mgetD_mupd_self, mgetD_mset_other _ _ _ h]
theorem State.Safe.tagBusy {s : State} {c t : Nat} (h : s.Safe) : (tagBusy s c t).Safe := h.updCore fun _ k => k
theorem State.Safe.tagDone {s : State} {c t n : Nat} (h : s.Safe) : (tagDone s c t n).Safe := h.updCore fun _ k => k

/-- An entry takes its place in the table of one engine, and the claims and releases whose turn has come take effect. -/
theorem engOf_enterEnt (s : State) (q : Nat) (n : Ent) :
    engOf (enterEnt s q n) q = settleSlots { engOf s q with table := (engOf s q).table ++ [{ n with id := s.nextId }], idle := false } := by
  simp [enterEnt, Machine.freshId, engOf, updEng, mgetD_mupd_self]
theorem engOf_enterEnt_other (s : State) {q p : Nat} (n : Ent) (h : p ≠ q) : engOf (enterEnt s q n) p = engOf s p := by
  simp [enterEnt, Machine.freshId, engOf, updEng, mgetD_mupd_other _ _ _ _ h]
theorem enterEnt_rest (s : State) (q : Nat) (n : Ent) : { enterEnt s q n with engs := s.engs, nextId := s.nextId } = s := rfl
theorem State.Safe.enterEnt {s : State} {q : Nat} {n : Ent} (h : s.Safe) : (enterEnt s q n).Safe := h

/-- Reservations that are broken or dropped leave everything else. -/
theorem State.Safe.breakResv {s : State} {p : Resv → Bool} {g : Nat} (h : s.Safe) : (breakResv s p g).Safe := h
theorem State.Safe.dropResvs {s : State} {c t : Nat} (h : s.Safe) : (dropResvs s c t).Safe := h
theorem State.Safe.wakeSleepers {s : State} {p : Nat → Bool} {g : Loc} {w : Writer} (h : s.Safe) : (wakeSleepers s p g w).Safe := h
theorem State.Safe.updStore {s : State} {n : Nat} {f : Store → Store} (h : s.Safe) : (updStore s n f).Safe := h
theorem State.Safe.refreshVis {s : State} {d l : Nat} (h : s.Safe) : (refreshVis s d l).Safe := by
  unfold Machine.refreshVis
  dsimp only
  exact State.Safe.foldl (fun _ _ k => State.Safe.wakeSleepers k) (h.updMem h.1) _

/-- What is noted of a store for engines changes no part of the state but that note. -/
theorem notePast_rest (s : State) (w : Writer) (b lo : Nat) (old : List (Byte × Bool)) :
    { notePast s w b lo old with mem := { (notePast s w b lo old).mem with was := s.mem.was, wasN := s.mem.wasN } } = s := by
  cases w <;> rfl
@[simp] theorem notePast_cores (s : State) (w : Writer) (b lo : Nat) (old : List (Byte × Bool)) : (notePast s w b lo old).cores = s.cores := by
  cases w <;> rfl
theorem State.Safe.notePast {s : State} {w : Writer} {b lo : Nat} {old : List (Byte × Bool)} (h : s.Safe) : (notePast s w b lo old).Safe := by
  cases w <;> exact h
/-- What is noted of code words, and an engine fence, change no byte. -/
theorem noteCode_rest (s : State) (pa n : Nat) :
    { noteCode s pa n with mem := { (noteCode s pa n).mem with code := s.mem.code, wasN := s.mem.wasN } } = s := by
  unfold Machine.noteCode
  split <;> rfl
theorem State.Safe.noteCode {s : State} {pa n : Nat} (h : s.Safe) : (noteCode s pa n).Safe := by
  unfold Machine.noteCode
  split <;> exact h
theorem State.Safe.passEngineFence {s : State} {c t : Nat} {m : BitVec 32} (h : s.Safe) : (passEngineFence s c t m).Safe := h

/-- What tagged work wrote over is forgotten: nothing else changes. -/
theorem scr_forgetPast (s : State) (w : Writer) (loc : Loc) (n k : Nat) : (coreOf (forgetPast s w loc n) k).scr = (coreOf s k).scr := by
  have key : ∀ (l : FMap Core) (f : Core → Core), (∀ c, (f c).scr = c.scr) →
      (mgetD (l.map fun (c, o) => (c, f o)) k {}).scr = (mgetD l k {}).scr := by
    intro l f hf
    induction l with
    | nil => rfl
    | cons e l ih =>
      obtain ⟨j, o⟩ := e
      by_cases ej : j = k
      · simp [mgetD, mget, ej, hf]
      · simpa [mgetD, mget, ej] using ih
  unfold Machine.forgetPast
  cases w
  case engine => rfl
  all_goals
    dsimp only
    split
    · rfl
    · exact key s.cores (fun k => { k with past := k.past.filter fun p => !(locMeets p.loc p.old.length loc n) }) fun _ => rfl
theorem State.Safe.forgetPast {s : State} {w : Writer} {loc : Loc} {n : Nat} (h : s.Safe) : (forgetPast s w loc n).Safe := by
  unfold Machine.forgetPast
  cases w
  case engine => exact h
  all_goals
    dsimp only
    split
    · exact h
    · refine ⟨h.1, fun e he => ?_, h.2.2⟩
      obtain ⟨a, ha, rfl⟩ := List.mem_map.1 he
      exact h.2.1 a ha

/-- A write of scratch keeps the canonical form. -/
theorem State.Safe.scrWrite {s : State} {core k off : Nat} {bs : List (Byte × Bool)} {w : Writer} (h : s.Safe) :
    (scrWrite s core k off bs w).Safe :=
  ((((h.forgetPast (loc := .scr k off) (n := bs.length)).notePast.updCore (c := k) (f := fun c => { c with scr := bsetL c.scr off (bs.map (·.1)), scrP := poisonAfter c.scrP off bs })
    fun _ v => wf_bsetL _ _ v).updGrp).breakResv).wakeSleepers

/-- A write of scratch stores its bytes in that scratchpad and in no other. -/
theorem scr_scrWrite (s : State) (core k off : Nat) (bs : List (Byte × Bool)) (w : Writer) (h : core ≠ k) :
    (coreOf (scrWrite s core k off bs w) k).scr = bsetL (coreOf s k).scr off (bs.map (·.1)) := by
  simp [Machine.scrWrite, Machine.wakeSleepers, Machine.breakResv, coreOf, notePast_cores, mgetD_mupd_other _ _ _ _ (Ne.symm h), mgetD_mupd_self]
  exact congrArg (fun m => bsetL m off (bs.map (·.1))) (scr_forgetPast s w _ _ k)

/-- A write at the home stores its bytes, but none in register space, and changes nothing else but poison. -/
theorem homeWrite_bytes (s : State) {pa : Nat} (bs : List (Byte × Bool)) (h : ∀ k, regionOf pa ≠ .reg k) :
    (homeWrite s pa bs).mem.bytes = bsetL s.mem.bytes pa (bs.map (·.1)) := by
  unfold Machine.homeWrite
  split
  · exact absurd ‹_› (h _)
  · rfl
theorem homeWrite_rest (s : State) (pa : Nat) (bs : List (Byte × Bool)) :
    { homeWrite s pa bs with mem := { (homeWrite s pa bs).mem with bytes := s.mem.bytes, poison := s.mem.poison } } = s := by
  unfold Machine.homeWrite
  split <;> rfl

end Sys2Proof.Machine
end

