-- ==== Sys2Proof/Laws/PerInstr.lean ====
section
/-! SUPPORT. Facts stated per instruction: the family Encodes (an instruction is a word exactly when it carries fields). -/

namespace Sys2Proof.Laws.Encodes

/-- An instruction that carries the fields of a word has an OPC (R202), and only such an instruction or an unassigned
word is encoded. -/
def Statement (i : Instr) : Prop := i.form.isSome = i.opc.isSome

theorem iadd (x : Form) : Statement (.iadd x) := rfl
theorem isub (x : Form) : Statement (.isub x) := rfl
theorem imul (x : Form) : Statement (.imul x) := rfl
theorem imulh (x : Form) : Statement (.imulh x) := rfl
theorem imulhn (x : Form) : Statement (.imulhn x) := rfl
theorem imad (x : Form) : Statement (.imad x) := rfl
theorem idiv (x : Form) : Statement (.idiv x) := rfl
theorem idivn (x : Form) : Statement (.idivn x) := rfl
theorem irem (x : Form) : Statement (.irem x) := rfl
theorem iremn (x : Form) : Statement (.iremn x) := rfl
theorem ineg (x : Form) : Statement (.ineg x) := rfl
theorem iabs (x : Form) : Statement (.iabs x) := rfl
theorem imin (x : Form) : Statement (.imin x) := rfl
theorem imax (x : Form) : Statement (.imax x) := rfl
theorem iminn (x : Form) : Statement (.iminn x) := rfl
theorem imaxn (x : Form) : Statement (.imaxn x) := rfl
theorem and (x : Form) : Statement (.and x) := rfl
theorem or (x : Form) : Statement (.or x) := rfl
theorem xor (x : Form) : Statement (.xor x) := rfl
theorem andn (x : Form) : Statement (.andn x) := rfl
theorem shl (x : Form) : Statement (.shl x) := rfl
theorem shrl (x : Form) : Statement (.shrl x) := rfl
theorem shra (x : Form) : Statement (.shra x) := rfl
theorem rotl (x : Form) : Statement (.rotl x) := rfl
theorem popc (x : Form) : Statement (.popc x) := rfl
theorem clz (x : Form) : Statement (.clz x) := rfl
theorem ctz (x : Form) : Statement (.ctz x) := rfl
theorem brev (x : Form) : Statement (.brev x) := rfl
theorem bfx (x : Form) : Statement (.bfx x) := rfl
theorem bfxn (x : Form) : Statement (.bfxn x) := rfl
theorem bfi (x : Form) : Statement (.bfi x) := rfl
theorem isat (x : Form) : Statement (.isat x) := rfl
theorem icmp (x : Form) : Statement (.icmp x) := rfl
theorem sel (x : Form) : Statement (.sel x) := rfl
theorem mov (x : Form) : Statement (.mov x) := rfl
theorem ldi (x : Form) : Statement (.ldi x) := rfl
theorem lea (x : Form) : Statement (.lea x) := rfl
theorem fadd (x : Form) : Statement (.fadd x) := rfl
theorem fsub (x : Form) : Statement (.fsub x) := rfl
theorem fmul (x : Form) : Statement (.fmul x) := rfl
theorem ffma (x : Form) : Statement (.ffma x) := rfl
theorem fmin (x : Form) : Statement (.fmin x) := rfl
theorem fmax (x : Form) : Statement (.fmax x) := rfl
theorem fdiv (x : Form) : Statement (.fdiv x) := rfl
theorem fsqrt (x : Form) : Statement (.fsqrt x) := rfl
theorem frcp (x : Form) : Statement (.frcp x) := rfl
theorem frsq (x : Form) : Statement (.frsq x) := rfl
theorem fexp2 (x : Form) : Statement (.fexp2 x) := rfl
theorem flog2 (x : Form) : Statement (.flog2 x) := rfl
theorem fsin (x : Form) : Statement (.fsin x) := rfl
theorem fcos (x : Form) : Statement (.fcos x) := rfl
theorem fcmp (x : Form) : Statement (.fcmp x) := rfl
theorem fclass (x : Form) : Statement (.fclass x) := rfl
theorem frnd (x : Form) : Statement (.frnd x) := rfl
theorem fdot2 (x : Form) : Statement (.fdot2 x) := rfl
theorem fscale (x : Form) : Statement (.fscale x) := rfl
theorem cvt (x : Form) : Statement (.cvt x) := rfl
theorem cvtdx (x : Form) : Statement (.cvtdx x) := rfl
theorem undx (x : Form) : Statement (.undx x) := rfl
theorem maxabs (x : Form) : Statement (.maxabs x) := rfl
theorem blkscl (x : Form) : Statement (.blkscl x) := rfl
theorem qnt (x : Form) : Statement (.qnt x) := rfl
theorem dqnt (x : Form) : Statement (.dqnt x) := rfl
theorem rmod (x : Form) : Statement (.rmod x) := rfl
theorem rmad (x : Form) : Statement (.rmad x) := rfl
theorem rsplit (x : Form) : Statement (.rsplit x) := rfl
theorem rmrc (x : Form) : Statement (.rmrc x) := rfl
theorem pack (x : Form) : Statement (.pack x) := rfl
theorem shfl (x : Form) : Statement (.shfl x) := rfl
theorem vote (x : Form) : Statement (.vote x) := rfl
theorem redux (x : Form) : Statement (.redux x) := rfl
theorem scan (x : Form) : Statement (.scan x) := rfl
theorem matchL (x : Form) : Statement (.matchL x) := rfl
theorem pand (x : Form) : Statement (.pand x) := rfl
theorem por (x : Form) : Statement (.por x) := rfl
theorem pxor (x : Form) : Statement (.pxor x) := rfl
theorem pmov (x : Form) : Statement (.pmov x) := rfl
theorem bra (x : Form) : Statement (.bra x) := rfl
theorem brx (x : Form) : Statement (.brx x) := rfl
theorem call (x : Form) : Statement (.call x) := rfl
theorem ret (x : Form) : Statement (.ret x) := rfl
theorem meet (x : Form) : Statement (.meet x) := rfl
theorem exit (x : Form) : Statement (.exit x) := rfl
theorem spawn (x : Form) : Statement (.spawn x) := rfl
theorem rebask (x : Form) : Statement (.rebask x) := rfl
theorem yield (x : Form) : Statement (.yield x) := rfl
theorem nop (x : Form) : Statement (.nop x) := rfl
theorem loop (x : Form) : Statement (.loop x) := rfl
theorem launch (x : Form) : Statement (.launch x) := rfl
theorem regacq (x : Form) : Statement (.regacq x) := rfl
theorem regrel (x : Form) : Statement (.regrel x) := rfl
theorem sleep (x : Form) : Statement (.sleep x) := rfl
theorem send (x : Form) : Statement (.send x) := rfl
theorem recv (x : Form) : Statement (.recv x) := rfl
theorem ld (x : Form) : Statement (.ld x) := rfl
theorem st (x : Form) : Statement (.st x) := rfl
theorem sfill (x : Form) : Statement (.sfill x) := rfl
theorem pref (x : Form) : Statement (.pref x) := rfl
theorem atom (x : Form) : Statement (.atom x) := rfl
theorem red (x : Form) : Statement (.red x) := rfl
theorem lr (x : Form) : Statement (.lr x) := rfl
theorem sc (x : Form) : Statement (.sc x) := rfl
theorem fence (x : Form) : Statement (.fence x) := rfl
theorem cctl (x : Form) : Statement (.cctl x) := rfl
theorem binit (x : Form) : Statement (.binit x) := rfl
theorem barrive (x : Form) : Statement (.barrive x) := rfl
theorem bwait (x : Form) : Statement (.bwait x) := rfl
theorem bexpect (x : Form) : Statement (.bexpect x) := rfl
theorem bdrop (x : Form) : Statement (.bdrop x) := rfl
theorem cbar (x : Form) : Statement (.cbar x) := rfl
theorem qbar (x : Form) : Statement (.qbar x) := rfl
theorem mwait (x : Form) : Statement (.mwait x) := rfl
theorem cpy (x : Form) : Statement (.cpy x) := rfl
theorem cpyj (x : Form) : Statement (.cpyj x) := rfl
theorem sadv (x : Form) : Statement (.sadv x) := rfl
theorem twait (x : Form) : Statement (.twait x) := rfl
theorem twany (x : Form) : Statement (.twany x) := rfl
theorem tfirst (x : Form) : Statement (.tfirst x) := rfl
theorem tclr (x : Form) : Statement (.tclr x) := rfl
theorem basis (x : Form) : Statement (.basis x) := rfl
theorem oclm (x : Form) : Statement (.oclm x) := rfl
theorem orel (x : Form) : Statement (.orel x) := rfl
theorem oload (x : Form) : Statement (.oload x) := rfl
theorem qmma (x : Form) : Statement (.qmma x) := rfl
theorem aclr (x : Form) : Statement (.aclr x) := rfl
theorem adrain (x : Form) : Statement (.adrain x) := rfl
theorem scld (x : Form) : Statement (.scld x) := rfl
theorem mjob (x : Form) : Statement (.mjob x) := rfl
theorem mstat (x : Form) : Statement (.mstat x) := rfl
theorem btjob (x : Form) : Statement (.btjob x) := rfl
theorem trap (x : Form) : Statement (.trap x) := rfl
theorem eret (x : Form) : Statement (.eret x) := rfl
theorem csrr (x : Form) : Statement (.csrr x) := rfl
theorem csrw (x : Form) : Statement (.csrw x) := rfl
theorem csrs (x : Form) : Statement (.csrs x) := rfl
theorem csrc (x : Form) : Statement (.csrc x) := rfl
theorem ckpt (x : Form) : Statement (.ckpt x) := rfl
theorem rsto (x : Form) : Statement (.rsto x) := rfl
theorem tlbiVa (x : Form) : Statement (.tlbiVa x) := rfl
theorem tlbiAsid (x : Form) : Statement (.tlbiAsid x) := rfl
theorem tlbiAll (x : Form) : Statement (.tlbiAll x) := rfl
theorem time (x : Form) : Statement (.time x) := rfl
theorem brk (x : Form) : Statement (.brk x) := rfl
theorem resize (x : Form) : Statement (.resize x) := rfl
theorem tierh (x : Form) : Statement (.tierh x) := rfl
theorem perf (x : Form) : Statement (.perf x) := rfl
theorem parkHalt (x : Form) : Statement (.parkHalt x) := rfl
theorem parkRun (x : Form) : Statement (.parkRun x) := rfl
theorem parkQuery (x : Form) : Statement (.parkQuery x) := rfl
theorem fairnessSwitch (core wat : Nat) : Statement (.fairnessSwitch core wat) := rfl
theorem serialRotate (core wat : Nat) : Statement (.serialRotate core wat) := rfl
theorem activeSetFill (core : Nat) : Statement (.activeSetFill core) := rfl
theorem basketProofLaunch (core basket : Nat) : Statement (.basketProofLaunch core basket) := rfl
theorem sendUnblock (core thr : Nat) : Statement (.sendUnblock core thr) := rfl
theorem recvDeliver (core thr : Nat) : Statement (.recvDeliver core thr) := rfl
theorem portOrphan (core thr : Nat) : Statement (.portOrphan core thr) := rfl
theorem resultFill (fill : Nat) : Statement (.resultFill fill) := rfl
theorem gridEnd (grid : Nat) : Statement (.gridEnd grid) := rfl
theorem doorbell (q nbytes : Nat) (v : DWord) : Statement (.doorbell q nbytes v) := rfl
theorem qcancel (q : Nat) (v : DWord) : Statement (.qcancel q v) := rfl
theorem queueControlWrite (q off : Nat) (v : DWord) : Statement (.queueControlWrite q off v) := rfl
theorem recordValidate (q : Nat) : Statement (.recordValidate q) := rfl
theorem agePromote (q : Nat) : Statement (.agePromote q) := rfl
theorem footprintFull (core thr : Nat) : Statement (.footprintFull core thr) := rfl
theorem sensorSample (readings : List (Nat × Nat)) : Statement (.sensorSample readings) := rfl
theorem migrateGroup (core : Nat) : Statement (.migrateGroup core) := rfl
theorem hardLimitPreempt (quad : Nat) : Statement (.hardLimitPreempt quad) := rfl
theorem copyStart (core : Nat) : Statement (.copyStart core) := rfl
theorem copyComplete (core job : Nat) : Statement (.copyComplete core job) := rfl
theorem schedEntrySubmit (core : Nat) : Statement (.schedEntrySubmit core) := rfl
theorem sfillLand (core job : Nat) : Statement (.sfillLand core job) := rfl
theorem regacqGrant (core : Nat) : Statement (.regacqGrant core) := rfl
theorem sleepWake (core thr : Nat) : Statement (.sleepWake core thr) := rfl
theorem sleepTimeout (core thr : Nat) : Statement (.sleepTimeout core thr) := rfl
theorem mwaitReread (core thr : Nat) : Statement (.mwaitReread core thr) := rfl
theorem tagWaitReturn (core thr : Nat) : Statement (.tagWaitReturn core thr) := rfl
theorem bteComplete (die : Nat) : Statement (.bteComplete die) := rfl
theorem vaultBankSleep (bank : Nat) : Statement (.vaultBankSleep bank) := rfl
theorem vaultBankWake (bank : Nat) : Statement (.vaultBankWake bank) := rfl
theorem vaultReplay (req : Nat) : Statement (.vaultReplay req) := rfl
theorem pageMoveStart (page : Nat) : Statement (.pageMoveStart page) := rfl
theorem pageMoveComplete (page : Nat) : Statement (.pageMoveComplete page) := rfl
theorem storeAccept (st : Nat) : Statement (.storeAccept st) := rfl
theorem storeApply (st : Nat) : Statement (.storeApply st) := rfl
theorem storeAck (st : Nat) : Statement (.storeAck st) := rfl
theorem leaseExpire (die line : Nat) : Statement (.leaseExpire die line) := rfl
theorem writebackAge (die : Nat) : Statement (.writebackAge die) := rfl
theorem lineEvict (die line : Nat) : Statement (.lineEvict die line) := rfl
theorem hearthAtomic (op : Nat) : Statement (.hearthAtomic op) := rfl
theorem rcellPartialArrive (tree off : Nat) (sum : BitVec 384) (status : BitVec 3) : Statement (.rcellPartialArrive tree off sum status) := rfl
theorem pageWalkComplete (walk : Nat) : Statement (.pageWalkComplete walk) := rfl
theorem tlbiComplete (core thr : Nat) : Statement (.tlbiComplete core thr) := rfl
theorem engineGrant (quad : Nat) : Statement (.engineGrant quad) := rfl
theorem passComplete (quad grp : Nat) : Statement (.passComplete quad grp) := rfl
theorem reproofPass (quad grp : Nat) : Statement (.reproofPass quad grp) := rfl
theorem oloadComplete (quad ent : Nat) : Statement (.oloadComplete quad ent) := rfl
theorem scldComplete (quad ent : Nat) : Statement (.scldComplete quad ent) := rfl
theorem drainComplete (quad ent : Nat) : Statement (.drainComplete quad ent) := rfl
theorem jobStart (quad ent : Nat) : Statement (.jobStart quad ent) := rfl
theorem jobComplete (quad ent : Nat) : Statement (.jobComplete quad ent) := rfl
theorem preemptRequest (core : Nat) : Statement (.preemptRequest core) := rfl
theorem preemptHalt (core : Nat) : Statement (.preemptHalt core) := rfl
theorem checkpointWriteComplete (core : Nat) : Statement (.checkpointWriteComplete core) := rfl
theorem groupRestore (core : Nat) : Statement (.groupRestore core) := rfl
theorem registerRestoreBackground (core thr reg : Nat) : Statement (.registerRestoreBackground core thr reg) := rfl
theorem hostMemWrite (pa : Nat) (bytes : List Byte) : Statement (.hostMemWrite pa bytes) := rfl
theorem hostMemRead (pa len : Nat) : Statement (.hostMemRead pa len) := rfl
theorem hostLinkReset (link : Nat) : Statement (.hostLinkReset link) := rfl
theorem ualinkPortEnable (port : Nat) (v : DWord) : Statement (.ualinkPortEnable port v) := rfl
theorem ualinkPortRst (port : Nat) : Statement (.ualinkPortRst port) := rfl
theorem ualinkPortTrained (port lanes peer : Nat) : Statement (.ualinkPortTrained port lanes peer) := rfl
theorem ualinkPortDown (port : Nat) : Statement (.ualinkPortDown port) := rfl
theorem partWrite (part : Nat) (v : DWord) : Statement (.partWrite part v) := rfl
theorem tpcfgWrite (v : DWord) : Statement (.tpcfgWrite v) := rfl
theorem registerWrite (off : Nat) (v : DWord) : Statement (.registerWrite off v) := rfl
theorem hbmBankAccess (die bank : Nat) : Statement (.hbmBankAccess die bank) := rfl
theorem rfmBlockEnd (die bank : Nat) : Statement (.rfmBlockEnd die bank) := rfl
theorem hbmRefresh (die bank : Nat) : Statement (.hbmRefresh die bank) := rfl
theorem patrolScrub (die bank : Nat) : Statement (.patrolScrub die bank) := rfl
theorem columnTest (core outcome : Nat) : Statement (.columnTest core outcome) := rfl
theorem errorDetect (cls unit addr synd : Nat) : Statement (.errorDetect cls unit addr synd) := rfl
theorem einjWrite (v : DWord) : Statement (.einjWrite v) := rfl
theorem engineReset (unit : Nat) : Statement (.engineReset unit) := rfl
theorem umagilLinkReset (unit : Nat) : Statement (.umagilLinkReset unit) := rfl
theorem ualinkPortResetCmd (unit : Nat) : Statement (.ualinkPortResetCmd unit) := rfl
theorem computeDieReset (unit : Nat) : Statement (.computeDieReset unit) := rfl
theorem memoryDieReset (unit : Nat) : Statement (.memoryDieReset unit) := rfl
theorem partitionReset (unit : Nat) : Statement (.partitionReset unit) := rfl
theorem resetComplete (kind unit : Nat) : Statement (.resetComplete kind unit) := rfl
theorem retireSlot (unit : Nat) : Statement (.retireSlot unit) := rfl
theorem retireCore (unit : Nat) : Statement (.retireCore unit) := rfl
theorem l2pRebuild (part : Nat) : Statement (.l2pRebuild part) := rfl
theorem illegalOpcode (w : IWord) : Statement (.illegalOpcode w) := rfl
theorem aclrComplete (quad ent : Nat) : Statement (.aclrComplete quad ent) := rfl
theorem basisComplete (core thr : Nat) : Statement (.basisComplete core thr) := rfl
theorem completionHorizonPassed (core thr : Nat) : Statement (.completionHorizonPassed core thr) := rfl
theorem translationRegisterWrite (off : Nat) (v : DWord) : Statement (.translationRegisterWrite off v) := rfl
theorem dispatchSelect : Statement (.dispatchSelect) := rfl
theorem deal : Statement (.deal) := rfl
theorem thermalForcedDeal : Statement (.thermalForcedDeal) := rfl
theorem activationWindowStart : Statement (.activationWindowStart) := rfl
theorem boostBoundary : Statement (.boostBoundary) := rfl
theorem injectedDetection : Statement (.injectedDetection) := rfl
theorem load : Statement (.load) := rfl
theorem firmwareHandover : Statement (.firmwareHandover) := rfl
theorem packageReset : Statement (.packageReset) := rfl
theorem attest : Statement (.attest) := rfl
theorem setpol : Statement (.setpol) := rfl
theorem standbyTakeover : Statement (.standbyTakeover) := rfl
theorem powerLoss : Statement (.powerLoss) := rfl

end Sys2Proof.Laws.Encodes
end

