-- ==== Sys2Proof/Laws/Regs.lean ====
section
/-! SUPPORT. Laws of threads, lanes, registers, operand-cache slots and latches: each write is read back where it was
made, and nowhere else. -/

namespace Sys2Proof.Machine

/-! ## Threads -/

theorem mset_mset {α : Type} (m : FMap α) (k : Nat) (x y : α) : mset (mset m k x) k y = mset m k y := by
  induction m with
  | nil => simp [mset]
  | cons c m ih =>
    obtain ⟨j, v⟩ := c
    simp only [mset]
    split
    · simp [mset]
    · split
      · rename_i h2; subst h2; simp [mset]
      · rename_i h1 h2; simp [mset, h1, h2, ih]

@[simp] theorem curThr_updCur (s : State) (f : Thr → Thr) : curThr (updCur s f) = f (curThr s) :=
  mgetD_mupd_self s.thrs (tkey s.cur.core s.cur.thr) {} f

theorem updCur_updCur (s : State) (f g : Thr → Thr) : updCur (updCur s f) g = updCur s fun t => g (f t) := by
  simp only [updCur, updThr, mupd, mgetD_mset_self, mset_mset]

theorem mset_mget {α : Type} (m : FMap α) (k : Nat) (x : α) (h : mget m k = some x) (hr : keysRise 0 m = true) : mset m k x = m := by
  have gen : ∀ (m : FMap α) (i : Nat), keysRise i m = true → mget m k = some x → mset m k x = m := by
    intro m
    induction m with
    | nil => intro i _ h; simp [mget] at h
    | cons c m ih =>
      obtain ⟨j, v⟩ := c
      intro i hr h
      simp only [keysRise, Bool.and_eq_true, decide_eq_true_eq] at hr
      simp only [mget] at h
      simp only [mset]
      by_cases e : j = k
      · subst e; simp_all
      · have hk : ¬ k < j := by
          intro lt
          rw [if_neg e, mget_below hr.2 (by omega)] at h
          exact absurd h (by simp)
        rw [if_neg hk, if_neg e, ih (j + 1) hr.2 (by simpa [e] using h)]
  exact gen m 0 hr h

@[simp] theorem curCycle_updCur (s : State) (f : Thr → Thr) : curCycle (updCur s f) = curCycle s := rfl
@[simp] theorem curFe_updCur (s : State) (f : Thr → Thr) : curFe (updCur s f) = curFe s := rfl

/-! ## Lanes -/

theorem mem_lanesOf {m : BitVec 32} {l : Nat} : l ∈ lanesOf m ↔ l < 32 ∧ m.getLsbD l = true := by
  simp [lanesOf, List.mem_filter, List.mem_range]

theorem nodup_lanesOf (m : BitVec 32) : (lanesOf m).Nodup :=
  (List.nodup_range).filter _

theorem length_lset {α : Type} (xs : List α) (n : Nat) (y : α) : (lset xs n y).length = xs.length := by
  induction xs generalizing n with
  | nil => rfl
  | cons x xs ih => cases n <;> simp [lset, ih]

theorem getD_lset_self {α : Type} (xs : List α) (n : Nat) (y d : α) (h : n < xs.length) : (lset xs n y).getD n d = y := by
  induction xs generalizing n with
  | nil => simp at h
  | cons x xs ih =>
    cases n with
    | zero => rfl
    | succ n => simpa [lset] using ih n (by simpa using h)

theorem getD_lset_other {α : Type} (xs : List α) {n k : Nat} (y d : α) (h : k ≠ n) : (lset xs n y).getD k d = xs.getD k d := by
  induction xs generalizing n k with
  | nil => rfl
  | cons x xs ih =>
    cases n with
    | zero => cases k with
      | zero => exact absurd rfl h
      | succ k => rfl
    | succ n => cases k with
      | zero => rfl
      | succ k => simpa [lset] using ih (by omega)

theorem laneOf_updLane_self (t : Thr) (l : Nat) (f : Lane → Lane) (h : l < t.lanes.length) :
    laneOf (updLane t l f) l = f (laneOf t l) :=
  getD_lset_self t.lanes l _ _ h

theorem laneOf_updLane_other (t : Thr) {l k : Nat} (f : Lane → Lane) (h : k ≠ l) : laneOf (updLane t l f) k = laneOf t k :=
  getD_lset_other t.lanes _ _ h

/-- A live lane is one of the thread's lanes. -/
theorem live_lt (t : Thr) (l : Nat) (h : (laneOf t l).live = true) : l < t.lanes.length := by
  by_cases hl : l < t.lanes.length
  · exact hl
  · simp [laneOf, List.getD, List.getElem?_eq_none (Nat.le_of_not_lt hl), Lane.live] at h

theorem mem_maskOf (ls : List Nat) (m : BitVec 32) (l : Nat) (hl : l < 32) :
    (ls.foldl (fun m k => m ||| (1#32 <<< k)) m).getLsbD l = (m.getLsbD l || ls.contains l) := by
  induction ls generalizing m with
  | nil => simp
  | cons k ks ih =>
    rw [List.foldl_cons, ih]
    simp only [BitVec.getLsbD_or, BitVec.getLsbD_shiftLeft, List.contains_cons]
    by_cases e : l = k
    · subst e; simp [hl]
    · have e' : (l == k) = false := by simpa using e
      by_cases lt : l < k
      · simp [lt, e']
      · have h1 : l - k ≠ 0 := by omega
        simp [lt, e', h1]

/-- The lanes of the mask of some lanes. -/
theorem mem_lanesOf_maskOf (ls : List Nat) (l : Nat) : l ∈ lanesOf (maskOf ls) ↔ l < 32 ∧ l ∈ ls := by
  rw [mem_lanesOf]
  constructor
  · rintro ⟨h, m⟩
    rw [maskOf, show (0 : BitVec 32) = 0#32 from rfl, mem_maskOf ls 0#32 l h] at m
    exact ⟨h, by simpa using m⟩
  · rintro ⟨h, m⟩
    refine ⟨h, ?_⟩
    rw [maskOf, mem_maskOf ls _ l h]
    simpa using m

/-- The active lanes: issued, live and with a true guard (R201). -/
theorem mem_active (s : State) (x : Form) (l : Nat) :
    l ∈ lanesOf (actMask s x) ↔ l ∈ lanesOf s.cur.mask ∧ (laneOf (curThr s) l).live = true ∧ guardOf (curThr s) x l = true := by
  simp only [actMask, mem_lanesOf_maskOf, List.mem_filter, Bool.and_eq_true]
  constructor
  · rintro ⟨-, h⟩; exact h
  · intro h; exact ⟨(mem_lanesOf.1 h.1).1, h⟩

/-! ## Main file, slots, latches -/

theorem regOf_updReg_self (t : Thr) (l n : Nat) (f : Reg → Reg) : regOf (updReg t l n f) l n = f (regOf t l n) :=
  mgetD_mupd_self t.regs (rkey l n) {} f

theorem regOf_updReg_other (t : Thr) {l n k m : Nat} (f : Reg → Reg) (h : k ≠ l ∨ m ≠ n) (hn : n < 256) (hm : m < 256) :
    regOf (updReg t l n f) k m = regOf t k m := by
  refine mgetD_mupd_other t.regs {} {} f ?_
  simp only [rkey]; omega

@[simp] theorem regOf_updSlot (t : Thr) (l k a b : Nat) (f : Slot → Slot) : regOf (updSlot t l k f) a b = regOf t a b := rfl
@[simp] theorem slotOf_updReg (t : Thr) (l k a b : Nat) (f : Reg → Reg) : slotOf (updReg t l k f) a b = slotOf t a b := rfl
@[simp] theorem latOf_updReg (t : Thr) (l k a b : Nat) (f : Reg → Reg) : latOf (updReg t l k f) a b = latOf t a b := rfl
@[simp] theorem latOf_updSlot (t : Thr) (l k a b : Nat) (f : Slot → Slot) : latOf (updSlot t l k f) a b = latOf t a b := rfl
@[simp] theorem isLent_updReg (t : Thr) (l k : Nat) (f : Reg → Reg) (a : BitVec 32) (n : Nat) :
    isLent (updReg t l k f) a n = isLent t a n := rfl
@[simp] theorem isLent_updSlot (t : Thr) (l k : Nat) (f : Slot → Slot) (a : BitVec 32) (n : Nat) :
    isLent (updSlot t l k f) a n = isLent t a n := rfl

theorem slotOf_updSlot_self (t : Thr) (l n : Nat) (f : Slot → Slot) : slotOf (updSlot t l n f) l n = f (slotOf t l n) :=
  mgetD_mupd_self t.slots (l * 6 + n) {} f

theorem slotOf_updSlot_other (t : Thr) {l n k m : Nat} (f : Slot → Slot) (h : k ≠ l ∨ m ≠ n) (hn : n < 6) (hm : m < 6) :
    slotOf (updSlot t l n f) k m = slotOf t k m := by
  refine mgetD_mupd_other t.slots {} {} f ?_
  omega

/-- A slot of another number outlives a dead-marked read (R221). -/
theorem slotOf_killSlots_other (t : Thr) (b : BitVec 32) {n k m : Nat} (h : m ≠ n) (hm : m < 6) :
    slotOf (killSlots t b n) k m = slotOf t k m := by
  have hk : (k * 6 + m) % 6 ≠ n := by omega
  unfold slotOf killSlots mgetD
  simp only
  induction t.slots with
  | nil => rfl
  | cons e l ih =>
    obtain ⟨j, o⟩ := e
    rw [List.map_cons]
    by_cases ej : j = k * 6 + m
    · subst ej
      rw [if_neg (by simp [show ¬ m % 6 = n by omega])]
      simp only [mget, if_true]
    · split <;> simpa only [mget, if_neg ej] using ih

@[simp] theorem regOf_killSlots (t : Thr) (b : BitVec 32) (n k r : Nat) : regOf (killSlots t b n) k r = regOf t k r := rfl

@[simp] theorem regOf_pushLatch (t : Thr) (l : Nat) (v : DWord) (a p : Bool) (k n : Nat) :
    regOf (pushLatch t l v a p) k n = regOf t k n := rfl
@[simp] theorem slotOf_pushLatch (t : Thr) (l : Nat) (v : DWord) (a p : Bool) (k n : Nat) :
    slotOf (pushLatch t l v a p) k n = slotOf t k n := rfl
@[simp] theorem isLent_pushLatch (t : Thr) (l : Nat) (v : DWord) (a p : Bool) (m : BitVec 32) (n : Nat) :
    isLent (pushLatch t l v a p) m n = isLent t m n := rfl

theorem latOf_pushLatch_new (t : Thr) (l : Nat) (v : DWord) (a p : Bool) :
    latOf (pushLatch t l v a p) l 0 = { v := v, valid := a, poison := p } := by
  simp [latOf, pushLatch, mgetD_mset_self]

theorem latOf_pushLatch_old (t : Thr) (l : Nat) (v : DWord) (a p : Bool) : latOf (pushLatch t l v a p) l 1 = latOf t l 0 := by
  simp only [latOf, pushLatch]
  rw [mgetD_mset_other _ _ _ (by omega), mgetD_mset_self]

theorem latOf_pushLatch_other (t : Thr) {l k j : Nat} (v : DWord) (a p : Bool) (h : k ≠ l) (hj : j < 2) :
    latOf (pushLatch t l v a p) k j = latOf t k j := by
  simp only [latOf, pushLatch]
  rw [mgetD_mset_other _ _ _ (by omega), mgetD_mset_other _ _ _ (by omega)]

/-! ## Results of n words (R219 to R222) -/

/-- Nothing of a thread but main file and slots changes. -/
def SameRest (t u : Thr) : Prop := { u with regs := t.regs, slots := t.slots } = t

theorem SameRest.lat {t u : Thr} (h : SameRest t u) : u.lat = t.lat := by rw [← h]
theorem SameRest.slices {t u : Thr} (h : SameRest t u) : u.slices = t.slices := by rw [← h]
theorem SameRest.refl (t : Thr) : SameRest t t := rfl
theorem SameRest.trans {t u v : Thr} (h : SameRest t u) (k : SameRest u v) : SameRest t v := by
  unfold SameRest at *; rw [← h, ← k]

theorem sameRest_writeWord (t : Thr) (act : BitVec 32) (d : Dst) (l i c : Nat) (w : Word) (p : Bool) :
    SameRest t (writeWord t act d l i c w p) := by
  simp only [SameRest, writeWord]
  split
  · split <;> rfl
  · rfl

theorem sameRest_writeWords (t : Thr) (act : BitVec 32) (d : Dst) (l c : Nat) (p : Bool) (i : Nat) (ws : List Word) :
    SameRest t (writeWords t act d l c p i ws) := by
  induction ws generalizing t i with
  | nil => exact .refl t
  | cons w ws ih => exact (sameRest_writeWord t act d l i c w p).trans (ih _ _)

theorem isLent_of_slices {t u : Thr} (h : u.slices = t.slices) (m : BitVec 32) (n : Nat) : isLent u m n = isLent t m n := by
  simp [isLent, h]

/-- The version that a result of R222 leaves in the main file. -/
def mainVer (t : Thr) (act : BitVec 32) (r c : Nat) (w : Word) (p : Bool) : Ver :=
  { v := w, full := true, poison := p, dead := false, rdy := c + if isLent t act r then 10 else 4 }

/-- The version that it leaves in a slot. -/
def slotVer (d : Dst) (r c : Nat) (w : Word) (p : Bool) : SlotVer :=
  { ver := { v := w, full := true, poison := p, rdy := c + 2 }, home := r, st := if d.wb then .clean else .dirty }

theorem regOf_writeWord_self (t : Thr) (act : BitVec 32) (d : Dst) (l i c : Nat) (w : Word) (p : Bool)
    (h : d.cache = false ∨ d.wb = true) :
    (regOf (writeWord t act d l i c w p) l (d.reg + i)).cur = mainVer t act (d.reg + i) c w p := by
  simp only [writeWord, mainVer]
  split
  · rename_i hc
    have hw : d.wb = true := by simpa [hc] using h
    simp [hw, regOf_updReg_self, pushVer]
  · simp [regOf_updReg_self, pushVer]

theorem slotOf_writeWord_self (t : Thr) (act : BitVec 32) (d : Dst) (l i c : Nat) (w : Word) (p : Bool) (h : d.cache = true) :
    (slotOf (writeWord t act d l i c w p) l (d.slot + i)).cur = slotVer d (d.reg + i) c w p := by
  simp only [writeWord, slotVer, h, if_true]
  split <;> simp [slotOf_updSlot_self, pushSlot, *]

theorem regOf_writeWord_other (t : Thr) (act : BitVec 32) (d : Dst) {l i k r : Nat} (c : Nat) (w : Word) (p : Bool)
    (h : k ≠ l ∨ r ≠ d.reg + i) (hd : d.reg + i < 256) (hr : r < 256) :
    regOf (writeWord t act d l i c w p) k r = regOf t k r := by
  simp only [writeWord]
  split
  · split
    · rw [regOf_updReg_other _ _ h hd hr]; rfl
    · rfl
  · exact regOf_updReg_other _ _ h hd hr

theorem slotOf_writeWord_other (t : Thr) (act : BitVec 32) (d : Dst) {l i k r : Nat} (c : Nat) (w : Word) (p : Bool)
    (h : d.cache = false ∨ k ≠ l ∨ r ≠ d.slot + i) (hd : d.cache = true → d.slot + i < 6) (hr : r < 6) :
    slotOf (writeWord t act d l i c w p) k r = slotOf t k r := by
  simp only [writeWord]
  split
  · rename_i hc
    have h' : k ≠ l ∨ r ≠ d.slot + i := by simpa [hc] using h
    split
    · rw [slotOf_updReg]; exact slotOf_updSlot_other _ _ h' (hd hc) hr
    · exact slotOf_updSlot_other _ _ h' (hd hc) hr
  · rfl

theorem regOf_writeWords_other (t : Thr) (act : BitVec 32) (d : Dst) {l i k r : Nat} (c : Nat) (p : Bool) (ws : List Word)
    (h : k ≠ l ∨ r < d.reg + i ∨ d.reg + i + ws.length ≤ r) (hd : d.reg + i + ws.length ≤ 256) (hr : r < 256) :
    regOf (writeWords t act d l c p i ws) k r = regOf t k r := by
  induction ws generalizing t i with
  | nil => rfl
  | cons w ws ih =>
    simp only [List.length_cons] at h hd
    rw [writeWords, ih _ (by omega) (by omega), regOf_writeWord_other t act d c w p (by omega) (by omega) hr]

theorem slotOf_writeWords_other (t : Thr) (act : BitVec 32) (d : Dst) {l i k r : Nat} (c : Nat) (p : Bool) (ws : List Word)
    (h : d.cache = false ∨ k ≠ l ∨ r < d.slot + i ∨ d.slot + i + ws.length ≤ r)
    (hd : d.cache = true → d.slot + i + ws.length ≤ 6) (hr : r < 6) :
    slotOf (writeWords t act d l c p i ws) k r = slotOf t k r := by
  induction ws generalizing t i with
  | nil => rfl
  | cons w ws ih =>
    simp only [List.length_cons] at h hd
    have h2 : d.cache = false ∨ k ≠ l ∨ r ≠ d.slot + i := by
      rcases h with h | h | h
      · exact .inl h
      · exact .inr (.inl h)
      · exact .inr (.inr (by omega))
    have h3 : d.cache = false ∨ k ≠ l ∨ r < d.slot + (i + 1) ∨ d.slot + (i + 1) + ws.length ≤ r := by
      rcases h with h | h | h
      · exact .inl h
      · exact .inr (.inl h)
      · exact .inr (.inr (by omega))
    rw [writeWords, ih _ h3 (by intro hc; have := hd hc; omega),
      slotOf_writeWord_other t act d c w p h2 (by intro hc; have := hd hc; omega) hr]

theorem regOf_writeWords_self (t : Thr) (act : BitVec 32) (d : Dst) (l i c : Nat) (p : Bool) (ws : List Word) (k : Nat)
    (hk : k < ws.length) (h : d.cache = false ∨ d.wb = true) (hd : d.reg + i + ws.length ≤ 256) :
    (regOf (writeWords t act d l c p i ws) l (d.reg + i + k)).cur = mainVer t act (d.reg + i + k) c (ws.getD k 0) p := by
  induction ws generalizing t i k with
  | nil => simp at hk
  | cons w ws ih =>
    simp only [List.length_cons] at hk hd
    have hs : (writeWord t act d l i c w p).slices = t.slices := (sameRest_writeWord t act d l i c w p).slices
    cases k with
    | zero =>
      rw [writeWords, regOf_writeWords_other _ act d c p ws (by omega) (by omega) (by omega)]
      simpa using regOf_writeWord_self t act d l i c w p h
    | succ k =>
      have := ih (writeWord t act d l i c w p) (i + 1) k (by omega) (by omega)
      rw [writeWords, show d.reg + i + (k + 1) = d.reg + (i + 1) + k from by omega, this]
      simp [mainVer, isLent_of_slices hs]

theorem slotOf_writeWords_self (t : Thr) (act : BitVec 32) (d : Dst) (l i c : Nat) (p : Bool) (ws : List Word) (k : Nat)
    (hk : k < ws.length) (h : d.cache = true) (hd : d.slot + i + ws.length ≤ 6) :
    (slotOf (writeWords t act d l c p i ws) l (d.slot + i + k)).cur = slotVer d (d.reg + i + k) c (ws.getD k 0) p := by
  induction ws generalizing t i k with
  | nil => simp at hk
  | cons w ws ih =>
    simp only [List.length_cons] at hk hd
    cases k with
    | zero =>
      rw [writeWords, slotOf_writeWords_other _ act d c p ws (by right; right; omega) (by intro; omega) (by omega)]
      simpa using slotOf_writeWord_self t act d l i c w p h
    | succ k =>
      have := ih (writeWord t act d l i c w p) (i + 1) k (by omega) (by omega)
      rw [writeWords, show d.slot + i + (k + 1) = d.slot + (i + 1) + k from by omega, this]
      simp [slotVer, show d.reg + (i + 1) + k = d.reg + i + (k + 1) from by omega]

end Sys2Proof.Machine
end

