-- ==== Sys2Proof/Laws/Results.lean ====
section
/-! SUPPORT. What the shared operations of the issuing thread do: an instruction that runs passes every shared check; a
fixed-latency instruction writes its results and nothing else; the end of an instruction advances its lanes. -/

namespace Sys2Proof.Machine

open Sys2Proof.Claim

/-! ## The shared checks -/

/-- An instruction that runs has no reason to stop. -/
theorem prelude_of_runs {i : Instr} {x : Form} {s : State} (h : Runs i x s) : prelude i x s = none := by
  unfold prelude
  have ha : ¬ actMask s x = 0#32 := h.act
  simp [h.chk, h.ready, h.held, ha, h.trap, h.latch, h.full, h.here, h.free]

/-- An instruction that runs has its effect. -/
theorem run_of_runs {i : Instr} {x : Form} {s : State} (k : State) (h : Runs i x s) : run i x s k = .next k := by
  simp [run, prelude_of_runs h]

/-! ## Dead marks -/

/-- What changes of a thread before the end of an instruction: main file, slots, latches and DEADRD. -/
structure SameCore (t u : Thr) : Prop where
  rest : { u with regs := t.regs, slots := t.slots, lat := t.lat, numst := t.numst } = t
  numst : u.numst = t.numst ∨ u.numst = t.numst ||| 2#32

theorem SameCore.refl (t : Thr) : SameCore t t := ⟨rfl, .inl rfl⟩

theorem or_two (a : BitVec 32) : a ||| 2#32 ||| 2#32 = a ||| 2#32 := by rw [BitVec.or_assoc]; rfl

theorem SameCore.trans {t u v : Thr} (h : SameCore t u) (k : SameCore u v) : SameCore t v := by
  refine ⟨?_, ?_⟩
  · have e := h.rest; rw [← k.rest] at e; exact e
  · rcases k.numst with k | k <;> rcases h.numst with h | h <;> simp [k, h, or_two]

theorem SameCore.slices {t u : Thr} (h : SameCore t u) : u.slices = t.slices := by rw [← h.rest]
theorem SameCore.lanes {t u : Thr} (h : SameCore t u) : u.lanes = t.lanes := by rw [← h.rest]

theorem sameCore_of_rest {t u : Thr} (h : SameRest t u) : SameCore t u := by
  refine ⟨?_, .inl (by rw [← h])⟩
  have : u.lat = t.lat := h.lat
  have n : u.numst = t.numst := by rw [← h]
  unfold SameRest at h
  rw [← h]

theorem sameRest_foldl {α : Type} (ls : List α) (g : Thr → α → Thr) (hg : ∀ t a, SameRest t (g t a)) (t : Thr) :
    SameRest t (ls.foldl g t) := by
  induction ls generalizing t with
  | nil => exact .refl t
  | cons a ls ih => exact (hg t a).trans (ih _)

/-- A fold leaves alone what every step of it leaves alone. -/
theorem foldl_keeps {α β γ : Type} (ls : List α) (g : β → α → β) (q : β → γ) (h : ∀ b, ∀ a ∈ ls, q (g b a) = q b) (b : β) :
    q (ls.foldl g b) = q b := by
  induction ls generalizing b with
  | nil => rfl
  | cons a ls ih =>
    rw [List.foldl_cons, ih (fun b c hc => h b c (List.mem_cons_of_mem _ hc)), h b a (List.mem_cons_self ..)]

/-- Dead marks of one field in one lane (R229, R221). -/
def killField (m : BitVec 32) (t : Thr) (l : Nat) (f : Field) : Thr :=
  if !f.o.dead then t
  else match f.o.space with
    | .main => (List.range f.n).foldl (fun t k => updReg t l (f.o.index.toNat + k) killReg) t
    | .cache => (List.range f.n).foldl (fun t k => killSlots t m (f.o.index.toNat + k)) t
    | _ => t

theorem sameRest_killField (m : BitVec 32) (t : Thr) (l : Nat) (f : Field) : SameRest t (killField m t l f) := by
  unfold killField
  split
  · exact .refl t
  · split
    · refine sameRest_foldl _ _ (fun t a => ?_) t; rfl
    · refine sameRest_foldl _ _ (fun t a => ?_) t; rfl
    · exact .refl t

theorem regOf_killField (m : BitVec 32) (t : Thr) (l : Nat) (f : Field) {k r : Nat} (hr : r < 256)
    (hf : f.o.space = .main → f.o.index.toNat + f.n ≤ 256)
    (h : f.o.dead = true → f.o.space = .main → ¬ (f.o.index.toNat ≤ r ∧ r < f.o.index.toNat + f.n)) :
    regOf (killField m t l f) k r = regOf t k r := by
  unfold killField
  split
  · rfl
  · rename_i hd
    have hd : f.o.dead = true := by simpa using hd
    split
    · rename_i hs
      have h1 := h hd hs
      have h2 := hf hs
      refine foldl_keeps _ _ (fun t => regOf t k r) (fun b a ha => ?_) t
      have := List.mem_range.1 ha
      exact regOf_updReg_other _ _ (by omega) (by omega) hr
    · refine foldl_keeps _ _ (fun t => regOf t k r) (fun b a ha => ?_) t; rfl
    · rfl

theorem slotOf_killField (m : BitVec 32) (t : Thr) (l : Nat) (f : Field) {k r : Nat} (hr : r < 6)
    (hf : f.o.space = .cache → f.o.index.toNat + f.n ≤ 6)
    (h : f.o.dead = true → f.o.space = .cache → ¬ (f.o.index.toNat ≤ r ∧ r < f.o.index.toNat + f.n)) :
    slotOf (killField m t l f) k r = slotOf t k r := by
  unfold killField
  split
  · rfl
  · rename_i hd
    have hd : f.o.dead = true := by simpa using hd
    split
    · refine foldl_keeps _ _ (fun t => slotOf t k r) (fun b a ha => ?_) t; rfl
    · rename_i hs
      have h1 := h hd hs
      have h2 := hf hs
      refine foldl_keeps _ _ (fun t => slotOf t k r) (fun b a ha => ?_) t
      have := List.mem_range.1 ha
      exact slotOf_killSlots_other _ _ (by omega) hr
    · rfl

/-- The dead marks of an instruction, field by field and lane by lane. -/
theorem killDead_eq (i : Instr) (x : Form) (s : State) : ∃ b : Bool, killDead i x s = updCur s fun t =>
    let t := (readLanes i x s).foldl (fun t l => (fieldsOf i x).foldl (fun t f => killField s.cur.mask t l f) t) t
    if b then t.sticky 1 else t := ⟨_, rfl⟩

/-- What dead marks leave: only the thread differs, and in it only marked registers and slots, and DEADRD. -/
theorem killDead_spec (i : Instr) (x : Form) (s : State) :
    ∃ t, killDead i x s = (updCur s fun _ => t) ∧ SameCore (curThr s) t ∧ t.lat = (curThr s).lat ∧
      (∀ k r, r < 256 → (∀ f ∈ fieldsOf i x, f.o.space = .main → f.o.index.toNat + f.n ≤ 256) →
        (∀ f ∈ fieldsOf i x, f.o.dead = true → f.o.space = .main → ¬ (f.o.index.toNat ≤ r ∧ r < f.o.index.toNat + f.n)) →
        regOf t k r = regOf (curThr s) k r) ∧
      (∀ k r, r < 6 → (∀ f ∈ fieldsOf i x, f.o.space = .cache → f.o.index.toNat + f.n ≤ 6) →
        (∀ f ∈ fieldsOf i x, f.o.dead = true → f.o.space = .cache → ¬ (f.o.index.toNat ≤ r ∧ r < f.o.index.toNat + f.n)) →
        slotOf t k r = slotOf (curThr s) k r) := by
  obtain ⟨b, hb⟩ := killDead_eq i x s
  let body := fun t : Thr => (readLanes i x s).foldl (fun t l => (fieldsOf i x).foldl (fun t f => killField s.cur.mask t l f) t) t
  have hrest : SameRest (curThr s) (body (curThr s)) :=
    sameRest_foldl _ _ (fun t l => sameRest_foldl _ _ (fun t f => sameRest_killField _ t l f) t) _
  refine ⟨if b then (body (curThr s)).sticky 1 else body (curThr s), ?_, ?_, ?_, ?_, ?_⟩
  · rw [hb]; rfl
  · refine (sameCore_of_rest hrest).trans ?_
    split
    · exact ⟨rfl, .inr rfl⟩
    · exact .refl _
  · split
    · exact hrest.lat
    · exact hrest.lat
  · intro k r hr hf h
    have e : regOf (body (curThr s)) k r = regOf (curThr s) k r :=
      foldl_keeps _ _ (fun t => regOf t k r) (fun t l _ =>
        foldl_keeps _ _ (fun t => regOf t k r) (fun t f hm => regOf_killField _ t l f hr (hf f hm) (h f hm)) t) _
    split
    · exact e
    · exact e
  · intro k r hr hf h
    have e : slotOf (body (curThr s)) k r = slotOf (curThr s) k r :=
      foldl_keeps _ _ (fun t => slotOf t k r) (fun t l _ =>
        foldl_keeps _ _ (fun t => slotOf t k r) (fun t f hm => slotOf_killField _ t l f hr (hf f hm) (h f hm)) t) _
    split
    · exact e
    · exact e

/-! ## Fixed-latency results -/

/-- One lane of a fixed-latency result. -/
def putLane (act : BitVec 32) (d : Dst) (c : Nat) (fe : Bool) (res : Nat → Val) (t : Thr) (l : Nat) : Thr :=
  let t := writeWords t act d l c (res l).p 0 (res l).w
  if fe then t else pushLatch t l (latchVal (res l).w) true (res l).p

theorem putAt_eq (c : Nat) (x : Form) (n : Nat) (s0 : State) (res : Nat → Val) (s : State) :
    putAt c x n s0 res s = updCur s fun t =>
      (lanesOf (actMask s0 x)).foldl (putLane (actMask s0 x) (dstOf x n) c (curFe s0) res) t := rfl

theorem sameCore_putLane (act : BitVec 32) (d : Dst) (c : Nat) (fe : Bool) (res : Nat → Val) (t : Thr) (l : Nat) :
    SameCore t (putLane act d c fe res t l) := by
  have h := sameRest_writeWords t act d l c (res l).p 0 (res l).w
  unfold putLane
  cases fe
  · exact (sameCore_of_rest h).trans ⟨rfl, .inl rfl⟩
  · exact sameCore_of_rest h

theorem sameCore_foldl {α : Type} (ls : List α) (g : Thr → α → Thr) (hg : ∀ t a, SameCore t (g t a)) (t : Thr) :
    SameCore t (ls.foldl g t) := by
  induction ls generalizing t with
  | nil => exact .refl t
  | cons a ls ih => exact (hg t a).trans (ih _)

@[simp] theorem regOf_putLane (act : BitVec 32) (d : Dst) (c : Nat) (fe : Bool) (res : Nat → Val) (t : Thr) (l k r : Nat) :
    regOf (putLane act d c fe res t l) k r = regOf (writeWords t act d l c (res l).p 0 (res l).w) k r := by
  unfold putLane; cases fe <;> rfl

@[simp] theorem slotOf_putLane (act : BitVec 32) (d : Dst) (c : Nat) (fe : Bool) (res : Nat → Val) (t : Thr) (l k r : Nat) :
    slotOf (putLane act d c fe res t l) k r = slotOf (writeWords t act d l c (res l).p 0 (res l).w) k r := by
  unfold putLane; cases fe <;> rfl

theorem latOf_writeWords (t : Thr) (act : BitVec 32) (d : Dst) (l c : Nat) (p : Bool) (i : Nat) (ws : List Word) (k j : Nat) :
    latOf (writeWords t act d l c p i ws) k j = latOf t k j := by
  simp [latOf, (sameRest_writeWords t act d l c p i ws).lat]

theorem latOf_putLane_other (act : BitVec 32) (d : Dst) (c : Nat) (fe : Bool) (res : Nat → Val) (t : Thr) {l k j : Nat}
    (h : k ≠ l) (hj : j < 2) : latOf (putLane act d c fe res t l) k j = latOf t k j := by
  unfold putLane
  cases fe
  · simp [latOf_pushLatch_other _ _ _ _ h hj, latOf_writeWords]
  · simp [latOf_writeWords]

/-- A fold over lanes acts on lane l as its one step for l does, when the other steps leave lane l alone. -/
theorem foldl_lane {γ : Type} (ls : List Nat) (g : Thr → Nat → Thr) (q : Thr → γ) (l : Nat) (v : γ) (hl : l ∈ ls) (hn : ls.Nodup)
    (P : Thr → Prop) (hP : ∀ t k, k ≠ l → P t → P (g t k))
    (hv : ∀ t, P t → q (g t l) = v) (ho : ∀ t k, k ≠ l → q (g t k) = q t) (t : Thr) (ht : P t) : q (ls.foldl g t) = v := by
  induction ls generalizing t with
  | nil => simp at hl
  | cons k ls ih =>
    rw [List.foldl_cons]
    rw [List.nodup_cons] at hn
    by_cases e : k = l
    · subst e
      rw [foldl_keeps ls g q (fun b a ha => ho b a (fun e => hn.1 (e ▸ ha)))]
      exact hv t ht
    · exact ih (by simpa [Ne.symm e] using hl) hn.2 _ (hP t k e ht)

/-- A cache destination without WB leaves the main file alone. -/
theorem regOf_writeWords_cache (t : Thr) (act : BitVec 32) (d : Dst) (l c : Nat) (p : Bool) (i : Nat) (ws : List Word) (k r : Nat)
    (hc : d.cache = true) (hw : d.wb = false) : regOf (writeWords t act d l c p i ws) k r = regOf t k r := by
  induction ws generalizing t i with
  | nil => rfl
  | cons w ws ih => rw [writeWords, ih]; simp [writeWord, hc, hw]

theorem dst_cache {x : Form} {n : Nat} : (dstOf x n).cache = true ↔ x.d.space = .cache := by
  unfold dstOf; split <;> simp_all

theorem dst_reg (x : Form) (n : Nat) : (dstOf x n).reg = x.d.index.toNat := by
  unfold dstOf; split <;> rfl

theorem dst_slot {x : Form} {n : Nat} (h : x.d.space = .cache) : (dstOf x n).slot = (x.d.flags.extractLsb' 0 3).toNat := by
  simp [dstOf, h]

theorem dst_wb {x : Form} {n : Nat} (h : x.d.space = .cache) : (dstOf x n).wb = x.wb := by
  simp [dstOf, h]

theorem dst_main {x : Form} {n : Nat} (h : x.d.space ≠ .cache ∨ x.wb = true) :
    (dstOf x n).cache = false ∨ (dstOf x n).wb = true := by
  by_cases e : x.d.space = .cache
  · right; rw [dst_wb e]; simpa [e] using h
  · left; have := mt (dst_cache (n := n)).1 e; simpa using this

/-- The thread that results timed from cycle c leave. -/
theorem putAt_spec {i : Instr} {x : Form} {n c : Nat} {s0 s : State} {f : Nat → Val} (hf : Fits i x n)
    (hw : ∀ l, (f l).w.length = n) (hsl : (curThr s).slices = (curThr s0).slices) :
    ∃ t, putAt c x n s0 f s = (updCur s fun _ => t) ∧ SameCore (curThr s) t ∧
      (∀ l ∈ lanesOf (actMask s0 x), ∀ k < n, Word' x s0 (updCur s fun _ => t) c l k ((f l).w.getD k 0) (f l).p) ∧
      (curFe s0 = false → ∀ l ∈ lanesOf (actMask s0 x),
        latOf t l 0 = { v := latchVal (f l).w, valid := true, poison := (f l).p } ∧ latOf t l 1 = latOf (curThr s) l 0) ∧
      (∀ l ∉ lanesOf (actMask s0 x), ∀ k < 2, latOf t l k = latOf (curThr s) l k) ∧
      (∀ l r, r < 256 → (l ∈ lanesOf (actMask s0 x) → x.d.space ≠ .cache ∨ x.wb = true →
          ¬ (x.d.index.toNat ≤ r ∧ r < x.d.index.toNat + n)) → regOf t l r = regOf (curThr s) l r) ∧
      (∀ l r, r < 6 → (l ∈ lanesOf (actMask s0 x) → x.d.space = .cache →
          ¬ ((x.d.flags.extractLsb' 0 3).toNat ≤ r ∧ r < (x.d.flags.extractLsb' 0 3).toNat + n)) →
        slotOf t l r = slotOf (curThr s) l r) := by
  let act := actMask s0 x
  let d := dstOf x n
  let g := putLane act d c (curFe s0) f
  have hreg : d.reg = x.d.index.toNat := dst_reg x n
  have hd : d.reg + n ≤ 256 := hreg ▸ hf.dreg
  have hc : d.cache = true → d.slot + n ≤ 6 := fun e => by
    have e' := dst_cache.1 e
    rw [show d.slot = _ from dst_slot e']; exact hf.dslot e'
  refine ⟨(lanesOf act).foldl g (curThr s), ?_, ?_, ?_, ?_, ?_, ?_, ?_⟩
  · rw [putAt_eq]; rfl
  · exact sameCore_foldl _ _ (fun t l => sameCore_putLane act d c _ f t l) _
  · intro l hl k hk
    have hk' : k < (f l).w.length := by rw [hw]; exact hk
    constructor
    · intro h
      simp only [curThr_updCur]
      refine foldl_lane (lanesOf act) g (fun t => (regOf t l (x.d.index.toNat + k)).cur) l _ hl (nodup_lanesOf _)
        (fun t => t.slices = (curThr s0).slices) ?_ ?_ ?_ _ hsl
      · intro t j _ ht; rw [(sameCore_putLane act d c _ f t j).slices]; exact ht
      · intro t ht
        have := regOf_writeWords_self t act d l 0 c (f l).p (f l).w k hk' (dst_main h) (by rw [hw]; exact hd)
        simp only [g, regOf_putLane, ← hreg]
        simp only [Nat.add_zero] at this
        rw [this]
        simp [mainVer, isLent_of_slices ht, act]
      · intro t j hj
        simp only [g, regOf_putLane]
        rw [regOf_writeWords_other t act d c (f j).p (f j).w (.inl (Ne.symm hj)) (by rw [hw]; exact hd) (by omega)]
    · intro h
      have hcc : d.cache = true := dst_cache.2 h
      have hsl' : d.slot = (x.d.flags.extractLsb' 0 3).toNat := dst_slot h
      simp only [curThr_updCur]
      refine foldl_lane (lanesOf act) g (fun t => (slotOf t l ((x.d.flags.extractLsb' 0 3).toNat + k)).cur) l _ hl (nodup_lanesOf _)
        (fun _ => True) (fun _ _ _ _ => trivial) ?_ ?_ _ trivial
      · intro t _
        have := slotOf_writeWords_self t act d l 0 c (f l).p (f l).w k hk' hcc (by rw [hw]; exact hc hcc)
        simp only [g, slotOf_putLane, ← hsl']
        simp only [Nat.add_zero] at this
        rw [this]
        simp only [slotVer, hreg, show d.wb = x.wb from dst_wb h]
      · intro t j hj
        have := hc hcc
        simp only [g, slotOf_putLane]
        rw [slotOf_writeWords_other t act d c (f j).p (f j).w (.inr (.inl (Ne.symm hj))) (by intro; rw [hw]; exact hc hcc) (by omega)]
  · intro hfe l hl
    constructor
    · refine foldl_lane (lanesOf act) g (fun t => latOf t l 0) l _ hl (nodup_lanesOf _)
        (fun _ => True) (fun _ _ _ _ => trivial) ?_ ?_ _ trivial
      · intro t _; simp [g, putLane, hfe, latOf_pushLatch_new]
      · intro t j hj; exact latOf_putLane_other act d c _ f t (Ne.symm hj) (by omega)
    · refine foldl_lane (lanesOf act) g (fun t => latOf t l 1) l _ hl (nodup_lanesOf _)
        (fun t => latOf t l 0 = latOf (curThr s) l 0)
        (fun t j hj ht => (latOf_putLane_other act d c _ f t (Ne.symm hj) (by omega)).trans ht) ?_ ?_ _ rfl
      · intro t ht; simp [g, putLane, hfe, latOf_pushLatch_old, latOf_writeWords, ht]
      · intro t j hj; exact latOf_putLane_other act d c _ f t (Ne.symm hj) (by omega)
  · intro l hl k hk
    exact foldl_keeps _ g (fun t => latOf t l k) (fun t j hj =>
      latOf_putLane_other act d c _ f t (fun e => hl (e ▸ hj)) hk) _
  · intro l r hr h
    refine foldl_keeps _ g (fun t => regOf t l r) (fun t j hj => ?_) _
    simp only [g, regOf_putLane]
    by_cases e : x.d.space ≠ .cache ∨ x.wb = true
    · refine regOf_writeWords_other t act d c (f j).p (f j).w ?_ (by rw [hw]; exact hd) hr
      by_cases el : l = j
      · subst el; have := h hj e; right; rw [hw, hreg]; omega
      · exact .inl el
    · have e1 : x.d.space = .cache := Decidable.byContradiction fun h => e (.inl h)
      have hwb : d.wb = false := by
        rw [show d.wb = x.wb from dst_wb e1]
        exact Bool.eq_false_iff.2 fun h => e (.inr h)
      exact regOf_writeWords_cache t act d j c (f j).p 0 (f j).w l r (dst_cache.2 e1) hwb
  · intro l r hr h
    refine foldl_keeps _ g (fun t => slotOf t l r) (fun t j hj => ?_) _
    simp only [g, slotOf_putLane]
    refine slotOf_writeWords_other t act d c (f j).p (f j).w ?_ (by intro e; rw [hw]; exact hc e) hr
    by_cases el : l = j
    · subst el
      by_cases e : x.d.space = .cache
      · have := h hj e; right; right; rw [hw, show d.slot = _ from dst_slot e]; omega
      · left; have := mt (dst_cache (n := n)).1 e; simpa using this
    · exact .inr (.inl el)

/-- A fixed-latency instruction completes with its results. -/
theorem fixed_completes {i : Instr} {x : Form} {n : Nat} {s : State} {f : Nat → Val} (hf : Fits i x n)
    (hw : ∀ l, (f l).w.length = n) : Completes i x n s (fixed i x n s f) f := by
  obtain ⟨t, ht, hcore, hlat, hregs, hslots⟩ := killDead_spec i x s
  obtain ⟨v, hv, vcore, vw, vh, vl, vr, vs⟩ := putAt_spec (c := lastCycle i x s) (s0 := s) (s := killDead i x s) (f := f) hf hw
    (by rw [ht]; simpa using hcore.slices)
  have hk : curThr (killDead i x s) = t := by rw [ht]; simp
  rw [hk] at vcore vh vl vr vs
  have he : (updCur (killDead i x s) fun _ => v) = updCur s fun _ => v := by rw [ht, updCur_updCur]
  rw [he] at hv vw
  refine ⟨updCur s fun _ => v, ⟨fun l hl k hk => vw l hl k hk, fun hfe l hl => ?_⟩, ?_, ?_⟩
  · have := vh hfe l hl
    simpa [latOf, hlat] using this
  · have hall := hcore.trans vcore
    refine ⟨by simp, by simpa using hall.rest, ?_, ?_, ?_, by simpa using hall.numst⟩
    · intro l r hr h
      simp only [curThr_updCur]
      rw [vr l r hr h.1, hregs l r hr hf.sreg h.2]
    · intro l r hr h
      simp only [curThr_updCur]
      rw [vs l r hr h.1, hslots l r hr hf.sslot h.2]
    · intro l hl k hk
      simp only [curThr_updCur]
      rw [vl l hl k hk]; simp [latOf, hlat]
  · rw [fixed, putFixed, hv]

end Sys2Proof.Machine
end

