-- ==== Sys2Proof/Tests/Slice0.lean ====
section
/-! SUPPORT. Tests of the model on fixed words and small states, and for every statement with hypotheses a state and operands that
meet them. -/

namespace Sys2Proof.Tests

open Sys2Proof Sys2Proof.Machine Sys2Proof.Claim

set_option Elab.async false

/-! ## Small states and operands -/

/-- Main-file register n. -/
def r (n : BitVec 8) : Opnd := { space := .main, index := n, flags := 0 }
/-- Predicate n. -/
def pr (n : BitVec 8) : Opnd := { space := .special, index := 0x38 + n, flags := 0 }
/-- The fields MOD, D, A, B and IMM, unconditional and without hints. -/
def fm (mod : BitVec 6) (d a b : Opnd) (imm : BitVec 28) : Form :=
  { mod := mod, gn := false, gp := 0, d := d, a := a, b := b, imm := imm, stall := 0, yld := false, wb := false }

/-- One wattle of 32 lanes on core 0 with translation on, about to execute at its PC. -/
def base : State :=
  { State.reset.withFetchWord 96 0 with agenda := [], cur := { core := 0, thr := 0, mask := 0xFFFFFFFF, pc := 0x40000 } }
/-- The FE of the same group about to execute. -/
def baseFe : State := { base with cur := { core := 0, thr := 16, mask := 1, pc := 0x40000 } }
/-- Register n of lane l of the wattle holds v. -/
def put (s : State) (l n : Nat) (v : Word) : State := updThr s 0 0 fun t => updReg t l n fun _ => { cur := { v := v } }
/-- Registers n and n + 1 of every lane of the wattle hold the 64-bit v. -/
def putAll (s : State) (n v : Nat) : State :=
  updThr s 0 0 fun t => (List.range 32).foldl (fun t l =>
    updReg (updReg t l n fun _ => { cur := { v := BitVec.ofNat 32 v } }) l (n + 1) fun _ => { cur := { v := BitVec.ofNat 32 (v / 2 ^ 32) } }) t
/-- Register n of the FE holds v. -/
def putFe (s : State) (n : Nat) (v : Word) : State := updThr s 0 16 fun t => updReg t 0 n fun _ => { cur := { v := v } }
/-- The wattle with lane 0 only in the issued set. -/
def one (s : State) : State := { s with cur := { s.cur with mask := 1 } }

/-- The next state of an instruction. -/
def out (i : Instr) (s : State) : Option State := match exec i s with
  | .next t => some t
  | _ => none
/-- Register n of lane l of the wattle after an instruction. -/
def outReg (i : Instr) (s : State) (l n : Nat) : Option Word := (out i s).map fun t => (regOf (thrOf t 0 0) l n).cur.v

/-! ## Deciding the shared hypotheses -/

/-- The checks of Runs as a Boolean. -/
def runsB (i : Instr) (x : Form) (s : State) : Bool :=
  (checkerHit s).isNone && !feWaits i x s && (notHeld i x s).isNone && !(actMask s x == 0) && (trapEmptyAt i x s).isNone && (latchBadAt i x s).isNone &&
  !srcEmpty i x s && !srcAbsent i x s && !dstBusy i x s

theorem runs_of {i : Instr} {x : Form} {s : State} (h : runsB i x s = true) : Runs i x s := by
  simp only [runsB, Bool.and_eq_true, Option.isNone_iff_eq_none, Bool.not_eq_true', beq_eq_false_iff_ne] at h
  obtain ⟨⟨⟨⟨⟨⟨⟨⟨h0, h1⟩, h2⟩, h3⟩, h4⟩, h5⟩, h6⟩, h7⟩, h8⟩ := h
  exact ⟨h0, h1, h2, h3, h4, h5, h6, h7, h8⟩

/-- The bounds of Fits as a Boolean. -/
def fitsB (i : Instr) (x : Form) (n : Nat) : Bool :=
  decide (x.d.index.toNat + n ≤ 256) && (!(x.d.space = .cache) || decide ((x.d.flags.extractLsb' 0 3).toNat + n ≤ 6)) &&
  (fieldsOf i x).all fun f => (!(f.o.space = .main) || decide (f.o.index.toNat + f.n ≤ 256)) &&
    (!(f.o.space = .cache) || decide (f.o.index.toNat + f.n ≤ 6))

theorem fits_of {i : Instr} {x : Form} {n : Nat} (h : fitsB i x n = true) : Fits i x n := by
  simp only [fitsB, Bool.and_eq_true, Bool.or_eq_true, Bool.not_eq_true', decide_eq_true_eq, decide_eq_false_iff_not,
    List.all_eq_true] at h
  obtain ⟨⟨h1, h2⟩, h3⟩ := h
  exact ⟨h1, fun e => h2.resolve_left (fun n => n e), fun f hf e => (h3 f hf).1.resolve_left (fun n => n e),
    fun f hf e => (h3 f hf).2.resolve_left (fun n => n e)⟩

/-- Clean as a Boolean. -/
def cleanB (i : Instr) (x : Form) (s : State) : Bool :=
  (readLanes i x s).all fun l => (fieldsOf i x).all fun f => !(fieldVal x s l f).p

theorem clean_of {i : Instr} {x : Form} {s : State} (h : cleanB i x s = true) : Clean i x s := by
  intro l hl no
  simp only [cleanB, List.all_eq_true, Bool.not_eq_true'] at h
  unfold srcNo
  split
  · rename_i f e
    exact h l hl f (List.mem_of_find?_eq_some e)
  · rfl


/-! ## Words of the spec's encodings (07 R189, and the worked encodings of 07 and 14 to 19) -/

/-- Why a word is rejected. -/
def rejected (e : Except Reject Instr) : Option Reject := match e with
  | .error n => some n
  | .ok _ => none

theorem test_decode_ffma : (decode .wattle true 0x20C034A080A8800000001C14#96).toOption = some (.ffma
    { fm 0 { space := .cache, index := 40, flags := 2 } { space := .main, index := 10, flags := 8 } { space := .latch, index := 0, flags := 0 } 0x70
      with gp := 3, stall := 2, yld := true }) := by decide +kernel
theorem test_decode_ldi : (decode .wattle true 0x08C10014000000008D159E00#96).toOption = some (.ldi (fm 1 (r 5) (r 0) (r 0) 0x2345678)) := by decide +kernel
theorem test_decode_iadd : (decode .wattle true 0x0000000C0010C003FFFFFEC0#96).toOption =
    some (.iadd (fm 0 (r 3) (r 1) { space := .special, index := 0, flags := 0 } 0xFFFFFFB)) := by decide +kernel
theorem test_decode_icmp : (decode .wattle true 0x08022CF00090C00000001900#96).toOption =
    some (.icmp { fm 2 (pr 4) (r 9) { space := .special, index := 0, flags := 0 } 100 with gp := 2 }) := by decide +kernel
theorem test_decode_cvt : (decode .wattle true 0x400400080010000000000C00#96).toOption = some (.cvt (fm 4 (r 2) (r 1) (r 0) 0x30)) := by decide +kernel
theorem test_decode_ld : (decode .wattle true 0xA00200240040000160001000#96).toOption = some (.ld (fm 2 (r 9) (r 4) (r 0) 0x5800040)) := by decide +kernel
theorem test_decode_qmma : (decode .wattle true 0xC2C2100000000000006E8200#96).toOption =
    some (.qmma { fm 2 (r 0) (r 0) (r 0) 0x1BA08 with gp := 1 }) := by decide +kernel
theorem test_decode_tlbi : (decode .fe true 0xE20400080040018000000000#96).toOption = some (.tlbiVa (fm 4 (r 2) (r 4) (r 6) 0)) := by decide +kernel
theorem test_decode_atom : (decode .fe true 0xA10000340020030160000000#96).toOption = some (.atom (fm 0 (r 13) (r 2) (r 12) 0x5800000)) := by decide +kernel
theorem test_decode_oload : (decode .wattle true 0xC2A9000000C00000000080C0#96).toOption = some (.oload (fm 0x29 (r 0) (r 12) (r 0) 0x203)) := by decide +kernel
theorem test_decode_adrain : (decode .wattle true 0xC34100000000010000011D00#96).toOption = some (.adrain (fm 1 (r 0) (r 0) (r 4) 0x474)) := by decide +kernel
theorem test_decode_bfi : (decode .wattle true 0x07800449008801C000002600#96).toOption = some (.bfi (fm 0 { space := .cache, index := 18, flags := 4 }
    { space := .main, index := 8, flags := 8 } (r 7) 0x98)) := by decide +kernel
theorem test_decode_sleep : (decode .fe true 0x838000400120038000000000#96).toOption = some (.sleep (fm 0 (r 16) (r 18) (r 14) 0)) := by decide +kernel
theorem test_decode_send : (decode .fe true 0x83C000000100040000000000#96).toOption = some (.send (fm 0 (r 0) (r 16) (r 16) 0)) := by decide +kernel
/-- SHFL.pick D = v1, A = v2, B = v3: OPC 0x180 in [95:86], D 0x0010, A 0x0020, B 0x0030 (07 R189, 10 R252). -/
theorem test_decode_shfl : (decode .wattle true 0x60000004002000C000000000#96).toOption = some (.shfl (fm 0 (r 1) (r 2) (r 3) 0)) := by decide +kernel
/-- Word 0 of a class that assigns no such OPC is the row ILLEGAL_OPCODE (07 R202): OPC 0x3FF. -/
theorem test_decode_illegal : (decode .wattle true (0x3FF#10 ++ 0#86)).toOption = some (.illegalOpcode (0x3FF#10 ++ 0#86)) := by decide +kernel
/-- CSRR of a supervisor register in user mode: OPC 0x382, D = v2, IMM = 0x800 (07 R204): PRIV with the number. -/
theorem test_decode_priv : rejected (decode .wattle false (0x382#10 ++ 0#10 ++ 0x0020#14 ++ 0#28 ++ 0x800#28 ++ 0#6)) = some (.priv 0x800) := by decide +kernel

/-! ## Ill-formed instructions are refused, one for each check (R203, R205 step 5) -/

theorem smoke_wellformed : Instr.wellFormed .wattle (.iadd (fm 0 (r 3) (r 1) (r 2) 0)) = true := by decide +kernel
theorem smoke_event : Instr.wellFormed .wattle (.resultFill 0) = false := by decide +kernel
theorem smoke_stream_wattle : Instr.wellFormed .wattle (.loop (fm 0 (r 3) (r 0) (r 0) 0)) = false := by decide +kernel
theorem smoke_stream_fe : Instr.wellFormed .fe (.shfl (fm 0 (r 1) (r 2) (r 3) 0)) = false := by decide +kernel
theorem smoke_space_fe : Instr.wellFormed .fe (.iadd (fm 0 (r 3) { space := .latch, index := 0, flags := 0 } (r 2) 0)) = false := by decide +kernel
theorem smoke_type_fe : Instr.wellFormed .fe (.fadd (fm 1 (r 3) (r 1) (r 2) 0)) = false := by decide +kernel
theorem smoke_mod : Instr.encodingFault .wattle (.iadd (fm 3 (r 3) (r 1) (r 2) 0)) (fm 3 (r 3) (r 1) (r 2) 0) false = some 1 := by decide +kernel
theorem smoke_d : Instr.encodingFault .wattle (.icmp (fm 0 (r 3) (r 1) (r 2) 0)) (fm 0 (r 3) (r 1) (r 2) 0) false = some 2 := by decide +kernel
theorem smoke_a : Instr.encodingFault .wattle (.iadd (fm 0 (r 3) { space := .latch, index := 7, flags := 0 } (r 2) 0))
    (fm 0 (r 3) { space := .latch, index := 7, flags := 0 } (r 2) 0) false = some 3 := by decide +kernel
theorem smoke_b : Instr.encodingFault .wattle (.ineg (fm 0 (r 3) (r 1) (r 2) 0)) (fm 0 (r 3) (r 1) (r 2) 0) false = some 4 := by decide +kernel
theorem smoke_c : Instr.encodingFault .wattle (.imad (fm 0 (r 3) (r 1) (r 2) 0x3000)) (fm 0 (r 3) (r 1) (r 2) 0x3000) false = some 5 := by decide +kernel
theorem smoke_imm : Instr.encodingFault .wattle (.iadd (fm 0 (r 3) (r 1) (r 2) 1)) (fm 0 (r 3) (r 1) (r 2) 1) false = some 6 := by decide +kernel
theorem smoke_hint : rejected (decode .wattle true 1#96) = some (.operand 7) := by decide +kernel


/-! ## Witnesses: states and operands that meet the hypotheses of the statements -/

/-- Runs and Fits hold together. -/
theorem rf {i : Instr} {x : Form} {s : State} {n : Nat} (h : runsB i x s = true) (k : fitsB i x n = true) :
    Runs i x s ∧ Fits i x n := ⟨runs_of h, fits_of k⟩

/-- The form D = v2, A = v4, B = v6 with a MOD and an IMM. -/
def f3 (mod : BitVec 6) (imm : BitVec 28) : Form := fm mod (r 2) (r 4) (r 6) imm
/-- The same form with a predicate destination. -/
def fp (mod : BitVec 6) (imm : BitVec 28) : Form := fm mod (pr 3) (r 4) (r 6) imm
/-- Register 4 of lane 5 is poisoned. -/
def poisoned : State := updThr base 0 0 fun t => updReg t 5 4 fun _ => { cur := { v := 1, poison := true } }

theorem witness_IntegerElements :
    (∃ i x f s, elem2 i = some (x, f) ∧ Runs i x s ∧ Fits i x x.wregs) ∧
    (∃ i x R s, elem1 i = some (x, R) ∧ Runs i x s ∧ Fits i x x.wregs) :=
  ⟨⟨.iadd (f3 0x10 0), f3 0x10 0, _, base, rfl, rf (by decide +kernel) (by decide +kernel)⟩,
   ⟨.rotl (f3 0x20 0), f3 0x20 0, _, base, rfl, rf (by decide +kernel) (by decide +kernel)⟩⟩

theorem witness_DivisionsPend : ∃ i x f s, divEl i = some (x, f) ∧ Runs i x s ∧ Fits i x x.wregs :=
  ⟨.idiv (f3 0 0), f3 0 0, _, base, rfl, rf (by decide +kernel) (by decide +kernel)⟩

theorem witness_FieldsClampsSelectsAndMoves :
    (∃ x s, Runs (.imad x) x s ∧ Fits (.imad x) x x.wregs) ∧
    (∃ i x g s, (i = .bfx x ∧ g = true ∨ i = .bfxn x ∧ g = false) ∧ x.m 4 2 ≤ 1 ∧ Runs i x s ∧ Fits i x x.wregs) ∧
    (∃ x s, x.m 4 2 ≤ 1 ∧ Runs (.bfi x) x s ∧ Fits (.bfi x) x x.wregs) ∧
    (∃ x s, x.m 0 2 ≤ 2 ∧ Runs (.isat x) x s ∧ Fits (.isat x) x x.wregs) ∧
    (∃ x s, Runs (.sel x) x s ∧ Fits (.sel x) x x.wregs) ∧ (∃ x s, Runs (.mov x) x s ∧ Fits (.mov x) x x.wregs) ∧
    (∃ x s, Runs (.ldi x) x s ∧ Fits (.ldi x) x 1) ∧ (∃ x s, Runs (.lea x) x s ∧ Fits (.lea x) x 2) :=
  ⟨⟨f3 0 0x80, base, rf (by decide +kernel) (by decide +kernel)⟩,
   ⟨.bfx (f3 0x10 0), f3 0x10 0, true, base, .inl ⟨rfl, rfl⟩, by decide +kernel, rf (by decide +kernel) (by decide +kernel)⟩,
   ⟨f3 0 0x80, base, by decide +kernel, rf (by decide +kernel) (by decide +kernel)⟩,
   ⟨f3 2 0, base, by decide +kernel, rf (by decide +kernel) (by decide +kernel)⟩,
   ⟨f3 0 0x80, base, rf (by decide +kernel) (by decide +kernel)⟩, ⟨f3 0x10 0, base, rf (by decide +kernel) (by decide +kernel)⟩,
   ⟨f3 0 1, base, rf (by decide +kernel) (by decide +kernel)⟩, ⟨f3 3 0, base, rf (by decide +kernel) (by decide +kernel)⟩⟩

theorem witness_FloatArithmeticRoundsOnce :
    (∃ i x f s, exactOf i = some (x, f) ∧ Runs i x s ∧ Fits i x 1 ∧ x.ty ≤ 2 ∧ fillsLater i = true) ∧
    (∃ i x f s, exactOf i = some (x, f) ∧ Runs i x s ∧ Fits i x 1 ∧ x.ty ≤ 2 ∧ fillsLater i = false) :=
  ⟨⟨.fdiv (f3 2 0), f3 2 0, _, base, rfl, runs_of (by decide +kernel), fits_of (by decide +kernel), by decide +kernel, rfl⟩,
   ⟨.ffma (f3 0 0x80), f3 0 0x80, _, base, rfl, runs_of (by decide +kernel), fits_of (by decide +kernel), by decide +kernel, rfl⟩⟩

theorem witness_ApproximationsPend : ∃ i x f s, approxOf i = some (x, f) ∧ Runs i x s ∧ Fits i x 1 ∧ x.ty ≤ 2 ∧
    ∃ v, f (fmtOf x.ty) (fval i x s 3 0 0) = some v :=
  ⟨.flog2 (f3 0 0), f3 0 0, _, base, rfl, runs_of (by decide +kernel), fits_of (by decide +kernel), by decide +kernel, 0xFF800000, by decide +kernel⟩

theorem witness_FloatPatternsScaleAndDot :
    (∃ i x f s, patternOf i = some (x, f) ∧ Runs i x s ∧ Fits i x 1 ∧ x.ty ≤ 2) ∧
    (∃ x s, Runs (.fscale x) x s ∧ Fits (.fscale x) x 1 ∧ x.ty ≤ 2) ∧ (∃ x s, Runs (.fdot2 x) x s ∧ Fits (.fdot2 x) x 1) :=
  ⟨⟨.fclass (f3 2 0), f3 2 0, _, base, rfl, runs_of (by decide +kernel), fits_of (by decide +kernel), by decide +kernel⟩,
   ⟨f3 1 0, base, runs_of (by decide +kernel), fits_of (by decide +kernel), by decide +kernel⟩,
   ⟨f3 1 0x80, base, rf (by decide +kernel) (by decide +kernel)⟩⟩

theorem witness_ConversionsComplete :
    (∃ x s, Runs (.cvt x) x s ∧ Fits (.cvt x) x (cvtRegs (x.f 4 4))) ∧ (∃ x s, Runs (.qnt x) x s ∧ Fits (.qnt x) x 1) ∧
    (∃ x s, Runs (.dqnt x) x s ∧ Fits (.dqnt x) x 1) :=
  ⟨⟨f3 0 0x30, base, rf (by decide +kernel) (by decide +kernel)⟩, ⟨f3 3 0, base, rf (by decide +kernel) (by decide +kernel)⟩,
   ⟨f3 0 0, base, rf (by decide +kernel) (by decide +kernel)⟩⟩

theorem witness_BlockConversionsComplete :
    (∃ x s, Runs (.cvtdx x) x s ∧ Fits (.cvtdx x) x 1) ∧ (∃ x s, Runs (.undx x) x s ∧ Fits (.undx x) x 1) ∧
    (∃ x s, Runs (.maxabs x) x s ∧ Fits (.maxabs x) x 1) ∧ (∃ x s, Runs (.blkscl x) x s ∧ Fits (.blkscl x) x 1) ∧
    (∃ x s, Runs (.pack x) x s ∧ Fits (.pack x) x 1) :=
  ⟨⟨f3 1 0, base, rf (by decide +kernel) (by decide +kernel)⟩, ⟨f3 0 0, base, rf (by decide +kernel) (by decide +kernel)⟩,
   ⟨f3 2 0, base, rf (by decide +kernel) (by decide +kernel)⟩, ⟨f3 1 0, base, rf (by decide +kernel) (by decide +kernel)⟩,
   ⟨f3 2 0, base, rf (by decide +kernel) (by decide +kernel)⟩⟩

/-- Register pair 6 of every lane holds 511. -/
def mod511 : State := putAll base 6 511
/-- Lanes 0 to 5 hold the residues of -1 under basis 1. -/
def minusOne : State := basisPair.zipIdx.foldl (fun s (m, l) => put s l 4 (BitVec.ofNat 32 (m - 1))) base

theorem witness_ResidueLanesComplete :
    (∃ x s, Runs (.rmod x) x s ∧ Fits (.rmod x) x 1 ∧
      ∀ l ∈ lanesOf (actMask s x), 3 ≤ src (.rmod x) x s 4 l ∧ src (.rmod x) x s 4 l ≤ 511) ∧
    (∃ x s l, Runs (.rmod x) x s ∧ l ∈ lanesOf (actMask s x) ∧ (src (.rmod x) x s 4 l < 3 ∨ 511 < src (.rmod x) x s 4 l)) ∧
    (∃ x s, Runs (.rmad x) x s ∧ Fits (.rmad x) x 1 ∧ x.f 14 9 ≠ 0) ∧
    (∃ x s b, Runs (.rsplit x) x s ∧ Fits (.rsplit x) x 1 ∧ basisOf s s.cur.core (x.f 0 4) = some b ∧ x.f 4 4 < b.n + 2) ∧
    (∃ x s b, Runs (.rmrc x) x s ∧ Fits (.rmrc x) x 2 ∧ basisOf s s.cur.core (x.f 0 4) = some b) ∧
    (∃ x s b, ∃ g, ∃ v : Int, Runs (.rmrc x) x s ∧ Fits (.rmrc x) x 2 ∧ basisOf s s.cur.core (x.f 0 4) = some b ∧
      b.moduli.length = b.n + 2 ∧ (∀ m ∈ b.moduli, 2 ≤ m ∧ m ≤ 511) ∧ b.moduli.Pairwise Nat.Coprime ∧ g < 2 ∧
      v.natAbs ≤ ((b.moduli.take b.n).prod - 1) / 2 ∧
      ∀ c < b.n + 2, 16 * g + c ∈ lanesOf (actMask s x) ∧ (srcNo (.rmrc x) x s 3 (16 * g + c)).p = false ∧
        ((src (.rmrc x) x s 3 (16 * g + c) % 65536 : Nat) : Int) = v % (b.moduli.getD c 1 : Int)) ∧
    (∀ k < 2, ∃ x s b g c, Runs (.rmrc x) x s ∧ Fits (.rmrc x) x 2 ∧ basisOf s s.cur.core (x.f 0 4) = some b ∧ g < 2 ∧
      (∃ l ∈ lanesOf (actMask s x), l / 16 = g) ∧ c < b.n + 2 ∧
      (k = 0 ∧ (srcNo (.rmrc x) x s 3 (16 * g + c)).p = true ∨
        k = 1 ∧ b.moduli.getD c 1 ≤ src (.rmrc x) x s 3 (16 * g + c) % 65536)) ∧
    (∃ x s b, Runs (.rsplit x) x s ∧ basisOf s s.cur.core (x.f 0 4) = some b ∧ b.n + 2 ≤ x.f 4 4) ∧
    (∃ i x s, (i = .rsplit x ∨ i = .rmrc x) ∧ Runs i x s ∧ basisOf s s.cur.core (x.f 0 4) = none) :=
  ⟨⟨f3 0 0, mod511, runs_of (by decide +kernel), fits_of (by decide +kernel), by decide +kernel⟩,
   ⟨f3 0 0, base, 31, runs_of (by decide +kernel), by decide +kernel, by decide +kernel⟩,
   ⟨f3 0 0x7FC080, base, runs_of (by decide +kernel), fits_of (by decide +kernel), by decide +kernel⟩,
   ⟨f3 0 0xB0, base, { moduli := basisFull, n := 10 }, runs_of (by decide +kernel), fits_of (by decide +kernel), by decide +kernel, by decide +kernel⟩,
   ⟨f3 0 1, base, { moduli := basisPair, n := 4 }, runs_of (by decide +kernel), fits_of (by decide +kernel), by decide +kernel⟩,
   ⟨f3 0 1, minusOne, { moduli := basisPair, n := 4 }, 0, -1, runs_of (by decide +kernel), fits_of (by decide +kernel), by decide +kernel, by decide +kernel,
     by decide +kernel, by decide +kernel, by decide +kernel, by decide +kernel, by decide +kernel⟩,
   (fun k hk => match k, hk with
     | 0, _ => ⟨f3 0 1, poisoned, { moduli := basisPair, n := 4 }, 0, 5, runs_of (by decide +kernel), fits_of (by decide +kernel), by decide +kernel, by decide +kernel,
         ⟨0, by decide +kernel⟩, by decide +kernel⟩
     | 1, _ => ⟨f3 0 1, put base 21 4 511, { moduli := basisPair, n := 4 }, 1, 5, runs_of (by decide +kernel), fits_of (by decide +kernel), by decide +kernel,
         by decide +kernel, ⟨16, by decide +kernel⟩, by decide +kernel⟩),
   ⟨f3 0 0x61, base, { moduli := basisPair, n := 4 }, runs_of (by decide +kernel), by decide +kernel, by decide +kernel⟩,
   ⟨.rsplit (f3 0 2), f3 0 2, base, .inl rfl, runs_of (by decide +kernel), by decide +kernel⟩⟩

theorem witness_PredicatesAreWrittenAndMoved :
    (∃ i x R s, predIs i = some (x, R) ∧ (∀ y, i = .vote y → y.m 0 3 ≤ 2) ∧ (∀ y, i = .pmov y → y.m 0 2 ≤ 1) ∧
      0x38 < x.d.index.toNat ∧ x.d.index.toNat < 0x40 ∧ Runs i x s ∧ Clean i x s) ∧
    (∃ i x R s l, predIs i = some (x, R) ∧ (∀ y, i = .vote y → y.m 0 3 ≤ 2) ∧ (∀ y, i = .pmov y → y.m 0 2 ≤ 1) ∧
      Runs i x s ∧ l ∈ readLanes i x s ∧ (srcNo i x s 3 l).p = true) ∧
    (∃ i x R s l, predIs i = some (x, R) ∧ (∀ y, i = .vote y → y.m 0 3 ≤ 2) ∧ (∀ y, i = .pmov y → y.m 0 2 ≤ 1) ∧
      Runs i x s ∧ (∀ k ∈ readLanes i x s, (srcNo i x s 3 k).p = false) ∧ l ∈ readLanes i x s ∧ (srcNo i x s 4 l).p = true) ∧
    (∃ x s, x.m 0 2 = 3 ∧ Runs (.pmov x) x s ∧ Clean (.pmov x) x s) ∧
    (∃ x s, x.m 0 2 = 2 ∧ Runs (.pmov x) x s ∧ Fits (.pmov x) x 1) :=
  ⟨⟨.icmp (fp 9 0), fp 9 0, _, base, rfl, (fun _ h => Instr.noConfusion h), (fun _ h => Instr.noConfusion h), by decide +kernel,
      by decide +kernel, runs_of (by decide +kernel), clean_of (by decide +kernel)⟩,
   ⟨.icmp (fp 0 0), fp 0 0, _, poisoned, 5, rfl, (fun _ h => Instr.noConfusion h), (fun _ h => Instr.noConfusion h),
      runs_of (by decide +kernel), by decide +kernel, by decide +kernel⟩,
   ⟨.icmp (fm 0 (r 2) (r 6) (r 4) 0), fm 0 (r 2) (r 6) (r 4) 0, _, poisoned, 5, rfl, (fun _ h => Instr.noConfusion h), (fun _ h => Instr.noConfusion h),
      runs_of (by decide +kernel), by decide +kernel, by decide +kernel, by decide +kernel⟩,
   ⟨fm 3 (r 0) (r 4) (r 0) 0, base, by decide +kernel, runs_of (by decide +kernel), clean_of (by decide +kernel)⟩,
   ⟨fm 2 (r 2) (r 0) (r 0) 0, base, by decide +kernel, runs_of (by decide +kernel), fits_of (by decide +kernel)⟩⟩

theorem witness_ShuffleDelivers : ∃ x s, Runs (.shfl x) x s ∧ Fits (.shfl x) x x.wregs :=
  ⟨f3 2 0, base, rf (by decide +kernel) (by decide +kernel)⟩

theorem witness_CrossLaneResults :
    (∃ x s, Runs (.redux x) x s ∧ Fits (.redux x) x x.wregs) ∧ (∃ x s, Runs (.scan x) x s ∧ Fits (.scan x) x x.wregs) ∧
    (∃ x s, 3 ≤ x.m 0 3 ∧ x.m 0 3 ≤ 4 ∧ Runs (.vote x) x s ∧ Fits (.vote x) x 1) ∧
    (∃ x s, Runs (.matchL x) x s ∧ Fits (.matchL x) x 1) :=
  ⟨⟨f3 0x11 0, base, rf (by decide +kernel) (by decide +kernel)⟩, ⟨f3 8 0, base, rf (by decide +kernel) (by decide +kernel)⟩,
   ⟨f3 4 0, base, by decide +kernel, by decide +kernel, runs_of (by decide +kernel), fits_of (by decide +kernel)⟩,
   ⟨f3 0 0, base, rf (by decide +kernel) (by decide +kernel)⟩⟩


theorem some_get {α : Type} {o : Option α} (h : o.isSome = true) : o = some (o.get h) := (Option.some_get h).symm

/-- What an Except holds. -/
def okOf {ε α : Type} : Except ε α → Option α
  | .ok a => some a
  | .error _ => none

theorem ok_get {ε α : Type} {e : Except ε α} (h : (okOf e).isSome = true) : e = .ok ((okOf e).get h) := by
  cases e with
  | ok a => rfl
  | error e => cases h

/-- Register 4 of every lane is empty. -/
def emptied : State := updThr base 0 0 fun t => (List.range 32).foldl (fun t l => updReg t l 4 fun _ => { cur := { full := false } }) t
/-- A source with trap-on-empty. -/
def re (n : BitVec 8) : Opnd := { space := .main, index := n, flags := 4 }
/-- Latch h0 of lane 0 holds 7. -/
def latched : State := updThr base 0 0 fun t => { t with lat := mset t.lat 0 { v := 7, valid := true } }
/-- Latch h0 as a source. -/
def h0 : Opnd := { space := .latch, index := 0, flags := 0 }

/-- Slot 2 of lane 0 in a state. -/
def slotted (st : SlotSt) : State := updThr base 0 0 fun t => updSlot t 0 2 fun _ => { cur := { st := st } }
/-- Slot 2 as a source. -/
def o2 : Opnd := { space := .cache, index := 2, flags := 0 }

theorem witness_SourcesDeliver :
    (∃ o : Opnd, o.space = .main) ∧ (∃ (r : Reg) (c : Nat), r.cur.rdy ≤ c) ∧
    (∃ s l, ∃ o : Opnd, o.space = .latch ∧ (latOf (curThr s) l o.index.toNat).valid = true) ∧
    (∀ b : Bool, ∃ s l c, ∃ o : Opnd, o.space = .cache ∧
      (if b then (readSlot (slotOf (curThr s) l o.index.toNat) c).st = .dirty else (readSlot (slotOf (curThr s) l o.index.toNat) c).st = .invalid)) ∧
    (∃ o : Opnd, o.space = .special ∧ o.index = 0) ∧ (∃ (o : Opnd) (p : Nat), o.space = .special ∧ p < 8 ∧ o.index.toNat = 0x38 + p) ∧
    (∃ (c : Nat) (v : Ver) (k : Nat), (v.rdy = c + 4 ∨ v.rdy = c + 10) ∧ c < k ∧ v.rdy ≤ k) ∧
    (∃ (c : Nat) (v : Ver) (k : Nat), (v.rdy = c + 4 ∨ v.rdy = c + 10) ∧ c < k ∧ k < v.rdy) :=
  ⟨⟨r 255, rfl⟩, ⟨{}, 0, (by decide +kernel)⟩, ⟨latched, 0, h0, (by decide +kernel)⟩,
   fun | true => ⟨slotted .dirty, 0, 0, o2, (by decide +kernel)⟩ | false => ⟨slotted .invalid, 0, 0, o2, (by decide +kernel)⟩, ⟨{ space := .special, index := 0, flags := 0 }, (by decide +kernel)⟩, ⟨pr 7, 7, (by decide +kernel)⟩,
   ⟨0, { rdy := 4 }, 4, (by decide +kernel)⟩, ⟨0, { rdy := 10 }, 9, (by decide +kernel)⟩⟩

/-- No lane passes the guard !p0. -/
def fn : Form := { f3 0 0 with gn := true }

theorem witness_InstructionsEndByAdvancing :
    (∃ (x : Form) (s : State), x.yld = false ∧ heldYield s = false) ∧
    (∃ x s, (curThr s).pchk = none ∧ actMask s x = 0 ∧ notHeld (.iadd x) x s = none ∧ notHeld (.ld x) x s = none ∧
      notHeld (.st x) x s = none ∧ notHeld (.trap x) x s = none ∧ notHeld (.qmma x) x s = none) :=
  ⟨⟨f3 0 0, base, (by decide +kernel)⟩, ⟨fn, base, (by decide +kernel)⟩⟩

theorem witness_SharedChecksTrap :
    (∃ x s r, (curThr s).pchk = none ∧ notHeld (.iadd x) x s = some r) ∧
    (∃ x s no m, (curThr s).pchk = none ∧ notHeld (.iadd x) x s = none ∧ actMask s x ≠ 0 ∧
      feWaits (.iadd x) x s = false ∧ trapEmptyAt (.iadd x) x s = some (no, m)) ∧
    (∃ x s no m, (curThr s).pchk = none ∧ notHeld (.iadd x) x s = none ∧ actMask s x ≠ 0 ∧ feWaits (.iadd x) x s = false ∧ trapEmptyAt (.iadd x) x s = none ∧
      latchBadAt (.iadd x) x s = some (no, m)) :=
  ⟨⟨fm 0 (r 2) (r 255) (r 6) 0, base, 255, (by decide +kernel)⟩,
   ⟨fm 0 (r 2) (re 4) (r 6) 0, emptied, 3, 0xFFFFFFFF, (by decide +kernel)⟩,
   ⟨fm 0 (r 2) (r 4) h0 0, latched, 4, 0xFFFFFFFE, (by decide +kernel)⟩⟩

/-- TargetsOk as a Boolean. -/
def targetsB (i : Instr) (x : Form) (s : State) : Bool :=
  (lanesOf (actMask s x)).all fun l => !(srcNo i x s 3 l).p && decide (src i x s 3 l < 2 ^ 52) && decide (src i x s 3 l % 4 = 0)

theorem targets_of {i : Instr} {x : Form} {s : State} (h : targetsB i x s = true) : TargetsOk i x s := by
  intro l hl
  have := List.all_eq_true.1 h l hl
  simpa [and_assoc] using this

/-- Pair 4 of every lane holds the target 0x40000. -/
def target0 : State := putAll base 4 0x40000
/-- Pair 4 of lane 3 holds another target. -/
def badTarget (v : Nat) : State := put (put target0 3 4 (BitVec.ofNat 32 v)) 3 5 (BitVec.ofNat 32 (v / 2 ^ 32))
/-- Pair 4 of lane 3 is poisoned. -/
def poisonTarget : State := updThr target0 0 0 fun t => updReg t 3 4 fun _ => { cur := { v := 2, poison := true } }

theorem witness_BranchesGoToTheirTargets :
    (∃ x s, Runs (.bra x) x s) ∧ (∃ i x s, (i = .brx x ∨ i = .ret x) ∧ Runs i x s ∧ TargetsOk i x s) ∧
    (∃ x s, Runs (.call x) x s ∧ Fits (.call x) x 2 ∧ x.m 0 1 = 0) ∧
    (∃ x s, Runs (.call x) x s ∧ Fits (.call x) x 2 ∧ x.m 0 1 = 1 ∧ TargetsOk (.call x) x s) ∧
    (∃ i x s l, (i = .brx x ∨ i = .ret x) ∧ Runs i x s ∧ l ∈ lanesOf (actMask s x) ∧
      (∀ k ∈ lanesOf (actMask s x), k < l → (srcNo i x s 3 k).p = false ∧ src i x s 3 k < 2 ^ 52 ∧ src i x s 3 k % 4 = 0) ∧
      (srcNo i x s 3 l).p = true) ∧
    (∃ i x s l, (i = .brx x ∨ i = .ret x) ∧ Runs i x s ∧ l ∈ lanesOf (actMask s x) ∧
      (∀ k ∈ lanesOf (actMask s x), k < l → (srcNo i x s 3 k).p = false ∧ src i x s 3 k < 2 ^ 52 ∧ src i x s 3 k % 4 = 0) ∧
      (srcNo i x s 3 l).p = false ∧ 2 ^ 52 = src i x s 3 l) ∧
    (∃ i x s l, (i = .brx x ∨ i = .ret x) ∧ Runs i x s ∧ l ∈ lanesOf (actMask s x) ∧
      (∀ k ∈ lanesOf (actMask s x), k < l → (srcNo i x s 3 k).p = false ∧ src i x s 3 k < 2 ^ 52 ∧ src i x s 3 k % 4 = 0) ∧
      (srcNo i x s 3 l).p = false ∧ src i x s 3 l < 2 ^ 52 ∧ src i x s 3 l % 4 ≠ 0) :=
  ⟨⟨fm 0 (r 0) (r 0) (r 0) 3, base, runs_of (by decide +kernel)⟩,
   ⟨.brx (fm 0 (r 0) (r 4) (r 0) 0), _, target0, .inl rfl, runs_of (by decide +kernel), targets_of (by decide +kernel)⟩,
   ⟨fm 0 (r 2) (r 0) (r 0) 3, base, runs_of (by decide +kernel), fits_of (by decide +kernel), (by decide +kernel)⟩,
   ⟨fm 1 (r 2) (r 4) (r 0) 0, target0, runs_of (by decide +kernel), fits_of (by decide +kernel), (by decide +kernel), targets_of (by decide +kernel)⟩,
   ⟨.ret (fm 0 (r 0) (r 4) (r 0) 0), _, poisonTarget, 3, .inr rfl, runs_of (by decide +kernel), (by decide +kernel)⟩,
   ⟨.brx (fm 0 (r 0) (r 4) (r 0) 0), _, badTarget (2 ^ 52), 3, .inl rfl, runs_of (by decide +kernel), (by decide +kernel)⟩,
   ⟨.brx (fm 0 (r 0) (r 4) (r 0) 0), _, badTarget (2 ^ 52 - 1), 3, .inl rfl, runs_of (by decide +kernel), (by decide +kernel)⟩⟩

/-- Lane 7 has four meetings. -/
def met : State := updThr base 0 0 fun t => updLane t 7 fun l => { l with depth := 4, stk := [4, 8, 12, 16] }

theorem witness_MeetAndExit :
    (∃ x s, Runs (.meet x) x s ∧ (curThr s).serial = false ∧ ∀ l ∈ lanesOf (actMask s x), (laneOf (curThr s) l).depth < 4) ∧
    (∃ x s, Runs (.meet x) x s ∧ (curThr s).serial = false ∧ ∃ l ∈ lanesOf (actMask s x), 4 ≤ (laneOf (curThr s) l).depth) ∧
    (∃ x s, Runs (.exit x) x s ∧ ownStores s s.cur.core s.cur.thr (actMask s x) = [] ∧
      ownAtoms s s.cur.core s.cur.thr (actMask s x) = false ∧ (curThr s).late = []) :=
  ⟨⟨fm 0 (r 0) (r 0) (r 0) 3, base, runs_of (by decide +kernel), (by decide +kernel)⟩, ⟨fm 0 (r 0) (r 0) (r 0) 3, met, runs_of (by decide +kernel), (by decide +kernel)⟩,
   ⟨fm 0 (r 0) (r 0) (r 0) 0, base, runs_of (by decide +kernel), (by decide +kernel)⟩⟩

/-- The group of base is housed, and so is its wattle. -/
def housedB (s : State) : Bool :=
  (coreOf s s.cur.core).group.isSome && (s.cur.thr = feIdx || (grpOf s s.cur.core).resident.contains s.cur.thr) &&
    decide (grpOf s s.cur.core).resident.Nodup && decide ((grpOf s s.cur.core).resident.length + (grpOf s s.cur.core).baskets.length ≤ 16)

theorem housed_of {s : State} (h : housedB s = true) : Housed s s.cur.core s.cur.thr := by
  simpa [housedB, Housed, and_assoc] using h

/-- v3 of lane 0 is empty. -/
def carryOut : State := updThr base 0 0 fun t => updReg t 0 3 fun _ => { cur := { full := false } }
/-- Basket 2 of the group has k threads for the entry 0x40000. -/
def basketed (k : Nat) : State := updGrp base 0 fun g => { g with baskets := [(2, { key := 0x40000, threads := List.replicate k [] })] }
/-- v3 of the FE is empty. -/
def carryFe : State := updThr baseFe 0 16 fun t => updReg t 0 3 fun _ => { cur := { full := false } }
/-- A store of lane 0, which alone issues, is not acknowledged. -/
def owing : State := updMem (one target0) fun m =>
  { m with stores := [{ id := 1, pa := 64, va := 64, bytes := [(0, false)], by' := .thread 0 0 0, die := 0, t := 0 }] }
/-- Every basket of the group is in use. -/
def allBaskets : State := updGrp base 0 fun g => { g with baskets := (List.range 8).map fun k => (k, { key := 4, threads := [[]] }) }

theorem witness_SpawnAndRebaskPlaceThreads :
    (∃ x s l, Runs (.spawn x) x s ∧ Fits (.spawn x) x 1 ∧ x.m 0 1 = 0 ∧ lanesOf (actMask s x) = [l] ∧ spawnWaits x s = false ∧
      Housed s s.cur.core s.cur.thr) ∧
    (∃ x s, Runs (.rebask x) x s ∧ Fits (.rebask x) x 1 ∧ x.m 0 1 = 1 ∧ TargetsOk (.rebask x) x s ∧ spawnWaits x s = false ∧
      Housed s s.cur.core s.cur.thr ∧ ownStores s s.cur.core s.cur.thr (actMask s x) = [] ∧
      ownAtoms s s.cur.core s.cur.thr (actMask s x) = false ∧ (curThr s).late = []) ∧
    (∃ s b bk, ((grpOf s 0).baskets.find? fun p => p.2.key = 0x40000 && decide (p.2.threads.length < 32)) = some (b, bk) ∧
      bk.threads.length < 31) ∧
    (∃ s b bk, ((grpOf s 0).baskets.find? fun p => p.2.key = 0x40000 && decide (p.2.threads.length < 32)) = some (b, bk) ∧
      bk.threads.length = 31 ∧ keysRise 0 (grpOf s 0).baskets = true) ∧
    (∃ s, ((grpOf s 0).baskets.find? fun p => p.2.key = 0x40000 && decide (p.2.threads.length < 32)) = none ∧
      ((List.range 8).find? fun k => !mhas (grpOf s 0).baskets k) = some 0 ∧
      (grpOf s 0).resident.length + (grpOf s 0).baskets.length < 16) ∧
    (∃ s, ((grpOf s 0).baskets.find? fun p => p.2.key = 0x40000 && decide (p.2.threads.length < 32)) = none ∧
      ((List.range 8).find? fun k => !mhas (grpOf s 0).baskets k) = none) ∧
    (∀ fe : Bool, ∃ x s, Runs (.spawn x) x s ∧ spawnWaits x s = true ∧ curFe s = fe ∧ (curThr s).hold = none) ∧
    (∃ x s, Runs (.rebask x) x s ∧ spawnWaits x s = false ∧ x.m 0 1 = 1 ∧ TargetsOk (.rebask x) x s ∧ (curThr s).hold = none ∧
      ownStores s s.cur.core s.cur.thr (maskOf (placeAll (.rebask x) x s).2) ≠ []) :=
  ⟨⟨fm 0 (r 2) (r 0) (r 0) 3, one base, 0, runs_of (by decide +kernel), fits_of (by decide +kernel), (by decide +kernel), (by decide +kernel), (by decide +kernel), housed_of (by decide +kernel)⟩,
   ⟨fm 1 (r 2) (r 4) (r 0) 0, target0, runs_of (by decide +kernel), fits_of (by decide +kernel), (by decide +kernel), targets_of (by decide +kernel), (by decide +kernel), housed_of (by decide +kernel), (by decide +kernel)⟩,
   ⟨basketed 30, 2, _, some_get (by decide +kernel), (by decide +kernel)⟩, ⟨basketed 31, 2, { key := 0x40000, threads := List.replicate 31 [] }, (by decide +kernel)⟩,
   ⟨base, (by decide +kernel)⟩, ⟨allBaskets, (by decide +kernel)⟩,
   (fun | true => ⟨fm 0 (r 2) (r 0) (r 0) 3, carryFe, runs_of (by decide +kernel), (by decide +kernel)⟩
        | false => ⟨fm 0 (r 2) (r 0) (r 0) 3, carryOut, runs_of (by decide +kernel), (by decide +kernel)⟩),
   ⟨fm 1 (r 2) (r 4) (r 0) 0, owing, runs_of (by decide +kernel), (by decide +kernel), (by decide +kernel), targets_of (by decide +kernel), (by decide +kernel)⟩⟩

theorem witness_NopYieldLoop : (∃ x s, Runs (.nop x) x s) ∧ (∃ x s, Runs (.yield x) x s) ∧
    (∃ x s, Runs (.loop x) x s ∧ Clean (.loop x) x s ∧ x.d.index.toNat < 256) :=
  ⟨⟨fm 0 (r 0) (r 0) (r 0) 0, base, runs_of (by decide +kernel)⟩, ⟨fm 0 (r 0) (r 0) (r 0) 0, base, runs_of (by decide +kernel)⟩,
   ⟨fm 0 (r 2) (r 0) (r 0) 3, putFe baseFe 2 1, runs_of (by decide +kernel), clean_of (by decide +kernel), (by decide +kernel)⟩⟩

/-- Pair 4 of every lane holds a and register 6 b; p and q poison them. -/
def launching (a b : Nat) (p q : Bool) : State := updThr (putAll (putAll base 4 a) 6 b) 0 0 fun t => (List.range 32).foldl (fun t l =>
  updReg (updReg t l 4 fun v => { v with cur := { v.cur with poison := p } }) l 6 fun v => { v with cur := { v.cur with poison := q } }) t

theorem witness_LaunchSubmitsOrReports : (∃ x s l, Runs (.launch x) x s ∧ Fits (.launch x) x 1 ∧
    (lanesOf (actMask s x)).head? = some l ∧ (srcNo (.launch x) x s 3 l).p = false ∧ (srcNo (.launch x) x s 4 l).p = false ∧
    src (.launch x) x s 3 l < 2 ^ 52 ∧ src (.launch x) x s 3 l % 64 = 0 ∧ src (.launch x) x s 4 l ≤ 63) ∧
    (∃ x s l, Runs (.launch x) x s ∧ (lanesOf (actMask s x)).head? = some l ∧ (srcNo (.launch x) x s 3 l).p = true) ∧
    (∃ x s l, Runs (.launch x) x s ∧ (lanesOf (actMask s x)).head? = some l ∧ (srcNo (.launch x) x s 3 l).p = false ∧
      (srcNo (.launch x) x s 4 l).p = true) ∧
    (∀ k : Fin 3, ∃ x s l, Runs (.launch x) x s ∧ (lanesOf (actMask s x)).head? = some l ∧ (srcNo (.launch x) x s 3 l).p = false ∧
      (srcNo (.launch x) x s 4 l).p = false ∧ (if k = 0 then src (.launch x) x s 3 l = 2 ^ 52
        else if k = 1 then src (.launch x) x s 3 l = 2 ^ 52 - 32
        else src (.launch x) x s 3 l = 2 ^ 52 - 64 ∧ src (.launch x) x s 4 l = 64)) :=
  ⟨⟨f3 0 0, putAll (putAll base 4 0x40) 6 63, 0, runs_of (by decide +kernel), fits_of (by decide +kernel), (by decide +kernel)⟩,
   ⟨f3 0 0, launching 64 0 true true, 0, runs_of (by decide +kernel), (by decide +kernel)⟩, ⟨f3 0 0, launching 64 0 false true, 0, runs_of (by decide +kernel), (by decide +kernel)⟩,
   fun | 0 => ⟨f3 0 0, launching (2 ^ 52) 0 false false, 0, runs_of (by decide +kernel), (by decide +kernel)⟩
       | 1 => ⟨f3 0 0, launching (2 ^ 52 - 32) 64 false false, 0, runs_of (by decide +kernel), (by decide +kernel)⟩
       | 2 => ⟨f3 0 0, launching (2 ^ 52 - 64) 64 false false, 0, runs_of (by decide +kernel), (by decide +kernel)⟩⟩

/-- The launch allows two extended blocks. -/
def roomy : State := updGrp base 0 fun g => { g with extMax := 3 }
/-- The wattle holds E1. -/
def holding : State := updThr base 0 0 fun t => { t with blocks := 1 }

theorem witness_RegisterBlocksComeAndGo :
    (∃ x s s', Runs (.regacq x) x s ∧ (curThr s).blocks = 0 ∧ (maskBlocks (x.f 0 3)).length ≤ (grpOf s s.cur.core).extMax ∧
      (grpOf s s.cur.core).regq = [] ∧ grantBlocks s s.cur.core s.cur.thr (x.f 0 3) = some s') ∧
    (∃ x s, Runs (.regrel x) x s ∧ (∀ b ∈ maskBlocks (x.f 0 3), (curThr s).blocks.testBit (b - 1) = true) ∧
      blockPending s s.cur.core s.cur.thr (x.f 0 3) = false) :=
  ⟨⟨fm 0 (r 0) (r 0) (r 0) 7, roomy, _, runs_of (by decide +kernel), (by decide +kernel), (by decide +kernel), (by decide +kernel), some_get (by decide +kernel)⟩,
   ⟨fm 0 (r 0) (r 0) (r 0) 1, holding, runs_of (by decide +kernel), (by decide +kernel)⟩⟩

/-- The wattle holds an instruction. -/
def held (s : State) (why : Why) (i : Instr) : State :=
  updThr s 0 0 fun t => { t with hold := some { why := why, instr := i, mask := 0xFFFFFFFF, pc := 0x40000 } }

/-- A millisecond and more after reset. -/
def later (s : State) : State := { s with time := 84 * 2000000 }

theorem witness_SleepHoldsUntilItEnds :
    (∃ x s l a, Runs (.sleep x) x s ∧ (lanesOf (actMask s x)).head? = some l ∧ src (.sleep x) x s 4 l = 0 ∧ Fits (.sleep x) x 1 ∧
      accessOf s 0 (memOff x) 1 .read l (srcNo (.sleep x) x s 3 l) = .ok a) ∧
    (∃ x s l a, Runs (.sleep x) x s ∧ (lanesOf (actMask s x)).head? = some l ∧ s.cur.held = none ∧ (curThr s).hold = none ∧
      src (.sleep x) x s 4 l ≠ 0 ∧ accessOf s 0 (memOff x) 1 .read l (srcNo (.sleep x) x s 3 l) = .ok a) ∧
    (∃ c t x s o loc l tEnd, (thrOf s c t).hold = some o ∧ o.instr = .sleep x ∧ o.why = .sleep loc l tEnd ∧ o.woken = true ∧ Fits (.sleep x) x 1) ∧
    (∃ c t x s o loc l tEnd, (thrOf s c t).hold = some o ∧ o.instr = .sleep x ∧ o.why = .sleep loc l tEnd ∧ o.woken = false ∧
      tEnd ≤ nowNs s ∧ Fits (.sleep x) x 1) ∧
    (∃ c t x s o loc l tEnd, (thrOf s c t).hold = some o ∧ o.instr = .sleep x ∧ o.why = .sleep loc l tEnd ∧ nowNs s < tEnd ∧ Fits (.sleep x) x 1) :=
  ⟨⟨f3 0 0, putAll base 4 0x40000, 0, _, runs_of (by decide +kernel), (by decide +kernel), (by decide +kernel), fits_of (by decide +kernel), ok_get (by decide +kernel)⟩,
   ⟨f3 0 0, putAll (putAll base 4 0x40000) 6 100, 0, _, runs_of (by decide +kernel), (by decide +kernel), (by decide +kernel), (by decide +kernel), (by decide +kernel), ok_get (by decide +kernel)⟩,
   ⟨0, 0, f3 0 0, updThr (held base (.sleep (.mem 64) 0 100) (.sleep (f3 0 0))) 0 0 fun t => { t with hold := t.hold.map fun o => { o with woken := true } },
      { why := .sleep (.mem 64) 0 100, instr := .sleep (f3 0 0), mask := 0xFFFFFFFF, pc := 0x40000, woken := true }, .mem 64, 0, 100,
      (by decide +kernel), rfl, rfl, rfl, fits_of (by decide +kernel)⟩,
   ⟨0, 0, f3 0 0, later (held base (.sleep (.mem 64) 0 100) (.sleep (f3 0 0))),
      { why := .sleep (.mem 64) 0 100, instr := .sleep (f3 0 0), mask := 0xFFFFFFFF, pc := 0x40000 }, .mem 64, 0, 100,
      (by decide +kernel), rfl, rfl, rfl, (by decide +kernel), fits_of (by decide +kernel)⟩,
   ⟨0, 0, f3 0 0, held base (.sleep (.mem 64) 0 100) (.sleep (f3 0 0)),
      { why := .sleep (.mem 64) 0 100, instr := .sleep (f3 0 0), mask := 0xFFFFFFFF, pc := 0x40000 }, .mem 64, 0, 100,
      (by decide +kernel), rfl, rfl, (by decide +kernel), fits_of (by decide +kernel)⟩⟩

/-- Channel 15 of the group has a message. -/
def mail : State := updGrp base 0 fun g => { g with chans := [(15, [{ words := (List.range 32).map fun l => (BitVec.ofNat 32 l, false) }])] }
/-- A port and a data register. -/
def fport (p : BitVec 28) : Form := fm 0 (r 0) (r 4) (r 6) p
/-- A port and a destination. -/
def frecv (p : BitVec 28) : Form := fm 0 (r 2) (r 0) (r 0) p

/-- The decision queue of the group is full. -/
def fullDq : State := updGrp baseFe 0 fun g => { g with dq := List.replicate 32 { words := [(0, false)] } }
/-- Channel 15 of the group is full. -/
def fullChan : State := updGrp base 0 fun g => { g with chans := [(15, List.replicate 4 { words := [(0, false)] })] }

theorem witness_PortsCarryMessages :
    (∃ x s, Runs (.send x) x s ∧ x.f 0 6 = 0 ∧ portBad s true 0 = false ∧ (coreOf s s.cur.core).group.isSome = true ∧
      chanFull s s.cur.core 0 = false ∧ src (.send x) x s 4 (lowLane s x) < 16 ∧
      src (.send x) x s 4 (lowLane s x) ∈ (grpOf s s.cur.core).resident ∧ wattleLive s s.cur.core (src (.send x) x s 4 (lowLane s x)) = true) ∧
    (∃ x s, Runs (.send x) x s ∧ x.f 0 6 = 0 ∧ portBad s true 0 = false ∧ (coreOf s s.cur.core).group.isSome = true ∧
      chanFull s s.cur.core 0 = false ∧ src (.send x) x s 4 (lowLane s x) = 0xFFFFFFFF) ∧
    (∃ x s, Runs (.send x) x s ∧ x.f 0 6 = 0 ∧ portBad s true 0 = false ∧ (coreOf s s.cur.core).group.isSome = true ∧
      src (.send x) x s 4 (lowLane s x) < 16 ∧ ¬ (src (.send x) x s 4 (lowLane s x) ∈ (grpOf s s.cur.core).resident ∧
        wattleLive s s.cur.core (src (.send x) x s 4 (lowLane s x)) = true)) ∧
    (∃ x s, Runs (.send x) x s ∧ x.f 0 6 = 0 ∧ portBad s true 0 = false ∧ (coreOf s s.cur.core).group.isSome = true ∧
      src (.send x) x s 4 (lowLane s x) = 16) ∧
    (∃ x s, Runs (.send x) x s ∧ 1 ≤ x.f 0 6 ∧ portBad s true (x.f 0 6) = false ∧ chanFull s s.cur.core (x.f 0 6) = false ∧
      (coreOf s s.cur.core).group.isSome = true) ∧
    (∃ x s, Runs (.send x) x s ∧ portBad s true (x.f 0 6) = true) ∧
    (∃ x s, Runs (.send x) x s ∧ x.f 0 6 ≠ 0 ∧ portBad s true (x.f 0 6) = false ∧ chanFull s s.cur.core (x.f 0 6) = true ∧
      (curThr s).hold = none) ∧
    (∃ x s, Runs (.send x) x s ∧ x.f 0 6 = 0 ∧ portBad s true 0 = false ∧ chanFull s s.cur.core 0 = true ∧
      (curThr s).hold = none ∧ src (.send x) x s 4 (lowLane s x) = 0xFFFFFFFF) ∧
    (∃ x s m ms, Runs (.recv x) x s ∧ Fits (.recv x) x 1 ∧ portBad s false (x.f 0 6) = false ∧
      (coreOf s s.cur.core).group.isSome = true ∧ waitsBefore s s.cur.core s.cur.thr (x.f 0 6) = false ∧
      forThread s s.cur.core s.cur.thr (x.f 0 6) = m :: ms) ∧
    (∃ x s, Runs (.recv x) x s ∧ Fits (.recv x) x 1 ∧ portBad s false (x.f 0 6) = false ∧ (curThr s).hold = none ∧
      forThread s s.cur.core s.cur.thr (x.f 0 6) = []) ∧
    (∃ x s, Runs (.recv x) x s ∧ portBad s false (x.f 0 6) = true) ∧
    (∃ c t x s o m ms, (thrOf s c t).hold = some o ∧ o.instr = .recv x ∧ o.why = .recv ∧ Fits (.recv x) x 1 ∧
      (coreOf s c).group.isSome = true ∧ forThread s c t (x.f 0 6) = m :: ms) ∧
    (∃ c t x s o, (thrOf s c t).hold = some o ∧ o.instr = .send x ∧ o.why = .send ∧ chanFull s c (x.f 0 6) = false ∧
      (coreOf s c).group.isSome = true ∧ x.f 0 6 ≠ 0) ∧
    (∃ c t x s o n, (thrOf s c t).hold = some o ∧ o.instr = .recv x ∧ o.why = .recv ∧ o.orphanSince = some n ∧
      n + 1000000 ≤ nowNs s ∧ liveSender s c t (x.f 0 6) = false) :=
  ⟨⟨fport 0, baseFe, runs_of (by decide +kernel), (by decide +kernel)⟩,
   ⟨fport 0, putFe baseFe 6 0xFFFFFFFF, runs_of (by decide +kernel), (by decide +kernel)⟩,
   ⟨fport 0, putFe baseFe 6 15, runs_of (by decide +kernel), (by decide +kernel)⟩,
   ⟨fport 0, putFe baseFe 6 16, runs_of (by decide +kernel), (by decide +kernel)⟩,
   ⟨fport 15, base, runs_of (by decide +kernel), (by decide +kernel)⟩,
   ⟨fport 0, base, runs_of (by decide +kernel), (by decide +kernel)⟩,
   ⟨fport 15, fullChan, runs_of (by decide +kernel), (by decide +kernel)⟩,
   ⟨fport 0, putFe fullDq 6 0xFFFFFFFF, runs_of (by decide +kernel), (by decide +kernel)⟩,
   ⟨frecv 15, mail, { words := (List.range 32).map fun l => (BitVec.ofNat 32 l, false) }, [], runs_of (by decide +kernel), fits_of (by decide +kernel), (by decide +kernel)⟩,
   ⟨frecv 15, base, runs_of (by decide +kernel), fits_of (by decide +kernel), (by decide +kernel)⟩,
   ⟨frecv 36, base, runs_of (by decide +kernel), (by decide +kernel)⟩,
   ⟨0, 0, frecv 15, held mail .recv (.recv (frecv 15)), { why := .recv, instr := .recv (frecv 15), mask := 0xFFFFFFFF, pc := 0x40000 },
      { words := (List.range 32).map fun l => (BitVec.ofNat 32 l, false) }, [], (by decide +kernel), rfl, rfl, fits_of (by decide +kernel), (by decide +kernel)⟩,
   ⟨0, 0, fport 15, held base .send (.send (fport 15)), { why := .send, instr := .send (fport 15), mask := 0xFFFFFFFF, pc := 0x40000 },
      (by decide +kernel), rfl, rfl, (by decide +kernel)⟩,
   ⟨0, 0, frecv 15, later (updThr (held base .recv (.recv (frecv 15))) 0 0 fun t => { t with hold := t.hold.map fun o => { o with orphanSince := some 0 } }),
      { why := .recv, instr := .recv (frecv 15), mask := 0xFFFFFFFF, pc := 0x40000, orphanSince := some 0 }, 0, (by decide +kernel), rfl, rfl, rfl, (by decide +kernel)⟩⟩


theorem err_get {ε α : Type} {e : Except ε α} (h : (okOf e).isNone = true) : ∃ x, e = .error x := by
  cases e with
  | ok a => cases h
  | error x => exact ⟨x, rfl⟩

theorem base_safe : base.Safe := by unfold State.Safe; decide +kernel

/-- Pair 4 holds the address of a plain page. -/
def atMem : State := putAll base 4 0x40000
/-- Register 4 holds a scratch offset, register 6 a count of 5. -/
def atScr : State := putAll (putAll base 4 0x100) 6 5
/-- Pair 4 holds an address of the scratch window. -/
def atWin : State := putAll (putAll base 4 (scrWin + 0x100)) 6 5
/-- The state after an instruction, the same set issuing again. -/
def after (i : Instr) (s : State) : State := match exec i s with
  | .next t => { t with cur := s.cur }
  | _ => s
/-- ORDER and SCOPE in IMM (R126): acquire, release or both at core scope. -/
def ord (o : Nat) : BitVec 28 := BitVec.ofNat 28 (o * 2 ^ 26)
/-- Nothing to order. -/
theorem unordered {x : Form} {s : State} {lo : Nat} (h : orderOf x < lo ∧ lo ≤ 3) : Ordered x s lo :=
  ⟨by omega, fun k => absurd k (Nat.not_le.2 h.1)⟩
/-- An ORDER whose release is done. -/
theorem ordered {x : Form} {s : State} {lo : Nat} (h : orderOf x ≤ 2) (h1 : lateFault (released x s (scopeOf x)) (lanesOf (actMask (released x s (scopeOf x)) x)) = none)
    (h2 : relReady (released x s (scopeOf x)) s.cur.core s.cur.thr (actMask s x) (scopeOf x) = true) : Ordered x s lo := ⟨h, fun _ => ⟨h1, h2⟩⟩

/-- A pending result with a value for lane 0. -/
def fill0 (cache : Bool) : Fill :=
  { id := 9, core := 0, thr := 0, lanes := 1, dst := { cache := cache, reg := 255, slot := 5 }, what := .value [(0, [7], false)], due := 0 }
/-- It is under way. -/
def filling (cache : Bool) : State := { base with mem := { base.mem with fills := [fill0 cache] } }
/-- A load with acquire of lane 0 that is still to be performed. -/
def acquiring (s : State) : State :=
  { s with mem := { s.mem with fills := [{ fill0 false with due := 100, acq := true, dst := { reg := 9 }, what := .load false [{ lane := 0, va := 0x40000, loc := .mem 0x40000, size := 4 }] }] } }

theorem witness_LoadsIssueAndDeliver :
    (∃ x s as, Runs (.ld x) x s ∧ begun s = false ∧ Fits (.ld x) x (sizeRegs (x.m 0 3)) ∧ (∃ F, accs (.ld x) = some (x, F) ∧ F s = .ok as) ∧
      acqPending s s.cur.core s.cur.thr (actMask s x) = false ∧ reqFull s as = false ∧ Ordered x s 2 ∧ orderOf x = 0) ∧
    (∃ x s as, Runs (.ld x) x s ∧ begun s = false ∧ Fits (.ld x) x (sizeRegs (x.m 0 3)) ∧ (∃ F, accs (.ld x) = some (x, F) ∧ F s = .ok as) ∧
      acqPending s s.cur.core s.cur.thr (actMask s x) = false ∧ reqFull s as = false ∧ Ordered x s 2 ∧ orderOf x = 2) ∧
    (∃ x s as, Runs (.ld x) x s ∧ begun s = false ∧ Fits (.ld x) x (sizeRegs (x.m 0 3)) ∧ (∃ F, accs (.ld x) = some (x, F) ∧ F s = .ok as) ∧
      acqPending s s.cur.core s.cur.thr (actMask s x) = true) ∧
    (∃ x s as, Runs (.lr x) x s ∧ begun s = false ∧ Fits (.lr x) x (sizeRegs (x.m 0 3)) ∧ (∃ F, accs (.lr x) = some (x, F) ∧ F s = .ok as) ∧
      anyBusy s as = false ∧ (let h := homeward x s as
        acqPending h h.cur.core h.cur.thr (actMask h x) = false ∧ Ordered x h 2)) ∧
    (∃ i x F s f, accs i = some (x, F) ∧ begun s = false ∧ Runs i x s ∧ F s = .error f) ∧
    (∃ s f id, s.mem.fills.find? (fun f => f.id = id) = some f ∧ fillReady s f = true ∧ mhas s.thrs (tkey f.core f.thr) = true ∧
      (∀ g ∈ s.mem.fills, f.id ∉ g.behind) ∧
      fillVals s f = [(0, [7], false)] ∧ f.lanes.getLsbD 0 = true ∧ f.dst.cache = true ∧ f.depth = (thrOf s f.core f.thr).tdepth ∧
      f.dst.slot + f.dst.n ≤ 6) ∧
    (∃ s f id, s.mem.fills.find? (fun f => f.id = id) = some f ∧ fillReady s f = true ∧ mhas s.thrs (tkey f.core f.thr) = true ∧
      (∀ g ∈ s.mem.fills, f.id ∉ g.behind) ∧
      fillVals s f = [(0, [7], false)] ∧ f.lanes.getLsbD 0 = true ∧ f.dst.cache = false ∧ f.dst.reg + f.dst.n ≤ 256) :=
  ⟨⟨fm 2 (r 2) (r 4) (r 0) 0, atMem, _, runs_of (by decide +kernel), (by decide +kernel), fits_of (by decide +kernel), ⟨_, rfl, ok_get (by decide +kernel)⟩, (by decide +kernel), (by decide +kernel), unordered (by decide +kernel), (by decide +kernel)⟩,
   ⟨fm 2 (r 2) (r 4) (r 0) (ord 2), atMem, _, runs_of (by decide +kernel), (by decide +kernel), fits_of (by decide +kernel), ⟨_, rfl, ok_get (by decide +kernel)⟩, (by decide +kernel), (by decide +kernel), ordered (by decide +kernel) (by decide +kernel) (by decide +kernel), (by decide +kernel)⟩,
   ⟨fm 2 (r 2) (r 4) (r 0) 0, acquiring atMem, _, runs_of (by decide +kernel), (by decide +kernel), fits_of (by decide +kernel), ⟨_, rfl, ok_get (by decide +kernel)⟩, (by decide +kernel)⟩,
   ⟨fm 2 (r 2) (r 4) (r 0) 0, one atMem, _, runs_of (by decide +kernel), (by decide +kernel), fits_of (by decide +kernel), ⟨_, rfl, ok_get (by decide +kernel)⟩, (by decide +kernel), (by decide +kernel), unordered (by decide +kernel)⟩,
   ⟨.ld (fm 3 (r 2) (r 4) (r 0) 1), _, _, atMem, _, rfl, (by decide +kernel), runs_of (by decide +kernel), (err_get (by decide +kernel)).choose_spec⟩,
   ⟨filling true, fill0 true, 9, (by decide +kernel)⟩, ⟨filling false, fill0 false, 9, (by decide +kernel)⟩⟩

/-- An address is in no register space. -/
theorem noReg {pa : Nat} (h : (match regionOf pa with | .reg _ => false | _ => true) = true) : ∀ o, regionOf pa ≠ .reg o := by
  intro o e
  rw [e] at h
  cases h

theorem safe_atMem : atMem.Safe := by unfold State.Safe; decide +kernel
theorem safe_atScr : atScr.Safe := by unfold State.Safe; decide +kernel
theorem safe_atWin : atWin.Safe := by unfold State.Safe; decide +kernel

/-- The top byte of scratch, which the last word store of the window reaches. -/
def atTop : State := putAll base 4 (scrWin + 0xBFFFC)
theorem safe_atTop : atTop.Safe := by unfold State.Safe; decide +kernel

theorem witness_StoresGoWhereTheySay :
    (∃ x s as, s.Safe ∧ Runs (.st x) x s ∧ begun s = false ∧ (∃ F, accs (.st x) = some (x, F) ∧ F s = .ok as) ∧
      acqPending s s.cur.core s.cur.thr (actMask s x) = false ∧ (∀ a ∈ as, laneBusy s s.cur.core s.cur.thr a = false) ∧ Ordered x s 1 ∧ s.mem.stores = [] ∧
      (as.head?.map (·.loc)) = some (.mem 0x40000)) ∧
    (∃ x s as, s.Safe ∧ Runs (.st x) x s ∧ begun s = false ∧ (∃ F, accs (.st x) = some (x, F) ∧ F s = .ok as) ∧
      acqPending s s.cur.core s.cur.thr (actMask s x) = false ∧ (∀ a ∈ as, laneBusy s s.cur.core s.cur.thr a = false) ∧ Ordered x s 1 ∧ s.mem.stores = [] ∧
      (as.head?.map (·.loc)) = some (.scr 0 0xBFFFC)) :=
  ⟨⟨fm 2 (r 0) (r 4) (r 6) 0, atMem, _, safe_atMem, runs_of (by decide +kernel), (by decide +kernel), ⟨_, rfl, ok_get (by decide +kernel)⟩, (by decide +kernel), (by decide +kernel), unordered (by decide +kernel), (by decide +kernel)⟩,
   ⟨fm 2 (r 0) (r 4) (r 6) 0, atTop, _, safe_atTop, runs_of (by decide +kernel), (by decide +kernel), ⟨_, rfl, ok_get (by decide +kernel)⟩, (by decide +kernel), (by decide +kernel), unordered (by decide +kernel), (by decide +kernel)⟩⟩

/-- Lane 0 at the window, alone. -/
def oneWin : State := one atWin
theorem safe_oneWin : oneWin.Safe := by unfold State.Safe; decide +kernel
/-- A reservation of lane 0. -/
def resvIn (place unit gran : Nat) (s : State) : State :=
  { s with mem := { s.mem with resvs := [{ core := 0, thr := 0, lane := 0, place := place, unit := unit, gran := gran, until' := 2000 }] } }
/-- Lane 0 at the window, with a reservation in the scratchpad. -/
def resved : State := resvIn 0 0 4 oneWin
theorem safe_resved : resved.Safe := by unfold State.Safe; decide +kernel
/-- Lane 0 at the page. -/
def oneMem : State := one atMem
theorem safe_oneMem : oneMem.Safe := by unfold State.Safe; decide +kernel
/-- The same with a reservation in the die's L2. -/
def resvedMem : State := resvIn 1 0 0x1000 oneMem
theorem safe_resvedMem : resvedMem.Safe := by unfold State.Safe; decide +kernel
/-- The fields of an atomic of 32 bits. -/
def fa (op : BitVec 6) (imm : BitVec 28) : Form := fm op (r 2) (r 4) (r 6) imm
/-- The access of lane 0 to the window. -/
def accWin : Acc := { lane := 0, va := scrWin + 0x100, loc := .scr 0 0x100, size := 4 }

theorem witness_AtomicsAndConditionalStores :
    (∃ x s as n, n = atomRegs x ∧ s.Safe ∧ Runs (.atom x) x s ∧ begun s = false ∧ (∃ F, accs (.atom x) = some (x, F) ∧ F s = .ok as) ∧
      atomWaits x s as = false ∧ Ordered x s 1 ∧ ∃ a, as = [a] ∧ a.loc = .scr 0 0x100) ∧
    (∃ x s as, s.Safe ∧ Runs (.atom x) x s ∧ begun s = false ∧ (∃ F, accs (.atom x) = some (x, F) ∧ F s = .ok as) ∧
      atomWaits x s as = false ∧ Ordered x s 1 ∧ (∀ o, regionOf 0x40000 ≠ .reg o) ∧
      as.map (fun a => (a.loc, inL2 (scopeOf x) a)) = [(.mem 0x40000, true)]) ∧
    (∃ x s as, s.Safe ∧ Runs (.red x) x s ∧ begun s = false ∧ (∃ F, accs (.red x) = some (x, F) ∧ F s = .ok as) ∧
      atomWaits x s as = false ∧ Ordered x s 1 ∧ as.any (atHearth (scopeOf x)) = true) ∧
    (∃ r : Rmw, r.op < 12) ∧
    (∃ x s as, s.Safe ∧ Runs (.sc x) x s ∧ begun s = false ∧ (∃ F, accs (.sc x) = some (x, F) ∧ F s = .ok as) ∧
      atomWaits x s as = false ∧ Ordered x s 1 ∧ as.any (atHearth (scopeOf x)) = true) ∧
    (∃ x s as, s.Safe ∧ Runs (.sc x) x s ∧ begun s = false ∧ (∃ F, accs (.sc x) = some (x, F) ∧ F s = .ok as) ∧
      atomWaits x s as = false ∧ Ordered x s 1 ∧ ∃ a, as = [a] ∧ a.loc = .scr 0 0x100 ∧ atHearth (scopeOf x) a = false ∧
      resvIntact s s.cur.core s.cur.thr a.lane a.loc (scopeOf x) = true) ∧
    (∃ x s as, s.Safe ∧ Runs (.sc x) x s ∧ begun s = false ∧ (∃ F, accs (.sc x) = some (x, F) ∧ F s = .ok as) ∧
      atomWaits x s as = false ∧ Ordered x s 1 ∧ ∃ a, as = [a] ∧ a.loc = .scr 0 0x100 ∧ atHearth (scopeOf x) a = false ∧
      resvIntact s s.cur.core s.cur.thr a.lane a.loc (scopeOf x) = false) ∧
    (∃ x s as, s.Safe ∧ Runs (.sc x) x s ∧ begun s = false ∧ (∃ F, accs (.sc x) = some (x, F) ∧ F s = .ok as) ∧
      atomWaits x s as = false ∧ Ordered x s 1 ∧
      as.map (fun a => (a.loc, atHearth (scopeOf x) a, resvIntact s s.cur.core s.cur.thr a.lane a.loc (scopeOf x))) = [(.mem 0x40000, false, true)]) :=
  ⟨⟨fa 0 0, oneWin, _, _, rfl, safe_oneWin, runs_of (by decide +kernel), (by decide +kernel), ⟨_, rfl, ok_get (by decide +kernel)⟩, (by decide +kernel), unordered (by decide +kernel), accWin, (by decide +kernel)⟩,
   ⟨fa 0 0, oneMem, _, safe_oneMem, runs_of (by decide +kernel), (by decide +kernel), ⟨_, rfl, ok_get (by decide +kernel)⟩, (by decide +kernel), unordered (by decide +kernel), noReg (by decide +kernel), (by decide +kernel)⟩,
   ⟨fm 0 (r 0) (r 4) (r 6) 0x1800000, atMem, _, safe_atMem, runs_of (by decide +kernel), (by decide +kernel), ⟨_, rfl, ok_get (by decide +kernel)⟩, (by decide +kernel), unordered (by decide +kernel), (by decide +kernel)⟩,
   ⟨{ op := 11, wide := true, b := 0, cmp := 0, poison := false }, (by decide +kernel)⟩,
   ⟨fa 2 0x1800000, oneMem, _, safe_oneMem, runs_of (by decide +kernel), (by decide +kernel), ⟨_, rfl, ok_get (by decide +kernel)⟩, (by decide +kernel), unordered (by decide +kernel), (by decide +kernel)⟩,
   ⟨fa 2 0, resved, _, safe_resved, runs_of (by decide +kernel), (by decide +kernel), ⟨_, rfl, ok_get (by decide +kernel)⟩, (by decide +kernel), unordered (by decide +kernel), accWin, (by decide +kernel)⟩,
   ⟨fa 2 0, oneWin, _, safe_oneWin, runs_of (by decide +kernel), (by decide +kernel), ⟨_, rfl, ok_get (by decide +kernel)⟩, (by decide +kernel), unordered (by decide +kernel), accWin, (by decide +kernel)⟩,
   ⟨fa 2 0, resvedMem, _, safe_resvedMem, runs_of (by decide +kernel), (by decide +kernel), ⟨_, rfl, ok_get (by decide +kernel)⟩, (by decide +kernel), unordered (by decide +kernel), (by decide +kernel)⟩⟩

/-- A barrier object that expects five is live at offset 0x100. -/
def barred : State := after (.binit (fm 0 (r 0) (r 4) (r 6) 0)) atScr
theorem safe_barred : barred.Safe := by unfold State.Safe; decide +kernel
/-- The same with another B. -/
def barredB (n : Nat) : State := putAll barred 6 n
theorem safe_barredB5 : (barredB 5).Safe := by unfold State.Safe; decide +kernel
/-- The source at the page, offset 0x200 and the object at 0x100 as SFILL takes them. -/
def sfilled : State := putAll (putAll barred 4 0x40000) 6 (0x200 + 0x100 * 2 ^ 32)
/-- The same with another object and offset. -/
def fillAt (bar dst : Nat) : State := putAll (putAll barred 4 0x40000) 6 (dst + bar * 2 ^ 32)
/-- The copy of one lane. -/
def land0 (dst : Nat) : Job :=
  { id := 5, tag := none, running := true, due := 0
    work := .sfill 4 0x100 [(0, { lane := 0, va := 0x40000, loc := .mem 0x40000, size := 4 }, dst)] }

/-- It is ready to land. -/
def landing (dst : Nat) : State := updCore barred 0 fun k => { k with jobs := [land0 dst] }
theorem safe_landing : (landing 0x110).Safe := by unfold State.Safe; decide +kernel
theorem safe_landing2 : (barType (landing 0x110) 0 0x100 false).Safe := by unfold State.Safe; decide +kernel

/-- The same object with 2^31 - 1 fills to come. -/
def barredFull : State := barPut (barredB 1) 0 0x100 { expect := 5, arrived := 0, fills := 2 ^ 31 - 1, landed := 0, phase := 0 } (.thread 0 0 0)
theorem safe_barredFull : barredFull.Safe := by unfold State.Safe; decide +kernel
theorem safe_barredB6 : (barredB 6).Safe := by unfold State.Safe; decide +kernel

theorem witness_BarrierObjects :
    (∃ x s off, s.Safe ∧ Runs (.binit x) x s ∧ barChk (.binit x) x s (some (1, 65535)) false = .ok off) ∧
    (∃ x s off, s.Safe ∧ Runs (.barrive x) x s ∧ Fits (.barrive x) x 1 ∧ barChk (.barrive x) x s (some (1, 65535)) true = .ok off ∧
      (barGet s s.cur.core off).arrived + Claim.count (.barrive x) x s = (barGet s s.cur.core off).expect ∧ Opens x s 0 ∧
      bwaitsOn s s.cur.core off s.cur.thr = none) ∧
    (∃ x s off, s.Safe ∧ Runs (.barrive x) x s ∧ Fits (.barrive x) x 1 ∧ barChk (.barrive x) x s (some (1, 65535)) true = .ok off ∧
      (barGet s s.cur.core off).expect + 1 = (barGet s s.cur.core off).arrived + Claim.count (.barrive x) x s) ∧
    (∃ x s off, s.Safe ∧ Runs (.bexpect x) x s ∧ barChk (.bexpect x) x s (some (1, 65535)) true = .ok off ∧
      (barGet s s.cur.core off).fills + Claim.count (.bexpect x) x s ≤ 2 ^ 31 - 1) ∧
    (∃ x s off, s.Safe ∧ Runs (.bexpect x) x s ∧ barChk (.bexpect x) x s (some (1, 65535)) true = .ok off ∧
      2 ^ 31 = (barGet s s.cur.core off).fills + Claim.count (.bexpect x) x s) ∧
    (∃ x s off, Runs (.bwait x) x s ∧ barChk (.bwait x) x s (some (0, 2 ^ 32)) true = .ok off ∧
      (barGet s s.cur.core off).phase ≠ Claim.count (.bwait x) x s) ∧
    (∃ x s off, Runs (.bwait x) x s ∧ barChk (.bwait x) x s (some (0, 2 ^ 32)) true = .ok off ∧
      (barGet s s.cur.core off).phase = Claim.count (.bwait x) x s ∧ (curThr s).hold = none) ∧
    (∃ x s off, Runs (.bdrop x) x s ∧ keysRise 0 (coreOf s s.cur.core).scrT = true ∧ barChk (.bdrop x) x s none true = .ok off ∧
      sfillOn s s.cur.core off = false ∧ ∀ t ∈ threadsOf s s.cur.core, bwaitsOn s s.cur.core off t = none) ∧
    (∃ x s f, Runs (.barrive x) x s ∧ barChk (.barrive x) x s (some (1, 65535)) true = .error f) :=
  ⟨⟨fm 0 (r 0) (r 4) (r 6) 0, atScr, 0x100, safe_atScr, runs_of (by decide +kernel), (ok_get (by decide +kernel)).trans (congrArg _ (by decide +kernel))⟩,
   ⟨fm 0 (r 2) (r 4) (r 6) 0, barredB 5, 0x100, safe_barredB5, runs_of (by decide +kernel), fits_of (by decide +kernel), (ok_get (by decide +kernel)).trans (congrArg _ (by decide +kernel)), (by decide +kernel), ⟨(by decide +kernel), (by decide +kernel)⟩, (by decide +kernel)⟩,
   ⟨fm 0 (r 2) (r 4) (r 6) 0, barredB 6, 0x100, safe_barredB6, runs_of (by decide +kernel), fits_of (by decide +kernel), (ok_get (by decide +kernel)).trans (congrArg _ (by decide +kernel)), (by decide +kernel)⟩,
   ⟨fm 0 (r 0) (r 4) (r 6) 0, barredB 5, 0x100, safe_barredB5, runs_of (by decide +kernel), (ok_get (by decide +kernel)).trans (congrArg _ (by decide +kernel)), (by decide +kernel)⟩,
   ⟨fm 0 (r 0) (r 4) (r 6) 0, barredFull, 0x100, safe_barredFull, runs_of (by decide +kernel), (ok_get (by decide +kernel)).trans (congrArg _ (by decide +kernel)), (by decide +kernel)⟩,
   ⟨fm 0 (r 0) (r 4) (r 6) 0, barredB 5, 0x100, runs_of (by decide +kernel), (ok_get (by decide +kernel)).trans (congrArg _ (by decide +kernel)), (by decide +kernel)⟩,
   ⟨fm 0 (r 0) (r 4) (r 6) 0, barredB 0, 0x100, runs_of (by decide +kernel), (ok_get (by decide +kernel)).trans (congrArg _ (by decide +kernel)), (by decide +kernel)⟩,
   ⟨fm 0 (r 0) (r 4) (r 0) 0, barred, 0x100, runs_of (by decide +kernel), (by decide +kernel), (ok_get (by decide +kernel)).trans (congrArg _ (by decide +kernel)), (by decide +kernel)⟩,
   ⟨fm 0 (r 2) (r 4) (r 6) 0, atScr, (err_get (e := barChk (.barrive (fm 0 (r 2) (r 4) (r 6) 0)) (fm 0 (r 2) (r 4) (r 6) 0) atScr (some (1, 65535)) true) (by decide +kernel)).choose,
      runs_of (by decide +kernel), (err_get (by decide +kernel)).choose_spec⟩⟩

theorem witness_ScratchFills :
    (∃ x s as, Runs (.sfill x) x s ∧ accessAll (lanesOf (actMask s x)) (sfillAcc (.sfill x) x s (2 ^ x.m 0 3)) = .ok as ∧
      pairHi (srcNo (.sfill x) x s 4 (lowLane s x)) % 16 = 0 ∧
      pairHi (srcNo (.sfill x) x s 4 (lowLane s x)) + 16 ≤ slimit (grpOf s s.cur.core) ∧
      overBarrier s s.cur.core (pairHi (srcNo (.sfill x) x s 4 (lowLane s x))) 16 = true ∧
      acqPending s s.cur.core s.cur.thr (actMask s x) = false ∧ reqFull s as = false) ∧
    (∃ s c id j size bar l a dst, s.Safe ∧ jobOf s c id = some j ∧ j.work = .sfill size bar [(l, a, dst)] ∧ j.running = true ∧
      j.paused = false ∧ j.due ≤ s.time ∧ waiting s (j.waits.getD []) = false ∧ agentReady s c a.loc size = true ∧ barLive s c bar = true ∧
      bar + 16 ≤ dst ∧ -(2 ^ 31) < (barGet s c bar).fills) ∧
    (∃ s c id j size bar l a dst, s.Safe ∧ jobOf s c id = some j ∧ j.work = .sfill size bar [(l, a, dst)] ∧ j.running = true ∧
      j.paused = false ∧ j.due ≤ s.time ∧ waiting s (j.waits.getD []) = false ∧ agentReady s c a.loc size = true ∧ barLive s c bar = false) ∧
    (∃ x s f, Runs (.sfill x) x s ∧ accessAll (lanesOf (actMask s x)) (sfillAcc (.sfill x) x s (2 ^ x.m 0 3)) = .error f) ∧
    (∃ x s as, Runs (.sfill x) x s ∧ accessAll (lanesOf (actMask s x)) (sfillAcc (.sfill x) x s (2 ^ x.m 0 3)) = .ok as ∧
      pairHi (srcNo (.sfill x) x s 4 (lowLane s x)) % 16 ≠ 0) ∧
    (∀ high : Bool, ∃ x s as, Runs (.sfill x) x s ∧ accessAll (lanesOf (actMask s x)) (sfillAcc (.sfill x) x s (2 ^ x.m 0 3)) = .ok as ∧
      let bar := pairHi (srcNo (.sfill x) x s 4 (lowLane s x))
      bar % 16 = 0 ∧ if high then slimit (grpOf s s.cur.core) < bar + 16
        else bar + 16 ≤ slimit (grpOf s s.cur.core) ∧ overBarrier s s.cur.core bar 16 = false) :=
  ⟨⟨fm 2 (r 0) (r 4) (r 6) 0, sfilled, _, runs_of (by decide +kernel), ok_get (by decide +kernel), (by decide +kernel)⟩,
   ⟨landing 0x110, 0, 5, land0 0x110, 4, 0x100, 0, _, 0x110, safe_landing, (by decide +kernel), rfl, (by decide +kernel)⟩,
   ⟨barType (landing 0x110) 0 0x100 false, 0, 5, land0 0x110, 4, 0x100, 0, _, 0x110, safe_landing2, (by decide +kernel), rfl, (by decide +kernel)⟩,
   (err_get (e := accessAll (lanesOf (actMask (fillAt 0x100 0x202) (fm 2 (r 0) (r 4) (r 6) 0)))
      (sfillAcc (.sfill (fm 2 (r 0) (r 4) (r 6) 0)) (fm 2 (r 0) (r 4) (r 6) 0) (fillAt 0x100 0x202) (2 ^ (fm 2 (r 0) (r 4) (r 6) 0).m 0 3))) (by decide +kernel)).elim
      fun f h => ⟨fm 2 (r 0) (r 4) (r 6) 0, fillAt 0x100 0x202, f, runs_of (by decide +kernel), h⟩,
   ⟨fm 2 (r 0) (r 4) (r 6) 0, fillAt 0x108 0x200, _, runs_of (by decide +kernel), ok_get (by decide +kernel), (by decide +kernel)⟩,
   fun | true => ⟨fm 2 (r 0) (r 4) (r 6) 0, fillAt 0xC0000 0x200, _, runs_of (by decide +kernel), ok_get (by decide +kernel), (by decide +kernel)⟩
       | false => ⟨fm 2 (r 0) (r 4) (r 6) 0, fillAt 0x300 0x200, _, runs_of (by decide +kernel), ok_get (by decide +kernel), (by decide +kernel)⟩⟩

/-- The group is one of a team. -/
def teamed : State := updGrp base 0 fun g => { g with team := some 0 }
/-- A CBAR generation of three is under way on barrier 15. -/
def cbarring : State := updGrp base 0 fun g => { g with cbar := [(15, 3)] }
/-- Barrier and count of CBAR. -/
def fb (imm : BitVec 28) : Form := fm 0 (r 0) (r 0) (r 0) imm

/-- A load of lane 0 is not yet performed. -/
def load0 : Fill :=
  { fill0 false with due := 100, what := .load false [{ lane := 0, va := 0x40000, loc := .mem 0x40000, size := 4 }] }
/-- It is under way. -/
def loading (s : State) : State := { s with mem := { s.mem with fills := [load0] } }
/-- A store of lane 0 has lost its acknowledgement. -/
def lateOne : State := updThr base 0 0 fun t => { t with late := [{ ack := true, lane := 0, va := 0x40000 }] }
/-- Lanes 0 to 15 wait for their release at a CBAR. -/
def holdC : Hold := { why := .fence, instr := .cbar (fb 0x1F), mask := 0xFFFF, pc := 0x40000 }
def waitingC : State := updThr base 0 0 fun t => { t with cbars := [holdC] }

theorem witness_HardwareBarriersHold :
    (∃ x s, Runs (.cbar x) x s ∧ Opens x s 0 ∧ cbarOther s s.cur.core (x.f 0 4) (x.f 4 5) = false ∧
      (let u := updGrp (arrives (.cbar x) x s 0 (x.f 0 4)) s.cur.core fun g => { g with cbar := mset g.cbar (x.f 0 4) (x.f 4 5) }
       (grpOf u s.cur.core).cbar = [(x.f 0 4, x.f 4 5)] ∧ allCame u s.cur.core (x.f 0 4) (x.f 4 5))) ∧
    (∃ x s, Runs (.cbar x) x s ∧ Opens x s 0 ∧ cbarOther s s.cur.core (x.f 0 4) (x.f 4 5) = false ∧
      (let u := updGrp (arrives (.cbar x) x s 0 (x.f 0 4)) s.cur.core fun g => { g with cbar := mset g.cbar (x.f 0 4) (x.f 4 5) }
       (grpOf u s.cur.core).cbar = [(x.f 0 4, x.f 4 5)] ∧ ¬ allCame u s.cur.core (x.f 0 4) (x.f 4 5))) ∧
    (∃ x s, Runs (.cbar x) x s ∧ cbarOther s s.cur.core (x.f 0 4) (x.f 4 5) = true) ∧
    (∃ x s, Runs (.qbar x) x s ∧ inTeam s s.cur.core = true ∧ Opens x s 1) ∧
    (∃ x s, Runs (.qbar x) x s ∧ inTeam s s.cur.core = false) ∧
    (∃ x s, Runs (.cbar x) x s ∧ cbarOther s s.cur.core (x.f 0 4) (x.f 4 5) = false ∧ lateFault s (lanesOf (actMask s x)) = none ∧
      relReady s s.cur.core s.cur.thr (actMask s x) 0 = false) ∧
    (∃ x s, Runs (.qbar x) x s ∧ inTeam s s.cur.core = true ∧ lateFault s (lanesOf (actMask s x)) = none ∧
      relReady s s.cur.core s.cur.thr (actMask s x) 1 = false) ∧
    (∃ c t x s o, mhas s.thrs (tkey c t) = true ∧ (thrOf s c t).hold = none ∧ (thrOf s c t).cbars = [o] ∧ o.instr = .cbar x ∧
      lateFault (at' s c t o) (lanesOf o.mask) = none ∧ relReady s c t o.mask 0 = true ∧ cbarOther s c (x.f 0 4) (x.f 4 5) = false) :=
  ⟨⟨fb 0x1F, base, runs_of (by decide +kernel), ⟨(by decide +kernel), (by decide +kernel)⟩, (by decide +kernel), (by decide +kernel), (by unfold allCame; decide +kernel)⟩,
   ⟨fb 0x3F, cbarring, runs_of (by decide +kernel), ⟨(by decide +kernel), (by decide +kernel)⟩, (by decide +kernel), (by decide +kernel), (by unfold allCame; decide +kernel)⟩,
   ⟨fb 0x2F, cbarring, runs_of (by decide +kernel), (by decide +kernel)⟩, ⟨fb 15, teamed, runs_of (by decide +kernel), (by decide +kernel), ⟨(by decide +kernel), (by decide +kernel)⟩⟩, ⟨fb 15, base, runs_of (by decide +kernel), (by decide +kernel)⟩,
   ⟨fb 0x1F, loading base, runs_of (by decide +kernel), (by decide +kernel)⟩, ⟨fb 15, loading teamed, runs_of (by decide +kernel), (by decide +kernel)⟩,
   ⟨0, 0, fb 0x1F, waitingC, holdC, (by decide +kernel), (by decide +kernel), (by decide +kernel), rfl, (by decide +kernel)⟩⟩

theorem witness_FencesAndCacheHints :
    (∃ x s, Runs (.fence x) x s ∧ x.m 0 3 = 2 ∧ nothingLost x s ∧ fencePassed x s = true) ∧
    (∃ x s, Runs (.fence x) x s ∧ x.m 0 3 = 1 ∧ nothingLost x s ∧ fencePassed x s = true) ∧
    (∃ x s, Runs (.fence x) x s ∧ x.m 0 3 = 3 ∧ nothingLost x s ∧ fencePassed x s = true) ∧
    (∃ x s, Runs (.fence x) x s ∧ x.m 0 3 ≤ 4 ∧ nothingLost x s ∧ fencePassed x s = false ∧ (curThr s).hold = none) ∧
    (∃ x s f, Runs (.fence x) x s ∧ x.m 0 3 ≤ 4 ∧ x.m 0 3 ≠ 1 ∧ lateFault (fenced x s) (lanesOf (actMask (fenced x s) x)) = some f) ∧
    (∃ c t x s o, (thrOf s c t).hold = some o ∧ (thrOf s c t).cbars = [] ∧ o.instr = .fence x ∧ o.why = .fence ∧ x.m 0 3 ≤ 4 ∧
      nothingLost x (resumed s c t o) ∧ fencePassed x (resumed s c t o) = true) ∧
    (∃ x s, Runs (.pref x) x s ∧ poisonFault (.pref x) x s [3] = none ∧ ∃ l, lanesOf (actMask s x) = [l] ∧
      ((okOf (accessOf s 0 (memOff x) 1 .read l (srcNo (.pref x) x s 3 l))).any fun a => a.isMem && !a.attr.rcell && decide (x.m 0 2 ≤ 1) &&
        leasable s (dieOf s.cur.core) a.pa a.attr && s.mem.stores.isEmpty) = true) ∧
    (∃ x s l, Runs (.pref x) x s ∧ l ∈ lanesOf (actMask s x) ∧ (srcNo (.pref x) x s 3 l).p = true) ∧
    (∃ x s as, Runs (.cctl x) x s ∧ memAccs (.cctl x) x s 0 1 .read = .ok as ∧ x.m 0 2 = 1 ∧
      as.map (fun a => (a.isMem, a.attr.rcell, leaseNs a.attr)) = [(true, false, 250)]) ∧
    (∃ x s as, Runs (.cctl x) x s ∧ memAccs (.cctl x) x s 0 1 .read = .ok as ∧ x.m 0 2 = 2 ∧
      as.map (fun a => (a.isMem, a.attr.rcell, leaseNs a.attr)) = [(true, false, 250)] ∧ keysRise 0 (coreOf s s.cur.core).l1 = true) ∧
    (∃ x s f, Runs (.cctl x) x s ∧ memAccs (.cctl x) x s 0 1 .read = .error f) :=
  ⟨⟨fm 2 (r 0) (r 0) (r 0) 0, base, runs_of (by decide +kernel), (by decide +kernel), .inr (by decide +kernel), (by decide +kernel)⟩, ⟨fm 1 (r 0) (r 0) (r 0) 0, base, runs_of (by decide +kernel), (by decide +kernel), .inl (by decide +kernel), (by decide +kernel)⟩,
   ⟨fm 3 (r 0) (r 0) (r 0) 0, later base, runs_of (by decide +kernel), (by decide +kernel), .inr (by decide +kernel), (by decide +kernel)⟩,
   ⟨fm 1 (r 0) (r 0) (r 0) 0, loading base, runs_of (by decide +kernel), (by decide +kernel), .inl (by decide +kernel), (by decide +kernel)⟩,
   ⟨fm 2 (r 0) (r 0) (r 0) 0, lateOne, _, runs_of (by decide +kernel), (by decide +kernel), (by decide +kernel), some_get (by decide +kernel)⟩,
   ⟨0, 0, fm 0 (r 0) (r 0) (r 0) 0, held base .fence (.fence (fm 0 (r 0) (r 0) (r 0) 0)),
      { why := .fence, instr := .fence (fm 0 (r 0) (r 0) (r 0) 0), mask := 0xFFFFFFFF, pc := 0x40000 }, (by decide +kernel), (by decide +kernel), rfl, rfl, (by decide +kernel), .inr (by decide +kernel), (by decide +kernel)⟩,
   ⟨fm 0 (r 0) (r 4) (r 0) 0, one atMem, runs_of (by decide +kernel), (by decide +kernel), 0, (by decide +kernel)⟩,
   ⟨fm 0 (r 0) (r 4) (r 0) 0, poisonTarget, 3, runs_of (by decide +kernel), (by decide +kernel)⟩,
   ⟨fm 1 (r 0) (r 4) (r 0) 0, one atMem, _, runs_of (by decide +kernel), ok_get (by decide +kernel), (by decide +kernel)⟩,
   ⟨fm 2 (r 0) (r 4) (r 0) 0, one atMem, _, runs_of (by decide +kernel), ok_get (by decide +kernel), (by decide +kernel)⟩,
   ⟨fm 1 (r 0) (r 4) (r 0) 0, poisonTarget, (err_get (e := memAccs (.cctl (fm 1 (r 0) (r 4) (r 0) 0)) (fm 1 (r 0) (r 4) (r 0) 0) poisonTarget 0 1 .read) (by decide +kernel)).choose,
      runs_of (by decide +kernel), (err_get (by decide +kernel)).choose_spec⟩⟩

/-- An MWAIT on a scratch word. -/
def fw (mod : BitVec 6) : Form := fm mod (r 2) (r 4) (r 6) 0
/-- Its access. -/
def accW : Acc := { lane := 0, va := scrWin + 0x100, loc := .scr 0 0x100, size := 4 }
/-- A held MWAIT of lane 0 on that word. -/
def holdW : Hold := { why := .mwait, instr := .mwait (fw 1), mask := 1, pc := 0x40000, accs := [accW] }
/-- The wattle waits so. -/
def mwaiting : State := updThr oneWin 0 0 fun t => { t with hold := some holdW }
/-- The accesses of MWAIT. -/
def mwAs (x : Form) (s : State) : Except FRec (List Acc) := accessAll (lanesOf (actMask s x)) fun l =>
    thenChk (accessOf s 0 (memOff x) (if x.m 2 1 = 1 then 8 else 4) .read l (srcNo (.mwait x) x s 3 l)) rcellLoad

theorem witness_MwaitWaitsForItsValue :
    (∃ x s r, Runs (.mwait x) x s ∧ Fits (.mwait x) x (if x.m 2 1 = 1 then 2 else 1) ∧ mwAs x s = .ok r ∧ Readable s r ∧
      acqPending s s.cur.core s.cur.thr (actMask s x) = false ∧ ∀ a ∈ r, Claim.meets x s a) ∧
    (∃ x s r, Runs (.mwait x) x s ∧ Fits (.mwait x) x (if x.m 2 1 = 1 then 2 else 1) ∧ mwAs x s = .ok r ∧ Readable s r ∧
      acqPending s s.cur.core s.cur.thr (actMask s x) = false ∧ (∃ a ∈ r, ¬ Claim.meets x s a) ∧ (curThr s).hold = none) ∧
    (∃ x s r, Runs (.mwait x) x s ∧ Fits (.mwait x) x (if x.m 2 1 = 1 then 2 else 1) ∧ mwAs x s = .ok r ∧
      acqPending s s.cur.core s.cur.thr (actMask s x) = true ∧ (curThr s).hold = none) ∧
    (∃ x s f, Runs (.mwait x) x s ∧ mwAs x s = .error f) ∧
    (∃ c t x s o r, (thrOf s c t).hold = some o ∧ o.instr = .mwait x ∧ o.why = .mwait ∧ o.vals = [] ∧ o.next ≤ s.time ∧
      Fits (.mwait x) x (if x.m 2 1 = 1 then 2 else 1) ∧ mwAs x (resumed s c t o) = .ok r ∧ Readable (resumed s c t o) r ∧
      ∀ a ∈ r, Claim.meets x (resumed s c t o) a) :=
  ⟨⟨fw 1, oneWin, [accW], runs_of (by decide +kernel), fits_of (by decide +kernel), (ok_get (by decide +kernel)).trans (congrArg _ (by decide +kernel)), ⟨(by decide +kernel), .inl (by decide +kernel)⟩, (by decide +kernel),
      (by simp only [List.forall_mem_singleton]; exact .inr (.inr (.inl (by decide +kernel))))⟩,
   ⟨fw 0, oneWin, [accW], runs_of (by decide +kernel), fits_of (by decide +kernel), (ok_get (by decide +kernel)).trans (congrArg _ (by decide +kernel)), ⟨(by decide +kernel), .inl (by decide +kernel)⟩, (by decide +kernel),
      ⟨accW, List.mem_singleton.2 rfl, (by unfold Claim.meets; decide +kernel)⟩, (by decide +kernel)⟩,
   ⟨fw 1, acquiring oneWin, [accW], runs_of (by decide +kernel), fits_of (by decide +kernel), (ok_get (by decide +kernel)).trans (congrArg _ (by decide +kernel)), (by decide +kernel)⟩,
   ⟨fw 1, poisonTarget, (err_get (e := mwAs (fw 1) poisonTarget) (by decide +kernel)).choose, runs_of (by decide +kernel), (err_get (by decide +kernel)).choose_spec⟩,
   ⟨0, 0, fw 1, mwaiting, holdW, [accW], (by decide +kernel), rfl, rfl, rfl, (by decide +kernel),
      fits_of (by decide +kernel), (ok_get (by decide +kernel)).trans (congrArg _ (by decide +kernel)), ⟨(by decide +kernel), .inl (by decide +kernel)⟩, (by simp only [List.forall_mem_singleton]; exact .inr (.inr (.inl (by decide +kernel))))⟩⟩


/-- The bytes of a read at issue. -/
def gotOf : CardRes → Option (List Byte)
  | .got b => some b
  | _ => none

theorem got_get {c : CardRes} (h : (gotOf c).isSome = true) : c = .got ((gotOf c).get h) := by
  cases c with
  | got b => rfl
  | wait => cases h
  | bad f => cases h

theorem got_is {c : CardRes} {b : List Byte} (h : (gotOf c == some b) = true) : c = .got b := by
  cases c with
  | got a => simp [gotOf] at h; rw [h]
  | wait => cases h
  | bad f => cases h

/-- A read at issue that takes place and gives bytes which pass a test. -/
theorem got_with {c : CardRes} {p : List Byte → Bool} (h : (gotOf c).any p = true) : ∃ b, c = .got b ∧ p b = true := by
  cases c with
  | got b => exact ⟨b, rfl, h⟩
  | wait => cases h
  | bad f => cases h

/-- Bytes at a physical address. -/
def poke (s : State) (a : Nat) (bs : List Byte) : State := { s with mem := { s.mem with bytes := bsetL s.mem.bytes a bs } }
/-- Pairs 2, 4 and 6 of every lane. -/
def three (s : State) (d a b : Nat) : State := putAll (putAll (putAll s 2 d) 4 a) 6 b
/-- The form with D, A and B as sources. -/
def fs (mod : BitVec 6) (imm : BitVec 28) : Form := fm mod (r 2) (r 4) (r 6) imm
/-- CPY of 2^30 bytes from page to page. -/
def copying : State := three base 0x50000 0x60000 0x40000000
/-- Tag 63 is busy. -/
def busyTag : State := tagBusy copying 0 63
/-- An entry for the pages below 512 MiB, which does not pass, is cached, so that no walk starts, and the home caches hold the lines: a
read at issue waits for nothing. -/
def cached (s : State) (lines : List Nat) : State :=
  updCore (updMem s fun m => { m with hcache := lines.map fun l => (l, false) }) 0 fun k =>
    { k with tlb := [{ asid := 0, vpn := 0, big := true, leaf := 0 }] }
/-- Which outcome CPY has: 0 to 8 its faults in their order, 9 none. -/
def cpyCase (x : Form) (s : State) : Nat :=
  let l := lowLane s x
  let d := src (.cpy x) x s 2 l
  let a := src (.cpy x) x s 3 l
  let n := src (.cpy x) x s 4 l
  if ¬ (n % 16 = 0 ∧ 16 ≤ n ∧ n ≤ 2 ^ 30) then 0
  else if 2 ^ 52 ≤ a then 1 else if 2 ^ 52 ≤ d then 2 else if a % 16 ≠ 0 then 3 else if d % 16 ≠ 0 then 4
  else if tagOf s s.cur.core (x.f 0 6) = .busy then 5 else if retired s d n then 6
  else if leavesWindow s a n then 7 else if leavesWindow s d n then 8 else 9
/-- Which outcome CPYJ has: 0 to 12 its faults in their order, 13 none. -/
def cpyjCase (x : Form) (s : State) : Nat :=
  let m := maskOf [lowLane s x]
  let a := src (.cpyj x) x s 3 (lowLane s x)
  if 2 ^ 52 ≤ a then 0
  else if a % 64 ≠ 0 then 1
  else match readCard s m a 128 with
    | .wait => 99
    | .bad _ => 2
    | .got b =>
      let k := CopyCard.of b
      let bas := basisOf s s.cur.core k.basis
      if k.fieldsOk b = false then 3
      else if k.misaligned.isSome then 4
      else match cardIf (k.kind = 1 && k.sfmt = 10) (readCard s m k.src 32), cardIf (k.kind = 1 && k.dfmt = 10) (readCard s m k.dst 32),
          cardIf (k.kind = 1 && k.sfmt = 3) (readCard s m k.aux 32) with
        | .bad _, _, _ => 5
        | .got _, .bad _, _ => 6
        | .got _, .got _, .bad _ => 7
        | .got so, .got d, .got aux =>
          if k.kind = 1 ∧ k.sfmt = 10 ∧ (planeChk m so k.basis bas).isSome then 8
          else if k.kind = 1 ∧ k.dfmt = 10 ∧ (planeChk m d k.basis bas).isSome then 9
          else if k.kind = 1 ∧ k.sfmt = 3 ∧ (scaleChk m aux).isSome then 10
          else if tagOf s s.cur.core k.tag = .busy then 11
          else if retired s (k.target d) (k.extent so d) then 12 else 13
        | _, _, _ => 99
/-- A copy card of a kind and formats on tag 63. -/
def cardOf (kind sf df src dst count aux : Nat) : List Byte :=
  natLe 1 kind ++ natLe 1 sf ++ natLe 1 df ++ natLe 1 63 ++ natLe 4 0 ++ natLe 8 src ++ natLe 8 dst ++ natLe 8 count ++ natLe 8 aux ++ natLe 88 0
/-- Bytes at 0x400 of the own scratch. -/
def scr400 (s : State) (b : List Byte) : State := updCore s 0 fun c => { c with scr := bsetL c.scr 0x400 b }
/-- Pair 4 names them. -/
def inScr (b : List Byte) : State := putAll (scr400 base b) 4 (scrWin + 0x400)
/-- The state that holds such a card. -/
def cardAt (kind sf df src dst count aux : Nat) : State := inScr (cardOf kind sf df src dst count aux)
/-- The operands of CPY with a poisoned length. -/
def badLength : State := updThr copying 0 0 fun t => updReg t 0 6 fun _ => { cur := { v := 16, poison := true } }
/-- The address of CPYJ poisoned. -/
def badCard : State := updThr copying 0 0 fun t => updReg t 0 4 fun _ => { cur := { v := 64, poison := true } }
/-- A copy card: 16 plain bytes from 0x60000 to 0x50000 on tag 63. -/
def copyCard : List Byte := natLe 3 0 ++ natLe 1 63 ++ natLe 4 0 ++ natLe 8 0x60000 ++ natLe 8 0x50000 ++ natLe 4 16 ++ natLe 100 0
/-- It lies at 0x70000, and pair 4 names it. -/
def carded : State := inScr copyCard
/-- A group with a released schedule entry at its head. -/
def sched (dst : Nat) : State := updGrp base 0 fun g => { g with sched := [{ src := 0x60000, dst := dst, len := 16, stride := 16, rows := 1, stage := 0, tag := 63, released := true }] }

/-- States in which CPY has the outcomes 0 to 8. -/
def cpyStates : List State := [
    three base 0x50000 0x60000 24,
    three base (2 ^ 52) (2 ^ 52) 16,
    three base (2 ^ 52) 0x60008 16,
    three base 0x50008 0x60008 16,
    three base 0x50008 0x60000 16,
    busyTag,
    three base (scrWin + 0xBFFF0) 0x60000 32,
    three base lentWin (scrWin + 0xBFFF0) 32,
    three base lentWin 0x60000 16]
/-- Runs, and no poisoned operand, as a Boolean. -/
def reachesB (i : Instr) (x : Form) (nos : List Nat) (s : State) : Bool := runsB i x s && (poisonFault i x s nos).isNone

theorem reaches_of {i : Instr} {x : Form} {nos : List Nat} {l : List State} (h : l.all (reachesB i x nos) = true) :
    ∀ s ∈ l, Runs i x s ∧ poisonFault i x s nos = none := fun s m => by
  have := List.all_eq_true.1 h s m
  simp only [reachesB, Bool.and_eq_true, Option.isNone_iff_eq_none] at this
  exact ⟨runs_of this.1, this.2⟩

theorem witness_CopiesAreSubmitted_cpy : cpyStates.map (cpyCase (fs 0 63)) = List.range 9 ∧
    ∀ s ∈ cpyStates, Runs (.cpy (fs 0 63)) (fs 0 63) s ∧ poisonFault (.cpy (fs 0 63)) (fs 0 63) s [2, 3, 4] = none :=
  ⟨(by decide +kernel), reaches_of (by decide +kernel)⟩

/-- The form of CPYJ. -/
def fcj : Form := fm 0 (r 0) (r 4) (r 0) 0
theorem witness_CopiesAreSubmitted_poison : (∃ x s f, Runs (.cpy x) x s ∧ poisonFault (.cpy x) x s [2, 3, 4] = some f) ∧
    (∃ x s f, Runs (.cpyj x) x s ∧ poisonFault (.cpyj x) x s [3] = some f) :=
  ⟨⟨fs 0 63, badLength, (poisonFault (.cpy (fs 0 63)) (fs 0 63) badLength [2, 3, 4]).get (by decide +kernel), runs_of (by decide +kernel), some_get (by decide +kernel)⟩,
   ⟨fcj, badCard, (poisonFault (.cpyj fcj) fcj badCard [3]).get (by decide +kernel), runs_of (by decide +kernel), some_get (by decide +kernel)⟩⟩

/-- States in which CPYJ has the outcomes 0 to 12. -/
def cpyjStates : List State := [
    putAll base 4 (2 ^ 52),
    putAll base 4 0x70020,
    putAll base 4 (2 ^ 51),
    cardAt 5 0 0 0x60000 0x50000 16 0,
    cardAt 0 0 0 0x60008 0x50000 16 0,
    cardAt 1 10 8 (2 ^ 51) 0x50000 0 0,
    cardAt 1 8 10 0x60000 (2 ^ 51) 0 0,
    cardAt 1 3 0 0x60000 0x50000 1 (2 ^ 51),
    cardAt 1 10 8 0x60000 0x50000 0 0,
    cardAt 1 8 10 0x60000 0x50000 0 0,
    cardAt 1 3 0 0x60000 0x50000 1 0x58000,
    tagBusy (cardAt 0 0 0 0x60000 0x50000 16 0) 0 63,
    cardAt 0 0 0 0x60000 (scrWin + 0xBFFF0) 32 0]

theorem witness_CopiesAreSubmitted_cpyj : (cpyjStates.map (cpyjCase fcj) == List.range 13) = true ∧
    ∀ s ∈ cpyjStates, Runs (.cpyj fcj) fcj s ∧ poisonFault (.cpyj fcj) fcj s [3] = none :=
  ⟨(by decide +kernel), reaches_of (by decide +kernel)⟩

theorem served_card (b : List Byte) : Served carded [(src (.cpyj (fm 0 (r 0) (r 4) (r 0) 0)) (fm 0 (r 0) (r 4) (r 0) 0) carded 3
    (lowLane carded (fm 0 (r 0) (r 4) (r 0) 0)), 128), ((CopyCard.of b).src, 0), ((CopyCard.of b).dst, 0), ((CopyCard.of b).aux, 0)] := by
  show waiting (cardReads carded [(src (.cpyj (fm 0 (r 0) (r 4) (r 0) 0)) (fm 0 (r 0) (r 4) (r 0) 0) carded 3
    (lowLane carded (fm 0 (r 0) (r 4) (r 0) 0)), 128)]).1 (cardReads carded [(src (.cpyj (fm 0 (r 0) (r 4) (r 0) 0)) (fm 0 (r 0) (r 4) (r 0) 0)
    carded 3 (lowLane carded (fm 0 (r 0) (r 4) (r 0) 0)), 128)]).2 = false
  decide +kernel

theorem witness_CopiesAreSubmitted :
    (∃ x s, Runs (.cpy x) x s ∧ poisonFault (.cpy x) x s [2, 3, 4] = none ∧ src (.cpy x) x s 4 (lowLane s x) % 16 = 0 ∧
      16 ≤ src (.cpy x) x s 4 (lowLane s x) ∧ src (.cpy x) x s 4 (lowLane s x) ≤ 2 ^ 30 ∧ src (.cpy x) x s 3 (lowLane s x) < 2 ^ 52 ∧
      src (.cpy x) x s 2 (lowLane s x) < 2 ^ 52 ∧ src (.cpy x) x s 3 (lowLane s x) % 16 = 0 ∧ src (.cpy x) x s 2 (lowLane s x) % 16 = 0 ∧
      tagOf s s.cur.core (x.f 0 6) = .busy) ∧
    (∃ x s, Runs (.cpy x) x s ∧ poisonFault (.cpy x) x s [2, 3, 4] = none ∧ src (.cpy x) x s 4 (lowLane s x) % 16 = 0 ∧
      16 ≤ src (.cpy x) x s 4 (lowLane s x) ∧ src (.cpy x) x s 4 (lowLane s x) ≤ 2 ^ 30 ∧ src (.cpy x) x s 3 (lowLane s x) < 2 ^ 52 ∧
      src (.cpy x) x s 2 (lowLane s x) < 2 ^ 52 ∧ src (.cpy x) x s 3 (lowLane s x) % 16 = 0 ∧ src (.cpy x) x s 2 (lowLane s x) % 16 = 0 ∧
      tagOf s s.cur.core (x.f 0 6) ≠ .busy ∧ retired s (src (.cpy x) x s 2 (lowLane s x)) (src (.cpy x) x s 4 (lowLane s x)) = false ∧
      leavesWindow s (src (.cpy x) x s 3 (lowLane s x)) (src (.cpy x) x s 4 (lowLane s x)) = false ∧
      leavesWindow s (src (.cpy x) x s 2 (lowLane s x)) (src (.cpy x) x s 4 (lowLane s x)) = false) ∧
    (∃ x s b, Runs (.cpyj x) x s ∧ poisonFault (.cpyj x) x s [3] = none ∧ src (.cpyj x) x s 3 (lowLane s x) < 2 ^ 52 ∧
      src (.cpyj x) x s 3 (lowLane s x) % 64 = 0 ∧ readCard s (maskOf [lowLane s x]) (src (.cpyj x) x s 3 (lowLane s x)) 128 = .got b ∧
      ((CopyCard.of b).fieldsOk b && (CopyCard.of b).misaligned.isNone && decide ((CopyCard.of b).kind ≠ 1) &&
        decide (tagOf s s.cur.core (CopyCard.of b).tag ≠ .busy) && !retired s ((CopyCard.of b).target []) ((CopyCard.of b).extent [] []) &&
        fpRoom s (grpOf s s.cur.core).part ((footsAt b 0x30 4).getD []).length) = true ∧
      Served s [(src (.cpyj x) x s 3 (lowLane s x), 128), ((CopyCard.of b).src, 0), ((CopyCard.of b).dst, 0), ((CopyCard.of b).aux, 0)]) ∧
    (∃ x s, Runs (.sadv x) x s ∧ (coreOf s s.cur.core).group.isSome = true) ∧
    (∃ s c e es, (grpOf s c).sched = e :: es ∧ e.released = true ∧ tagOf s c e.tag ≠ .busy ∧ copiesRun s c = true ∧
      (coreOf s c).group.isSome = true ∧ scrWin ≤ e.dst ∧ e.dst < lentWin ∧ e.dst - scrWin + e.len * e.rows = slimit (grpOf s c)) ∧
    (∃ s c e es, (grpOf s c).sched = e :: es ∧ e.released = true ∧ tagOf s c e.tag ≠ .busy ∧ copiesRun s c = true ∧
      (coreOf s c).group.isSome = true ∧ e.dst < scrWin) :=
  ⟨⟨fs 0 63, busyTag, runs_of (by decide +kernel), (by decide +kernel)⟩,
   ⟨fs 0 63, copying, runs_of (by decide +kernel), (by decide +kernel)⟩,
   (got_with (c := readCard carded (maskOf [lowLane carded (fm 0 (r 0) (r 4) (r 0) 0)]) (src (.cpyj (fm 0 (r 0) (r 4) (r 0) 0)) (fm 0 (r 0) (r 4) (r 0) 0) carded 3
        (lowLane carded (fm 0 (r 0) (r 4) (r 0) 0))) 128) (by decide +kernel)).elim
      fun b h => ⟨fm 0 (r 0) (r 4) (r 0) 0, carded, b, runs_of (by decide +kernel), (by decide +kernel), (by decide +kernel), (by decide +kernel), h.1, h.2, served_card b⟩,
   ⟨fm 0 (r 0) (r 0) (r 0) 255, base, runs_of (by decide +kernel), (by decide +kernel)⟩, ⟨sched (scrWin + 0xBFFF0), 0, _, [], rfl, (by decide +kernel)⟩,
   ⟨sched 0x50000, 0, _, [], rfl, (by decide +kernel)⟩⟩

/-- A copy of 16 bytes from the start to the end of scratch, waiting or running. -/
def job0 (run : Bool) (fin : Option (Nat × Nat)) : Job :=
  { id := 5, tag := some 63, work := .plain (scrWin + 0) (scrWin + 0xBFFF0) 16, running := run, fin := fin, waits := some [] }
/-- The core has that copy. -/
def copied (run : Bool) (fin : Option (Nat × Nat)) : State := updCore base 0 fun k => { k with jobs := [job0 run fin] }
theorem safe_copied : (copied true none).Safe := by unfold State.Safe; decide +kernel

theorem witness_CopiesMoveBytes :
    (∃ s c j, nextCopy s c = some j ∧ copiesRun s c = true) ∧
    (∃ s c id j so d len, s.Safe ∧ jobOf s c id = some j ∧ j.running = true ∧ j.paused = false ∧ j.due ≤ s.time ∧ j.fin = none ∧
      (∃ ids, j.waits = some ids ∧ waiting s ids = false) ∧ j.done = 0 ∧
      j.work = .plain (scrWin + so) (scrWin + d) len ∧ Alive s c ∧ so + len ≤ slimit (grpOf s c) ∧ d + len ≤ slimit (grpOf s c) ∧
      so + len ≤ scrBytes ∧ d + len ≤ scrBytes ∧ (∀ k < len, overBarrier s c (d + k) 1 = false) ∧ s.mem.stores = [] ∧ s.mem.was = []) ∧
    (∃ s c id j n st, jobOf s c id = some j ∧ j.running = true ∧ j.paused = false ∧ j.isSfill = false ∧ j.due ≤ s.time ∧
      j.fin = some (n, st) ∧ agentDone s c n = true ∧ Alive s c) :=
  ⟨⟨copied false none, 0, job0 false none, (by decide +kernel)⟩,
   ⟨copied true none, 0, 5, job0 true none, 0, 0xBFFF0, 16, safe_copied, (by decide +kernel), rfl, rfl, (by decide +kernel), rfl, ⟨[], rfl, (by decide +kernel)⟩, rfl, rfl, ⟨(by decide +kernel), (by decide +kernel), (by decide +kernel)⟩, (by decide +kernel)⟩,
   ⟨copied true (some (9, 8)), 0, 5, job0 true (some (9, 8)), 9, 8, (by decide +kernel), rfl, rfl, (by decide +kernel), (by decide +kernel), rfl, (by decide +kernel), ⟨(by decide +kernel), (by decide +kernel), (by decide +kernel)⟩⟩⟩

/-- Tag 3 is done and tag 63 busy; pair 4 holds a mask. -/
def tagged (m : Nat) : State := putAll (tagDone (tagBusy base 0 63) 0 3 1) 4 m

/-- Come as a Boolean. -/
theorem come_of {s : State} {c : Nat} {b : Bool} {m : DWord} (h : (tagMask s c .busy &&& m == 0 || (b && !(tagBits s c &&& m == 0))) = true) :
    Come s c b m := by
  simp only [Bool.or_eq_true, Bool.and_eq_true, Bool.not_eq_true', beq_iff_eq, beq_eq_false_iff_ne] at h
  exact h.imp id fun k => ⟨k.1, k.2⟩

/-- Not Come as a Boolean. -/
theorem not_come_of {s : State} {c : Nat} {b : Bool} {m : DWord} (h : (tagMask s c .busy &&& m == 0 || (b && !(tagBits s c &&& m == 0))) = false) :
    ¬ Come s c b m := by
  intro k
  simp only [Bool.or_eq_false_iff, Bool.and_eq_false_iff, Bool.not_eq_false', beq_iff_eq, beq_eq_false_iff_ne] at h
  rcases k with k | k
  · exact h.1 k
  · rcases h.2 with g | g
    · rw [k.1] at g; cases g
    · exact k.2 g

/-- A wattle that waits for tags. -/
def tagWait (m : Nat) : State := held (tagged m) .tags (.twany (f3 0 0))

theorem witness_TagInstructions :
    (∃ i x s anyOf, (i = .twait x ∧ anyOf = false ∨ i = .twany x ∧ anyOf = true) ∧ Runs i x s ∧ Fits i x 2 ∧ poisonFault i x s [3] = none ∧
      Come s s.cur.core anyOf (BitVec.ofNat 64 (src i x s 3 (lowLane s x)))) ∧
    (∃ i x s anyOf, (i = .twait x ∧ anyOf = false ∨ i = .twany x ∧ anyOf = true) ∧ Runs i x s ∧ Fits i x 2 ∧ poisonFault i x s [3] = none ∧
      ¬ Come s s.cur.core anyOf (BitVec.ofNat 64 (src i x s 3 (lowLane s x))) ∧ (curThr s).hold = none) ∧
    (∃ c t x s o, (thrOf s c t).hold = some o ∧ o.instr = .twany x ∧ o.why = .tags ∧ Fits (.twany x) x 2 ∧
      poisonFault (.twany x) x (resumed s c t o) [3] = none ∧
      Come (resumed s c t o) c true (BitVec.ofNat 64 (src (.twany x) x (resumed s c t o) 3 (lowLane (resumed s c t o) x)))) ∧
    (∃ x s, Runs (.tfirst x) x s ∧ Fits (.tfirst x) x 1 ∧ poisonFault (.tfirst x) x s [3] = none ∧ keysRise 0 (coreOf s s.cur.core).tags = true ∧
      (let m := tagBits s s.cur.core &&& BitVec.ofNat 64 (src (.tfirst x) x s 3 (lowLane s x))
       m.getLsbD 3 = true ∧ ∀ k < 3, m.getLsbD k = false)) ∧
    (∃ x s, Runs (.tclr x) x s ∧ poisonFault (.tclr x) x s [3] = none ∧ keysRise 0 (coreOf s s.cur.core).tags = true ∧
      tagMask s s.cur.core .busy &&& BitVec.ofNat 64 (src (.tclr x) x s 3 (lowLane s x)) = 0) ∧
    (∃ x s, Runs (.tclr x) x s ∧ poisonFault (.tclr x) x s [3] = none ∧
      (let m := tagMask s s.cur.core .busy &&& BitVec.ofNat 64 (src (.tclr x) x s 3 (lowLane s x))
       m.getLsbD 63 = true ∧ ∀ k < 63, m.getLsbD k = false)) :=
  ⟨⟨.twany (f3 0 0), f3 0 0, tagged (2 ^ 63 + 8), true, .inr ⟨rfl, rfl⟩, runs_of (by decide +kernel), fits_of (by decide +kernel), (by decide +kernel), come_of (by decide +kernel)⟩,
   ⟨.twait (f3 0 0), f3 0 0, tagged (2 ^ 63 + 8), false, .inl ⟨rfl, rfl⟩, runs_of (by decide +kernel), fits_of (by decide +kernel), (by decide +kernel), not_come_of (by decide +kernel), (by decide +kernel)⟩,
   ⟨0, 0, f3 0 0, tagWait 8, { why := .tags, instr := .twany (f3 0 0), mask := 0xFFFFFFFF, pc := 0x40000 }, (by decide +kernel), rfl, rfl, fits_of (by decide +kernel), (by decide +kernel), come_of (by decide +kernel)⟩,
   ⟨f3 1 0, tagged (2 ^ 64 - 1), runs_of (by decide +kernel), fits_of (by decide +kernel), (by decide +kernel)⟩,
   ⟨fm 0 (r 0) (r 4) (r 0) 0, tagged 8, runs_of (by decide +kernel), (by decide +kernel)⟩, ⟨fm 0 (r 0) (r 4) (r 0) 0, tagged (2 ^ 64 - 1), runs_of (by decide +kernel), (by decide +kernel)⟩⟩

/-- A BTE descriptor: one byte from 0x60000 to 0x50000, ring descriptor at 0x70040. -/
def bteDesc : List Byte := natLe 8 0x60000 ++ natLe 8 0x50000 ++ natLe 8 1 ++ natLe 8 0x70040 ++ natLe 32 0
/-- A ring of 16 records at 0x80000. -/
def ringDesc : List Byte := natLe 8 0x80000 ++ natLe 56 4
/-- They lie in memory, and pair 4 names the first. -/
def bted : State := cached (putAll (poke (poke base 0x70000 bteDesc) 0x70040 ringDesc) 4 0x70000) [0x1C00, 0x1C01]
/-- The form of BTJOB for the die. -/
def fbt : Form := fm 0 (r 2) (r 4) (r 6) 7
/-- A job at die 7. -/
def bjob (fin : Option (Nat × Nat × Nat × Nat × Nat)) (recd : Option Nat) : BteJob :=
  { src := 0x60000, dst := 0x50000, len := 1, ring := 0x70040, jobId := 1, notice := false, core := 0, asid := 0, super := true, grid := 0,
    task := none, due := 0, fin := fin, recd := recd, waits := some [] }
/-- It heads the queue. -/
def bqueue (j : BteJob) : State := { bted with hbm := { bted.hbm with btes := [(7, [j])] } }

theorem witness_BlockTransfers :
    (∃ x s b r, Runs (.btjob x) x s ∧ poisonFault (.btjob x) x s [3, 4] = none ∧ src (.btjob x) x s 3 (lowLane s x) < 2 ^ 52 ∧
      src (.btjob x) x s 3 (lowLane s x) % 64 = 0 ∧ readCard s (maskOf [lowLane s x]) (src (.btjob x) x s 3 (lowLane s x)) 64 = .got b ∧
      bteOk b = true ∧ leAt b 0x18 8 < 2 ^ 52 ∧ leAt b 0x18 8 % 64 = 0 ∧ readCard s (maskOf [lowLane s x]) (leAt b 0x18 8) 64 = .got r ∧
      ringOk r = true ∧ leAt r 0 8 < 2 ^ 52 ∧ leAt r 0 8 % (32 * 2 ^ leAt r 8 1) = 0 ∧
      fpRoom s (grpOf s s.cur.core).part ((footsAt b 0x20 2).getD []).length = true ∧
      Served s [(src (.btjob x) x s 3 (lowLane s x), 64), (leAt b 0x18 8, 64)]) ∧
    (∃ s die j ids, Turn s die j ∧ j.fin = none ∧ j.waits = some ids ∧ waiting s ids = false ∧
      (runPlain s (bteAgent s die j) j.src j.dst j.len j.len 1).waits = false) ∧
    (∃ s die j n status fault bytes addr, Turn s die j ∧ j.fin = some (n, status, fault, bytes, addr) ∧ j.recd = none ∧
      agentDone s j.core n = true ∧ ((okOf (agentGet s (bteAgent s die j) j.ring 64)).any fun b =>
        decide (leAt (rawBytes b) 0x10 8 - leAt (rawBytes b) 0x18 8 < 2 ^ leAt (rawBytes b) 8 1)) = true) ∧
    (∃ s die j f k, Turn s die j ∧ j.fin = some f ∧ j.recd = some k ∧ agentDone s j.core k = true ∧
      (okOf (agentGet s (bteAgent s die j) (j.ring + 0x10) 8)).isSome = true) :=
  ⟨⟨fbt, bted, bteDesc, ringDesc, runs_of (by decide +kernel), (by decide +kernel), (by decide +kernel), (by decide +kernel), got_is (by decide +kernel), (by decide +kernel), (by decide +kernel), (by decide +kernel),
      got_is (by decide +kernel), (by decide +kernel), (by decide +kernel), (by decide +kernel), (by decide +kernel), (by unfold Served; decide +kernel)⟩,
   ⟨bqueue (bjob none none), 7, bjob none none, [], ⟨(by decide +kernel), [], [], (by decide +kernel), (by decide +kernel)⟩, rfl, rfl, (by decide +kernel)⟩,
   ⟨bqueue (bjob (some (0, 0, 0, 1, 0)) none), 7, bjob (some (0, 0, 0, 1, 0)) none, 0, 0, 0, 1, 0, ⟨(by decide +kernel), [], [], (by decide +kernel), (by decide +kernel)⟩, rfl, rfl, (by decide +kernel)⟩,
   ⟨bqueue (bjob (some (0, 0, 0, 1, 0)) (some 0)), 7, bjob (some (0, 0, 0, 1, 0)) (some 0), (0, 0, 0, 1, 0), 0, ⟨(by decide +kernel), [], [], (by decide +kernel), (by decide +kernel)⟩, rfl, rfl, (by decide +kernel)⟩⟩

/-! ### The engine -/

/-- Change the engine of quad 0. -/
def eng0 (s : State) (f : Eng → Eng) : State := updEng s 0 f
/-- Operand slots as given. -/
def withSlots (s : State) (l : List (Nat × OSlot)) : State := eng0 s fun e => { e with slots := l }
/-- A claimed slot of the group. -/
def mine : OSlot := { use := .claimed, core := 0, asid := 0 }
/-- A slot with a loaded A tile, and one with both halves of a B tile, under basis 1 in group 2. -/
def mineA : OSlot := { mine with use := .loadedA {}, grp := 2, basis := 1, ms := basisPair }
def mineB : OSlot := { mine with use := .loadedB (some {}) (some {}), grp := 2, basis := 1, ms := basisPair }
/-- Accumulator 1 of group 2 in the zero state. -/
def acc21 : AccT := { asid := 0, core := 0 }
/-- A wattle whose pass can enter. -/
def passing : State := eng0 (withSlots base [(62, mineB), (63, mineA)]) fun e => { e with accs := [(5, acc21)] }
/-- Form of that QMMA: A slot 63, B slot 62, half 1, accumulator 1, K 1. -/
def fq : Form := fm 2 (r 0) (r 0) (r 0) (63 + 62 * 64 + 4096 + 8192)
/-- A list of moduli in memory: N, 0, the moduli. -/
def basisList (n : Nat) (ms : List Nat) : List Byte := natLe 2 n ++ (ms.flatMap (natLe 2)) ++ natLe (30 - 2 * ms.length) 0
/-- Lists in scratch: the moduli of basis 0, and a list with an even third modulus. -/
def listed : State := inScr (basisList 10 basisFull)
def badList : State := inScr (basisList 2 [256, 255, 252, 263])
/-- An engine whose units are out of service: two of its slots are retired. -/
def unserved : State := eng0 passing fun e => { e with retired := [0, 1] }

theorem all_some {α : Type} {o : Option α} {P : α → Prop} [DecidablePred P] (h : o.all (fun a => decide (P a)) = true) : ∀ a, o = some a → P a := by
  intro a e
  subst e
  simpa using h

theorem served_of {s : State} {rs : List (Nat × Nat)} (h : waiting (cardReads s rs).1 (cardReads s rs).2 = false) : Served s rs := h

theorem witness_EngineInstructionsEnter_stops :
    (∃ x s, Runs (.oclm x) x s ∧ poisonFault (.oclm x) x s [3] = none ∧ outOfService (engOf s (curQuad s)) = true) ∧
    (∃ x s, Runs (.orel x) x s ∧ poisonFault (.orel x) x s [3] = none ∧ outOfService (engOf s (curQuad s)) = true) ∧
    (∃ x s, Runs (.aclr x) x s ∧ outOfService (engOf s (curQuad s)) = true) ∧
    (∃ x s, Runs (.oclm x) x s ∧ x.m 0 1 = 0 ∧ poisonFault (.oclm x) x s [3] = none ∧ outOfService (engOf s (curQuad s)) = false ∧
      src (.oclm x) x s 3 (lowLane s x) = 64) ∧
    (∃ x s, Runs (.orel x) x s ∧ poisonFault (.orel x) x s [3] = none ∧ outOfService (engOf s (curQuad s)) = false ∧
      src (.orel x) x s 3 (lowLane s x) = 64) ∧
    (∃ x s f, Runs (.orel x) x s ∧ poisonFault (.orel x) x s [3] = none ∧ outOfService (engOf s (curQuad s)) = false ∧
      src (.orel x) x s 3 (lowLane s x) = 63 ∧ orelChk (laterEng s) (curGrp s).asid 63 (maskOf [lowLane s x]) = some f) ∧
    (∃ x s, Runs (.qmma x) x s ∧ s.cur.dual = none ∧ (∀ q < 4, quarter (actMask s x) q = 0 ∨ quarter (actMask s x) q = 0xFF) ∧
      outOfService (engOf s (curQuad s)) = true) :=
  ⟨⟨f3 0 0, unserved, runs_of (by decide +kernel), (by decide +kernel)⟩, ⟨f3 0 0, unserved, runs_of (by decide +kernel), (by decide +kernel)⟩, ⟨f3 0 0, unserved, runs_of (by decide +kernel), (by decide +kernel)⟩,
   ⟨f3 0 0, putAll base 4 64, runs_of (by decide +kernel), (by decide +kernel)⟩, ⟨f3 0 0, putAll base 4 64, runs_of (by decide +kernel), (by decide +kernel)⟩,
   ⟨f3 0 0, putAll base 4 63, (orelChk (laterEng (putAll base 4 63)) (curGrp (putAll base 4 63)).asid 63
      (maskOf [lowLane (putAll base 4 63) (f3 0 0)])).get (by decide +kernel), runs_of (by decide +kernel), (by decide +kernel), (by decide +kernel), (by decide +kernel), some_get (by decide +kernel)⟩,
   ⟨fq, unserved, runs_of (by decide +kernel), (by decide +kernel)⟩⟩

theorem witness_EngineInstructionsEnter :
    (∃ x s, Runs (.oclm x) x s ∧ Fits (.oclm x) x 1 ∧ poisonFault (.oclm x) x s [3] = none ∧ outOfService (engOf s (curQuad s)) = false ∧
      x.m 0 1 = 0 ∧ src (.oclm x) x s 3 (lowLane s x) = 63 ∧ mhas (laterEng s).slots 63 = false) ∧
    (∃ x s, Runs (.oclm x) x s ∧ Fits (.oclm x) x 1 ∧ poisonFault (.oclm x) x s [3] = none ∧ outOfService (engOf s (curQuad s)) = false ∧
      x.m 0 1 = 1 ∧ mhas (laterEng s).slots 63 = false ∧ ∀ j < 63, mhas (laterEng s).slots j = true) ∧
    (∃ x s, Runs (.oclm x) x s ∧ Fits (.oclm x) x 1 ∧ poisonFault (.oclm x) x s [3] = none ∧ outOfService (engOf s (curQuad s)) = false ∧
      x.m 0 1 = 1 ∧ ∀ j < 64, mhas (laterEng s).slots j = true) ∧
    (∃ x s, Runs (.orel x) x s ∧ poisonFault (.orel x) x s [3] = none ∧ outOfService (engOf s (curQuad s)) = false ∧
      src (.orel x) x s 3 (lowLane s x) = 63 ∧ orelChk (laterEng s) (curGrp s).asid 63 (maskOf [lowLane s x]) = none) ∧
    (∃ x s, Runs (.aclr x) x s ∧ outOfService (engOf s (curQuad s)) = false ∧
      (∀ t, accOf (laterEng s) (x.m 0 2) (x.f 0 1) = some t → t.asid = (curGrp s).asid) ∧
      tableFull (engOf s (curQuad s)) = false ∧ engineDown s (curQuad s) = false) ∧
    (∃ x s, Runs (.qmma x) x s ∧ s.cur.dual = none ∧ ∃ q < 4, quarter (actMask s x) q ≠ 0 ∧ quarter (actMask s x) q ≠ 0xFF) ∧
    (∃ x s, Runs (.qmma x) x s ∧ s.cur.dual = none ∧ (∀ q < 4, quarter (actMask s x) q = 0 ∨ quarter (actMask s x) q = 0xFF) ∧
      outOfService (engOf s (curQuad s)) = false ∧
      qmmaSlots (laterEng s) (curGrp s).asid (x.m 0 2) (x.f 0 6) (x.f 6 6) (x.f 12 1) (x.f 15 3 + 1) (actMask s x) = none ∧
      accChk (laterEng s) (curGrp s).asid (x.m 0 2) (x.f 13 2) ((mget (laterEng s).slots (x.f 0 6)).map (·.basis)) (actMask s x) = none ∧
      tableFull (engOf s (curQuad s)) = false ∧ engineDown s (curQuad s) = false) ∧
    (∃ x s b e, Runs (.basis x) x s ∧ poisonFault (.basis x) x s [3] = none ∧ src (.basis x) x s 3 (lowLane s x) < 2 ^ 52 ∧
      src (.basis x) x s 3 (lowLane s x) % 2 = 0 ∧
      readCard s (maskOf [lowLane s x]) (src (.basis x) x s 3 (lowLane s x)) 32 = .got b ∧ (curThr s).hold = none ∧
      basisFrom b (some (curGrp s).asid) = some e ∧ Served s [(src (.basis x) x s 3 (lowLane s x), 32)]) ∧
    (∃ x s b, Runs (.basis x) x s ∧ poisonFault (.basis x) x s [3] = none ∧ src (.basis x) x s 3 (lowLane s x) < 2 ^ 52 ∧
      src (.basis x) x s 3 (lowLane s x) % 2 = 0 ∧
      readCard s (maskOf [lowLane s x]) (src (.basis x) x s 3 (lowLane s x)) 32 = .got b ∧ (curThr s).hold = none ∧
      basisFrom b (some (curGrp s).asid) = none) ∧
    (∃ x s, Runs (.mstat x) x s ∧ Fits (.mstat x) x 2 ∧ x.f 0 3 = 1) ∧
    (∃ x s, Runs (.mstat x) x s ∧ Fits (.mstat x) x 2 ∧ x.f 0 3 = 4) :=
  ⟨⟨f3 0 0, putAll base 4 63, runs_of (by decide +kernel), fits_of (by decide +kernel), (by decide +kernel)⟩,
   ⟨f3 1 0, withSlots base ((List.range 63).map fun k => (k, mine)), runs_of (by decide +kernel), fits_of (by decide +kernel), (by decide +kernel)⟩,
   ⟨f3 1 0, withSlots base ((List.range 64).map fun k => (k, mine)), runs_of (by decide +kernel), fits_of (by decide +kernel), (by decide +kernel)⟩,
   ⟨f3 0 0, putAll (withSlots base [(63, mine)]) 4 63, runs_of (by decide +kernel), (by decide +kernel)⟩,
   ⟨fm 2 (r 0) (r 0) (r 0) 1, passing, runs_of (by decide +kernel), (by decide +kernel), all_some (by decide +kernel), (by decide +kernel)⟩,
   ⟨fq, { passing with cur := { passing.cur with mask := 0x7FFFFFFF } }, runs_of (by decide +kernel), (by decide +kernel), 3, (by decide +kernel)⟩,
   ⟨fq, { passing with cur := { passing.cur with mask := 0xFF0000FF } }, runs_of (by decide +kernel), (by decide +kernel)⟩,
   ⟨f3 0 15, listed, basisList 10 basisFull, _, runs_of (by decide +kernel), (by decide +kernel), (by decide +kernel), (by decide +kernel), got_is (by decide +kernel), (by decide +kernel), some_get (by decide +kernel), served_of (by decide +kernel)⟩,
   ⟨f3 0 15, badList, basisList 2 [256, 255, 252, 263], runs_of (by decide +kernel), (by decide +kernel), (by decide +kernel), (by decide +kernel), got_is (by decide +kernel), (by decide +kernel), (by decide +kernel)⟩,
   ⟨f3 0 1, base, runs_of (by decide +kernel), fits_of (by decide +kernel), (by decide +kernel)⟩, ⟨f3 0 4, base, runs_of (by decide +kernel), fits_of (by decide +kernel), (by decide +kernel)⟩⟩

/-- A plane record of one row and one column in 6 channels of basis 1 at 0x60000. -/
def planeRec : List Byte := natLe 8 0x60000 ++ natLe 4 1 ++ natLe 4 1 ++ natLe 4 2 ++ natLe 1 6 ++ natLe 1 1 ++ natLe 2 0 ++ natLe 8 64
/-- A scale layout record of one row and one block at 0x60000. -/
def scaleRec : List Byte := natLe 8 0x60000 ++ natLe 4 1 ++ natLe 4 1 ++ natLe 4 2 ++ natLe 12 0
/-- The record in scratch and its address in pairs 2 to 7. -/
def planed : State := three (scr400 passing planeRec) (scrWin + 0x400) (scrWin + 0x400) (scrWin + 0x400)
def scaled : State := three (scr400 passing scaleRec) 0 (scrWin + 0x400) 0
/-- A job card: group g, basis b, formats BF16 and no drain, one level of one step, tag 63, A at a. -/
def jobCard (g b a : Nat) : List Byte :=
  natLe 1 g ++ natLe 1 b ++ natLe 2 0x00FF ++ natLe 1 2 ++ natLe 1 2 ++ natLe 1 8 ++ natLe 1 8 ++ natLe 3 0 ++ natLe 1 63 ++ natLe 1 0 ++ natLe 1 1 ++
  natLe 2 0 ++ natLe 8 a ++ natLe 8 0x60000 ++ natLe 32 0 ++ natLe 12 0 ++ natLe 4 0 ++ natLe 20 1 ++ natLe 80 0 ++ natLe 12 0 ++ natLe 64 0
/-- It lies in scratch. -/
def jobbed (b : List Byte) (s : State) : State := putAll (scr400 s b) 4 (scrWin + 0x400)
/-- Column 0 of the engine is retired, so that basis 0 no longer fits group 0. -/
def narrow : State := eng0 base fun e => { e with retired := [0] }

theorem tagFree_of {s : State} {t : Option Nat} (h : t.all (fun k => decide (tagOf s s.cur.core k ≠ .busy)) = true) : TagFree s t := all_some h

theorem witness_LoadsDrainsAndJobsEnter_load :
    ∃ x s pl ps, Runs (.oload x) x s ∧ poisonFault (.oload x) x s [3, 4] = none ∧ outOfService (engOf s (curQuad s)) = false ∧
      (let m := maskOf [lowLane s x]
       let fmt := x.m 2 4
       let a := src (.oload x) x s 3 (lowLane s x)
       let b := if fmt = 10 then 0 else src (.oload x) x s 4 (lowLane s x)
       let bas := basisIn (laterEng s) (curGrp s).asid (x.f 8 4)
       let tag := optTag (x.f 17 6) (x.f 23 1)
       tag = some 63 ∧ ((fmt ≠ 10 → segBytes fmt ≤ b ∧ b % fmtAlign fmt = 0) ∧ basisFits (laterEng s) (x.m 0 2) bas = true ∧ a < 2 ^ 52 ∧
        a % oloadAlign fmt = 0 ∧ (fmt = 10 → planeChk m pl (x.f 8 4) bas = none) ∧ slotChk (laterEng s) (curGrp s).asid (x.f 0 6) m = none) ∧
       cardIf (fmt = 10) (readCard s m a 32) = .got pl ∧ TagFree s tag ∧
       capture s (agentOf s s.cur.core (curThr s).super) .read (oloadSegs fmt (x.f 6 1) a b pl) = .ok ps ∧ Served s [(a, pl.length)] ∧
       tableFull (engOf s (curQuad s)) = false ∧ engineDown s (curQuad s) = false) :=
  ⟨fm 42 (r 0) (r 4) (r 0) (63 + 64 + 1 * 256 + 63 * 2 ^ 17 + 2 ^ 23), planed, planeRec, _, runs_of (by decide +kernel), (by decide +kernel), (by decide +kernel), (by decide +kernel), (by decide +kernel),
      got_is (by decide +kernel), tagFree_of (by decide +kernel), ok_get (by decide +kernel), served_of (by decide +kernel), (by decide +kernel)⟩

theorem witness_LoadsDrainsAndJobsEnter_scale :
    ∃ x s bs ps, Runs (.scld x) x s ∧ poisonFault (.scld x) x s [2, 3, 4] = none ∧ outOfService (engOf s (curQuad s)) = false ∧
      (let m := maskOf [lowLane s x]
       let col := src (.scld x) x s 2 (lowLane s x)
       let a := src (.scld x) x s 3 (lowLane s x)
       let row := src (.scld x) x s 4 (lowLane s x)
       let n := x.f 0 9 + 1
       let tag := optTag (x.f 9 6) (x.f 15 1)
       tag = some 63 ∧ a < 2 ^ 52 ∧ readCard s m a 32 = .got bs ∧
       (scaleChk m bs = none ∧ row + n ≤ (Scales.of bs).rows ∧ col < (Scales.of bs).blocks ∧
         (mgetD (laterEng s).staged (x.m 0 2) []).length + n ≤ 512) ∧ TagFree s tag ∧
       capture s (agentOf s s.cur.core (curThr s).super) .read (scldSegs (Scales.of bs) row col n) = .ok ps ∧ Served s [(a, 32)] ∧
       tableFull (engOf s (curQuad s)) = false ∧ engineDown s (curQuad s) = false) :=
  ⟨fm 2 (r 2) (r 4) (r 6) (63 * 512 + 2 ^ 15), scaled, scaleRec, _, runs_of (by decide +kernel), (by decide +kernel), (by decide +kernel), (by decide +kernel), (by decide +kernel),
      got_is (by decide +kernel), (by decide +kernel), tagFree_of (by decide +kernel), ok_get (by decide +kernel), served_of (by decide +kernel), (by decide +kernel)⟩

theorem witness_LoadsDrainsAndJobsEnter_drain :
    ∃ x s pl ps, Runs (.adrain x) x s ∧ poisonFault (.adrain x) x s [2, 3, 4] = none ∧ outOfService (engOf s (curQuad s)) = false ∧
      (let m := maskOf [lowLane s x]
       let fmt := x.f 1 3
       let stats : Bool := x.m 5 1 = 1 || fmt = 6
       let d := src (.adrain x) x s 2 (lowLane s x)
       let a := if stats then src (.adrain x) x s 3 (lowLane s x) else 0
       let b := if fmt = 1 then 0 else src (.adrain x) x s 4 (lowLane s x)
       let bas := drainBasis (engOf s (curQuad s)) (laterEng s) (curGrp s).asid (x.m 0 2) (x.f 0 1) pl
       let tag := optTag (x.f 4 6) (x.f 10 1)
       tag = some 63 ∧ (accChk (laterEng s) (curGrp s).asid (x.m 0 2) (x.f 0 1) none m = none ∧
        (fmt ≠ 1 → drainRow fmt ≤ b ∧ b % drainAlign fmt = 0) ∧ d < 2 ^ 52 ∧ d % drainAlign fmt = 0 ∧ (stats = true → a < 2 ^ 52 ∧ a % 16 = 0)) ∧
       cardIf (fmt = 1) (readCard s m d 32) = .got pl ∧ (fmt = 1 → planeChk m pl bas.1 bas.2 = none) ∧ TagFree s tag ∧
       capture s (agentOf s s.cur.core (curThr s).super) .write (drainSegs fmt d a b stats pl) = .ok ps ∧ Served s [(d, pl.length)] ∧
       tableFull (engOf s (curQuad s)) = false ∧ engineDown s (curQuad s) = false) :=
  ⟨fm 2 (r 2) (r 4) (r 6) (1 + 2 + 63 * 16 + 1024), planed, planeRec, _, runs_of (by decide +kernel), (by decide +kernel), (by decide +kernel), (by decide +kernel), (by decide +kernel),
      got_is (by decide +kernel), (by decide +kernel), tagFree_of (by decide +kernel), ok_get (by decide +kernel), served_of (by decide +kernel), (by decide +kernel)⟩

theorem witness_LoadsDrainsAndJobsEnter_job :
    ∃ x s b, Runs (.mjob x) x s ∧ poisonFault (.mjob x) x s [3] = none ∧
      (let m := maskOf [lowLane s x]
       let a := src (.mjob x) x s 3 (lowLane s x)
       let k := JobCard.of b
       let bas := basisIn (laterEng s) (curGrp s).asid k.basis
       (a < 2 ^ 52 ∧ a % 64 = 0) ∧ readCard s m a 256 = .got b ∧ (k.fieldsOk b = true ∧ k.misaligned = none) ∧
       cardIf (k.afmt = 10) (readCard s m k.abase 32) = .got [] ∧ cardIf (k.bfmt = 10) (readCard s m k.bbase 32) = .got [] ∧
       cardIf (k.dfmt = 1) (readCard s m k.cbase 32) = .got [] ∧ cardIf (k.afmt = 3) (readCard s m k.ascale 32) = .got [] ∧
       cardIf (k.bfmt = 3) (readCard s m k.bscale 32) = .got [] ∧ tagOf s s.cur.core k.tag ≠ .busy ∧
       (bas.any fun e => decide (e.n ≤ if k.grp = 0 then 10 else 4)) = true ∧ (k.afmt = 3 → scaleChk m [] = none) ∧ (k.bfmt = 3 → scaleChk m [] = none) ∧
       Served s [(a, 256), (k.abase, 0), (k.bbase, 0), (k.cbase, 0), (k.ascale, 0), (k.bscale, 0)] ∧
       (k.keep = false) ∧ ∃ q id use, jobPlace s k bas (basisIn (laterEng s) (curGrp s).asid k.alt) = some (q, id, use) ∧
         (k.afmt = 10 → planeChk m [] id use = none) ∧ (k.bfmt = 10 → planeChk m [] id use = none) ∧ (k.dfmt = 1 → planeChk m [] id use = none) ∧
         (k.keep = true → accChk (foreseen (engOf s q)) (curGrp s).asid k.grp k.acc (some id) m = none) ∧
         tableFull (engOf s q) = false ∧ engineDown s q = false ∧ fpRoom s (curGrp s).part ((footsAt b 0xC0 4).getD []).length = true) :=
  ⟨f3 0 0, jobbed (jobCard 2 1 0x60000) base, jobCard 2 1 0x60000, runs_of (by decide +kernel), (by decide +kernel), (by decide +kernel), got_is (by decide +kernel),
        (by decide +kernel), rfl, rfl, rfl, rfl, rfl, (by decide +kernel), (by decide +kernel), (by decide +kernel), (by decide +kernel), served_of (by decide +kernel), (by decide +kernel), ⟨0, 1, some { moduli := basisPair, n := 4 }, (by decide +kernel)⟩⟩

theorem witness_LoadsDrainsAndJobsEnter_unmet :
    ∃ x s b, Runs (.mjob x) x s ∧ poisonFault (.mjob x) x s [3] = none ∧
      (let m := maskOf [lowLane s x]
       let a := src (.mjob x) x s 3 (lowLane s x)
       let k := JobCard.of b
       let bas := basisIn (laterEng s) (curGrp s).asid k.basis
       (a < 2 ^ 52 ∧ a % 64 = 0) ∧ readCard s m a 256 = .got b ∧ (k.fieldsOk b = true ∧ k.misaligned = none) ∧
       cardIf (k.afmt = 10) (readCard s m k.abase 32) = .got [] ∧ cardIf (k.bfmt = 10) (readCard s m k.bbase 32) = .got [] ∧
       cardIf (k.dfmt = 1) (readCard s m k.cbase 32) = .got [] ∧ cardIf (k.afmt = 3) (readCard s m k.ascale 32) = .got [] ∧
       cardIf (k.bfmt = 3) (readCard s m k.bscale 32) = .got [] ∧ tagOf s s.cur.core k.tag ≠ .busy ∧
       (bas.any fun e => decide (e.n ≤ if k.grp = 0 then 10 else 4)) = true ∧ (k.afmt = 3 → scaleChk m [] = none) ∧ (k.bfmt = 3 → scaleChk m [] = none) ∧
       Served s [(a, 256), (k.abase, 0), (k.bbase, 0), (k.cbase, 0), (k.ascale, 0), (k.bscale, 0)] ∧
       jobPlace s k bas (basisIn (laterEng s) (curGrp s).asid k.alt) = none ∧ (k.afmt = 10 → planeChk m [] k.basis bas = none) ∧
         (k.bfmt = 10 → planeChk m [] k.basis bas = none) ∧ (k.dfmt = 1 → planeChk m [] k.basis bas = none)) :=
  ⟨f3 0 0, jobbed (jobCard 0 0 scrWin) narrow, jobCard 0 0 scrWin, runs_of (by decide +kernel), (by decide +kernel), (by decide +kernel), got_is (by decide +kernel),
        (by decide +kernel), rfl, rfl, rfl, rfl, rfl, (by decide +kernel), (by decide +kernel), (by decide +kernel), (by decide +kernel), served_of (by decide +kernel), (by decide +kernel)⟩


/-- Entry 5 of the reservation table for an operation. -/
def ent5 (op : EntOp) : Ent := { id := 5, core := 0, asid := 0, super := true, op := op }
/-- An engine whose table holds the entry alone. -/
def tabled (n : Ent) : State := eng0 passing fun e => { e with table := [n] }
/-- The pass of QMMA slot 63 with slot 62, half 1, into accumulator 1 of group 2. -/
def pass5 : Ent := ent5 (.qmma 2 1 63 62 1 1 0xF)
/-- An OLOAD of the plane record into claimed slot 61. -/
def load5 : Ent := { ent5 (.oload 2 10 61 1 1 1 8 0x70000 0 basisPair planeRec (some 63)) with pages := [(6, 0x60000, {})], waits := some [] }
/-- The engine holds it and slot 61 is claimed. -/
def loading5 : State := eng0 base fun e => { e with table := [load5], slots := [(61, mine)] }
/-- An SCLD of one record. -/
def scale5 : Ent := { ent5 (.scld 2 scaleRec 0 0 1 (some 63)) with pages := [(6, 0x60000, {})], waits := some [] }
/-- A drain of accumulator 1 of group 2 as res16 to the plane record. -/
def drain5 : Ent := { ent5 (.adrain 2 1 1 0 false false 0x70000 0 0 basisPair planeRec (some 63)) with pages := [(6, 0x60000, {})], granted := some 1 }
/-- A job without a drain. -/
def work5 : Ent := ent5 (.job (jobCard 2 1 0x60000) [] 1 basisPair)
/-- Accumulator 1 of group 2 is being re-proved. -/
def proving : State := eng0 base fun e => { e with reproof := [(2, (0, 0, 0, 1))] }
/-- A thread held at BASIS 15. -/
def basing (f : Eng → Eng) : State :=
  held (eng0 base fun e => f { e with table := [ent5 (.basis 15 0 { moduli := basisPair, n := 4, asid := some 0 })] }) .basis (.basis (f3 0 15))

theorem witness_EngineEvents_entries :
    (∃ s q n, nextGrant (engOf s q) (nowNs s) = some n ∧ ∀ m ∈ (engOf s q).table, aged (nowNs s) m = false) ∧
    (∃ s q ent n g acc k, entOf (engOf s q) ent = some n ∧ n.op = .aclr g acc ∧ n.granted = some k ∧ n.due ≤ s.time) ∧
    (∃ s q ent n g fmt slot kind half basis w addr stride ms pl tag r o, entOf (engOf s q) ent = some n ∧
      n.op = .oload g fmt slot kind half basis w addr stride ms pl tag ∧ eligible (engOf s q) n = true ∧ n.due ≤ s.time ∧ (∃ ids, n.waits = some ids ∧ waiting s ids = false) ∧
      oloadRun s (engOf s q) (entAgent q n) n = .ok r ∧ mget (engOf s q).slots slot = some o) ∧
    (∃ s q ent n g bs col row cnt tag rs, entOf (engOf s q) ent = some n ∧ n.op = .scld g bs col row cnt tag ∧
      eligible (engOf s q) n = true ∧ n.due ≤ s.time ∧ (∃ ids, n.waits = some ids ∧ waiting s ids = false) ∧ scldRecs s (entAgent q n) n.asid n.core (Scales.of bs) col row cnt = some rs) ∧
    (∃ s q ent n g fmt acc rnd ftz stats dst sta stride ms pl tag k st, entOf (engOf s q) ent = some n ∧
      n.op = .adrain g fmt acc rnd ftz stats dst sta stride ms pl tag ∧ n.fin = some (k, st) ∧ agentDone s n.core k = true) ∧
    (∃ s q ent n g fmt acc rnd ftz stats dst sta stride ms pl tag k, entOf (engOf s q) ent = some n ∧
      n.op = .adrain g fmt acc rnd ftz stats dst sta stride ms pl tag ∧ n.fin = none ∧ n.granted = some k ∧ n.due ≤ s.time) :=
  ⟨⟨tabled pass5, 0, pass5, (by decide +kernel)⟩,
   ⟨tabled { ent5 (.aclr 2 1) with granted := some 1 }, 0, 5, _, 2, 1, 1, rfl, rfl, rfl, (by decide +kernel)⟩,
   ⟨loading5, 0, 5, load5, 2, 10, 61, 1, 1, 1, 8, 0x70000, 0, basisPair, planeRec, some 63, _, mine, (by decide +kernel), rfl, (by decide +kernel), (by decide +kernel), ⟨[], rfl, (by decide +kernel)⟩, ok_get (by decide +kernel), (by decide +kernel)⟩,
   ⟨tabled scale5, 0, 5, scale5, 2, scaleRec, 0, 0, 1, some 63, _, (by decide +kernel), rfl, (by decide +kernel), (by decide +kernel), ⟨[], rfl, (by decide +kernel)⟩, some_get (by decide +kernel)⟩,
   ⟨tabled { drain5 with fin := some (0, 128) }, 0, 5, { drain5 with fin := some (0, 128) }, 2, 1, 1, 0, false, false, 0x70000, 0, 0, basisPair, planeRec,
      some 63, 0, 128, (by decide +kernel), rfl, rfl, (by decide +kernel)⟩,
   ⟨tabled drain5, 0, 5, drain5, 2, 1, 1, 0, false, false, 0x70000, 0, 0, basisPair, planeRec, some 63, 1, (by decide +kernel), rfl, rfl, rfl, (by decide +kernel)⟩⟩

theorem witness_EngineEvents_passes :
    (∃ fmt i : Nat, fmt ≠ 1 ∧ i = 255) ∧
    (∃ (t : AccT) (i j : Nat), i = 255 ∧ j = 127 ∧ t.bad = false ∧ t.cert = .zero ∧ ((t.el.getD i []).getD j {}).poison = false) ∧
    (∃ s q ent n b recs id ms, entOf (engOf s q) ent = some n ∧ n.op = .job b recs id ms ∧ n.run = none ∧ n.paused = false ∧
      n.fin = none ∧ eligible (engOf s q) n = true ∧ fpClear s n.task = true ∧
      ((List.range 64).filter fun k => !(mhas (engOf s q).slots k)).length = 62) ∧
    (∃ s q ent n b recs id ms k st, entOf (engOf s q) ent = some n ∧ n.op = .job b recs id ms ∧ n.fin = some (k, st) ∧ agentDone s n.core k = true) ∧
    (∃ s q n b recs id ms r, (engOf s q).table.find? (fun n => onArrays n = some (JobCard.of b).grp && n.fusedInto = none && decide (n.due ≤ s.time)) = some n ∧
      n.op = .job b recs id ms ∧ n.run = some r ∧ ∃ ids, n.waits = some ids ∧ waiting s ids = false) ∧
    (∃ s q n g acc a b h k qs o, (engOf s q).table.find? (fun n => onArrays n = some g && n.fusedInto = none && decide (n.due ≤ s.time)) = some n ∧
      n.op = .qmma g acc a b h k qs ∧ n.run = none ∧ n.granted = some 2 ∧ mhas (engOf s q).reproof g = false ∧ mget (engOf s q).slots a = some o) ∧
    (∃ (ms : List Nat) (c : Nat), c < ms.length) ∧
    (∃ s q g due core asid acc, mget (engOf s q).reproof g = some (due, core, asid, acc) ∧ due ≤ s.time ∧ keysRise 0 (engOf s q).reproof = true) ∧
    (∀ used : Bool, ∃ s core thr o x n id b, (thrOf s core thr).hold = some o ∧ o.instr = .basis x ∧
      basisEntOf (engOf s (quadOf core)) core thr = some (n, id, b) ∧ eligible (engOf s (quadOf core)) n = true ∧ n.due ≤ s.time ∧
      (grpOf s core).st = .running ∧ basisInUse (engOf s (quadOf core)) id = used) :=
  ⟨⟨3, 255, (by decide +kernel)⟩, ⟨acc21, 255, 127, (by decide +kernel)⟩,
   ⟨tabled work5, 0, 5, work5, jobCard 2 1 0x60000, [], 1, basisPair, (by decide +kernel), rfl, rfl, rfl, rfl, (by decide +kernel)⟩,
   ⟨tabled { work5 with fin := some (0, 0) }, 0, 5, _, _, _, _, _, 0, 0, rfl, rfl, rfl, (by decide +kernel)⟩,
   ⟨tabled { work5 with run := some {}, granted := some 1, waits := some [] }, 0, { work5 with run := some {}, granted := some 1, waits := some [] }, jobCard 2 1 0x60000, [], 1, basisPair, {}, (by decide +kernel), rfl, rfl, [], rfl, (by decide +kernel)⟩,
   ⟨tabled { pass5 with granted := some 2 }, 0, { pass5 with granted := some 2 }, 2, 1, 63, 62, 1, 1, 0xF, mineA, (by decide +kernel), rfl, rfl, rfl, (by decide +kernel)⟩,
   ⟨basisPair, 5, (by decide +kernel)⟩, ⟨proving, 0, 2, 0, 0, 0, 1, (by decide +kernel)⟩,
   fun used => match used with
    | true => ⟨basing fun e => { e with slots := [(0, { mineA with basis := 15 })] }, 0, 0, _, f3 0 15, ent5 (.basis 15 0 { moduli := basisPair, n := 4, asid := some 0 }), 15,
        { moduli := basisPair, n := 4, asid := some 0 }, some_get (by decide +kernel), (by decide +kernel), (by decide +kernel), (by decide +kernel), (by decide +kernel)⟩
    | false => ⟨basing id, 0, 0, _, f3 0 15, ent5 (.basis 15 0 { moduli := basisPair, n := 4, asid := some 0 }), 15,
        { moduli := basisPair, n := 4, asid := some 0 }, some_get (by decide +kernel), (by decide +kernel), (by decide +kernel), (by decide +kernel), (by decide +kernel)⟩⟩

/-! ### Traps and control registers -/

/-- The group has a trap vector, a trap frame area at 0x100000 and a checkpoint base. -/
def vectored : State := updGrp base 0 fun g => { g with tvec := 0x40000, tframe := 0x60000, ckbase := 0x90000 }
/-- The same with TDEPTH 2. -/
def deep : State := updThr vectored 0 0 fun t => { t with sstatus := t.sstatus ||| 0x80#32 }
/-- BRKH is set. -/
def broken : State := updThr vectored 0 0 fun t => { t with sstatus := t.sstatus ||| 8#32 }
/-- TDEPTH 1, as in a handler. -/
def handling : State := updThr vectored 0 0 fun t => { t with sstatus := t.sstatus ||| 0x40#32 }

/-- The frame gives lane 31 the odd PC 2. -/
def oddFrame : State := poke handling 0x60178 (natLe 8 2)

/-- A physical address outside the register space. -/
def plainB (pa : Nat) : Bool := match regionOf pa with
  | .reg _ => false
  | _ => true

theorem plain_of {pa : Nat} (h : plainB pa = true) : ∀ o, regionOf pa ≠ .reg o := by
  intro o e
  simp [plainB, e] at h

theorem line_of {o : Option (Loc × Attr)} (h : (match o with
    | some (.mem pa, _) => plainB pa
    | _ => false) = true) : ∃ pa a, o = some (Loc.mem pa, a) ∧ ∀ r, regionOf pa ≠ .reg r := by
  split at h
  · exact ⟨_, _, rfl, plain_of h⟩
  · cases h

/-- The thread is held at nothing. -/
theorem unheld_of {t : Thr} (h : (t.hold.isNone && t.cbars.isEmpty && !t.leaving) = true) : Unheld t := by
  simp only [Bool.and_eq_true, Option.isNone_iff_eq_none, List.isEmpty_iff, Bool.not_eq_true'] at h
  exact ⟨h.1.1, h.1.2, h.2⟩

/-- The group of vectored is to end with a record of 64 bytes, and nothing of it is under way. -/
def failed : State := updGrp vectored 0 fun g => { g with area := true, st := .failing (List.replicate 64 0) }

theorem witness_TrapsEnterTheHandler :
    (∃ x s, Runs (.trap x) x s ∧ s.cur.dual = none ∧ frameWaits s = false) ∧
    (∃ x s, Runs (.brk x) x s ∧ s.cur.dual = none ∧ frameWaits s = false ∧ (curThr s).sstatus.getLsbD 3 = false) ∧
    (∃ x s, Runs (.brk x) x s ∧ (curThr s).sstatus.getLsbD 3 = true ∧ (coreOf s s.cur.core).group.isSome = true ∧ (grpOf s s.cur.core).st = .running) ∧
    (∃ s locs, Unheld (curThr s) ∧ (curThr s).tdepth < 2 ∧ (grpOf s s.cur.core).tvec ≠ 0 ∧ (grpOf s s.cur.core).tframe ≠ 0 ∧
      frameLocs s s.cur.core .write ((grpOf s s.cur.core).tframe.toNat + (s.cur.thr * 2 + (curThr s).tdepth) * 4096) = some locs ∧
      (∃ pa a, locs[63]? = some (Loc.mem pa, a) ∧ ∀ o, regionOf pa ≠ .reg o)) ∧
    (∃ s : State, Unheld (curThr s) ∧ (coreOf s s.cur.core).group.isSome = true ∧ 2 ≤ (curThr s).tdepth) ∧
    (∃ s : State, Unheld (curThr s) ∧ (coreOf s s.cur.core).group.isSome = true ∧ (curThr s).tdepth < 2 ∧ (grpOf s s.cur.core).tvec = 0) ∧
    (∃ c s g r, (coreOf s c).group = some g ∧ g.st = .failing r ∧ haltReady s c = true ∧ g.area = true ∧
      ∀ o, regionOf (g.ckbase.toNat + 0x40) ≠ .reg o) :=
  ⟨⟨fm 0 (r 0) (r 0) (r 0) 0xFFFF, base, runs_of (by decide +kernel), rfl, (by decide +kernel)⟩, ⟨fm 0 (r 0) (r 0) (r 0) 0xFFFF, base, runs_of (by decide +kernel), rfl, (by decide +kernel)⟩,
   ⟨fm 0 (r 0) (r 0) (r 0) 0, broken, runs_of (by decide +kernel), (by decide +kernel)⟩,
   ⟨vectored, _, unheld_of (by decide +kernel), (by decide +kernel), (by decide +kernel), (by decide +kernel), some_get (by decide +kernel), line_of (by decide +kernel)⟩,
   ⟨deep, unheld_of (by decide +kernel), (by decide +kernel)⟩, ⟨base, unheld_of (by decide +kernel), (by decide +kernel)⟩,
   ⟨0, failed, grpOf failed 0, List.replicate 64 0, (by decide +kernel), (by decide +kernel), (by decide +kernel), (by decide +kernel), plain_of (by decide +kernel)⟩⟩

theorem witness_EretReversesTheTrap :
    (∃ x s bs, Runs (.eret x) x s ∧ (curThr s).tdepth ≠ 0 ∧
      (let c := s.cur.core
       let fa := frameAddr (grpOf s c) s.cur.thr ((curThr s).tdepth - 1)
       frameFault s c fa = none ∧ frameReady s c s.cur.thr fa = true ∧ readFrame s c s.cur.thr fa = some bs ∧
       (∀ l < (curThr s).lanes.length, (laneOf (eretThr (curThr s) (curFe s) bs) l).pc.toNat % 4 = 0) ∧
       x.yld = true ∧ curFe s = false ∧ leaveBlocked (curThr s) = false)) ∧
    (∃ x s bs, Runs (.eret x) x s ∧ (curThr s).tdepth ≠ 0 ∧
      (let c := s.cur.core
       let fa := frameAddr (grpOf s c) s.cur.thr ((curThr s).tdepth - 1)
       frameFault s c fa = none ∧ frameReady s c s.cur.thr fa = true ∧ readFrame s c s.cur.thr fa = some bs ∧
       oddLanes (eretThr (curThr s) (curFe s) bs) = [31])) ∧
    (∃ x s, Runs (.eret x) x s ∧ (curThr s).tdepth = 0) ∧
    (∃ (t : Thr) (r : List (BitVec 8)), Framable t ∧ t.tdepth < 2 ∧ r.length = 64) :=
  ⟨⟨{ fm 0 (r 0) (r 0) (r 0) 0 with yld := true }, handling, _, runs_of (by decide +kernel), (by decide +kernel), (by decide +kernel), (by decide +kernel), some_get (by decide +kernel), (by decide +kernel)⟩,
   ⟨{ fm 0 (r 0) (r 0) (r 0) 0 with yld := true }, oddFrame, _, runs_of (by decide +kernel), (by decide +kernel), (by decide +kernel), (by decide +kernel), some_get (by decide +kernel), (by decide +kernel)⟩,
   ⟨fm 0 (r 0) (r 0) (r 0) 0, base, runs_of (by decide +kernel), (by decide +kernel)⟩,
   ⟨thrOf base 0 0, List.replicate 64 0, ⟨(by decide +kernel), (by decide +kernel), (by decide +kernel), (by decide +kernel)⟩, (by decide +kernel)⟩⟩

/-- A form that names a register or a counter. -/
def fcsr (n : BitVec 28) : Form := fm 0 (r 2) (r 4) (r 6) n
/-- Pair 4 holds the value, and pair 6 the other. -/
def two (s : State) (a b : Nat) : State := putAll (putAll s 4 a) 6 b
theorem refused_of {i : Instr} {s : State} {n : Nat} {old a : DWord} {o : Option DWord} (ho : o.isSome = true)
    (h : (csrNew i s (o.get ho) (csrRo n) old a).all (fun v => decide (csrRange n v = false)) = true) :
    ∃ rw, o = some rw ∧ ∀ v, csrNew i s rw (csrRo n) old a = some v → csrRange n v = false :=
  ⟨_, some_get ho, all_some h⟩

theorem witness_ControlRegistersSplitAndHints_csr :
    (∃ x s n, Runs (.csrr x) x s ∧ csrRegs (x.f 0 12) = some n ∧ Fits (.csrr x) x n) ∧
    (∃ i x s rw v, (i = .csrw x ∨ i = .csrs x ∨ i = .csrc x) ∧ Runs i x s ∧ Clean i x s ∧ (coreOf s s.cur.core).group.isSome = true ∧
      csrRw (x.f 0 12) = some rw ∧
      csrNew i s rw (csrRo (x.f 0 12)) (csrVal s (x.f 0 12)) (BitVec.ofNat 64 (src i x s 3 (lowLane s x))) = some v ∧
      csrRange (x.f 0 12) v = true ∧ v.toNat < 2 ^ (32 * (csrRegs (x.f 0 12)).getD 1) ∧ v = 0xFFFFFFFFFFFC0) ∧
    (∃ i x s, (i = .csrw x ∨ i = .csrs x ∨ i = .csrc x) ∧ Runs i x s ∧ Clean i x s ∧ csrRw (x.f 0 12) = none) ∧
    (∃ i x s, (i = .csrw x ∨ i = .csrs x ∨ i = .csrc x) ∧ Runs i x s ∧ Clean i x s ∧ ∃ rw, csrRw (x.f 0 12) = some rw ∧ ∀ v,
        csrNew i s rw (csrRo (x.f 0 12)) (csrVal s (x.f 0 12)) (BitVec.ofNat 64 (src i x s 3 (lowLane s x))) = some v →
        csrRange (x.f 0 12) v = false) ∧
    (∃ x s, Runs (.time x) x s ∧ Fits (.time x) x 2 ∧ (x.m 0 1 = 1 → producersOut s x = false)) ∧
    (∃ x s, Runs (.perf x) x s ∧ Fits (.perf x) x 2) :=
  ⟨⟨fcsr 0x801, base, 2, runs_of (by decide +kernel), (by decide +kernel), fits_of (by decide +kernel)⟩,
   ⟨.csrs (fcsr 0x801), fcsr 0x801, putAll base 4 0xFFFFFFFFFFFC0, _, _, .inr (.inl rfl), runs_of (by decide +kernel), clean_of (by decide +kernel), (by decide +kernel), rfl,
      (show csrNew _ _ _ _ _ _ = some 0xFFFFFFFFFFFC0 from (by decide +kernel)), (by decide +kernel)⟩,
   ⟨.csrc (fcsr 0x804), fcsr 0x804, base, .inr (.inr rfl), runs_of (by decide +kernel), clean_of (by decide +kernel), rfl⟩,
   ⟨.csrw (fcsr 0x801), fcsr 0x801, putAll base 4 0x20, .inl rfl, runs_of (by decide +kernel), clean_of (by decide +kernel), refused_of (by decide +kernel) (by decide +kernel)⟩,
   ⟨fcsr 0, base, runs_of (by decide +kernel), fits_of (by decide +kernel), (by decide +kernel)⟩, ⟨fcsr 0, base, runs_of (by decide +kernel), fits_of (by decide +kernel)⟩⟩

/-- A barrier object in the last 16 bytes of scratch. -/
def objected : State := updCore base 0 fun k => { k with scrT := [(0xBFFF, ())] }

theorem witness_ControlRegistersSplitAndHints_rest :
    (∃ x s, Runs (.resize x) x s ∧ x.f 0 2 = (grpOf s s.cur.core).l1) ∧
    (∃ x s, Runs (.resize x) x s ∧ x.f 0 2 ≠ (grpOf s s.cur.core).l1 ∧ (coreOf s s.cur.core).group.isSome = true ∧
      (let new := 0xC0000 - l1Bytes (x.f 0 2)
       let lim := min new (slimit (grpOf s s.cur.core))
       (grpOf s s.cur.core).scratchNeed ≤ new ∧ barrierAbove s s.cur.core lim = false ∧ scratchUsed s s.cur.core lim = false)) ∧
    (∃ x s, Runs (.resize x) x s ∧ x.f 0 2 ≠ (grpOf s s.cur.core).l1 ∧
      barrierAbove s s.cur.core (min (0xC0000 - l1Bytes (x.f 0 2)) (slimit (grpOf s s.cur.core))) = true) ∧
    (∃ x s, Runs (.resize x) x s ∧ x.f 0 2 ≠ (grpOf s s.cur.core).l1 ∧ 0xC0000 - l1Bytes (x.f 0 2) < (grpOf s s.cur.core).scratchNeed) ∧
    (∃ x s, Runs (.tierh x) x s ∧ Clean (.tierh x) x s ∧ src (.tierh x) x s 3 (lowLane s x) = 2 ^ 52 - 1 ∧ src (.tierh x) x s 4 (lowLane s x) = 0) :=
  ⟨⟨fcsr 0, base, runs_of (by decide +kernel), (by decide +kernel)⟩, ⟨fcsr 3, base, runs_of (by decide +kernel), (by decide +kernel)⟩,
   ⟨fcsr 3, objected, runs_of (by decide +kernel), (by decide +kernel)⟩, ⟨fcsr 3, updGrp base 0 fun g => { g with scratchNeed := 0xC0000 }, runs_of (by decide +kernel), (by decide +kernel)⟩,
   ⟨fcsr 0, two base (2 ^ 52 - 1) 0, runs_of (by decide +kernel), clean_of (by decide +kernel), (by decide +kernel)⟩⟩

theorem no_jobs {s : State} (h : (s.cores.all fun e => e.2.jobs = []) = true) (k : Nat) : (coreOf s k).jobs = [] := by
  unfold coreOf mgetD
  generalize s.cores = m at h
  induction m with
  | nil => rfl
  | cons e m ih =>
    simp only [List.all_cons, Bool.and_eq_true, decide_eq_true_eq] at h
    obtain ⟨a, b⟩ := e
    simp only [mget]
    split
    · exact h.1
    · exact ih h.2

/-- A TLBI of one page in progress on core 0. -/
def tlbi9 : Tlbi := { id := 9, core := 0, part := 0, form := 0, va := 0, asid := 0, pkg := false, reset := false, fills := [], dies := [] }
/-- Its thread waits. -/
def shooting : State :=
  let s := held base (.tlbi 9) (.tlbiVa (f3 0 0))
  { s with xl := { s.xl with tlbis := [tlbi9] } }
/-- A walk of die 0 for core 0 that found a leaf at 0. -/
def walk9 : Walk := { id := 9, die := 0, asid := 0, page := 6, res := some (false, 3), cores := [0], due := 0 }
/-- It is in flight. -/
def walking : State := { base with xl := { base.xl with walks := [walk9] } }
/-- Page 6 is in vault page 5, and moves back. -/
def moved : State := { base with xl := { base.xl with inVault := [(6, 5)], moves := [{ page := 6, dst := some 7, t := 0 }] } }

theorem witness_TranslationsAreDroppedCachedAndMoved :
    (∃ i x form s, tlbiOf i = some (x, form) ∧ Runs i x s ∧ (curThr s).hold = none ∧ Clean i x s ∧ Fits i x 1 ∧ form ≠ 2 ∧
      src i x s 4 (lowLane s x) = 1023 ∧
      s.mem.fills = [] ∧ s.mem.atoms = [] ∧ s.resets = [] ∧ s.xl.inVault = [] ∧ (∀ k, (coreOf s k).jobs = []) ∧ (∀ e ∈ s.engs, e.2.table = [])) ∧
    (∃ i x form s, tlbiOf i = some (x, form) ∧ Runs i x s ∧ (curThr s).hold = none ∧ Clean i x s ∧ form ≠ 2 ∧ 1023 < src i x s 4 (lowLane s x)) ∧
    (∃ i x form s c n o id t, tlbiOf i = some (x, form) ∧ (thrOf s c n).hold = some o ∧ o.instr = i ∧ o.why = .tlbi id ∧
      (s.xl.tlbis.find? fun t => t.id = id) = some t ∧ tlbiDone s t = true ∧ Fits i x 1) ∧
    (∃ id s w big leaf p, (s.xl.walks.find? fun w => w.id = id) = some w ∧ w.due ≤ s.time ∧ (walksRunning s).contains w = true ∧ w.res = some (big, leaf) ∧
      (if w.die < 4 then partOfDie s w.die else partOfMdie s (w.die - 4)) = some p ∧ leafOk s p big leaf (w.page * 65536) = true) ∧
    (∃ (page : Nat) (s : State), (s.xl.moves.any fun v => v.page = page) = false ∧ mhas s.xl.inVault page = true) ∧
    (∃ (page : Nat) (s : State) (v : Move), (s.xl.moves.find? fun v => v.page = page) = some v ∧ keysRise 0 s.xl.inVault = true ∧ s.xl.tpcfgNext = none) :=
  ⟨⟨.tlbiVa (f3 0 0), f3 0 0, 0, two base 0x60000 1023, rfl, runs_of (by decide +kernel), (by decide +kernel), clean_of (by decide +kernel), fits_of (by decide +kernel), (by decide +kernel), (by decide +kernel), rfl, rfl, rfl, rfl,
      no_jobs (by decide +kernel), (by decide +kernel)⟩,
   ⟨.tlbiAsid (f3 4 0), f3 4 0, 1, two base 0 1024, rfl, runs_of (by decide +kernel), (by decide +kernel), clean_of (by decide +kernel), (by decide +kernel)⟩,
   ⟨.tlbiVa (f3 0 0), f3 0 0, 0, shooting, 0, 0, _, 9, tlbi9, rfl, some_get (by decide +kernel), (by decide +kernel), (by decide +kernel), (by decide +kernel), (by decide +kernel), fits_of (by decide +kernel)⟩,
   ⟨9, walking, walk9, false, 3, 0, (by decide +kernel)⟩, ⟨6, { base with xl := { base.xl with inVault := [(6, 5)] } }, (by decide +kernel)⟩, ⟨6, moved, { page := 6, dst := some 7, t := 0 }, (by decide +kernel)⟩⟩

/-! ### Parking, checkpoints, restoring -/

/-- Core 1 has a group in this state with area page 6, whose FE is live; pair 4 holds logical core 1. -/
def beside (st : GSt) (ck : Option (Nat × Bool)) : State :=
  let s := updCore (two base 1 0) 1 fun k => { k with group := some { (grpOf base 0) with st := st, ck := ck, ckbase := 0x60000 } }
  updThr s 1 feIdx fun _ => thrOf base 0 feIdx
/-- The wattle of core 0 holds this instruction with an aim. -/
def aiming (s : State) (i : Instr) (aim : Nat) : State :=
  updThr s 0 0 fun t => { t with hold := some { why := .retry, instr := i, mask := 0xFFFFFFFF, pc := 0x40000, aim := aim } }
/-- The instruction under test has D in register 2. -/
def fpk : Form := fm 0 (r 2) (r 4) (r 6) 0
/-- A store to this address has been accepted and is not applied. -/
def storingAt (s : State) (pa : Nat) : State := updMem s fun m =>
  { m with stores := [{ id := 9, by' := .host, die := 4, pa := pa, bytes := [(1, false)], st := .accepted 1 }] }

theorem other_of {i : Instr} {x : Form} {s : State} {c : Nat} (h : (runsB i x s && cleanB i x s && fitsB i x 1) = true)
    (e : physOf s (grpOf s s.cur.core).part (src i x s 3 (lowLane s x)) = some c ∧ c ≠ s.cur.core) : Other i x s c := by
  simp only [Bool.and_eq_true] at h
  exact ⟨runs_of h.1.1, clean_of h.1.2, fits_of h.2, e⟩

theorem aims_of {i : Instr} {s : State} {aim : Nat} (h : (curThr (aiming s i aim)).hold =
    some { why := .retry, instr := i, mask := s.cur.mask, pc := s.cur.pc, aim := aim }) : Aims i (aiming s i aim) (aiming s i aim) aim :=
  ⟨_, h, rfl, rfl, rfl, rfl⟩

theorem only_of {o : Option Nat} {k : Nat} (h : o.all (fun c => decide (c = k)) = true) : ∀ c, o = some c → c = k := all_some h

theorem witness_GroupsAreParkedSavedAndRestored_none :
    ∀ i x, i = .parkQuery x ∨ i = .parkHalt x ∨ i = .parkRun x ∨ i = .ckpt x → x = fpk → ∀ n ∈ [0, 600], (let s := two base n 0
      Runs i x s ∧ Clean i x s ∧ (curThr s).hold = none ∧
      ∀ c, physOf s (grpOf s s.cur.core).part (src i x s 3 (lowLane s x)) = some c → c = s.cur.core) := by
  rintro i x (rfl | rfl | rfl | rfl) rfl n hn <;> obtain rfl | rfl : n = 0 ∨ n = 600 := by simpa using hn
  all_goals exact ⟨runs_of (by decide +kernel), clean_of (by decide +kernel), (by decide +kernel), only_of (by decide +kernel)⟩

theorem witness_GroupsAreParkedSavedAndRestored_parked :
    (∃ x s c, Other (.parkQuery x) x s c) ∧ (∃ s c g, (coreOf s c).group = some g) ∧ (∃ s c, (coreOf s c).group = none) ∧
    (∃ x s c, Other (.parkHalt x) x s c ∧ (curThr s).hold = none ∧ (coreOf s c).group = none) ∧
    (∃ x s c g, Other (.parkHalt x) x s c ∧ (curThr s).hold = none ∧ (coreOf s c).group = some g ∧ g.st = .running) ∧
    (∃ x s c g b, Other (.parkHalt x) x s c ∧ (curThr s).hold = none ∧ (coreOf s c).group = some g ∧ g.st = .parked b) ∧
    (∃ x s c g b, Other (.parkHalt x) x s c ∧ Aims (.parkHalt x) s s 1 ∧ (coreOf s c).group = some g ∧ g.st = .parked b) ∧
    (∃ x s c, Other (.parkRun x) x s c ∧ (curThr s).hold = none ∧ (grpOf s c).st = .running) ∧
    (∃ x s c g b, Other (.parkRun x) x s c ∧ (curThr s).hold = none ∧ (coreOf s c).group = some g ∧ g.st = .parked b ∧ g.ck = none ∧
      wattleLive s c feIdx = true ∧ replayWaits s c = false) ∧
    (∃ x s c, Other (.ckpt x) x s c ∧ (curThr s).hold = none ∧ (grpOf s c).st = .running) ∧
    (∃ x s c g b, Other (.ckpt x) x s c ∧ (curThr s).hold = none ∧ (coreOf s c).group = some g ∧ g.st = .parked b ∧ g.ck = none) ∧
    (∃ x s c, Other (.ckpt x) x s c ∧ Aims (.ckpt x) s s 1 ∧ (grpOf s c).ck = none) :=
  ⟨⟨fpk, beside .running none, 1, other_of (by decide +kernel) (by decide +kernel)⟩, ⟨base, 0, _, some_get (by decide +kernel)⟩, ⟨base, 1, (by decide +kernel)⟩,
   ⟨fpk, two base 1 0, 1, other_of (by decide +kernel) (by decide +kernel), (by decide +kernel)⟩,
   ⟨fpk, beside .running none, 1, _, other_of (by decide +kernel) (by decide +kernel), (by decide +kernel), some_get (by decide +kernel), (by decide +kernel)⟩,
   ⟨fpk, beside (.parked true) none, 1, _, true, other_of (by decide +kernel) (by decide +kernel), (by decide +kernel), some_get (by decide +kernel), (by decide +kernel)⟩,
   ⟨fpk, aiming (beside (.parked false) none) (.parkHalt fpk) 1, 1, _, false, other_of (by decide +kernel) (by decide +kernel), aims_of (by decide +kernel), some_get (by decide +kernel), (by decide +kernel)⟩,
   ⟨fpk, beside .running none, 1, other_of (by decide +kernel) (by decide +kernel), (by decide +kernel)⟩,
   ⟨fpk, beside (.parked false) none, 1, _, false, other_of (by decide +kernel) (by decide +kernel), (by decide +kernel), some_get (by decide +kernel), (by decide +kernel)⟩,
   ⟨fpk, beside .running none, 1, other_of (by decide +kernel) (by decide +kernel), (by decide +kernel)⟩,
   ⟨fpk, beside (.parked false) none, 1, _, false, other_of (by decide +kernel) (by decide +kernel), (by decide +kernel), some_get (by decide +kernel), (by decide +kernel)⟩,
   ⟨fpk, aiming (beside (.parked false) none) (.ckpt fpk) 1, 1, other_of (by decide +kernel) (by decide +kernel), aims_of (by decide +kernel), (by decide +kernel)⟩⟩

/-- The 64 bytes of a header: status 1, an ASID, a class, one wattle, valid. -/
def ckHeader0 (asid heat : Nat) : List Byte := natLe 4 1 ++ natLe 4 asid ++ natLe 4 0 ++ natLe 1 heat ++ natLe 1 1 ++ natLe 1 0 ++ natLe 1 1 ++ natLe 48 0
/-- An area with that header at 0x60000; pair 4 names it, pair 6 a logical core. -/
def saved (h : List Byte) (core : Nat) : State := two (poke base 0x60000 h) 0x60000 core
/-- Another core runs a group. -/
def fullOn (s : State) (c : Nat) : State := updCore s c fun k => { k with group := some { (grpOf base 0) with ckbase := 0x60000 } }

/-- No store to the area of RSTO, or to the entry of its ASID, is under way. -/
def Settled (x : Form) (s : State) : Prop :=
  areaBusy s (src (.rsto x) x s 3 (lowLane s x)) (areaBytes 3) = false ∧
    asidWaits s (leAt ((homeBytes s (src (.rsto x) x s 3 (lowLane s x)) 64).map (·.1)) 4 4) = false
theorem settled_of {x : Form} {s : State} (h : (!areaBusy s (src (.rsto x) x s 3 (lowLane s x)) (areaBytes 3) &&
    !asidWaits s (leAt ((homeBytes s (src (.rsto x) x s 3 (lowLane s x)) 64).map (·.1)) 4 4)) = true) : Settled x s := by
  simpa [Settled] using h

theorem witness_GroupsAreParkedSavedAndRestored_waits :
    (∃ x s, Runs (.rsto x) x s ∧ Clean (.rsto x) x s ∧ Fits (.rsto x) x 1 ∧ src (.rsto x) x s 3 (lowLane s x) % 65536 = 0 ∧
      (curThr s).hold = none ∧ areaBusy s (src (.rsto x) x s 3 (lowLane s x)) (areaBytes 3) = true) ∧
    (∃ x s, Runs (.rsto x) x s ∧ Clean (.rsto x) x s ∧ Fits (.rsto x) x 1 ∧ src (.rsto x) x s 3 (lowLane s x) % 65536 = 0 ∧
      (curThr s).hold = none ∧ asidWaits s (leAt ((homeBytes s (src (.rsto x) x s 3 (lowLane s x)) 64).map (·.1)) 4 4) = true) ∧
    (∃ x s, Runs (.rsto x) x s ∧ Clean (.rsto x) x s ∧ Fits (.rsto x) x 1 ∧
      physOf s (grpOf s s.cur.core).part (src (.rsto x) x s 4 (lowLane s x)) = none ∧ src (.rsto x) x s 3 (lowLane s x) % 65536 = 0 ∧
      (curThr s).hold = none ∧ Settled x s) :=
  ⟨⟨fpk, storingAt (saved [] 1) (0x60000 + areaBytes 3 - 1), runs_of (by decide +kernel), clean_of (by decide +kernel), fits_of (by decide +kernel), (by decide +kernel)⟩,
   ⟨fpk, storingAt (saved [] 1) (entPa (saved [] 1).xl.at'), runs_of (by decide +kernel), clean_of (by decide +kernel), fits_of (by decide +kernel), (by decide +kernel)⟩,
   ⟨fpk, saved [] 600, runs_of (by decide +kernel), clean_of (by decide +kernel), fits_of (by decide +kernel), (by decide +kernel), (by decide +kernel), (by decide +kernel), settled_of (by decide +kernel)⟩⟩

theorem witness_GroupsAreParkedSavedAndRestored_restored :
    (∃ x s c, Runs (.rsto x) x s ∧ Clean (.rsto x) x s ∧ Fits (.rsto x) x 1 ∧
      physOf s (grpOf s s.cur.core).part (src (.rsto x) x s 4 (lowLane s x)) = some c ∧
      (src (.rsto x) x s 3 (lowLane s x) % 65536 = 0 ∧ (curThr s).hold = none ∧ Settled x s ∧ coreFree s c = false)) ∧
    (∃ x s c, Runs (.rsto x) x s ∧ Clean (.rsto x) x s ∧ Fits (.rsto x) x 1 ∧
      physOf s (grpOf s s.cur.core).part (src (.rsto x) x s 4 (lowLane s x)) = some c ∧
      (src (.rsto x) x s 3 (lowLane s x) % 65536 = 0 ∧ (curThr s).hold = none ∧ Settled x s ∧ coreFree s c = true ∧
        headerOk ((homeBytes s (src (.rsto x) x s 3 (lowLane s x)) 64).map (·.1)) = false)) ∧
    (∃ x s c, Runs (.rsto x) x s ∧ Clean (.rsto x) x s ∧ Fits (.rsto x) x 1 ∧
      physOf s (grpOf s s.cur.core).part (src (.rsto x) x s 4 (lowLane s x)) = some c ∧
      (let part := (grpOf s s.cur.core).part
       let area := src (.rsto x) x s 3 (lowLane s x)
       let h := (homeBytes s area 64).map (·.1)
       area % 65536 = 0 ∧ (curThr s).hold = none ∧ Settled x s ∧ coreFree s c = true ∧ headerOk h = true ∧ asidLive s part (leAt h 4 4) = false)) ∧
    (∃ x s c, Runs (.rsto x) x s ∧ Clean (.rsto x) x s ∧ Fits (.rsto x) x 1 ∧
      physOf s (grpOf s s.cur.core).part (src (.rsto x) x s 4 (lowLane s x)) = some c ∧
      (let part := (grpOf s s.cur.core).part
       let area := src (.rsto x) x s 3 (lowLane s x)
       let h := (homeBytes s area 64).map (·.1)
       area % 65536 = 0 ∧ (curThr s).hold = none ∧ Settled x s ∧ coreFree s c = true ∧ headerOk h = true ∧ asidLive s part (leAt h 4 4) = true ∧
       classSeat s c (leAt h 0x0C 1) = false)) ∧
    (∃ x s c, Runs (.rsto x) x s ∧ Clean (.rsto x) x s ∧ Fits (.rsto x) x 1 ∧
      physOf s (grpOf s s.cur.core).part (src (.rsto x) x s 4 (lowLane s x)) = some c ∧
      (let part := (grpOf s s.cur.core).part
       let area := src (.rsto x) x s 3 (lowLane s x)
       let h := (homeBytes s area 64).map (·.1)
       area % 65536 = 0 ∧ (curThr s).hold = none ∧ Settled x s ∧ coreFree s c = true ∧ headerOk h = true ∧ asidLive s part (leAt h 4 4) = true ∧
       corePresent s part c = true ∧ atLimit s 0x10 c = false ∧ classSeat s c (leAt h 0x0C 1) = true ∧
       ∃ l ∈ lendersFor s c (leAt h 0x0C 1), coreFree s l = false)) ∧
    (∃ x s c, Runs (.rsto x) x s ∧ Clean (.rsto x) x s ∧ Fits (.rsto x) x 1 ∧
      physOf s (grpOf s s.cur.core).part (src (.rsto x) x s 4 (lowLane s x)) = some c ∧
      (let part := (grpOf s s.cur.core).part
       let area := src (.rsto x) x s 3 (lowLane s x)
       let h := (homeBytes s area 64).map (·.1)
       area % 65536 = 0 ∧ (curThr s).hold = none ∧ Settled x s ∧ coreFree s c = true ∧ headerOk h = true ∧ asidLive s part (leAt h 4 4) = true ∧
       corePresent s part c = true ∧ atLimit s 0x10 c = false ∧ classSeat s c (leAt h 0x0C 1) = true ∧
       (∀ l ∈ lendersFor s c (leAt h 0x0C 1), coreFree s l = true) ∧ lendersFor s c (leAt h 0x0C 1) ≠ [] ∧ c ≠ s.cur.core)) ∧
    (∃ x s c, Runs (.rsto x) x s ∧ Clean (.rsto x) x s ∧ Fits (.rsto x) x 1 ∧ Aims (.rsto x) s s (1 + c) ∧ (grpOf s c).isRestoring = false) ∧
    (∃ x s, Runs (.rsto x) x s ∧ Clean (.rsto x) x s ∧ Fits (.rsto x) x 1 ∧ (curThr s).hold = none ∧ src (.rsto x) x s 3 (lowLane s x) % 65536 ≠ 0) :=
  ⟨⟨fpk, fullOn (saved (ckHeader0 0 0) 1) 1, 1, runs_of (by decide +kernel), clean_of (by decide +kernel), fits_of (by decide +kernel), (by decide +kernel), (by decide +kernel), (by decide +kernel), settled_of (by decide +kernel), (by decide +kernel)⟩,
   ⟨fpk, saved [] 1, 1, runs_of (by decide +kernel), clean_of (by decide +kernel), fits_of (by decide +kernel), (by decide +kernel), (by decide +kernel), (by decide +kernel), settled_of (by decide +kernel), (by decide +kernel)⟩,
   ⟨fpk, saved (ckHeader0 5 0) 1, 1, runs_of (by decide +kernel), clean_of (by decide +kernel), fits_of (by decide +kernel), (by decide +kernel), (by decide +kernel), (by decide +kernel), settled_of (by decide +kernel), (by decide +kernel)⟩,
   ⟨fpk, saved (ckHeader0 0 3) 1, 1, runs_of (by decide +kernel), clean_of (by decide +kernel), fits_of (by decide +kernel), (by decide +kernel), (by decide +kernel), (by decide +kernel), settled_of (by decide +kernel), (by decide +kernel)⟩,
   ⟨fpk, fullOn (saved (ckHeader0 0 2) 2) 3, 2, runs_of (by decide +kernel), clean_of (by decide +kernel), fits_of (by decide +kernel), (by decide +kernel), (by decide +kernel), (by decide +kernel), settled_of (by decide +kernel), (by decide +kernel)⟩,
   ⟨fpk, saved (ckHeader0 0 2) 2, 2, runs_of (by decide +kernel), clean_of (by decide +kernel), fits_of (by decide +kernel), (by decide +kernel), (by decide +kernel), (by decide +kernel), settled_of (by decide +kernel), (by decide +kernel)⟩,
   ⟨fpk, aiming (fullOn (saved (ckHeader0 0 0) 1) 1) (.rsto fpk) (1 + 1), 1, runs_of (by decide +kernel), clean_of (by decide +kernel), fits_of (by decide +kernel), aims_of (by decide +kernel), (by decide +kernel)⟩,
   ⟨fpk, two base 1 1, runs_of (by decide +kernel), clean_of (by decide +kernel), fits_of (by decide +kernel), (by decide +kernel)⟩⟩

/-- A grid of one group on queue 0. -/
def grid0 : Grid := { rec' := { bytes := List.replicate 256 0 }, va := 0x70000, queue := 0, asid := 0, part := 0, super := true, parent := none }
/-- Core 1 with a group in a state and a grid, its area at 0x60000. -/
def pre (st : GSt) (ck : Option (Nat × Bool)) : State :=
  let s := beside st ck
  let s := updGrp s 1 fun g => { g with area := true }
  { s with disp := { s.disp with grids := [(0, grid0)] } }
/-- Register 255 of lane 31 of its wattle 0 is still to be fetched. -/
def absent1 : State := updThr (pre .running none) 1 0 fun t => updReg t 31 255 fun _ => { absent := true }
/-- A header in the area whose image has a live FE, for a group that goes on. -/
def restoring (park : Bool) : State := pre (.restoring park false) none

theorem witness_PreemptionSavesAndRestores :
    (∃ c s g, (coreOf s c).group = some g ∧ g.st = .running) ∧
    (∃ c s g n brk, (coreOf s c).group = some g ∧ g.st = .halting n true brk ∧ haltReady s c = true) ∧
    (∃ c s g n brk, (coreOf s c).group = some g ∧ g.st = .halting n false brk ∧ haltReady s c = true) ∧
    (∃ c s g n, (coreOf s c).group = some g ∧ g.ck = some (n, false) ∧ agentDone s c n = true ∧ g.area = true ∧ areaBusy s g.ckbase.toNat 64 = false ∧
      g.ckbase.toNat % 64 = 0 ∧ ∀ o, regionOf g.ckbase.toNat ≠ .reg o) ∧
    (∃ c s g n r, (coreOf s c).group = some g ∧ g.ck = some (n, true) ∧ agentDone s c n = true ∧ g.st = .saving ∧ g.moving = false ∧
      g.area = true ∧ areaBusy s g.ckbase.toNat 64 = false ∧
      mget s.disp.grids g.grid = some r) ∧
    (∃ c s g park halt, (coreOf s c).group = some g ∧ g.st = .restoring park halt ∧ replayWaits s c = false ∧ g.area = true ∧
      areaBusy s g.ckbase.toNat (areaBytes g.lenders.length) = false ∧ park = true) ∧
    (∃ c s g, (coreOf s c).group = some g ∧ g.st = .restoring false false ∧ replayWaits s c = false ∧ g.area = true ∧
      areaBusy s g.ckbase.toNat (areaBytes g.lenders.length) = false ∧
      wattleLive (restoreFrom s c (savedImage s (areaKey g))) c feIdx = true) ∧
    (∃ c n reg s g l r, (coreOf s c).group = some g ∧ g.area = true ∧ g.isRestoring = false ∧ reg = 255 ∧ l = 31 ∧
      areaBusy s (g.ckbase.toNat + secOff 0 3) 524544 = false ∧
      mget (thrOf s c n).regs (l * 256 + reg) = some r ∧ r.absent = true) :=
  ⟨⟨1, pre .running none, _, some_get (by decide +kernel), (by decide +kernel)⟩, ⟨1, pre (.halting 0 true true) none, _, 0, true, some_get (by decide +kernel), (by decide +kernel)⟩,
   ⟨1, pre (.halting 0 false false) none, _, 0, false, some_get (by decide +kernel), (by decide +kernel)⟩,
   ⟨1, pre .saving (some (9, false)), _, 9, some_get (by decide +kernel), (by decide +kernel), (by decide +kernel), (by decide +kernel), (by decide +kernel), (by decide +kernel), plain_of (by decide +kernel)⟩,
   ⟨1, pre .saving (some (9, true)), _, 9, _, some_get (by decide +kernel), (by decide +kernel), (by decide +kernel), (by decide +kernel), (by decide +kernel), (by decide +kernel), (by decide +kernel), some_get (by decide +kernel)⟩,
   ⟨1, restoring true, _, true, false, some_get (by decide +kernel), (by decide +kernel)⟩,
   ⟨1, restoring false, _, some_get (by decide +kernel), (by decide +kernel)⟩,
   ⟨1, 0, 255, absent1, _, 31, _, some_get (by decide +kernel), (by decide +kernel), (by decide +kernel), rfl, rfl, (by decide +kernel), some_get (by decide +kernel), (by decide +kernel)⟩⟩

/-! ### Events of memory, banks and threads -/

/-- One byte on its way to 0x60000. -/
def store9 (st : StoreSt) : Store :=
  { id := 9, by' := .thread 0 0 31, die := 0, va := 0x60000, pa := 0x60000, bytes := [(0xAB, false)], st := st }
/-- A machine with that store. -/
def storing (st : StoreSt) : State := updMem base fun m => { m with stores := [store9 st] }
/-- Die 3 holds a leased copy of that line. -/
def leased : State := updMem base fun m => { m with copies := [{ die := 3, line := 0x60000 / 64, until' := 8, bytes := List.replicate 64 0, poison := 0 }] }

theorem witness_StoresReachTheirHomes :
    (∃ id s o, storeOf s id = some o ∧ o.atHome s = true ∧ acceptable s o = true) ∧
    (∃ id s o tw, storeOf s id = some o ∧ o.st = .accepted tw ∧ applicable s o = true ∧ Memory.wf s.mem.bytes = true ∧
      ∀ k, regionOf o.pa ≠ .reg k) ∧
    (∃ id s o tw, storeOf s id = some o ∧ o.st = .applied tw ∧ tw ≤ nowNs s) ∧
    (∃ (die line : Nat) (s : State), ∃ c ∈ s.mem.copies, c.die = die ∧ c.line = line ∧ c.until' = nowNs s + 8) ∧
    (∃ pa bytes s, hostWritable s pa = true ∧ hostWritable s (pa + (bytes.length - 1)) = true ∧
      (∀ a o, pa ≤ a → a < pa + bytes.length → regionOf a ≠ .reg o) ∧ bytes = [0x12#8]) ∧
    (∃ pa s, hostWritable s pa = false) ∧
    (∀ z : Bool, ∃ pa len s, s.link.hostWait = [] ∧ len = 64 ∧ s.mem.stores ≠ [] ∧ (∀ k < len, lineStalls s ((pa + k) / 64) = false) ∧
      waiting (touchRange s hostReq 4 pa len false).1 (touchRange s hostReq 4 pa len false).2 = z) ∧
    (∃ pa len s, s.link.hostWait = [] ∧ len = 64 ∧ lineBusy s (pa / 64) = true ∧ ∃ k < len, lineStalls s ((pa + k) / 64) = true) ∧
    (∃ pa len s, s.link.hostWait = [] ∧ len = 64 ∧ homeDown s pa = true ∧ ∃ k < len, lineStalls s ((pa + k) / 64) = true) :=
  ⟨⟨9, storing .leaving, store9 .leaving, (by decide +kernel)⟩, ⟨9, storing (.accepted 0), store9 (.accepted 0), 0, (by decide +kernel), (by decide +kernel), (by decide +kernel), (by decide +kernel), plain_of (by decide +kernel)⟩,
   ⟨9, storing (.applied 0), store9 (.applied 0), 0, (by decide +kernel)⟩, ⟨3, 0x60000 / 64, leased, _, List.mem_singleton.2 rfl, (by decide +kernel)⟩,
   ⟨0x60000, [0x12], base, (by decide +kernel), (by decide +kernel), fun a o h g => by
      have : a = 0x60000 := by simp at g; omega
      subst this; exact plain_of (by decide +kernel) o, rfl⟩,
   ⟨regBase, base, (by decide +kernel)⟩, 
   fun z => match z with
    | true => ⟨0x60000, 64, storing .buffered, (by decide +kernel), (by decide +kernel), (by decide +kernel), (by decide +kernel), (by decide +kernel)⟩
    | false => ⟨0x60000, 64, cached (storing .buffered) [0x60000 / 64], (by decide +kernel), (by decide +kernel), (by decide +kernel), (by decide +kernel), (by decide +kernel)⟩,
   ⟨0x60000, 64, storing (.accepted 0), (by decide +kernel), (by decide +kernel), (by decide +kernel), 0, (by decide +kernel)⟩,
   ⟨0x60000, 64, { base with resets := [{ kind := 7, unit := 0, t := 1 }] }, (by decide +kernel), (by decide +kernel), (by decide +kernel), 63, (by decide +kernel)⟩⟩

/-- A 64-bit sum, a reduction or a conditional store of lane 31 at the hearth of 0x60000, whose bank has been reached or not. -/
def atom9 (sc : Option (List Byte)) (ret touched : Bool) : AtomOp :=
  { id := 9, core := 0, thr := 0, acc := { lane := 31, va := 0x60000, loc := .mem 0x60000, size := 8 }
    rmw := { op := 0, wide := true, b := 1, cmp := 0, poison := false }, sc := sc, ret := ret, asid := 0, due := 0, touched := touched }
/-- A machine with it, with or without its reservation. -/
def atoming (o : AtomOp) (ok : Bool) : State := updMem base fun m =>
  { m with
    atoms := [o]
    resvs := if ok then [{ core := 0, thr := 0, lane := 31, place := 2, unit := 0, gran := 0x60000 / 64, until' := 1 }] else [] }
/-- Tree 7 is valid with cells at 0x60000; the cell at offset 64 is done. -/
def treed (s : State) : State := poke { s with link := { s.link with trees := [(0, { lo := 0x07000001, base := 0x60000 })] } } (0x60040 + 49) [8]
/-- Eight bytes of a conditional store. -/
def new8 : List Byte := [1, 2, 3, 4, 5, 6, 7, 8]

theorem witness_HearthsPerformAtomics :
    (∃ id s o, (s.mem.atoms.find? fun o => o.id = id) = some o ∧ atomReady s o = true ∧ o.touched = false ∧
      (touchHome (countHeat s o.acc.attr o.acc.pa) o.core o.acc.pa o.acc.attr.nhc true).2 ≠ []) ∧
    (∀ ret : Bool, ∃ id s o, (s.mem.atoms.find? fun o => o.id = id) = some o ∧ atomReady s o = true ∧ o.touched = true ∧
      o.acc.attr.rcell = false ∧ o.ret = ret ∧ o.sc = none) ∧
    (∀ ok : Bool, ∃ id s o, (s.mem.atoms.find? fun o => o.id = id) = some o ∧ atomReady s o = true ∧ o.touched = true ∧
      o.acc.attr.rcell = false ∧ o.ret = true ∧ o.sc = some new8 ∧ resvIntact s o.core o.thr o.acc.lane o.acc.loc 2 = ok) ∧
    (∃ (tree : Nat) (s : State), s.mem.partials = [] ∧
      (s.link.trees.find? fun (_, t) => t.lo.getLsbD 0 && nbits t.lo.toNat 24 8 = tree) = none) ∧
    (∀ done : Bool, ∃ (tree off : Nat) (s : State) (k : Nat) (e : Tree), s.mem.partials = [] ∧
      (s.link.trees.find? fun (_, t) => t.lo.getLsbD 0 && nbits t.lo.toNat 24 8 = tree) = some (k, e) ∧
      (let pa := e.base.toNat + off % 65536 / 64 * 64
       let v := leNat (viewBytes s 4 nobody pa 64).1
       lineBusy s (pa / 64) = false ∧ v.testBit 395 = done ∧ ∀ o, regionOf pa ≠ .reg o)) ∧
    (∃ (tree off : Nat) (s : State) (k : Nat) (e : Tree), s.mem.partials = [] ∧
      (s.link.trees.find? fun (_, t) => t.lo.getLsbD 0 && nbits t.lo.toNat 24 8 = tree) = some (k, e) ∧
      lineBusy s ((e.base.toNat + off % 65536 / 64 * 64) / 64) = true) :=
  ⟨⟨9, atoming (atom9 none true false) false, atom9 none true false, (by decide +kernel)⟩,
   fun ret => match ret with
    | true => ⟨9, atoming (atom9 none true true) false, atom9 none true true, (by decide +kernel)⟩
    | false => ⟨9, atoming (atom9 none false true) false, atom9 none false true, (by decide +kernel)⟩,
   fun ok => match ok with
    | true => ⟨9, atoming (atom9 (some new8) true true) true, atom9 (some new8) true true, (by decide +kernel)⟩
    | false => ⟨9, atoming (atom9 (some new8) true true) false, atom9 (some new8) true true, (by decide +kernel)⟩,
   ⟨255, treed base, (by decide +kernel)⟩,
   fun done => match done with
    | true => ⟨7, 64, treed base, 0, { lo := 0x07000001, base := 0x60000 }, (by decide +kernel), (by decide +kernel), (by decide +kernel), (by decide +kernel), plain_of (by decide +kernel)⟩
    | false => ⟨7, 0, treed base, 0, { lo := 0x07000001, base := 0x60000 }, (by decide +kernel), (by decide +kernel), (by decide +kernel), (by decide +kernel), plain_of (by decide +kernel)⟩,
   ⟨7, 0, treed (storing (.accepted 0)), 0, { lo := 0x07000001, base := 0x60000 }, (by decide +kernel), (by decide +kernel)⟩⟩

/-- Vault bank 7 in a state, a millisecond after reset. -/
def vaulted (b : VBank) (rs : List BankReq) : State :=
  let s := updMem (later base) fun m => { m with reqs := rs }
  { s with hbm := { s.hbm with vbanks := [(7, b)] } }
/-- A request of core 0 for row 3 of a bank. -/
def req9 (vault : Bool) (bank : Nat) : BankReq := { id := 9, vault := vault, die := 0, bank := bank, row := 3, core := 0, t := 0 }
/-- HBM4E bank 1023 of die 0 in a state, with that request, in the first window. -/
def banked (b : Bank) : State :=
  let s := updMem base fun m => { m with reqs := [req9 false 1023] }
  { s with hbm := { s.hbm with banks := [(1023, b)], thr := [(0, 2)] } }

theorem witness_BanksSleepWakeAlertAndRefresh_vault :
    (∃ b s, (vbankOf s b).asleep = false ∧ (vbankOf s b).wakeAt = none ∧ (vbankOf s b).idle ≠ 0 ∧ (vbankOf s b).last + (vbankOf s b).idle = nowNs s) ∧
    (∃ b s n, (vbankOf s b).wakeAt = some n ∧ n = nowNs s) ∧
    (∀ z : Bool, ∃ id s r n, (s.mem.reqs.find? fun r => r.id = id) = some r ∧ r.replay = some n ∧ n = nowNs s ∧ (vbankOf s r.bank).asleep = z ∧
      (vbankOf s r.bank).wakeAt = none ∧ heldAt s r.die < 16) :=
  ⟨⟨7, vaulted { last := 2000000 - 50000 } [], (by decide +kernel)⟩, ⟨7, vaulted { asleep := true, wakeAt := some 2000000 } [], 2000000, (by decide +kernel)⟩,
   fun z => match z with
    | true => ⟨9, vaulted { asleep := true } [{ req9 true 7 with replay := some 2000000 }], { req9 true 7 with replay := some 2000000 }, 2000000, (by decide +kernel)⟩
    | false => ⟨9, vaulted {} [{ req9 true 7 with replay := some 2000000 }], { req9 true 7 with replay := some 2000000 }, 2000000, (by decide +kernel)⟩⟩

theorem witness_BanksSleepWakeAlertAndRefresh_hbm :
    (∀ k : Fin 5, ∃ die bank s r rs, mgetD s.hbm.win die 0 = windowNo s ∧ bankReqs s die bank = r :: rs ∧ (bankOf s die bank).blockedTo = none ∧
      (let b := bankOf s die bank
       let n := mgetD b.cnt r.row 0 + 1
       let thr := mgetD s.hbm.thr die 1024
       let free := b.refreshTo ≤ nowNs s ∧ b.alerted ≠ some r.id
       let above := b.openRow ≠ some r.row ∧ thr ≠ 0 ∧ n = thr
       k = 0 ∧ free ∧ b.openRow = some r.row ∨ k = 1 ∧ free ∧ b.openRow ≠ some r.row ∧ n = thr - 1 ∨ k = 2 ∧ free ∧ above ∨
         k = 3 ∧ b.alerted ≠ some r.id ∧ above ∧ nowNs s < b.refreshTo ∨ k = 4 ∧ b.refreshTo ≤ nowNs s ∧ b.alerted = some r.id)) ∧
    (∃ die bank s r rs e, mgetD s.hbm.win die 0 = windowNo s ∧ bankReqs s die bank = r :: rs ∧
      (bankOf s die bank).blockedTo = some e ∧ e = nowNs s ∧ keysRise 0 (bankOf s die bank).cnt = true) ∧
    (∃ die bank s, (bankOf s die bank).blockedTo = none ∧ (bankOf s die bank).alerted = none ∧ (bankOf s die bank).refreshTo = nowNs s) ∧
    (∃ die bank pa s, (bankOf s die bank).blockedTo = none ∧ (bankOf s die bank).alerted = none ∧ (bankOf s die bank).refreshTo = nowNs s ∧
      (bankOf s die bank).scrubFinds = some (pa, true) ∧ (∃ row, hbmPlace s pa = some (die, bank, row)) ∧
      mget s.mem.hcache (pa / 64) ≠ some false) ∧
    (∃ die bank s, (bankOf s die bank).blockedTo ≠ none) ∧ (∃ die bank s, (bankOf s die bank).alerted ≠ none) ∧
    (∃ die bank s, nowNs s < (bankOf s die bank).refreshTo) ∧
    (∃ s : State, mgetD s.hbm.win 0 0 ≠ windowNo s) :=
  ⟨fun k => match k with
    | 0 => ⟨0, 1023, banked { openRow := some 3 }, req9 false 1023, [], (by decide +kernel)⟩
    | 1 => ⟨0, 1023, banked { openRow := some 2 }, req9 false 1023, [], (by decide +kernel)⟩
    | 2 => ⟨0, 1023, banked { cnt := [(3, 1)] }, req9 false 1023, [], (by decide +kernel)⟩
    | 3 => ⟨0, 1023, banked { cnt := [(3, 1)], refreshTo := 1 }, req9 false 1023, [], (by decide +kernel)⟩
    | 4 => ⟨0, 1023, banked { cnt := [(3, 1)], alerted := some 9 }, req9 false 1023, [], (by decide +kernel)⟩,
   ⟨0, 1023, banked { cnt := [(3, 1)], blockedTo := some 0 }, req9 false 1023, [], 0, (by decide +kernel)⟩, ⟨0, 1023, base, (by decide +kernel)⟩,
   ⟨7, 1023, 2 ^ 38 - 1, { base with hbm := { base.hbm with banks := [(8191, { scrubFinds := some (2 ^ 38 - 1, true) })] } },
     (by decide +kernel), (by decide +kernel), (by decide +kernel), (by decide +kernel), ⟨32767, (by decide +kernel)⟩, (by decide +kernel)⟩, ⟨0, 1023, banked { blockedTo := some 0 }, (by decide +kernel)⟩,
   ⟨0, 1023, banked { alerted := some 9 }, (by decide +kernel)⟩, ⟨0, 1023, banked { refreshTo := 1 }, (by decide +kernel)⟩,
   ⟨{ base with time := 84 * 32000000 }, (by decide +kernel)⟩⟩

/-- Half of the lanes wait at a higher PC, and the starvation counter is at its end; perhaps in serial mode. -/
def starved (serial : Bool) : State := updThr base 0 0 fun t =>
  { (List.range 8).foldl (fun t l => updLane t l fun n => { n with pc := 0x40200 }) ((List.range 16).foldl (fun t l => updLane t l fun n => { n with pc := 0x40100 }) t) with
    starve := 2048, serial := serial, running := 31 }
/-- Wattle 0 is outside the active set. -/
def outside : State := updThr base 0 0 fun t => { t with slot := none, readySince := 0 }
/-- A basket of 32 threads with 8 registers each that has proofed for its time. -/
def proofed : State := updGrp base 0 fun g => { g with baskets := [(7, { key := 0x40000, threads := List.replicate 32 (List.replicate 8 (1, false)), elapsed := 2 ^ 32 })] }
/-- The wattle waits first for a block. -/
def queueing : State := updGrp (held base .regacq (.regacq (fcsr 1))) 0 fun g => { g with regq := [(0, 1)] }
/-- The wattle waits for the footprint table since reset. -/
def full4 : State := later (held base .footprint (.cpyj (f3 0 0)))

theorem witness_ThreadsAreScheduled :
    (∃ c w s ph, canIssue s c w = true ∧ fairDue (thrOf s c w) = true ∧
      maxPc ((voters (meetRelease (thrOf s c w))).map fun l => (laneOf (meetRelease (thrOf s c w)) l).pc) = some ph) ∧
    (∃ c w s, canIssue s c w = true ∧ rotateDue (thrOf s c w) = true) ∧
    (∃ c s k w, (coreOf s c).group.isSome = true ∧ freePlace (noteReady s c) c = some k ∧ longestReady (noteReady s c) c = some w) ∧
    (∃ c b s g bk, (coreOf s c).group = some g ∧ mget g.baskets b = some bk ∧ (coreOf s c).proof.toNat ≤ bk.elapsed ∧ g.st = .running ∧
      keysRise 0 g.baskets = true ∧ bk.threads.length = 32 ∧ (∀ th ∈ bk.threads, th.length = 8)) ∧
    (∃ c s w m rest x o s', (grpOf s c).st = .running ∧ (grpOf s c).regq = (w, m) :: rest ∧ grantBlocks s c w m = some s' ∧
      (∀ e ∈ rest, e.1 ≠ w) ∧ (coreOf s c).group.isSome = true ∧ (thrOf s c w).hold = some o ∧ o.instr = .regacq x) ∧
    (∃ c n s o x, (thrOf s c n).hold = some o ∧ o.why = .footprint ∧ o.instr.form = some x ∧ o.t0 + 4000 ≤ nowNs s) :=
  ⟨⟨0, 0, starved false, 0x40200, (by decide +kernel)⟩, ⟨0, 0, starved true, (by decide +kernel)⟩, ⟨0, outside, 0, 0, (by decide +kernel)⟩,
   ⟨0, 7, proofed, _, _, some_get (by decide +kernel), some_get (by decide +kernel), (by decide +kernel)⟩,
   ⟨0, queueing, 0, 1, [], fcsr 1, _, _, (by decide +kernel), (by decide +kernel), some_get (by decide +kernel), (by decide +kernel), (by decide +kernel), some_get (by decide +kernel), rfl⟩,
   ⟨0, 0, full4, _, f3 0 0, some_get (by decide +kernel), (by decide +kernel)⟩⟩

/-! ### Queues, grids, heat -/

/-- A valid launch record: both entries 0x40000, one group, one wattle, 8 blocks, completion record at c. -/
def launchRec (heat c : Nat) : List Byte :=
  natLe 8 0x40000 ++ natLe 8 0x40000 ++ natLe 4 1 ++ natLe 4 1 ++ natLe 4 1 ++ natLe 1 1 ++ natLe 1 8 ++ natLe 1 0 ++ natLe 1 heat ++ natLe 32 0 ++ natLe 8 c ++ natLe 184 0
/-- Queue 63 is enabled and supervisor, with one packet whose record lies at va, and this head. -/
def queued (h : Head) (va : Nat) (rec' : List Byte) : State :=
  let s := poke base 0x70000 rec'
  { s with disp := { s.disp with queues := [(63, { ctl := 0x900000000, packets := [{ va := va }], head := h })] } }
/-- A grid of that record that deals from queue 63. -/
def dealGrid (d : Bool) (n : Nat) : Grid :=
  { rec' := { bytes := launchRec 0 0x60000 }, va := 0x70000, queue := 63, asid := 0, part := 0, super := true, parent := none, dealing := d, nextPos := n, left := !d }
/-- It is grid 5. -/
def gridded (h : Head) (d : Bool) (n : Nat) : State :=
  let s := queued h 0x70000 (launchRec 0 0x60000)
  { s with disp := { s.disp with grids := [(5, dealGrid d n)] } }
/-- No logical core. -/
def coreless (s : State) : State := { s with xl := { s.xl with l2p := [] } }

/-- What a record is worth to its queue. -/
def badB (s : State) (q va : Nat) : Option (Nat × List Byte) := match validate s q va with
  | .bad off b true _ => some (off, b)
  | _ => none
def goodB (s : State) (q va : Nat) : Option Rec := match validate s q va with
  | .ok rc => some rc
  | _ => none

theorem bad_with {s : State} {q va : Nat} {P : Nat × List Byte → Bool} (h : (badB s q va).any P = true) :
    ∃ off b p, validate s q va = .bad off b true p ∧ P (off, b) = true := by
  unfold badB at h
  split at h
  · exact ⟨_, _, _, ‹_›, h⟩
  · cases h

theorem good_with {s : State} {q va : Nat} {P : Rec → Bool} (h : (goodB s q va).any P = true) : ∃ rc, validate s q va = .ok rc ∧ P rc = true := by
  unfold goodB at h
  split at h
  · exact ⟨_, ‹_›, h⟩
  · cases h

/-- The completion address of a record translates to memory. -/
def complB (s : State) (q : Nat) (b : List Byte) : Bool :=
  match queueXlate s (queueOf s q).part (queueOf s q).asid (queueOf s q).super .write (leAt b 0x40 8) with
  | .ok (pa, _) => plainB pa
  | .error _ => false

theorem compl_of {s : State} {q : Nat} {b : List Byte} (h : complB s q b = true) : ∃ pa a,
    queueXlate s (queueOf s q).part (queueOf s q).asid (queueOf s q).super .write (leAt b 0x40 8) = .ok (pa, a) ∧ ∀ o, regionOf pa ≠ .reg o := by
  unfold complB at h
  split at h
  · exact ⟨_, _, ‹_›, plain_of h⟩
  · cases h

/-- Queue 63 has its 256 packets. -/
def crowded : State :=
  { base with disp := { base.disp with queues := [(63, { ctl := 0x900000000, packets := List.replicate 256 { va := 0x70000 }, head := .fresh })] } }
/-- An earlier doorbell is still to be acted on. -/
def belled : State := { base with disp := { base.disp with bells := [{ queue := 0, nbytes := 8, v := 0, mark := 0 }] } }

theorem witness_QueuesAndGrids_bells :
    (∃ s : State, s.disp.bells ≠ []) ∧
    (∃ (q n : Nat) (v : DWord) (s : State), s.disp.bells = [] ∧ bellReady s { queue := q, nbytes := n, v := v, mark := s.nextId } = true ∧ n = 8 ∧
      v.toNat % 64 = 0 ∧ v.toNat < 2 ^ 52 ∧ (queueOf s q).ctl.getLsbD 32 = true ∧ (queueOf s q).packets.length < 256) ∧
    (∃ (q n : Nat) (v : DWord) (s : State), s.disp.bells = [] ∧ bellReady s { queue := q, nbytes := n, v := v, mark := s.nextId } = true ∧ n = 4 ∧
      (queueOf s q).ctl.getLsbD 32 = false) ∧
    (∃ (q n : Nat) (v : DWord) (s : State), s.disp.bells = [] ∧ bellReady s { queue := q, nbytes := n, v := v, mark := s.nextId } = true ∧ n = 8 ∧
      v = 0x10000000000000 ∧ (queueOf s q).packets.length = 256) :=
  ⟨⟨belled, (by decide +kernel)⟩, ⟨63, 8, 0x70000, queued .fresh 0x70000 [], (by decide +kernel)⟩, ⟨0, 4, 0, base, (by decide +kernel)⟩, ⟨63, 8, 0x10000000000000, crowded, (by decide +kernel)⟩⟩

theorem witness_QueuesAndGrids_records :
    (∃ q s p ps, s.disp.bells = [] ∧ s.disp.cancels = [] ∧ (queueOf s q).packets = p :: ps ∧ (queueOf s q).head = .fresh ∧ validate s q p.va = .unreadable) ∧
    (∃ q s p ps off b pois, s.disp.bells = [] ∧ s.disp.cancels = [] ∧ (queueOf s q).packets = p :: ps ∧ (queueOf s q).head = .fresh ∧ validate s q p.va = .bad off b true pois ∧
      complB s q b = true) ∧
    (∃ q s p ps rc, s.disp.bells = [] ∧ s.disp.cancels = [] ∧ (queueOf s q).packets = p :: ps ∧ (queueOf s q).head = .fresh ∧ validate s q p.va = .ok rc ∧
      (placeable s (queueOf s q).part (leAt rc.bytes 0x1F 1) ((leAt rc.bytes 0x28 1).testBit 0) && recFoots rc.bytes = [] &&
        !complWaits s (queueOf s q).part (queueOf s q).asid (leAt rc.bytes 0x40 8)) = true ∧ p.parent = none) ∧
    (∃ q s p ps rc, s.disp.bells = [] ∧ s.disp.cancels = [] ∧ (queueOf s q).packets = p :: ps ∧ (queueOf s q).head = .fresh ∧ validate s q p.va = .ok rc ∧
      (!placeable s (queueOf s q).part (leAt rc.bytes 0x1F 1) ((leAt rc.bytes 0x28 1).testBit 0) && complB s q rc.bytes &&
        !complWaits s (queueOf s q).part (queueOf s q).asid (leAt rc.bytes 0x40 8)) = true) :=
  ⟨⟨63, queued .fresh 0xFFFFFFFFFFF00 [], { va := 0xFFFFFFFFFFF00 }, [], (by decide +kernel)⟩,
   (bad_with (s := queued .fresh 0x70000 (launchRec 4 0x60000)) (q := 63) (va := 0x70000)
      (P := fun p => complB (queued .fresh 0x70000 (launchRec 4 0x60000)) 63 p.2) (by decide +kernel)).elim fun off h => h.elim fun b h => h.elim fun p h =>
      ⟨63, queued .fresh 0x70000 (launchRec 4 0x60000), { va := 0x70000 }, [], off, b, p, rfl, rfl, (by decide +kernel), (by decide +kernel), h⟩,
   (good_with (s := queued .fresh 0x70000 (launchRec 3 0x60000)) (q := 63) (va := 0x70000) (P := fun rc => placeable (queued .fresh 0x70000 (launchRec 3 0x60000))
      (queueOf (queued .fresh 0x70000 (launchRec 3 0x60000)) 63).part (leAt rc.bytes 0x1F 1) ((leAt rc.bytes 0x28 1).testBit 0) && recFoots rc.bytes = [] &&
      !complWaits (queued .fresh 0x70000 (launchRec 3 0x60000)) (queueOf (queued .fresh 0x70000 (launchRec 3 0x60000)) 63).part
        (queueOf (queued .fresh 0x70000 (launchRec 3 0x60000)) 63).asid (leAt rc.bytes 0x40 8)) (by decide +kernel)).elim
      fun rc h => ⟨63, queued .fresh 0x70000 (launchRec 3 0x60000), { va := 0x70000 }, [], rc, rfl, rfl, (by decide +kernel), (by decide +kernel), h.1, h.2, rfl⟩,
   (good_with (s := coreless (queued .fresh 0x70000 (launchRec 3 0x60000))) (q := 63) (va := 0x70000) (P := fun rc =>
      !placeable (coreless (queued .fresh 0x70000 (launchRec 3 0x60000))) (queueOf (coreless (queued .fresh 0x70000 (launchRec 3 0x60000))) 63).part (leAt rc.bytes 0x1F 1)
        ((leAt rc.bytes 0x28 1).testBit 0) && complB (coreless (queued .fresh 0x70000 (launchRec 3 0x60000))) 63 rc.bytes &&
      !complWaits (coreless (queued .fresh 0x70000 (launchRec 3 0x60000))) (queueOf (coreless (queued .fresh 0x70000 (launchRec 3 0x60000))) 63).part
        (queueOf (coreless (queued .fresh 0x70000 (launchRec 3 0x60000))) 63).asid (leAt rc.bytes 0x40 8)) (by decide +kernel)).elim
      fun rc h => ⟨63, coreless (queued .fresh 0x70000 (launchRec 3 0x60000)), { va := 0x70000 }, [], rc, rfl, rfl, (by decide +kernel), (by decide +kernel), h⟩⟩

/-- A millisecond count after reset. -/
def afterMs (n : Nat) (s : State) : State := { s with time := 84 * 1000000 * n }

theorem witness_QueuesAndGrids_grids :
    (∃ (q : Nat) (v : DWord) (s : State) (n : Nat) (g : Grid), v.getLsbD 0 = true ∧ (queueOf s q).head = .dealing n ∧ mget s.disp.grids n = some g) ∧
    (∃ q s n t0 cls, (queueOf s q).head = .ready n t0 cls ∧ cls = 1 ∧ t0 + 4000000 = nowNs s) ∧
    (∃ s : State, (∀ g ∈ s.disp.grids, g.2.regain = none) ∧ s.time % 8400 = 0 ∧ s.disp.selected ≠ nowNs s ∧ (dealing s).length < 8 ∧
      ∃ e ∈ s.disp.queues, ∃ n t0 cls, e.2.head = .ready n t0 cls) ∧
    (∃ s n g c, s.disp.grids = [(n, g)] ∧ g.dealing = true ∧ g.regain = none ∧ g.again = [] ∧ gridTeam g = false ∧ undealt g = true ∧
      placeFor s g false = some c) ∧
    (∃ s p t0 n g c, s.fw.hotSince = [(p, t0)] ∧ p < 4 ∧ t0 + 2000000 = nowNs s ∧ s.disp.grids = [(n, g)] ∧ g.dealing = true ∧
      g.part = p ∧ gridPrio g ≠ 3 ∧ g.again = [] ∧ gridTeam g = false ∧ undealt g = true ∧ placeFor s g true = some c) ∧
    (∃ s n g, mget s.disp.grids n = some g ∧ keysRise 0 s.disp.grids = true ∧ (g.left || g.cancelled) = true ∧ g.dealing = false ∧
      undealt g = false ∧ g.live = 0 ∧ g.btes = 0 ∧ complWaits s g.part g.asid (leAt g.rec'.bytes 0x40 8) = false ∧ g.part = (queueOf s 63).part ∧ g.asid = (queueOf s 63).asid ∧ g.super = (queueOf s 63).super ∧
      complB s 63 g.rec'.bytes = true) :=
  ⟨⟨63, 1, gridded (.dealing 5) true 0, 5, dealGrid true 0, (by decide +kernel)⟩,
   ⟨63, afterMs 5 (gridded (.ready 5 1000000 1) false 0), 5, 1000000, 1, (by decide +kernel)⟩,
   ⟨afterMs 5 (gridded (.ready 5 1000000 1) false 0), (by decide +kernel), (by decide +kernel), (by decide +kernel), (by decide +kernel), _, List.mem_singleton.2 rfl, 5, 1000000, 1, (by decide +kernel)⟩,
   ⟨gridded (.dealing 5) true 0, 5, dealGrid true 0, _, (by decide +kernel), rfl, rfl, rfl, (by decide +kernel), (by decide +kernel), some_get (by decide +kernel)⟩,
   ⟨{ afterMs 2 (gridded (.dealing 5) true 0) with fw := { base.fw with hotSince := [(0, 0)] } }, 0, 0, 5, dealGrid true 0, _, (by decide +kernel), (by decide +kernel), (by decide +kernel), (by decide +kernel), rfl, rfl, (by decide +kernel), rfl,
      (by decide +kernel), (by decide +kernel), some_get (by decide +kernel)⟩,
   ⟨gridded .fresh false 1, 5, dealGrid false 1, (by decide +kernel)⟩⟩

/-- Core 0 is hot, the others cold. -/
def heated (v : Nat) : State := { base with cols := [(0, { temp := v, hotSince := some 0 })] }
/-- Queue 0 has BOOST. -/
def boosting : State :=
  let s := { base with fw := { base.fw with pol := [(0x13, 1)] } }
  { s with time := 336000 }

/-- Every core of die 0 is retired. -/
def retiredDie (s : State) : State := { s with xl := { s.xl with enabled := s.xl.enabled.set 0 0 } }

theorem witness_HeatAndBoost :
    (∃ (rs : List (Nat × Nat)) (s : State), (rs.map (·.1)).Nodup ∧ (335, 65535) ∈ rs ∧ (0, 0) ∈ rs ∧ sampleDue s = true) ∧
    (∃ s : State, sampleDue s = false) ∧
    (∀ b : Bool, ∃ c s g, (coreOf s c).group = some g ∧ g.st = .running ∧ g.team = none ∧ policyHeld s 0x18 = 1 ∧ s.fw.alive = true ∧
      atLimit s 0x11 c = true ∧ g.migrateAt ≤ nowNs s ∧ (logCores (without s c) g.part).any (eligibleCore (without s c) g.part g.heat) = b ∧
      coreEnabled s c = true) ∧
    (∃ c s g, (coreOf s c).group = some g ∧ g.st = .running ∧ g.team = none ∧ coreEnabled s c = false) ∧
    (∃ q s c t0, c ∈ coresOf q ∧ (mgetD s.cols c {}).hotSince = some t0 ∧ t0 + 1000000 = nowNs s) ∧
    (∃ s q, s.time % 336000 = 0 ∧ q < 84 ∧ claims s q = false) ∧
    (∃ s q, s.time % 336000 = 0 ∧ q < 84 ∧ claims s q = true ∧ s.fw.alive = true ∧ nowNs s / 4000 % 8 ≠ 0 ∧ 21 ≤ (mgetD s.dboost (q / 21) {}).pool) :=
  ⟨⟨[(0, 0), (335, 65535)], afterMs 1 base, (by decide +kernel)⟩, ⟨base, (by decide +kernel)⟩,
   fun b => match b with
    | true => ⟨0, heated (8 * 97), _, some_get (by decide +kernel), (by decide +kernel)⟩
    | false => ⟨0, coreless (heated (8 * 97)), _, some_get (by decide +kernel), (by decide +kernel)⟩,
   ⟨0, retiredDie base, _, some_get (by decide +kernel), (by decide +kernel)⟩,
   ⟨0, afterMs 1 (heated (8 * 105)), 0, 0, (by decide +kernel)⟩, ⟨base, 83, (by decide +kernel)⟩, ⟨boosting, 0, (by decide +kernel)⟩⟩

/-! ### Links, resets, errors, firmware -/

/-- Port 11 in a state. -/
def ported (p : Port) : State := { base with link := { base.link with ports := [(11, p)] } }
/-- A reset under way. -/
def resetting (r : RstUnit) : State := { base with resets := [r] }

theorem all_moves {s : State} {P : Nat → Prop} (h : s.xl.moves = []) : ∀ m ∈ s.xl.moves, ∀ d, m.dst = some d → P d := by
  rw [h]
  simp

theorem witness_LinksAndRegisters :
    (∃ (p : Nat) (s : State), inReset s 3 p = false ∧ inReset s 7 0 = false) ∧ (∃ (p : Nat) (s : State), inReset s 3 p = true) ∧
    (∃ (p lanes peer : Nat) (s : State), (mgetD s.link.ports p {}).en = true ∧ (mgetD s.link.ports p {}).st = 1 ∧ lanes = 4 ∧ peer = 1023) ∧
    (∃ (p lanes peer : Nat) (s : State), (mgetD s.link.ports p {}).en = true ∧ (mgetD s.link.ports p {}).st = 1 ∧ lanes = 1 ∧ peer = 0) ∧
    (∃ (s : State) (a : Act), a ∈ s.agenda ∧ ∀ i, a ≠ .ev i) ∧
    (∀ b : Bool, ∃ (p : Nat) (v : DWord) (s : State), p < 4 ∧ s.xl.parts.length = 4 ∧ partOk s p (v &&& 0x1FFF#64) = b) ∧
    (∃ v : DWord, nbits v.toNat 23 9 + nbits v.toNat 14 9 = 289) ∧
    (∃ (v : DWord) (s : State), nbits v.toNat 23 9 + nbits v.toNat 14 9 = 288 ∧ aboveQuota s (nbits v.toNat 23 9) = [] ∧
      ∀ m ∈ s.xl.moves, ∀ d, m.dst = some d → 288 - nbits v.toNat 23 9 ≤ d % 288) ∧
    (∃ (v : DWord) (s : State), nbits v.toNat 23 9 + nbits v.toNat 14 9 = 288 ∧ aboveQuota s (nbits v.toNat 23 9) ≠ []) ∧
    (∃ (off : Nat) (s : State), inReset s 7 0 = false ∧ off % 8 ≠ 0 ∧ off < 0x100000 + 4096 * 63 + 8 ∧ 0x100000 + 4096 * 63 < off + 8) ∧
    (∃ s : State, inReset s 7 0 = false) ∧ (∃ (p : Nat) (s : State), partIdle s p = true) :=
  ⟨⟨11, base, (by decide +kernel)⟩, ⟨11, resetting { kind := 3, unit := 11, t := 5 }, (by decide +kernel)⟩,
   ⟨11, 4, 1023, ported { en := true, st := 1 }, (by decide +kernel)⟩, ⟨11, 1, 0, ported { en := true, st := 1 }, (by decide +kernel)⟩,
   ⟨State.reset.withFetchWord 96 0, _, List.mem_singleton.2 rfl, fun i e => (by cases e)⟩,
   fun b => match b with
    | true => ⟨0, 0x1FFF, State.reset, (by decide +kernel)⟩
    | false => ⟨1, 0x1001, State.reset, (by decide +kernel)⟩,
   ⟨0x90004000, (by decide +kernel)⟩, ⟨0x90000000, base, (by decide +kernel), (by decide +kernel), all_moves (by decide +kernel)⟩,
   ⟨0x00480000, { base with xl := { base.xl with inVault := [(6, 5)] } }, (by decide +kernel)⟩, ⟨0x100000 + 4096 * 63 + 7, base, (by decide +kernel)⟩, ⟨base, (by decide +kernel)⟩, ⟨3, base, (by decide +kernel)⟩⟩

theorem witness_ResetsBeginAndEnd :
    (∃ i kind unit s, resetOf i = some (kind, unit) ∧ mailFree s = false) ∧
    (∃ i kind unit s, resetOf i = some (kind, unit) ∧ mailFree s = true ∧ resetUnit s kind unit = none) ∧
    (∀ b : Bool, ∃ i kind unit s u, resetOf i = some (kind, unit) ∧ mailFree s = true ∧ resetUnit s kind unit = some u ∧
      (s.resets.any fun r => covers s r kind u) = b) ∧
    (∃ (kind unit : Nat) (s : State) (r : RstUnit), (s.resets.find? fun r => r.kind = kind && r.unit = unit && decide (r.t ≤ nowNs s)) = some r ∧ r.mailbox = true) :=
  ⟨⟨.packageReset, 7, 0, { base with fw := { base.fw with alive := false } }, rfl, (by decide +kernel)⟩,
   ⟨.memoryDieReset 8, 5, 8, base, rfl, (by decide +kernel)⟩,
   fun b => match b with
    | true => ⟨.engineReset 79, 1, 79, resetting { kind := 4, unit := 3, t := 5 }, 82, rfl, (by decide +kernel)⟩
    | false => ⟨.computeDieReset 3, 4, 3, base, 3, rfl, (by decide +kernel)⟩,
   ⟨3, 11, resetting { kind := 3, unit := 11, t := 0, mailbox := true }, { kind := 3, unit := 11, t := 0, mailbox := true }, (by decide +kernel)⟩⟩

/-- A detection left to report. -/
def injecting (n : Nat) : State := { base with fw := { base.fw with einj := 1, einjLeft := some (n, 0) } }
/-- Array slots retired on quad 0. -/
def retired (l : List Nat) : State := eng0 base fun e => { e with retired := l }

theorem witness_ErrorsRetireAndContain :
    (∃ (u : Nat) (s : State), mailFree s = true ∧ 11 < u % 16) ∧
    (∃ u s q, mailFree s = true ∧ quadNo s (u / 16) = some q ∧ u % 16 = 11 ∧ u % 16 ∈ (engOf s q).retired) ∧
    (∃ u s q, mailFree s = true ∧ quadNo s (u / 16) = some q ∧ u % 16 = 11 ∧ outOfService (engOf s q) = false ∧ u % 16 ∉ (engOf s q).retired) ∧
    (∃ u s c, mailFree s = true ∧ coreNo s u = some c ∧ c < 336 ∧ s.xl.good.length = 4 ∧ s.xl.enabled.length = 4 ∧ coreRetired s c = false) ∧
    (∃ (c : Nat) (s : State), c < 336 ∧ coreFree s c = true ∧ policy s 0x19 ≠ 0 ∧
      (∀ t0, (coreOf s c).tested = some t0 → t0 + policy s 0x19 * 1000000 ≤ nowNs s) ∧ s.xl.good.length = 4 ∧ s.xl.enabled.length = 4) ∧
    (∃ (u : Nat) (s : State) (c a syn : Nat), coreNo s u = some c ∧ a.testBit 31 = false ∧ a.testBit 30 = false ∧ mhas s.thrs (tkey c (nbits a 16 5)) = true ∧
      mhas s.thrs (tkey c (a % 32)) = true ∧ syn = 3) ∧
    (∃ (u a : Nat) (s : State), u = 4 ∧ mget s.mem.hcache (a / 64) ≠ some false) ∧
    (∃ (v : DWord) (s : State), ¬ (s.fw.einj.getLsbD 0 = true ∨ nbits v.toNat 24 8 = 0 ∨ 16 < nbits v.toNat 24 8 ∨ nbits v.toNat 16 8 = 0 ∨
      unitOk s (nbits v.toNat 24 8) (nbits v.toNat 32 16) = false)) ∧
    (∃ (v : DWord) (s : State), s.fw.einj.getLsbD 0 = false ∧ nbits v.toNat 24 8 = 17) ∧
    (∃ (s : State) (n t0 : Nat), s.fw.einjLeft = some (n, t0) ∧ t0 = nowNs s ∧ n = 1) :=
  ⟨⟨12, base, (by decide +kernel)⟩, ⟨11, retired [11], 0, (by decide +kernel)⟩, ⟨11, retired [10], 0, (by decide +kernel)⟩, ⟨319, base, 331, (by decide +kernel)⟩,
   ⟨335, base, (by decide +kernel), (by decide +kernel), (by decide +kernel), all_some (by decide +kernel), (by decide +kernel)⟩,
   ⟨0, base, 0, 0, 3, (by decide +kernel)⟩, ⟨4, 0x60000, base, (by decide +kernel)⟩, ⟨0x01FF0001, base, (by decide +kernel)⟩, ⟨0x11FF0001, base, (by decide +kernel)⟩, ⟨injecting 1, 1, 0, (by decide +kernel)⟩⟩

/-- The mailbox has these arguments. -/
def mailed (a b : DWord) : State := { base with fw := { base.fw with arg0 := a, arg1 := b } }
/-- The leaf counters. -/
def leaved (n : Nat) : State := { base with fw := { base.fw with arg0 := 0x60000, arg1 := 0x70000, leaf0 := n, leaf4 := n - 1 } }

/-- An ATTEST has committed leaf 0, and its report is due at t ns. -/
def attested (t : Nat) : State :=
  { base with fw := { base.fw with cmd := some (3, 0, 0), leaf0 := 1, leaf4 := 1
                                   att := some { leaf := 0, out := 0x60000, nonce := (natLe 32 0).map fun b => (b, false), due := t } } }

theorem witness_FirmwareCommands :
    (∀ b : Bool, ∃ s, mailFree s = true ∧ policyOk s s.fw.arg0.toNat s.fw.arg1.toNat = b) ∧
    (∃ s, mailFree s = true ∧ s.fw.arg1.toNat = 4095) ∧
    (∃ s : State, mailFree s = true ∧ s.fw.arg1.toNat = 4096 ∧ rangeDown s s.fw.arg0.toNat s.fw.arg1.toNat = true) ∧
    (∃ s bs, mailFree s = true ∧ s.fw.arg1.toNat = 4096 ∧ rangeDown s s.fw.arg0.toNat s.fw.arg1.toNat = false ∧
      mailRead (updFw s fun f => { f with cmd := some (1, 0, 0) }) s.fw.arg0.toNat s.fw.arg1.toNat = some bs) ∧
    (∃ (s : State) (im : Image), s.fw.next = some im ∧ s.time % 336000 = 0 ∧ s.fw.alive = true) ∧
    (∀ b : Bool, ∃ s nonce, mailFree s = true ∧ rangeDown s s.fw.arg0.toNat 32 = false ∧ mailRead (updFw s fun f => { f with cmd := some (3, 0, 0) }) s.fw.arg0.toNat 32 = some nonce ∧
      hostWritable s s.fw.arg1.toNat = true ∧ hostWritable s (s.fw.arg1.toNat + 3071) = true ∧ s.fw.att = none ∧
      if b then max s.fw.leaf0 s.fw.leaf4 = 2 ^ 20 - 1 else max s.fw.leaf0 s.fw.leaf4 = 2 ^ 20) ∧
    (∃ (s : State) (a : Attest), s.fw.att = some a ∧ a.due ≤ nowNs s ∧ s.fw.alive = true) ∧
    (∃ (s : State) (a : Attest), s.fw.att = some a ∧ nowNs s < a.due) ∧
    (∃ s : State, s.fw.alive = false ∧ s.fw.standby = false) :=
  ⟨fun b => match b with
    | true => ⟨mailed 0x10 96, (by decide +kernel)⟩
    | false => ⟨mailed 0x10 97, (by decide +kernel)⟩,
   ⟨mailed 0 4095, (by decide +kernel)⟩, ⟨{ mailed 0x60000 4096 with resets := [{ kind := 5, unit := 0, t := 5 }] }, (by decide +kernel)⟩,
   ⟨mailed 0x60000 4096, _, (by decide +kernel), (by decide +kernel), (by decide +kernel), some_get (by decide +kernel)⟩,
   ⟨{ base with fw := { base.fw with next := some { version := 1, svn := 0, digest := [] } } }, _, rfl, (by decide +kernel)⟩,
   fun b => match b with
    | true => ⟨leaved (2 ^ 20 - 1), _, (by decide +kernel), (by decide +kernel), some_get (by decide +kernel), (by decide +kernel), (by decide +kernel), rfl, (by decide +kernel)⟩
    | false => ⟨leaved (2 ^ 20), _, (by decide +kernel), (by decide +kernel), some_get (by decide +kernel), (by decide +kernel), (by decide +kernel), rfl, (by decide +kernel)⟩,
   ⟨attested 0, _, rfl, (by decide +kernel)⟩, ⟨attested 1, _, rfl, (by decide +kernel)⟩,
   ⟨{ base with fw := { base.fw with alive := false } }, (by decide +kernel)⟩⟩

/-! ### Decoding and the step -/

theorem ok_with {e : Except Reject Instr} {P : Instr → Bool} (h : (okOf e).any P = true) : ∃ i, e = .ok i ∧ P i = true := by
  cases e with
  | ok i => exact ⟨i, rfl, h⟩
  | error x => cases h

theorem witness_DecodeInvertsEncode :
    (∃ (st : Stream) (i : Instr), i.wellFormed st = true ∧ i.form.isSome = true) ∧ (∃ st w i, decode st true w = .ok i ∧ i.form.isSome = true) :=
  ⟨⟨.wattle, .iadd (fm 0 (r 255) (r 254) (pr 7) 0), (by decide +kernel)⟩, (ok_with (e := decode .wattle true 0x0000000C0010C003FFFFFEC0) (P := fun i => i.form.isSome) (by decide +kernel)).elim fun i h =>
    ⟨.wattle, 0x0000000C0010C003FFFFFEC0, i, h⟩⟩

/-- Instructions at the ends of what is privileged, and what it gives for them. -/
def privEnds : List (Instr × Option Nat) := [
  (.eret (fm 0 (r 0) (r 0) (r 0) 0), some 0), (.ckpt (fm 0 (r 2) (r 4) (r 0) 0), some 0), (.rsto (fm 0 (r 2) (r 4) (r 6) 0), some 0),
  (.tlbiAll (fm 2 (r 2) (r 0) (r 6) 0), some 0), (.parkHalt (fm 0 (r 2) (r 4) (r 0) 0), some 0), (.parkRun (fm 1 (r 2) (r 4) (r 0) 0), some 0),
  (.parkQuery (fm 2 (r 2) (r 4) (r 0) 0), some 0), (.csrw (fm 0 (r 0) (r 4) (r 0) 0x800), some 0x800), (.csrr (fm 0 (r 2) (r 0) (r 0) 0x001), none),
  (.csrr (fm 0 (r 2) (r 0) (r 0) 0x82F), some 0x82F), (.csrc (fm 0 (r 0) (r 4) (r 0) 0x841), some 0x841), (.mstat (fm 0 (r 2) (r 0) (r 0) 1), some 0), (.mstat (fm 0 (r 2) (r 0) (r 0) 0), none),
  (.basis (fm 0 (r 0) (r 4) (r 0) 1), some 0), (.basis (fm 0 (r 0) (r 4) (r 0) 2), none), (.perf (fm 0 (r 2) (r 0) (r 0) 10), some 0),
  (.perf (fm 0 (r 2) (r 0) (r 0) 11), some 0), (.perf (fm 0 (r 2) (r 0) (r 0) 9), none)]

/-- A thread of core 0 is about to be issued at 0x40000 with this word there, in supervisor or user mode. -/
def atWord (t : Nat) (super : Bool) (w : Nat) : State :=
  let s := updThr (poke base 0x40000 (natLe 12 w)) 0 t fun h => { h with sstatus := if super then h.sstatus ||| 0x10#32 else h.sstatus &&& ~~~0x10#32 }
  { s with agenda := [.set 0 t 1 0x40000 none false] }
/-- The same at an address without a page. -/
def atNowhere : State := { base with agenda := [.set 0 0 1 0x8000000000000 none false] }

theorem ok_is {ε α : Type} [BEq α] [LawfulBEq α] {e : Except ε α} {a : α} (h : (okOf e == some a) = true) : e = .ok a := by
  cases e with
  | ok b => simpa [okOf] using h
  | error e => cases h

theorem witness_DecodeInvertsEncode_modes :
    (privEnds.all fun p => decide (privileged p.1 = p.2) && ((encode p.1).any fun w => okOf (decode .wattle true w) == some p.1)) = true ∧
    (∃ s w i n rest, s.powered = true ∧ s.agenda = .set 0 0 1 0x40000 none false :: rest ∧ mhas s.thrs (tkey 0 0) = true ∧
      (thrOf s 0 0).hold = none ∧ (thrOf s 0 0).super = false ∧ privileged i = some n ∧ decode .wattle true w = .ok i ∧
      fetch { s with agenda := rest } 0 false 0x40000 = .ok w) :=
  ⟨(by decide +kernel), atWord 0 false 0xE20400080040018000000000, 0xE20400080040018000000000, _, 0, [], (by decide +kernel), (by decide +kernel), (by decide +kernel), (by decide +kernel), (by decide +kernel), rfl, ok_get (by decide +kernel), ok_is (by decide +kernel)⟩

/-- A fetched word and what decoding it gives. -/
def fetchedB (s : State) (t : Nat) (P : Except Reject Instr → Bool) : Bool :=
  match fetch { s with agenda := [] } 0 (thrOf s 0 t).super 0x40000 with
  | .ok w => P (decode (if t = feIdx then .fe else .wattle) (thrOf s 0 t).super w)
  | .error _ => false

/-- The hypotheses of the first clause for that state. -/
def stepB (s : State) (t : Nat) : Bool := s.powered && s.agenda = [.set 0 t 1 0x40000 none false] && mhas s.thrs (tkey 0 t) &&
  (thrOf s 0 t).hold.isNone

/-- Which rejection it is. -/
def rejectOf : Except Reject Instr → Option Reject
  | .error r => some r
  | .ok _ => none

/-- A rejection at step 4, and one at step 5. -/
def privB (d : Except Reject Instr) : Bool := match d with
  | .error (.priv _) => true
  | _ => false
def operandB (d : Except Reject Instr) : Bool := match d with
  | .error (.operand _) => true
  | _ => false

theorem witness_StepRunsTheDecodedInstruction :
    (atNowhere.powered = true ∧ atNowhere.agenda = [.set 0 0 1 0x8000000000000 none false] ∧ mhas atNowhere.thrs (tkey 0 0) = true ∧
      (thrOf atNowhere 0 0).hold = none ∧ (okOf (fetch { atNowhere with agenda := [] } 0 (thrOf atNowhere 0 0).super 0x8000000000000)).isNone = true) ∧
    (stepB (atWord 0 true 0x0000000C0010C003FFFFFEC0) 0 = true ∧ fetchedB (atWord 0 true 0x0000000C0010C003FFFFFEC0) 0 (fun d => (okOf d).isSome) = true) ∧
    (stepB (atWord 16 true 0xE20400080040018000000000) 16 = true ∧ fetchedB (atWord 16 true 0xE20400080040018000000000) 16 (fun d => (okOf d).isSome) = true) ∧
    (stepB (atWord 0 false 0xE20400080040018000000000) 0 = true ∧
      fetchedB (atWord 0 false 0xE20400080040018000000000) 0 (fun d => privB d) = true) ∧
    (stepB (atWord 0 true 0xC2C2100000000000006E8203) 0 = true ∧
      fetchedB (atWord 0 true 0xC2C2100000000000006E8203) 0 (fun d => operandB d) = true) ∧
    (∃ o, (thrOf (held base .tags (.nop (f3 0 0))) 0 0).hold = some o ∧ o.why = .tags ∧ o.mask = 0xFFFFFFFF ∧ o.pc = 0x40000) ∧
    (∃ o, (thrOf (held base .unissued (.nop (f3 0 0))) 0 0).hold = some o ∧ o.why = .unissued ∧ o.mask = 0xFFFFFFFF ∧ o.pc = 0x40000) ∧
    (∃ s : State, s.powered = true ∧ s.agenda = [.quad [0, 1, 2, 3]]) :=
  ⟨(by decide +kernel), (by decide +kernel), (by decide +kernel), (by decide +kernel), (by decide +kernel), ⟨_, some_get (by decide +kernel), (by decide +kernel)⟩, ⟨_, some_get (by decide +kernel), (by decide +kernel)⟩, { base with agenda := [.quad [0, 1, 2, 3]] }, (by decide +kernel)⟩

theorem witness_StepRunsTheDecodedInstruction_stream : ∃ w : Nat, stepB (atWord 16 true w) 16 = true ∧
    fetchedB (atWord 16 true w) 16 (fun d => decide (rejectOf d = some .stream)) = true := ⟨0xC2C2100000000000006E8200, (by decide +kernel)⟩

theorem witness_EveryStepKeepsTheMemoryForm : ∃ s t, s.Safe ∧ step s = .next t := ⟨base, tick base, base_safe, rfl⟩

/-! ## Single steps -/

/-- The instruction of a word is the first to run after reset. -/
def firstStep (w : Nat) : Option State := match step (State.reset.withFetchWord 96 w) with
  | .next t => some t
  | _ => none

/-- The IADD of 07 (v3 = v1 - 5) writes 0 - 5 in every lane and moves the PC by 12. -/
theorem test_step_iadd : (firstStep 0x0000000C0010C003FFFFFEC0).any (fun t =>
    (regOf (thrOf t 0 0) 31 3).cur.v = 0xFFFFFFFB ∧ (laneOf (thrOf t 0 0) 31).pc = 0x4000C) = true := by decide +kernel

/-- A word of an unassigned OPC faults (R202); without a handler the group is to end (R408). -/
theorem test_step_illegal : (firstStep (0x3FF * 2 ^ 86)).any (fun t => match (grpOf t 0).st with
    | .failing _ => true
    | _ => false) = true := by decide +kernel

/-- With no item the next tick comes (R2). -/
theorem test_step_tick : (match step base with
    | .next t => decide (0 < t.time)
    | _ => false) = true := by decide +kernel

/-- Without power there is no step (R441). -/
theorem test_step_unpowered : step { base with powered := false } = .fault .unpowered := rfl

end Sys2Proof.Tests
end

section
/-! SUPPORT of the integer and lane statements: patterns as integers, and what the machine's operations compute on one element
(R69, R234 to R246). -/

namespace Sys2Proof.Proofs

open Sys2Proof Sys2Proof.Machine Sys2Proof.Claim

/-! ## Two's complement patterns -/

theorem toSigned_eq_sgn (w v : Nat) : toSigned w v = sgn w v := rfl
theorem ofSigned_eq_wrap (w : Nat) (v : Int) : ofSigned w v = wrap w v := rfl

theorem two_pow_cast_pos (w : Nat) : (0 : Int) < ((2 ^ w : Nat) : Int) := Int.natCast_pos.2 (Nat.two_pow_pos w)

theorem natCast_wrap (w : Nat) (v : Int) : (wrap w v : Int) = v % ((2 ^ w : Nat) : Int) :=
  Int.toNat_of_nonneg (Int.emod_nonneg _ (Int.ne_of_gt (two_pow_cast_pos w)))

theorem wrap_lt (w : Nat) (v : Int) : wrap w v < 2 ^ w := by
  have hlt : (wrap w v : Int) < ((2 ^ w : Nat) : Int) := by
    rw [natCast_wrap]
    exact Int.emod_lt_of_pos v (two_pow_cast_pos w)
  exact Int.ofNat_lt.1 hlt

theorem wrap_natCast (w n : Nat) : wrap w (n : Int) = n % 2 ^ w :=
  Int.ofNat_inj.1 ((natCast_wrap w n).trans (Int.natCast_emod n (2 ^ w)).symm)

/-- Integers that agree modulo 2^w have the same pattern. -/
theorem wrap_congr {w : Nat} {a b : Int} (h : a % ((2 ^ w : Nat) : Int) = b % ((2 ^ w : Nat) : Int)) : wrap w a = wrap w b :=
  congrArg Int.toNat h

/-- The integer that a pattern stands for agrees with it modulo 2^w. -/
theorem sgn_emod (w v : Nat) : sgn w v % ((2 ^ w : Nat) : Int) = (v : Int) % ((2 ^ w : Nat) : Int) := by
  unfold sgn
  split
  · rw [Int.natCast_emod, Int.emod_emod]
  · rw [Int.sub_emod_right, Int.natCast_emod, Int.emod_emod]

theorem wrap_sgn {w a : Nat} (h : a < 2 ^ w) : wrap w (sgn w a) = a := by
  rw [wrap_congr (sgn_emod w a), wrap_natCast, Nat.mod_eq_of_lt h]

/-- The machine's words read a pattern as the statements do. -/
theorem sgn_eq_toInt {w : Nat} (hw : 0 < w) (v : Nat) : sgn w v = (BitVec.ofNat w v).toInt := by
  have hpow := Nat.two_pow_pred_mul_two hw
  have hcond : v % 2 ^ w < 2 ^ (w - 1) ↔ 2 * (v % 2 ^ w) < 2 ^ w := by omega
  rw [BitVec.toInt_eq_toNat_cond, BitVec.toNat_ofNat]
  simp only [sgn, hcond]

theorem wrap_eq_toNat (w : Nat) (v : Int) : wrap w v = (BitVec.ofInt w v).toNat := (BitVec.toNat_ofInt v).symm

theorem bot_le_sgn {w : Nat} (hw : 0 < w) (v : Nat) : bot w ≤ sgn w v := by
  have hpow := Nat.two_pow_pred_mul_two hw
  have hlt : v % 2 ^ w < 2 ^ w := Nat.mod_lt _ (Nat.two_pow_pos w)
  unfold bot sgn
  split
  · omega
  · omega

theorem sgn_le_top {w : Nat} (hw : 0 < w) (v : Nat) : sgn w v ≤ top w := by
  have hpow := Nat.two_pow_pred_mul_two hw
  have hlt : v % 2 ^ w < 2 ^ w := Nat.mod_lt _ (Nat.two_pow_pos w)
  unfold top sgn
  split
  · omega
  · omega

theorem bot_le_top (w : Nat) : bot w ≤ top w := by
  have := Nat.two_pow_pos (w - 1)
  simp only [bot, top]; omega

theorem zero_le_utop (w : Nat) : 0 ≤ utop w := by
  have := Nat.two_pow_pos w
  simp only [utop]; omega

theorem sat_lt (w : Nat) (lo hi v : Int) : (sat w lo hi v).1 < 2 ^ w := wrap_lt w _

theorem three_lt (form w : Nat) (a b : Int) : (three form w a b).1 < 2 ^ w := by
  unfold three
  split
  · exact sat_lt ..
  · split
    · exact sat_lt ..
    · exact wrap_lt ..

/-! ## The two-operand operations on one element -/

/-- The two clamped forms of a sum or difference work on the integers of that form, and the wrapped one does not depend on the
form in which the elements are read (R234, R236). -/
theorem addSub_eq_three (sub : Bool) (form w a b : Nat) : addSub sub form w a b =
    three form w (if sub then sgn w a - sgn w b else sgn w a + sgn w b) (if sub then (a : Int) - b else (a : Int) + b) := by
  have hwrap : wrap w (if sub then (a : Int) - b else (a : Int) + b) =
      wrap w (if sub then sgn w a - sgn w b else sgn w a + sgn w b) := by
    refine wrap_congr ?_
    cases sub
    · exact (by rw [Int.add_emod, ← sgn_emod w a, ← sgn_emod w b, ← Int.add_emod] :
        ((a : Int) + b) % ((2 ^ w : Nat) : Int) = (sgn w a + sgn w b) % ((2 ^ w : Nat) : Int))
    · exact (by rw [Int.sub_emod, ← sgn_emod w a, ← sgn_emod w b, ← Int.sub_emod] :
        ((a : Int) - b) % ((2 ^ w : Nat) : Int) = (sgn w a - sgn w b) % ((2 ^ w : Nat) : Int))
  unfold addSub three
  rw [ofSigned_eq_wrap, hwrap]
  split
  · exact clampTo_eq_sat (bot_le_top w)
  · split
    · exact clampTo_eq_sat (zero_le_utop w)
    · rfl

theorem mulLow_eq_wrap (w a b : Nat) : mulLow w a b = wrap w (sgn w a * sgn w b) := by
  have hmod : (sgn w a * sgn w b) % ((2 ^ w : Nat) : Int) = ((a * b : Nat) : Int) % ((2 ^ w : Nat) : Int) := by
    rw [Int.mul_emod, sgn_emod w a, sgn_emod w b, ← Int.mul_emod, Int.natCast_mul]
  rw [wrap_congr hmod, wrap_natCast, mulLow]

/-- The high half of a 2w-bit pattern is the quotient by 2^w, as a w-bit pattern (R237). -/
theorem wrap_double_div (w : Nat) (v : Int) : wrap (2 * w) v / 2 ^ w = wrap w (v / ((2 ^ w : Nat) : Int)) := by
  have hp := two_pow_cast_pos w
  have hsq : ((2 ^ (2 * w) : Nat) : Int) = ((2 ^ w : Nat) : Int) * ((2 ^ w : Nat) : Int) := by
    rw [Nat.two_mul, Nat.pow_add, Int.natCast_mul]
  have hdiv : v % (((2 ^ w : Nat) : Int) * ((2 ^ w : Nat) : Int)) / ((2 ^ w : Nat) : Int) =
      v / ((2 ^ w : Nat) : Int) % ((2 ^ w : Nat) : Int) := by
    rw [Int.emod_def, Int.emod_def, ← Int.ediv_ediv_of_nonneg (Int.le_of_lt hp), Int.mul_assoc,
      Int.sub_mul_ediv_left _ _ (Int.ne_of_gt hp)]
  refine Int.ofNat_inj.1 ?_
  rw [Int.natCast_ediv, natCast_wrap, natCast_wrap, hsq, hdiv]

theorem mulHighN_lt {w a b : Nat} (ha : a < 2 ^ w) (hb : b < 2 ^ w) : mulHighN w a b < 2 ^ w :=
  Nat.div_lt_of_lt_mul (Nat.mul_lt_mul'' ha hb)

theorem minmaxS_eq {mx : Bool} {w a b : Nat} (ha : a < 2 ^ w) (hb : b < 2 ^ w) :
    minmaxS mx w a b = wrap w (if mx then max (sgn w a) (sgn w b) else min (sgn w a) (sgn w b)) := by
  simp only [minmaxS, toSigned_eq_sgn, Int.max_def, Int.min_def]
  by_cases h : sgn w a ≤ sgn w b
  · simp only [h, if_true]
    cases mx
    · exact (wrap_sgn ha).symm
    · exact (wrap_sgn hb).symm
  · simp only [h, if_false]
    cases mx
    · exact (wrap_sgn hb).symm
    · exact (wrap_sgn ha).symm

theorem shlEl_lt (w a b : Nat) : shlEl w a b < 2 ^ w := by
  unfold shlEl
  split
  · exact Nat.two_pow_pos w
  · exact Nat.mod_lt _ (Nat.two_pow_pos w)

theorem shrlEl_lt {w a : Nat} (b : Nat) (ha : a < 2 ^ w) : shrlEl w a b < 2 ^ w := by
  unfold shrlEl
  split
  · exact Nat.two_pow_pos w
  · exact Nat.lt_of_le_of_lt (Nat.div_le_self _ _) ha

/-- Shifting a w-bit integer right by w or more leaves its sign only (R242). -/
theorem sgn_div_two_pow {w : Nat} (hw : 0 < w) (a : Nat) : sgn w a / ((2 ^ w : Nat) : Int) = if sgn w a < 0 then -1 else 0 := by
  have h1 := bot_le_sgn hw a
  have h2 := sgn_le_top hw a
  have h3 := Nat.two_pow_pred_mul_two hw
  simp only [bot, top] at h1 h2
  split
  · rw [Int.ediv_eq_iff_of_pos (two_pow_cast_pos w)]; omega
  · exact Int.ediv_eq_zero_of_lt (by omega) (by omega)

theorem shraEl_eq {w : Nat} (hw : 0 < w) (a b : Nat) :
    shraEl w a b = wrap w (if w ≤ b then (if sgn w a < 0 then -1 else 0) else sgn w a / ((2 ^ b : Nat) : Int)) := by
  unfold shraEl
  rw [ofSigned_eq_wrap, toSigned_eq_sgn, Int.shiftRight_eq_div_pow]
  split
  · rename_i h; rw [Nat.min_eq_right h, sgn_div_two_pow hw]
  · rename_i h; rw [Nat.min_eq_left (Nat.le_of_not_le h)]


/-! ## Bits of a sum of powers of two -/

/-- Adding a power of two whose bit is clear sets that bit alone. -/
theorem testBit_add_two_pow {r m : Nat} (h : r.testBit m = false) (k : Nat) : (r + 2 ^ m).testBit k = (r.testBit k || decide (m = k)) := by
  rcases Nat.lt_trichotomy k m with lt | rfl | gt
  · rw [Nat.add_comm, Nat.testBit_two_pow_add_gt lt, decide_eq_false (by omega), Bool.or_false]
  · rw [Nat.add_comm, Nat.testBit_two_pow_add_eq, h]; simp
  · have hlow : r % 2 ^ (m + 1) < 2 ^ m := Nat.lt_pow_two_of_testBit _ fun i hi => by
      rw [Nat.testBit_mod_two_pow]
      rcases Nat.eq_or_lt_of_le hi with rfl | hi
      · simp [h]
      · simp [show ¬ i < m + 1 by omega]
    have hsum : r % 2 ^ (m + 1) + 2 ^ m < 2 ^ (m + 1) := by
      have := Nat.pow_succ (n := 2) (m := m); omega
    have hr : r + 2 ^ m = 2 ^ (m + 1) * (r / 2 ^ (m + 1)) + (r % 2 ^ (m + 1) + 2 ^ m) := by
      have := Nat.div_add_mod r (2 ^ (m + 1)); omega
    rw [hr, Nat.testBit_two_pow_mul_add _ hsum, if_neg (by omega), Nat.testBit_div_two_pow,
      show k - (m + 1) + (m + 1) = k from by omega, decide_eq_false (by omega), Bool.or_false]

/-- The sum of the powers 2^(e i) of the i below n that p holds of. -/
def sumBits (p : Nat → Bool) (e : Nat → Nat) (n : Nat) : Nat :=
  (List.range n).foldl (fun r i => if p i then r + 2 ^ e i else r) 0

/-- With distinct exponents the bits of such a sum are the exponents that were added. -/
theorem testBit_sumBits (p : Nat → Bool) (e : Nat → Nat) (n : Nat) (he : ∀ i < n, ∀ j < n, e i = e j → i = j) (k : Nat) :
    (sumBits p e n).testBit k = true ↔ ∃ i < n, p i = true ∧ e i = k := by
  induction n generalizing k with
  | zero => simp [sumBits]
  | succ n ih =>
    have ih := ih fun i hi j hj => he i (by omega) j (by omega)
    have hstep : sumBits p e (n + 1) = if p n then sumBits p e n + 2 ^ e n else sumBits p e n := by
      simp [sumBits, List.range_succ]
    have hclear : (sumBits p e n).testBit (e n) = false := by
      refine Bool.eq_false_iff.2 fun h => ?_
      obtain ⟨i, hi, -, hie⟩ := (ih _).1 h
      have := he i (by omega) n (by omega) hie
      omega
    have hbit : (sumBits p e (n + 1)).testBit k = true ↔ (sumBits p e n).testBit k = true ∨ (p n = true ∧ e n = k) := by
      rw [hstep]
      cases p n
      · simp
      · simp [testBit_add_two_pow hclear]
    rw [hbit, ih]
    constructor
    · rintro (⟨i, hi, h⟩ | h)
      · exact ⟨i, by omega, h⟩
      · exact ⟨n, by omega, h⟩
    · rintro ⟨i, hi, h⟩
      rcases Nat.lt_succ_iff_lt_or_eq.1 hi with hi | rfl
      · exact .inl ⟨i, hi, h⟩
      · exact .inr h

/-! ## The one-operand operations on one element, and ROTL -/

theorem negEl_eq (b : Bool) (w a : Nat) : negEl b w a =
    if b then sat w (bot w) (top w) (-(sgn w a)) else (wrap w (-(sgn w a)), false) := by
  unfold negEl
  rw [toSigned_eq_sgn, ← clampTo_eq_sat (bot_le_top w)]; rfl

theorem absEl_eq (b : Bool) (w a : Nat) : absEl b w a =
    if b then sat w (bot w) (top w) ((sgn w a).natAbs : Int) else (wrap w ((sgn w a).natAbs : Int), false) := by
  unfold absEl
  rw [toSigned_eq_sgn, ← clampTo_eq_sat (bot_le_top w)]; rfl

/-- The low w - t bits move up by t, and the high t bits come round (R242). -/
theorem testBit_rotlEl {w a k : Nat} (b : Nat) (ha : a < 2 ^ w) (hk : k < w) :
    (rotlEl w a b).testBit k = a.testBit ((k + w - b % w) % w) := by
  have ht : b % w < w := Nat.mod_lt _ (by omega)
  unfold rotlEl
  dsimp only
  generalize b % w = t at ht
  have hpow : 2 ^ w = 2 ^ t * 2 ^ (w - t) := by rw [← Nat.pow_add]; congr 1; omega
  have hhigh : a / 2 ^ (w - t) < 2 ^ t := Nat.div_lt_of_lt_mul (by rw [Nat.mul_comm, ← hpow]; exact ha)
  rw [hpow, Nat.mul_comm a, Nat.mul_mod_mul_left, Nat.testBit_two_pow_mul_add _ hhigh]
  split
  · rw [Nat.testBit_div_two_pow, Nat.mod_eq_of_lt (by omega)]
    congr 1; omega
  · rw [Nat.testBit_mod_two_pow, show k + w - t = k - t + w from by omega, Nat.add_mod_right,
      Nat.mod_eq_of_lt (show k - t < w by omega), decide_eq_true (by omega), Bool.true_and]

theorem popEl_le (w a : Nat) : popEl w a ≤ w :=
  Nat.le_trans (List.length_filter_le _ _) (Nat.le_of_eq List.length_range)

/-- The highest set bit of a nonzero element lies below its leading zeros (R243). -/
theorem clzEl_spec {w a : Nat} (h0 : a ≠ 0) (ha : a < 2 ^ w) :
    clzEl w a < w ∧ 2 ^ (w - 1 - clzEl w a) ≤ a ∧ a < 2 ^ (w - clzEl w a) := by
  have hlog : Nat.log2 a < w := (Nat.log2_lt h0).2 ha
  have hclz : clzEl w a = w - 1 - Nat.log2 a := by simp [clzEl, h0]
  rw [hclz, show w - 1 - (w - 1 - Nat.log2 a) = Nat.log2 a from by omega, show w - (w - 1 - Nat.log2 a) = Nat.log2 a + 1 from by omega]
  exact ⟨by omega, Nat.log2_self_le h0, Nat.lt_log2_self⟩

/-- The lowest set bit of a nonzero element follows its trailing zeros (R243). -/
theorem ctzEl_spec {w a : Nat} (h0 : a ≠ 0) (ha : a < 2 ^ w) :
    ctzEl w a < w ∧ a.testBit (ctzEl w a) = true ∧ ∀ k < ctzEl w a, a.testBit k = false := by
  unfold ctzEl
  cases hf : (List.range w).find? fun i => a.testBit i with
  | none =>
    obtain ⟨i, hi⟩ := Nat.exists_testBit_of_ne_zero h0
    have hiw : i < w := (Nat.pow_lt_pow_iff_right (by omega)).1 (Nat.lt_of_le_of_lt (Nat.ge_two_pow_of_testBit hi) ha)
    exact absurd hi (List.find?_eq_none.1 hf i (List.mem_range.2 hiw))
  | some i =>
    obtain ⟨hi, hmem, hlow⟩ := List.find?_range_eq_some.1 hf
    exact ⟨List.mem_range.1 hmem, hi, fun k hk => by simpa using hlow k hk⟩

theorem ctzEl_zero (w : Nat) : ctzEl w 0 = w := by
  have h : (List.range w).find? (fun i => (0 : Nat).testBit i) = none := List.find?_eq_none.2 fun i _ => by simp
  rw [ctzEl, h]; rfl

theorem testBit_brevEl (w a : Nat) {k : Nat} (hk : k < w) : (brevEl w a).testBit k = a.testBit (w - 1 - k) := by
  have h := testBit_sumBits a.testBit (fun i => w - 1 - i) w (fun i hi j hj e => by omega) k
  refine Bool.eq_iff_iff.2 (h.trans ⟨?_, fun hb => ⟨w - 1 - k, by omega, hb, by omega⟩⟩)
  rintro ⟨i, hi, hb, hik⟩
  rwa [← hik, show w - 1 - (w - 1 - i) = i from by omega]

/-! ## Bit fields -/

theorem testBit_nbits (v lo len k : Nat) : (nbits v lo len).testBit k = (decide (k < len) && v.testBit (lo + k)) := by
  rw [nbits, Nat.testBit_mod_two_pow, Nat.testBit_shiftRight]

/-- The fields of B that hold position and length (R244, R245). -/
theorem nbits_eq (v lo len : Nat) : nbits v lo len = v / 2 ^ lo % 2 ^ len := by
  rw [nbits, Nat.shiftRight_eq_div_pow]

theorem testBit_bfiEl (w a b c k : Nat) : (bfiEl w a b c).testBit k = (decide (k < w) && insertBit w a b c k) := by
  have hsum : bfiEl w a b c = sumBits (insertBit w a b c) id w := by
    simp only [bfiEl, nbits_eq, Nat.pow_zero, Nat.div_one, Nat.reducePow]
    rfl
  have h := testBit_sumBits (insertBit w a b c) id w (fun _ _ _ _ e => e) k
  rw [hsum, Bool.eq_iff_iff, h, Bool.and_eq_true, decide_eq_true_eq]
  exact ⟨fun ⟨i, hi, hb, hik⟩ => hik ▸ ⟨hi, hb⟩, fun ⟨hk, hb⟩ => ⟨k, hk, hb, rfl⟩⟩

/-- A pattern read as a signed integer and written in v bits is its sign extension. -/
theorem testBit_wrap_sgn {w : Nat} (hw : 0 < w) (v a k : Nat) :
    (wrap v (sgn w a)).testBit k = (decide (k < v) && extBit true w a k) := by
  have h := BitVec.getLsbD_signExtend (BitVec.ofNat w a) (v := v) (i := k)
  rw [BitVec.msb_eq_getLsbD_last, BitVec.getLsbD_ofNat, BitVec.getLsbD_ofNat, decide_eq_true (show w - 1 < w by omega)] at h
  rw [sgn_eq_toInt hw, wrap_eq_toNat]
  refine h.trans (congrArg _ ?_)
  simp only [extBit, Bool.true_and]
  split <;> simp [*]

/-- BFX takes the field of the sign extension, and BFXN of the zero extension, and extends it the same way (R244). -/
theorem testBit_bfxEl (g : Bool) {w a b k : Nat} (hw : 0 < w) (hw64 : w ≤ 64) (ha : a < 2 ^ w) (hk : k < w) :
    (bfxEl g w a b).testBit k = fieldBit g w a b k := by
  have hlen : min (b / 256 % 256) w ≤ w := Nat.min_le_right ..
  have hpos : b % 256 < 256 := Nat.mod_lt _ (by omega)
  simp only [bfxEl, fieldBit, nbits_eq b, Nat.pow_zero, Nat.div_one, Nat.reducePow, toSigned_eq_sgn, ofSigned_eq_wrap]
  generalize min (b / 256 % 256) w = len at hlen
  generalize b % 256 = pos at hpos
  split
  · exact Nat.zero_testBit k
  · rename_i hl
    cases g
    · have hzero : ∀ i, a.testBit i = extBit false w a i := fun i => by
        unfold extBit
        split
        · rfl
        · exact Nat.testBit_lt_two_pow (Nat.lt_of_lt_of_le ha (Nat.pow_le_pow_right (by omega) (by omega)))
      simp only [Bool.false_eq_true, if_false, testBit_nbits, hzero, Bool.false_and]
      by_cases h : k < len <;> simp [h]
    · simp only [if_true, testBit_wrap_sgn (Nat.pos_of_ne_zero hl), extBit.eq_1 true len, testBit_nbits, testBit_wrap_sgn hw, hk,
        decide_true, Bool.true_and]
      split
      · rename_i h
        simp [h, show pos + k < 512 by omega]
      · simp [show len - 1 < len by omega, show pos + (len - 1) < 512 by omega, show pos + len - 1 = pos + (len - 1) by omega]

theorem isatEl_eq {form : Nat} (hform : form ≤ 2) (w a b : Nat) : isatEl form w a b =
    if form = 0 then sat w (if min (b % 128) w = 0 then 0 else bot (min (b % 128) w))
      (if min (b % 128) w = 0 then 0 else top (min (b % 128) w)) (sgn w a)
    else sat w 0 (utop (min (b % 128) w)) (if form = 1 then sgn w a else (a : Int)) := by
  simp only [isatEl]
  generalize min (b % 128) w = n
  have hsigned : (if n = 0 then 0 else bot n) ≤ (if n = 0 then 0 else top n) := by
    split
    · exact Int.le_refl 0
    · exact bot_le_top n
  match form, hform with
  | 0, _ => exact clampTo_eq_sat hsigned
  | 1, _ => exact clampTo_eq_sat (zero_le_utop n)
  | 2, _ => exact clampTo_eq_sat (zero_le_utop n)

end Sys2Proof.Proofs
end

section
/-! SUPPORT of the integer and lane statements: element-wise and lane-wise completion; the statement of the integer elements
(R234 to R243). -/

namespace Sys2Proof.Proofs

open Sys2Proof Sys2Proof.Machine Sys2Proof.Claim

/-! ## Results of elements, lane by lane -/

theorem elem_lt (w v j : Nat) : elem w v j < 2 ^ w := Nat.mod_lt _ (Nat.two_pow_pos w)

theorem elem_zero (w v : Nat) : elem w v 0 = v % 2 ^ w := by simp [elem]

theorem elemW_pos (k : Nat) : 0 < elemW k := by
  unfold elemW
  split
  · decide
  · split
    · decide
    · split <;> decide

/-- The modifiers fit their bits. -/
theorem m_lt (x : Form) (lo len : Nat) : x.m lo len < 2 ^ len := (x.mod.extractLsb' lo len).isLt

/-- The elements fill the registers of an operand (R233). -/
theorem elemW_mul_elemE (x : Form) : elemW (x.m 4 2) * elemE (x.m 4 2) = 32 * x.wregs := by
  unfold Form.wregs
  match x.m 4 2, m_lt x 4 2 with
  | 0, _ | 1, _ | 2, _ | 3, _ => rfl

/-- Below the packed types an operand is one element. -/
theorem elemE_of_le_one {k : Nat} (h : k ≤ 1) : elemE k = 1 :=
  match k, h with
  | 0, _ | 1, _ => rfl

theorem elemW_of_le_one {k : Nat} (h : k ≤ 1) : elemW k = 32 ∨ elemW k = 64 :=
  match k, h with
  | 0, _ => .inl rfl
  | 1, _ => .inr rfl

@[simp] theorem length_natWords (n v : Nat) : (natWords n v).length = n := by
  induction n generalizing v with
  | zero => rfl
  | succ n ih => rw [natWords, List.length_cons, ih]

/-- An element-wise function gives its result on every element, reduced to the element width, and saturates when some element
does. -/
theorem elemRes_spec (i : Instr) (x : Form) (s : State) (f : Nat → Nat → Nat → Nat × Bool) (l : Nat) :
    let w := elemW (x.m 4 2)
    let r := elemRes i x s f l
    let el := fun j => f w (elem w (src i x s 3 l) j) (elem w (src i x s 4 l) j)
    r.1 < 2 ^ (32 * x.wregs) ∧ (∀ j < elemE (x.m 4 2), elem w r.1 j = (el j).1 % 2 ^ w) ∧
      (r.2 = true ↔ ∃ j < elemE (x.m 4 2), (el j).2 = true) := by
  intro w r el
  let rs := List.zipWith (f w) (elems w (elemE (x.m 4 2)) (src i x s 3 l)) (elems w (elemE (x.m 4 2)) (src i x s 4 l))
  have hlen : rs.length = elemE (x.m 4 2) := by simp [rs, length_elems]
  have hget : ∀ j (hj : j < rs.length), rs[j] = el j := fun j hj => by
    have hj' := hlen ▸ hj
    simp only [rs, List.getElem_zipWith, el, ← getD_elems _ _ _ _ hj']
    simp [length_elems, hj']
  have hr : r = (joinEl w (rs.map (·.1)), rs.any (·.2)) := rfl
  refine ⟨?_, fun j hj => ?_, ?_⟩
  · have := joinEl_lt w (rs.map (·.1))
    rwa [List.length_map, hlen, elemW_mul_elemE] at this
  · rw [hr, elem_joinEl _ _ _ (by rwa [List.length_map, hlen]), ← hget j (hlen ▸ hj)]
    simp [hlen, hj]
  · rw [hr, List.any_eq_true]
    constructor
    · rintro ⟨e, he, h⟩
      obtain ⟨j, hj, rfl⟩ := List.getElem_of_mem he
      exact ⟨j, hlen ▸ hj, hget j hj ▸ h⟩
    · rintro ⟨j, hj, h⟩
      exact ⟨rs[j], List.getElem_mem _, by rw [hget]; exact h⟩

/-- A function of A alone is one that ignores B. -/
theorem elemRes1_eq (i : Instr) (x : Form) (s : State) (f : Nat → Nat → Nat × Bool) (l : Nat) :
    elemRes1 i x s f l = elemRes i x s (fun w a _ => f w a) l := by
  have h : ∀ (g : Nat → Nat × Bool) (as bs : List Nat), as.length = bs.length → as.map g = List.zipWith (fun a _ => g a) as bs := by
    intro g as
    induction as with
    | nil => intro bs _; rfl
    | cons a as ih =>
      intro bs hl
      cases bs with
      | nil => simp at hl
      | cons b bs => simp [ih bs (by simpa using hl)]
  simp only [elemRes1, elemRes]
  rw [h _ _ (elems (elemW (x.m 4 2)) (elemE (x.m 4 2)) (srcNo i x s 4 l).n) (by simp [length_elems])]

/-! ## Completion of the lane-wise instructions -/

/-- A lane-wise integer instruction completes with its numbers, and SAT follows the active lanes (R234, R79). -/
theorem intNext_completes {i : Instr} {x : Form} {n : Nat} {s : State} (f : Nat → Nat × Bool) (hr : Runs i x s) (hf : Fits i x n) :
    ∃ t, Completes i x n s t (fun l => { w := natWords n (f l).1, p := poisonedIn i x s l }) ∧
      run i x s (intNext i x s n f) = .next (stickyIf ((lanesOf (actMask s x)).any fun l => (f l).2) 0 t) :=
  ⟨_, fixed_completes hf fun _ => length_natWords _ _, run_of_runs _ hr⟩

/-- One that clamps nothing leaves SAT alone. -/
theorem intNext_completes_of_no_sat {i : Instr} {x : Form} {n : Nat} {s : State} {f : Nat → Nat × Bool} (hsat : ∀ l, (f l).2 = false)
    (hr : Runs i x s) (hf : Fits i x n) :
    ∃ t, Completes i x n s t (fun l => { w := natWords n (f l).1, p := poisonedIn i x s l }) ∧
      run i x s (intNext i x s n f) = .next t := by
  obtain ⟨t, hc, he⟩ := intNext_completes f hr hf
  have hany : ((lanesOf (actMask s x)).any fun l => (f l).2) = false := by simp [hsat]
  rw [hany] at he
  exact ⟨t, hc, he⟩

/-- An element-wise instruction completes with a result that stands in R to the operands, element by element. -/
theorem elemRes_completes {i : Instr} {x : Form} {s : State} {g : Nat → Nat → Nat → Nat × Bool}
    {R : Nat → Nat → Nat → Nat → Bool → Prop} (he : exec i s = run i x s (intNext i x s x.wregs (elemRes i x s g)))
    (hg : ∀ w a b, 0 < w → a < 2 ^ w → b < 2 ^ w → R w a b ((g w a b).1 % 2 ^ w) (g w a b).2) (hr : Runs i x s)
    (hf : Fits i x x.wregs) :
    ∃ r : Nat → Nat × Bool, (∀ l, (r l).1 < 2 ^ (32 * x.wregs)) ∧
      (∀ l, ∃ c : Nat → Bool, ((r l).2 = true ↔ ∃ j < elemE (x.m 4 2), c j = true) ∧ ∀ j < elemE (x.m 4 2),
        R (elemW (x.m 4 2)) (elem (elemW (x.m 4 2)) (src i x s 3 l) j) (elem (elemW (x.m 4 2)) (src i x s 4 l) j)
          (elem (elemW (x.m 4 2)) (r l).1 j) (c j)) ∧
      ∃ t, Completes i x x.wregs s t (fun l => { w := natWords x.wregs (r l).1, p := poisonedIn i x s l }) ∧
        exec i s = .next (stickyIf ((lanesOf (actMask s x)).any fun l => (r l).2) 0 t) := by
  refine ⟨elemRes i x s g, fun l => (elemRes_spec i x s g l).1, fun l => ?_, he ▸ intNext_completes _ hr hf⟩
  obtain ⟨-, hel, hsat⟩ := elemRes_spec i x s g l
  refine ⟨_, hsat, fun j hj => ?_⟩
  rw [hel j hj]
  exact hg _ _ _ (elemW_pos _) (elem_lt ..) (elem_lt ..)

/-! ## What each instruction computes on an element -/

/-- The machine's function of two elements is the exact one, which fits the width. -/
def IsExactly (g f : Nat → Nat → Nat → Nat × Bool) : Prop :=
  ∀ w a b, 0 < w → a < 2 ^ w → b < 2 ^ w → g w a b = f w a b ∧ (f w a b).1 < 2 ^ w

/-- Without clamping it is enough to compare the results. -/
theorem isExactly_of_eq {g f : Nat → Nat → Nat → Nat}
    (h : ∀ w a b, 0 < w → a < 2 ^ w → b < 2 ^ w → g w a b = f w a b ∧ f w a b < 2 ^ w) :
    IsExactly (fun w a b => (g w a b, false)) (fun w a b => (f w a b, false)) := fun w a b hw ha hb =>
  ⟨congrArg (·, false) (h w a b hw ha hb).1, (h w a b hw ha hb).2⟩

/-- The two-operand instructions are the element-wise ones of the machine, and compute what the statement says. -/
theorem exec_elem2 {i : Instr} {x : Form} {f : Nat → Nat → Nat → Nat × Bool} (h : elem2 i = some (x, f)) (s : State) :
    ∃ g, exec i s = intBin i x s g ∧ IsExactly g f := by
  cases i <;> cases h
  case iadd => exact ⟨_, rfl, fun w a b _ _ _ => ⟨addSub_eq_three .., three_lt ..⟩⟩
  case isub => exact ⟨_, rfl, fun w a b _ _ _ => ⟨addSub_eq_three .., three_lt ..⟩⟩
  case imul => exact ⟨_, rfl, isExactly_of_eq fun w a b _ _ _ => ⟨mulLow_eq_wrap .., wrap_lt ..⟩⟩
  case imulh => exact ⟨_, rfl, isExactly_of_eq fun w a b _ _ _ => ⟨wrap_double_div .., wrap_lt ..⟩⟩
  case imulhn => exact ⟨_, rfl, isExactly_of_eq fun w a b _ ha hb => ⟨rfl, mulHighN_lt ha hb⟩⟩
  case imin => exact ⟨_, rfl, isExactly_of_eq fun w a b _ ha hb => ⟨minmaxS_eq ha hb, wrap_lt ..⟩⟩
  case imax => exact ⟨_, rfl, isExactly_of_eq fun w a b _ ha hb => ⟨minmaxS_eq ha hb, wrap_lt ..⟩⟩
  case iminn => exact ⟨_, rfl, isExactly_of_eq fun w a b _ ha _ => ⟨rfl, Nat.lt_of_le_of_lt (Nat.min_le_left a b) ha⟩⟩
  case imaxn => exact ⟨_, rfl, isExactly_of_eq fun w a b _ ha hb => ⟨rfl, Nat.max_lt.2 ⟨ha, hb⟩⟩⟩
  case and => exact ⟨_, rfl, isExactly_of_eq fun w a b _ _ hb => ⟨rfl, Nat.and_lt_two_pow _ hb⟩⟩
  case or => exact ⟨_, rfl, isExactly_of_eq fun w a b _ ha hb => ⟨rfl, Nat.or_lt_two_pow ha hb⟩⟩
  case xor => exact ⟨_, rfl, isExactly_of_eq fun w a b _ ha hb => ⟨rfl, Nat.xor_lt_two_pow ha hb⟩⟩
  case andn => exact ⟨_, rfl, isExactly_of_eq fun w a b _ _ _ => ⟨rfl, Nat.and_lt_two_pow _ (by have := Nat.two_pow_pos w; omega)⟩⟩
  case shl => exact ⟨_, rfl, isExactly_of_eq fun w a b _ _ _ => ⟨rfl, shlEl_lt ..⟩⟩
  case shrl => exact ⟨_, rfl, isExactly_of_eq fun w a b _ ha _ => ⟨rfl, shrlEl_lt _ ha⟩⟩
  case shra => exact ⟨_, rfl, isExactly_of_eq fun w a b hw _ _ => ⟨shraEl_eq hw .., wrap_lt ..⟩⟩

/-- The one-operand instructions, and ROTL, leave on each element what the statement says. -/
theorem exec_elem1 {i : Instr} {x : Form} {R : Nat → Nat → Nat → Nat → Bool → Prop} (h : elem1 i = some (x, R)) (s : State) :
    ∃ g, exec i s = run i x s (intNext i x s x.wregs (elemRes i x s g)) ∧
      ∀ w a b, 0 < w → a < 2 ^ w → b < 2 ^ w → R w a b ((g w a b).1 % 2 ^ w) (g w a b).2 := by
  have hun : ∀ f, intUn i x s f = run i x s (intNext i x s x.wregs (elemRes i x s fun w a _ => f w a)) := fun f =>
    congrArg (fun r => run i x s (intNext i x s x.wregs r)) (funext (elemRes1_eq i x s f))
  have hsmall : ∀ {n w : Nat}, n ≤ w → n % 2 ^ w = n := fun hn => Nat.mod_eq_of_lt (Nat.lt_of_le_of_lt hn Nat.lt_two_pow_self)
  cases i <;> cases h
  case ineg =>
    refine ⟨_, hun _, fun w a b _ _ _ => ?_⟩
    simp only [negEl_eq, decide_eq_true_eq]
    split
    · rw [Nat.mod_eq_of_lt (sat_lt ..)]
    · exact ⟨Nat.mod_eq_of_lt (wrap_lt ..), rfl⟩
  case iabs =>
    refine ⟨_, hun _, fun w a b _ _ _ => ?_⟩
    simp only [absEl_eq, decide_eq_true_eq]
    split
    · rw [Nat.mod_eq_of_lt (sat_lt ..)]
    · exact ⟨Nat.mod_eq_of_lt (wrap_lt w ((sgn w a).natAbs : Int)), rfl⟩
  case rotl =>
    refine ⟨_, rfl, fun w a b _ ha _ => ⟨fun k hk => ?_, rfl⟩⟩
    rw [Nat.testBit_mod_two_pow, decide_eq_true hk, Bool.true_and, testBit_rotlEl b ha hk]
  case popc => exact ⟨_, hun _, fun w a b _ _ _ => ⟨hsmall (popEl_le w a), rfl⟩⟩
  case clz =>
    refine ⟨_, hun _, fun w a b _ ha _ => ⟨?_, rfl⟩⟩
    split
    · rename_i h0; subst h0; exact hsmall (Nat.le_refl _)
    · rename_i h0
      have hspec := clzEl_spec h0 ha
      rwa [hsmall (Nat.le_of_lt hspec.1)]
  case ctz =>
    refine ⟨_, hun _, fun w a b _ ha _ => ⟨?_, rfl⟩⟩
    split
    · rename_i h0; subst h0; rw [ctzEl_zero]; exact hsmall (Nat.le_refl _)
    · rename_i h0
      obtain ⟨hlt, hbits⟩ := ctzEl_spec h0 ha
      rwa [hsmall (Nat.le_of_lt hlt)]
  case brev =>
    refine ⟨_, hun _, fun w a b _ _ _ => ⟨fun k hk => ?_, rfl⟩⟩
    rw [Nat.testBit_mod_two_pow, decide_eq_true hk, Bool.true_and, testBit_brevEl w a hk]

/-- Settles O1: each instruction is the element-wise form of one function of two elements, and that function is the exact
one. -/
theorem integerElements : Obligations.IntegerElements := by
  unfold Obligations.IntegerElements
  constructor
  · intro i x f s hi hr hf
    obtain ⟨g, he, hg⟩ := exec_elem2 hi s
    obtain ⟨r, hlt, hel, hdone⟩ := elemRes_completes (R := fun w a b r c => f w a b = (r, c)) he
      (fun w a b hw ha hb => by
        obtain ⟨heq, hfit⟩ := hg w a b hw ha hb
        rw [heq, Nat.mod_eq_of_lt hfit]) hr hf
    refine ⟨r, hlt, fun l j hj => ?_, fun l => ?_, hdone⟩
    · obtain ⟨c, -, hc⟩ := hel l
      rw [hc j hj]
    · obtain ⟨c, hsat, hc⟩ := hel l
      rw [hsat]
      exact exists_congr fun j => and_congr_right fun hj => by rw [hc j hj]
  · intro i x R s hi hr hf
    obtain ⟨g, he, hg⟩ := exec_elem1 hi s
    exact elemRes_completes he hg hr hf

end Sys2Proof.Proofs
end

section
/-! The statement of fields, clamps, selects and moves (R237, R244 to R251, R198). -/

namespace Sys2Proof.Proofs

open Sys2Proof Sys2Proof.Machine Sys2Proof.Claim

/-- An instruction whose result is a number of each lane, with nothing clamped, completes with it. -/
theorem laneNumber_completes {i : Instr} {x : Form} {n : Nat} {s : State} {f : Nat → Nat}
    (he : exec i s = intLane i x s n fun l => (f l, false)) (hr : Runs i x s) (hf : Fits i x n) :
    ∃ t, Completes i x n s t (fun l => { w := natWords n (f l), p := poisonedIn i x s l }) ∧ exec i s = .next t :=
  he ▸ intNext_completes_of_no_sat (f := fun l => (f l, false)) (fun _ => rfl) hr hf

/-- The same with the result as the value that it is in each lane. -/
theorem laneValue_completes {i : Instr} {x : Form} {n : Nat} {s : State} {f : Nat → Nat} {g : Nat → Val}
    (he : exec i s = intLane i x s n fun l => (f l, false)) (hg : ∀ l, { w := natWords n (f l), p := poisonedIn i x s l } = g l)
    (hr : Runs i x s) (hf : Fits i x n) : ∃ t, exec i s = .next t ∧ Completes i x n s t g := by
  obtain ⟨t, hc, ht⟩ := laneNumber_completes he hr hf
  exact ⟨t, ht, funext hg ▸ hc⟩

/-- Each element of IMAD is the product plus the addend, reduced once (R237). -/
theorem elem_imadRes (x : Form) (s : State) (l : Nat) {j : Nat} (hj : j < elemE (x.m 4 2)) :
    let w := elemW (x.m 4 2)
    let el := fun no => sgn w (elem w (src (.imad x) x s no l) j)
    elem w (imadRes x s l).1 j = wrap w (el 3 * el 4 + el 5) := by
  intro w el
  have hsum : elem w (imadRes x s l).1 j = (mulLow w (elem w (src (.imad x) x s 3 l) j) (elem w (src (.imad x) x s 4 l) j) +
      elem w (src (.imad x) x s 5 l) j) % 2 ^ w := by
    simp only [imadRes]
    rw [elem_joinEl _ _ _ (by simpa [length_elems] using hj), ← getD_elems _ _ _ _ hj, ← getD_elems _ _ _ _ hj,
      ← getD_elems _ _ _ _ hj]
    simp [length_elems, hj, src, w]
  rw [hsum, mulLow_eq_wrap, ← wrap_natCast, Int.natCast_add, natCast_wrap]
  refine wrap_congr ?_
  rw [Int.emod_add_emod, Int.add_emod, ← sgn_emod w (elem w _ j), ← Int.add_emod]

/-- An operand of 32 or 64 bits is one element, and so is its result. -/
theorem elemRes_of_le_one {i : Instr} {x : Form} {s : State} {f : Nat → Nat → Nat → Nat × Bool} (h : x.m 4 2 ≤ 1) (l : Nat) :
    let w := elemW (x.m 4 2)
    (elemRes i x s f l).1 = (f w (src i x s 3 l % 2 ^ w) (src i x s 4 l % 2 ^ w)).1 % 2 ^ w := by
  intro w
  obtain ⟨hlt, hel, -⟩ := elemRes_spec i x s f l
  rw [← elemW_mul_elemE, elemE_of_le_one h, Nat.mul_one] at hlt
  have := hel 0 (by rw [elemE_of_le_one h]; omega)
  simpa only [elem_zero, Nat.mod_eq_of_lt hlt] using this

/-- Position and length stand in the 16 low bits of B (R244). -/
theorem fieldBit_mod (g : Bool) {w v : Nat} (hv : 16 ≤ v) (a b k : Nat) : fieldBit g w a (b % 2 ^ v) k = fieldBit g w a b k := by
  have hlow : b % 2 ^ v % 256 = b % 256 := Nat.mod_mod_of_dvd b (Nat.pow_dvd_pow 2 (show 8 ≤ v by omega))
  have hlen : b % 2 ^ v / 256 % 256 = b / 256 % 256 := by
    have := Nat.mod_mod_of_dvd b (Nat.pow_dvd_pow 2 hv)
    omega
  unfold fieldBit
  rw [hlow, hlen]

/-- BFX and BFXN extract one field in each lane (R244). -/
theorem bitField_completes {i : Instr} {x : Form} {s : State} (g : Bool)
    (he : exec i s = intBin i x s fun w a b => (bfxEl g w a b, false)) (hm : x.m 4 2 ≤ 1) (hr : Runs i x s) (hf : Fits i x x.wregs) :
    ∃ r : Nat → Nat, (∀ l, r l < 2 ^ elemW (x.m 4 2) ∧ ∀ k < elemW (x.m 4 2), (r l).testBit k =
        fieldBit g (elemW (x.m 4 2)) (src i x s 3 l % 2 ^ elemW (x.m 4 2)) (src i x s 4 l) k) ∧
      ∃ t, Completes i x x.wregs s t (fun l => { w := natWords x.wregs (r l), p := poisonedIn i x s l }) ∧ exec i s = .next t := by
  have hw : 16 ≤ elemW (x.m 4 2) ∧ elemW (x.m 4 2) ≤ 64 := by rcases elemW_of_le_one hm with h | h <;> omega
  refine ⟨fun l => (elemRes i x s (fun w a b => (bfxEl g w a b, false)) l).1, fun l => ?_,
    he ▸ intNext_completes_of_no_sat (fun l => ?_) hr hf⟩
  · simp only [elemRes_of_le_one hm]
    refine ⟨Nat.mod_lt _ (Nat.two_pow_pos _), fun k hk => ?_⟩
    rw [Nat.testBit_mod_two_pow, decide_eq_true hk, Bool.true_and,
      testBit_bfxEl g (by omega) hw.2 (Nat.mod_lt _ (Nat.two_pow_pos _)) hk, fieldBit_mod g hw.1]
  · obtain ⟨-, -, hsat⟩ := elemRes_spec i x s (fun w a b => (bfxEl g w a b, false)) l
    exact Bool.eq_false_iff.2 fun h => by simpa using hsat.1 h

/-- BFI (R245). -/
theorem bitInsert_completes {x : Form} {s : State} (hr : Runs (.bfi x) x s) (hf : Fits (.bfi x) x x.wregs) :
    ∃ r : Nat → Nat, (∀ l, r l < 2 ^ elemW (x.m 4 2) ∧ ∀ k < elemW (x.m 4 2), (r l).testBit k =
        insertBit (elemW (x.m 4 2)) (src (.bfi x) x s 3 l) (src (.bfi x) x s 4 l) (src (.bfi x) x s 5 l) k) ∧
      ∃ t, Completes (.bfi x) x x.wregs s t (fun l => { w := natWords x.wregs (r l), p := poisonedIn (.bfi x) x s l }) ∧
        exec (.bfi x) s = .next t := by
  refine ⟨fun l => bfiEl (elemW (x.m 4 2)) (src (.bfi x) x s 3 l) (src (.bfi x) x s 4 l) (src (.bfi x) x s 5 l),
    fun l => ⟨?_, fun k hk => ?_⟩, laneNumber_completes rfl hr hf⟩
  · exact Nat.lt_pow_two_of_testBit _ fun k hk => by rw [testBit_bfiEl, decide_eq_false (by omega), Bool.false_and]
  · rw [testBit_bfiEl, decide_eq_true hk, Bool.true_and]

/-- ISAT clamps each element to the range that B names for all of them (R246). -/
theorem isat_completes {x : Form} {s : State} (hm : x.m 0 2 ≤ 2) (hr : Runs (.isat x) x s) (hf : Fits (.isat x) x x.wregs) :
    ∃ r : Nat → Nat × Bool,
      (∀ l, ∃ c : Nat → Bool, ((r l).2 = true ↔ ∃ j < elemE (x.m 4 2), c j = true) ∧ ∀ j < elemE (x.m 4 2),
        let w := elemW (x.m 4 2)
        let n := min (src (.isat x) x s 4 l % 128) w
        let a := elem w (src (.isat x) x s 3 l) j
        (elem w (r l).1 j, c j) =
          if x.m 0 2 = 0 then sat w (if n = 0 then 0 else bot n) (if n = 0 then 0 else top n) (sgn w a)
          else sat w 0 (utop n) (if x.m 0 2 = 1 then sgn w a else (a : Int))) ∧
      ∃ t, Completes (.isat x) x x.wregs s t (fun l => { w := natWords x.wregs (r l).1, p := poisonedIn (.isat x) x s l }) ∧
        exec (.isat x) s = .next (stickyIf ((lanesOf (actMask s x)).any fun l => (r l).2) 0 t) := by
  refine ⟨_, fun l => ?_, intNext_completes _ hr hf⟩
  simp only [elemRes1_eq]
  obtain ⟨-, hel, hsat⟩ := elemRes_spec (.isat x) x s (fun w a _ => isatEl (x.m 0 2) w a (src (.isat x) x s 4 l)) l
  refine ⟨_, hsat, fun j hj => ?_⟩
  have hfit : ∀ w a b, (isatEl (x.m 0 2) w a b).1 < 2 ^ w := fun w a b => by
    rw [isatEl_eq hm]
    split
    · exact sat_lt ..
    · exact sat_lt ..
  refine Eq.trans ?_ (isatEl_eq hm ..)
  exact congrArg (·, _) ((hel j hj).trans (Nat.mod_eq_of_lt (hfit ..)))

/-- The constant of LDI: four bits of MOD above IMM (R198). -/
theorem ldi_constant (x : Form) : natWords 1 (x.m 0 4 * 2 ^ 28 + x.imm.toNat) = [x.mod.extractLsb' 0 4 ++ x.imm] := by
  have h := x.imm.isLt
  refine congrArg (fun v : Word => [v]) (BitVec.eq_of_toNat_eq ?_)
  rw [BitVec.toNat_ofNat, BitVec.toNat_append, Form.m, ← Nat.shiftLeft_add_eq_or_of_lt h, Nat.shiftLeft_eq]
  have := (x.mod.extractLsb' 0 4).isLt
  omega

/-- Settles O3: the element-wise ones from the elements of their results, the others lane by lane. -/
theorem fieldsClampsSelectsAndMoves : Obligations.FieldsClampsSelectsAndMoves := by
  unfold Obligations.FieldsClampsSelectsAndMoves
  refine ⟨⟨?imad, ?bitField, fun x s _ => bitInsert_completes, fun x s => isat_completes⟩, ?sel, ?mov, ?ldi, ?lea⟩
  case imad =>
    intro x s hr hf
    exact ⟨fun l => (imadRes x s l).1, fun l j hj => elem_imadRes x s l hj, laneNumber_completes rfl hr hf⟩
  case bitField =>
    rintro i x g s (⟨rfl, rfl⟩ | ⟨rfl, rfl⟩)
    · exact bitField_completes true rfl
    · exact bitField_completes false rfl
  case sel =>
    exact fun x s => laneValue_completes rfl fun l => by rw [ite_not]; rfl
  case mov =>
    exact fun x s => laneValue_completes rfl fun l => rfl
  case ldi =>
    exact fun x s => laneValue_completes rfl fun l => by rw [ldi_constant]; rfl
  case lea =>
    exact fun x s => laneValue_completes rfl fun l => rfl

end Sys2Proof.Proofs
end

section
/-! The statements of the cross-lane instructions (R252 to R258). -/

namespace Sys2Proof.Proofs

open Sys2Proof Sys2Proof.Machine Sys2Proof.Claim

/-- A fixed-latency instruction that runs completes with the values that its lanes are given. -/
theorem runFixed_completes {i : Instr} {x : Form} {n : Nat} {s : State} {f g : Nat → Val} (he : exec i s = run i x s (fixed i x n s f))
    (hw : ∀ l, (f l).w.length = n) (hg : ∀ l, f l = g l) (hr : Runs i x s) (hf : Fits i x n) :
    ∃ t, exec i s = .next t ∧ Completes i x n s t g :=
  ⟨_, he.trans (run_of_runs _ hr), funext hg ▸ fixed_completes hf hw⟩

theorem getLsbD_maskOf_filter (m : BitVec 32) (p : Nat → Bool) (l : Nat) :
    (maskOf ((lanesOf m).filter p)).getLsbD l = true ↔ l ∈ lanesOf m ∧ p l = true := by
  have h := mem_lanesOf_maskOf ((lanesOf m).filter p) l
  rw [mem_lanesOf, List.mem_filter] at h
  exact ⟨fun hl => (h.1 ⟨BitVec.lt_of_getLsbD hl, hl⟩).2, fun hl => (h.2 ⟨(mem_lanesOf.1 hl.1).1, hl⟩).2⟩

/-! ## SHFL -/

theorem laneA_eq (i : Instr) (x : Form) (s : State) (k : Nat) :
    laneA i x s k = if k ∈ lanesOf (actMask s x) then (src i x s 3 k, (srcNo i x s 3 k).p) else (0, false) := by
  have h : k ∈ lanesOf (actMask s x) ↔ (actMask s x).getLsbD k = true :=
    mem_lanesOf.trans ⟨And.right, fun hk => ⟨BitVec.lt_of_getLsbD hk, hk⟩⟩
  simp only [laneA, h, src]

/-- The machine's source lane is the one of R254. -/
theorem shflFrom_eq (x : Form) (l b : Nat) : shflFrom x l b = shflLane (x.m 0 2) (32 / 2 ^ x.m 2 2) l b := by
  have hseg : 32 >>> x.m 2 2 = 32 / 2 ^ x.m 2 2 := Nat.shiftRight_eq_div_pow ..
  have hbase : ∀ seg, l - l % seg = l / seg * seg := fun seg => by
    have := Nat.div_add_mod' l seg; omega
  simp only [shflFrom, shflLane, hseg, hbase]
  match x.m 0 2, m_lt x 0 2 with
  | 0, _ | 1, _ | 2, _ | 3, _ => rfl

/-- Settles O11: both name the same source lane, and a lane that is not active delivers 0. -/
theorem shuffleDelivers : Obligations.ShuffleDelivers := by
  unfold Obligations.ShuffleDelivers
  refine fun x s => runFixed_completes rfl (fun l => length_natWords _ _) fun l => ?_
  simp only [src, shflFrom_eq]
  cases shflLane (x.m 0 2) (32 / 2 ^ x.m 2 2) l (srcNo (.shfl x) x s 4 l).n with
  | none => simp
  | some k =>
    simp only [laneA_eq, src]
    split
    · rfl
    · simp

/-! ## REDUX, SCAN, VOTE and MATCH -/

theorem combOp_eq : ∀ op w, combOp op w = comb op w
  | 0, _ | 1, _ | 2, _ | 3, _ | 4, _ | 5, _ | 6, _ | _ + 7, _ => rfl

theorem combId_eq (op w : Nat) : combId op w = Claim.unit op w := rfl

/-- Lanes combine in their order, from the identity (R256). -/
theorem combine_eq (i : Instr) (x : Form) (s : State) (ls : List Nat) : combine i x s ls =
    (ls.map fun k => src i x s 3 k).foldl (comb (x.m 0 3) (elemW (x.m 4 2))) (Claim.unit (x.m 0 3) (elemW (x.m 4 2))) := by
  simp only [combine, List.foldl_map, combOp_eq, combId_eq, src]

/-- SCAN covers the lanes below, and its own lane in the inclusive form (R257). -/
theorem scanLanes_eq (x : Form) (s : State) (l : Nat) :
    scanLanes x s l = (lanesOf (actMask s x)).filter fun k => decide (k < l) || (k = l && x.m 3 1 = 0) := by
  refine List.filter_congr fun k _ => ?_
  match x.m 3 1, m_lt x 3 1 with
  | 0, _ => simp [Nat.le_iff_lt_or_eq]
  | 1, _ => simp

/-- No more lanes are true than a wattle has, so their number fits a word. -/
theorem toNat_ofNat_trueLanes (x : Form) (s : State) : (BitVec.ofNat 32 (trueLanes x s).length).toNat = (trueLanes x s).length := by
  have h1 : (trueLanes x s).length ≤ (lanesOf (actMask s x)).length := List.length_filter_le _ _
  have h2 : (lanesOf (actMask s x)).length ≤ 32 := Nat.le_trans (List.length_filter_le _ _) (Nat.le_of_eq List.length_range)
  rw [BitVec.toNat_ofNat, Nat.mod_eq_of_lt (by omega)]

theorem redux_completes (x : Form) (s : State) (hr : Runs (.redux x) x s) (hf : Fits (.redux x) x x.wregs) :
    ∃ t, exec (.redux x) s = .next t ∧ Completes (.redux x) x x.wregs s t fun _ =>
      { w := natWords x.wregs (((lanesOf (actMask s x)).map fun k => src (.redux x) x s 3 k).foldl (comb (x.m 0 3) (elemW (x.m 4 2)))
          (Claim.unit (x.m 0 3) (elemW (x.m 4 2))))
        p := (lanesOf (actMask s x)).any fun k => (srcNo (.redux x) x s 3 k).p } :=
  runFixed_completes rfl (fun _ => length_natWords _ _) (fun _ => by rw [combine_eq]; rfl) hr hf

theorem scan_completes (x : Form) (s : State) (hr : Runs (.scan x) x s) (hf : Fits (.scan x) x x.wregs) :
    ∃ t, exec (.scan x) s = .next t ∧ Completes (.scan x) x x.wregs s t fun l =>
      let ks := (lanesOf (actMask s x)).filter fun k => decide (k < l) || (k = l && x.m 3 1 = 0)
      { w := natWords x.wregs ((ks.map fun k => src (.scan x) x s 3 k).foldl (comb (x.m 0 3) (elemW (x.m 4 2)))
          (Claim.unit (x.m 0 3) (elemW (x.m 4 2))))
        p := ks.any fun k => (srcNo (.scan x) x s 3 k).p } :=
  runFixed_completes rfl (fun _ => length_natWords _ _) (fun l => by rw [combine_eq, scanLanes_eq]) hr hf

/-- VOTE with a register destination: the word that the machine forms of the true lanes (R255). -/
theorem voteWord_completes {x : Form} {s : State} (hm : 3 ≤ x.m 0 3) (hr : Runs (.vote x) x s) (hf : Fits (.vote x) x 1) :
    ∃ t, exec (.vote x) s = .next t ∧ Completes (.vote x) x 1 s t fun _ =>
      { w := [if x.m 0 3 = 3 then maskOf (trueLanes x s) else BitVec.ofNat 32 (trueLanes x s).length]
        p := (lanesOf (actMask s x)).any fun k => (srcNo (.vote x) x s 3 k).p } := by
  have he : exec (.vote x) s = execVote x s := rfl
  rw [execVote, if_neg (by omega)] at he
  exact runFixed_completes he (fun _ => rfl) (fun _ => rfl) hr hf

/-- Settles O12: the machine combines the lanes with the operations and identities of the statement, over the same lanes in
the same order; its masks and counts are of the lanes that the statement names. -/
theorem crossLaneResults : Obligations.CrossLaneResults := by
  unfold Obligations.CrossLaneResults
  refine ⟨redux_completes, scan_completes, ?vote, ?matchL⟩
  case vote =>
    intro x s hm _ hr hf
    obtain ⟨t, he, hc⟩ := voteWord_completes hm hr hf
    refine ⟨t, he, _, hc, fun h3 l => ?_, fun h4 => ?_⟩
    · rw [if_pos h3]
      exact getLsbD_maskOf_filter ..
    · rw [if_neg (by omega)]
      exact toNat_ofNat_trueLanes x s
  case matchL =>
    intro x s hr hf
    obtain ⟨t, he, hc⟩ := runFixed_completes (i := .matchL x) rfl (fun _ => rfl) (fun _ => rfl) hr hf
    refine ⟨t, he, _, fun l k => ?_, hc⟩
    exact (getLsbD_maskOf_filter ..).trans (and_congr_right fun _ => decide_eq_true_iff)

end Sys2Proof.Proofs
end
